-- ==== Sys2Proof/Word.lean ====
section
/-!
DEFINITION. The word types of the display controller (spec 00_scope.md R17): every register value and CSR
datum is an unsigned 32-bit word, a buffer cell is a byte, and an operation word has 16 bits.
-/

namespace Sys2Proof

/-- A buffer byte, `u8`. -/
abbrev Byte := BitVec 8

/-- A register value or CSR datum, `u32` (R17). -/
abbrev Word := BitVec 32

/-- An operation word of the operation alphabet (R109, R114): always 16 bits. -/
abbrev OpWord := BitVec 16

/-- A colour channel operand of FB_SETCOLREG, `u16` (R345). -/
abbrev Channel := BitVec 16

/-- `zext_N` of R17. -/
abbrev zext {w : Nat} (n : Nat) (v : BitVec w) : BitVec n := v.setWidth n

/-- A one-bit flag as a 32-bit word holding it in bit `i`. -/
abbrev bitAt (i : Nat) (b : Bool) : Word := if b then BitVec.ofNat 32 (2 ^ i) else 0

end Sys2Proof
end

