-- ==== Sys2Proof/Config.lean ====
section
/-!
DEFINITION. What an implementation fixes: the constants of 00_scope.md R6 to R8, the parameters of R9 to R13
(a record that `State` carries unchanged, so that a statement about every state is a statement about every
parameter value), and the free values of the model, which are opaque constants without a body.
-/

namespace Sys2Proof

/-- `H_ACTIVE` of R6. -/
abbrev hActive : Nat := 640
/-- `V_ACTIVE` of R6. -/
abbrev vActive : Nat := 480
/-- `BPP` of R6. -/
abbrev bitsPerPixelOnly : Nat := 32
/-- `BYTES_PER_PIXEL` of R6. -/
abbrev bytesPerPixel : Nat := 4
/-- `FB_SIZE` of R6: 640 × 480 × 4 = 0x12C000 bytes. -/
abbrev fbSize : Nat := 1228800
/-- `VBLANK_ROWS` of R7. -/
abbrev vblankRows : Nat := 45
/-- `HBLANK_COLS` of R7. -/
abbrev hblankCols : Nat := 160
/-- `VSYNC_FIRST` of R7. -/
abbrev vsyncFirst : Nat := 10
/-- `VSYNC_END` of R7. -/
abbrev vsyncEnd : Nat := 12
/-- `PALETTE_ENTRIES` of R11. -/
abbrev paletteEntries : Nat := 16

/-- The parameter `RegMap` (R12, R100, D1): the offset of each register and `REG_BLOCK_LEN`. The defaults are R100's. -/
structure RegMap where
  ctrl      : Nat := 0x00
  gie       : Nat := 0x04
  ier       : Nat := 0x08
  isr       : Nat := 0x0C
  buf       : Nat := 0x10
  coordData : Nat := 0x18
  coordCtrl : Nat := 0x1C
  len       : Nat := 0x20
deriving DecidableEq, Repr

/-- `POLL_MAX` (R13, D18): a natural number of reads, or no bound. -/
inductive PollBound where
  | bounded (n : Nat)
  | unbounded
deriving DecidableEq, Repr

/-- `STOP_POLICY` (R13, D16). -/
inductive StopPolicy where
  | immediate
  | endOfFrame
deriving DecidableEq, Repr

/-- The parameters of R13, and one of the model's own, `bufMustBeBus`. Defaults are the spec's; `pollMax` is OPEN in the spec, and the
default here is the value of test program P6 (log entry 5, DESIGN CHOICE, unsafe: no statement rests on it).
`N_CALLERS` is the length of `State.callers`. `framePeriod` and `pixelLayout` are read by no rule (log entry 20). -/
structure Params where
  regMap            : RegMap     := {}
  /-- `H_TOTAL` (R9, D12). -/
  hTotal            : Nat        := 800
  /-- `V_TOTAL` (R9, D12). -/
  vTotal            : Nat        := 525
  pollMax           : PollBound  := .bounded 2
  stopPolicy        : StopPolicy := .endOfFrame
  /-- `HW_FAITHFUL` (D11). -/
  hwFaithful        : Bool       := true
  /-- `FRAME_ID_INCREMENTS` (D14). -/
  frameIdIncrements : Bool       := false
  /-- `TIMED` (D20, R250). -/
  timed             : Bool       := false
  /-- `WAIT_TIMEOUT` in milliseconds (R10, R250). -/
  waitTimeout       : Nat        := 20
  /-- `SIM_REGS` (R143). -/
  simRegs           : Bool       := false
  /-- `FRAME_PERIOD` (R13, D20); the spec gives no default. That it is a whole number of nanoseconds, which holds the 16.683 ms of
  U7, is DESIGN CHOICE: the spec gives it no unit (log entry 20). -/
  framePeriod       : Option Nat := none
  /-- `PIXEL_LAYOUT` (R106, D28): the channels of a pixel word; OPEN in the spec. That each is given by its
  lowest bit and its width is DESIGN CHOICE (log entry 20). -/
  pixelLayout       : List (Nat × Nat) := []
  /-- Whether the liveness check of a scanout read also fails for every `BUF` but the live buffer's bus address, whatever the sum,
  as R376 says last. Not a parameter of R13: R376 and R313 disagree, and both machines are modelled (log entry 34). False is
  R313's own check and vector CSR-25 (DEDUCED). -/
  bufMustBeBus      : Bool       := false
deriving DecidableEq, Repr

/-- The free values: draw number `n` of a run whose draws were not supplied with the steps (R20 `draw`, log entry 4).
No body: nothing can prove a value of it. -/
opaque Config.freeNat : Nat → Nat

/-- `PACK_COLOR` (R107, R345, D33), OPEN in the spec: the palette entry made from red, green, blue and transp.
No body: any function (log entry 20). -/
opaque Config.packColor : Channel → Channel → Channel → Channel → Word

end Sys2Proof
end

