-- ==== Sys2Proof/Syntax.lean ====
section
/-!
DEFINITION. The operation alphabet (30_encoding.md R109 to R112): the agents that take steps, one constructor of
`Instr` per row of spec/opcode_table.json, and the operand record that travels beside the operation word.
-/

namespace Sys2Proof

/-- The agents of R15. `k` is a caller index. -/
inductive Agent where
  | device
  | platform
  | isr
  | lifecycle
  | caller (k : Nat)
  | timer (k : Nat)
  | signal (k : Nat)
  | wcDrain (k : Nat)
deriving DecidableEq, Repr

/-- The operations of R111, in the table's order, with what the 16-bit word itself holds. -/
inductive Instr where
  | csrRead (off : BitVec 8)
  | csrWrite (off : BitVec 8)
  | bufLoad (w : BitVec 2)
  | bufStore (w : BitVec 2)
  | wcDrain
  | coordPoll
  | coordRead
  | coordClassify
  | irqDeliver
  | isrCheck
  | isrStatus
  | isrWake
  | isrAck
  | waitEnter
  | waitRegister
  | waitCheck
  | waitSleep
  | timerExpire
  | signalDeliver
  | lcMap
  | lcAllocBuf
  | lcAllocPal
  | lcInstallIsr
  | lcPublish
  | lcEnableIrq
  | lcStart
  | lcAbort
  | lcDetachStop
  | lcDetachDisable
  | lcDetachRelease
  | devAdvance
  | devLatch
  | fbRead
  | fbWrite
  | fbMmap
  | fbCheckVar
  | fbSetcolreg (idx : BitVec 8)
  | qFramepos
deriving DecidableEq, Repr

/-- `Coord` of R53. -/
structure Coord where
  frame : BitVec 12 := 0
  row   : BitVec 10 := 0
  col   : BitVec 10 := 0
deriving DecidableEq, Repr

/-- `Class` of R53. -/
structure Class where
  vblank : Bool
  hblank : Bool
  vsync  : Bool
deriving DecidableEq, Repr

/-- The geometry record `Var` of R108. -/
structure Var where
  xres         : Nat := 0
  yres         : Nat := 0
  xresVirtual  : Nat := 0
  yresVirtual  : Nat := 0
  xoffset      : Nat := 0
  yoffset      : Nat := 0
  bitsPerPixel : Nat := 0
  interlaced   : Bool := false
deriving DecidableEq, Repr

/-- The step's operand record (R109): the operands that do not fit the operation word. Each operation reads the fields
R111 lists for it; the others are not read. -/
structure Operands where
  /-- CSR_WRITE, BUF_STORE: the value. -/
  v       : Word := 0
  /-- BUF_LOAD, BUF_STORE, FB_READ, FB_WRITE: the buffer offset. -/
  off     : Nat := 0
  /-- FB_READ: the byte count. -/
  n       : Nat := 0
  /-- FB_MMAP: the length. -/
  len     : Nat := 0
  /-- FB_WRITE: the bytes. -/
  bytes   : List Byte := []
  /-- WAIT_ENTER: the timeout in milliseconds; `none` takes `WAIT_TIMEOUT` (R250). -/
  timeout : Option Nat := none
  /-- FB_CHECK_VAR: the requested geometry. -/
  var     : Var := {}
  /-- Q_FRAMEPOS: whether the result destination is valid. -/
  dstOk   : Bool := false
  /-- COORD_CLASSIFY: the coordinate. -/
  coord   : Coord := {}
  /-- FB_SETCOLREG: the four channels. -/
  red     : Channel := 0
  green   : Channel := 0
  blue    : Channel := 0
  transp  : Channel := 0
deriving DecidableEq, Repr

end Sys2Proof
end

