-- ==== Sys2Proof/WellFormed.lean ====
section
/-!
DEFINITION. What makes an operation, a register map and a parameter record well formed: the width codes of R112, the
admissible register maps of R100, and the ranges the parameters of R9 and R13 have.
-/

namespace Sys2Proof

/-- Width codes 0, 1 and 2 spell 1, 2 and 4 bytes; width code 3 spells no operation (R112, R113). -/
def Instr.wf : Instr → Bool
  | .bufLoad w  => w != 3
  | .bufStore w => w != 3
  | _ => true

/-- The seven register offsets of a map. -/
def RegMap.offsets (m : RegMap) : List Nat :=
  [m.ctrl, m.gie, m.ier, m.isr, m.buf, m.coordData, m.coordCtrl]

/-- R100: seven distinct word-aligned offsets below `REG_BLOCK_LEN`. -/
def RegMap.wf (m : RegMap) : Bool :=
  decide m.offsets.Nodup && m.offsets.all fun o => o % 4 == 0 && decide (o < m.len)

/-- `POLL_MAX` is at least 1 (R13). -/
def PollBound.wf : PollBound → Bool
  | .bounded n => decide (1 ≤ n)
  | .unbounded => true

/-- The raster has a position, and rows and columns fit their 10-bit fields (R8, R310). -/
def Params.wf (p : Params) : Bool :=
  p.regMap.wf && p.pollMax.wf && decide (0 < p.hTotal) && decide (p.hTotal ≤ 1024) && decide (0 < p.vTotal)
    && decide (p.vTotal ≤ 1024)

end Sys2Proof
end

