-- ==== Sys2Proof/Decode.lean ====
section
/-!
DEFINITION. The decoder and the encoder of operation words (30_encoding.md R109 to R114) and the agents that may issue
each operation (R110, R113, R379). The rows are those of spec/opcode_table.json: match, mask, mnemonic.
-/

namespace Sys2Proof

/-- The 8-bit argument `arg`, bits 7:0 (R109). -/
def opArg (w : OpWord) : BitVec 8 := w.extractLsb' 0 8

/-- The width code, bits 1:0 of `arg` (R112). -/
def opWidth (w : OpWord) : BitVec 2 := w.extractLsb' 0 2

/-- One row of the operation table: a word spells the row's operation when its masked bits equal `pattern` and
`read` finds no reserved argument. -/
structure OpRow where
  mnemonic : String
  pattern  : OpWord
  mask     : OpWord
  read     : OpWord → Option Instr

/-- Whether a word matches a row's fixed bits. -/
def OpRow.matches (r : OpRow) (w : OpWord) : Bool := w &&& r.mask == r.pattern

/-- Rows with an 8-bit argument (mask 0xFF00). -/
def argRow (mnemonic : String) (pattern : OpWord) (mk : BitVec 8 → Instr) : OpRow :=
  { mnemonic, pattern, mask := 0xFF00, read := fun w => some (mk (opArg w)) }

/-- Rows with a width code (mask 0xFFFC); code 3 is refused (R113). -/
def widthRow (mnemonic : String) (pattern : OpWord) (mk : BitVec 2 → Instr) : OpRow :=
  { mnemonic, pattern, mask := 0xFFFC, read := fun w => if opWidth w = 3 then none else some (mk (opWidth w)) }

/-- Rows whose whole word is fixed (mask 0xFFFF). -/
def plainRow (mnemonic : String) (pattern : OpWord) (i : Instr) : OpRow :=
  { mnemonic, pattern, mask := 0xFFFF, read := fun _ => some i }

/-- Families 1 to 5 of R111. -/
def opRowsLow : List OpRow :=
  [ argRow   "CSR_READ"       0x1000 .csrRead,
    argRow   "CSR_WRITE"      0x1100 .csrWrite,
    widthRow "BUF_LOAD"       0x2000 .bufLoad,
    widthRow "BUF_STORE"      0x2100 .bufStore,
    plainRow "WC_DRAIN"       0x2200 .wcDrain,
    plainRow "COORD_POLL"     0x3000 .coordPoll,
    plainRow "COORD_READ"     0x3100 .coordRead,
    plainRow "COORD_CLASSIFY" 0x3200 .coordClassify,
    plainRow "IRQ_DELIVER"    0x4000 .irqDeliver,
    plainRow "ISR_CHECK"      0x4100 .isrCheck,
    plainRow "ISR_STATUS"     0x4200 .isrStatus,
    plainRow "ISR_WAKE"       0x4300 .isrWake,
    plainRow "ISR_ACK"        0x4400 .isrAck,
    plainRow "WAIT_ENTER"     0x5000 .waitEnter,
    plainRow "WAIT_REGISTER"  0x5100 .waitRegister,
    plainRow "WAIT_CHECK"     0x5200 .waitCheck,
    plainRow "WAIT_SLEEP"     0x5300 .waitSleep,
    plainRow "TIMER_EXPIRE"   0x5400 .timerExpire,
    plainRow "SIGNAL_DELIVER" 0x5500 .signalDeliver ]

/-- Families 6 to 8 of R111. -/
def opRowsHigh : List OpRow :=
  [ plainRow "LC_MAP"            0x6000 .lcMap,
    plainRow "LC_ALLOC_BUF"      0x6100 .lcAllocBuf,
    plainRow "LC_ALLOC_PAL"      0x6200 .lcAllocPal,
    plainRow "LC_INSTALL_ISR"    0x6300 .lcInstallIsr,
    plainRow "LC_PUBLISH"        0x6400 .lcPublish,
    plainRow "LC_ENABLE_IRQ"     0x6500 .lcEnableIrq,
    plainRow "LC_START"          0x6600 .lcStart,
    plainRow "LC_ABORT"          0x6700 .lcAbort,
    plainRow "LC_DETACH_STOP"    0x6800 .lcDetachStop,
    plainRow "LC_DETACH_DISABLE" 0x6900 .lcDetachDisable,
    plainRow "LC_DETACH_RELEASE" 0x6A00 .lcDetachRelease,
    plainRow "DEV_ADVANCE"       0x7000 .devAdvance,
    plainRow "DEV_LATCH"         0x7100 .devLatch,
    plainRow "FB_READ"           0x8000 .fbRead,
    plainRow "FB_WRITE"          0x8100 .fbWrite,
    plainRow "FB_MMAP"           0x8200 .fbMmap,
    plainRow "FB_CHECK_VAR"      0x8300 .fbCheckVar,
    argRow   "FB_SETCOLREG"      0x8400 .fbSetcolreg,
    plainRow "Q_FRAMEPOS"        0x8500 .qFramepos ]

/-- The 38 rows of the table. -/
def opRows : List OpRow := opRowsLow ++ opRowsHigh

/-- The decoder (R113): the operation of the row whose fixed bits the word has, or no operation. -/
def decode (w : OpWord) : Option Instr :=
  (opRows.find? fun r => r.matches w).bind fun r => r.read w

/-- The encoder (R111, R112). A width code is its own two low bits, so the encoder is total. -/
def encode : Instr → OpWord
  | .csrRead off      => 0x1000 ||| zext 16 off
  | .csrWrite off     => 0x1100 ||| zext 16 off
  | .bufLoad w        => 0x2000 ||| zext 16 w
  | .bufStore w       => 0x2100 ||| zext 16 w
  | .wcDrain          => 0x2200
  | .coordPoll        => 0x3000
  | .coordRead        => 0x3100
  | .coordClassify    => 0x3200
  | .irqDeliver       => 0x4000
  | .isrCheck         => 0x4100
  | .isrStatus        => 0x4200
  | .isrWake          => 0x4300
  | .isrAck           => 0x4400
  | .waitEnter        => 0x5000
  | .waitRegister     => 0x5100
  | .waitCheck        => 0x5200
  | .waitSleep        => 0x5300
  | .timerExpire      => 0x5400
  | .signalDeliver    => 0x5500
  | .lcMap            => 0x6000
  | .lcAllocBuf       => 0x6100
  | .lcAllocPal       => 0x6200
  | .lcInstallIsr     => 0x6300
  | .lcPublish        => 0x6400
  | .lcEnableIrq      => 0x6500
  | .lcStart          => 0x6600
  | .lcAbort          => 0x6700
  | .lcDetachStop     => 0x6800
  | .lcDetachDisable  => 0x6900
  | .lcDetachRelease  => 0x6A00
  | .devAdvance       => 0x7000
  | .devLatch         => 0x7100
  | .fbRead           => 0x8000
  | .fbWrite          => 0x8100
  | .fbMmap           => 0x8200
  | .fbCheckVar       => 0x8300
  | .fbSetcolreg idx  => 0x8400 ||| zext 16 idx
  | .qFramepos        => 0x8500

/-- Whether an agent is some caller. -/
def Agent.isCaller : Agent → Bool
  | .caller _ => true
  | _ => false

/-- Which agents may issue an operation (R110, R379, the table's "agent" column). An operation issued by another agent is
refused by the decoder (R113). -/
def Instr.issuedBy (i : Instr) (a : Agent) : Bool :=
  match i with
  | .csrRead _ | .csrWrite _ => a.isCaller || a == .lifecycle
  | .bufLoad _ | .bufStore _ => a.isCaller
  | .wcDrain => match a with | .wcDrain _ => true | _ => false
  | .coordPoll | .coordRead | .coordClassify => a.isCaller
  | .irqDeliver => a == .platform
  | .isrCheck | .isrStatus | .isrWake | .isrAck => a == .isr
  | .waitEnter | .waitRegister | .waitCheck | .waitSleep => a.isCaller
  | .timerExpire => match a with | .timer _ => true | _ => false
  | .signalDeliver => match a with | .signal _ => true | _ => false
  | .lcMap | .lcAllocBuf | .lcAllocPal | .lcInstallIsr | .lcPublish | .lcEnableIrq | .lcStart | .lcAbort
  | .lcDetachStop | .lcDetachDisable | .lcDetachRelease => a == .lifecycle
  | .devAdvance | .devLatch => a == .device
  | .fbRead | .fbWrite | .fbMmap | .fbCheckVar | .fbSetcolreg _ | .qFramepos => a.isCaller

/-- An agent that may issue an operation: the one agent (with index 0) the operation belongs to; caller 0 for CSR_READ, and for
CSR_WRITE the lifecycle agent, whose writes the write policy allows (R132). -/
def Instr.issuer : Instr → Agent
  | .wcDrain => .wcDrain 0
  | .irqDeliver => .platform
  | .isrCheck | .isrStatus | .isrWake | .isrAck => .isr
  | .csrWrite _ => .lifecycle
  | .timerExpire => .timer 0
  | .signalDeliver => .signal 0
  | .lcMap | .lcAllocBuf | .lcAllocPal | .lcInstallIsr | .lcPublish | .lcEnableIrq | .lcStart | .lcAbort
  | .lcDetachStop | .lcDetachDisable | .lcDetachRelease => .lifecycle
  | .devAdvance | .devLatch => .device
  | .csrRead _ | .bufLoad _ | .bufStore _ | .coordPoll | .coordRead | .coordClassify
  | .waitEnter | .waitRegister | .waitCheck | .waitSleep
  | .fbRead | .fbWrite | .fbMmap | .fbCheckVar | .fbSetcolreg _ | .qFramepos => .caller 0

/-- The operation this decoder reads from an instruction whose bits are `w`, as the host numbers them. Every operation
word is one 16-bit word (R114), so a wider number spells nothing. -/
def decodeTableWord (nbits w : Nat) : Option Instr :=
  if w < 2 ^ 16 then decode (BitVec.ofNat 16 (w % 2 ^ nbits)) else none

end Sys2Proof
end

