-- ==== Sys2Proof/Machine/State.lean ====
section
/-!
DEFINITION. The machine's state as plain data (10_state.md R30 to R62), the reasons a step can stop, and the state after
reset (R60). INVENTORY.md lists every field with the rule that names it and its reset value.
-/

namespace Sys2Proof.Machine

/-- The ways the machine as a whole could stop with a fault: none. Every `Fault(reason)` of R400 is sticky, leaves one agent
stuck and lets every other agent go on (R20, R400), so raising one is a NEXT state (`raiseFault`), never the end of the run
(log entry 7). -/
inductive Fault where
deriving DecidableEq, Repr

/-- Why a step is no step at all. -/
inductive Refusal where
  /-- The instruction has no meaning yet. Raised by `exec`'s arm of that instruction only. Safe. -/
  | notModelled (mnemonic : String)
  /-- The word spells no operation (R113: "refused by the decoder"). Raised by `step`, and by the meanings of BUF_LOAD and
  BUF_STORE for the width code 3 that no word decodes to. Safe: the spec has no step for it. -/
  | undefinedWord (w : OpWord)
  /-- The word is issued by an agent other than its owner, or by an agent that does not exist (R113, R379). Raised by `step`
  and by every meaning. Safe: the spec has no step for it. -/
  | wrongAgent
deriving DecidableEq, Repr

/-- Return codes (R403). -/
inductive Code where
  | ok | eNomem | eUnavail | eIntr | eTimedout | eHwpoll | eFault | eInval | eNospc
deriving DecidableEq, Repr

/-- Fault reasons (R400). -/
inductive FaultReason where
  | badOffset | unmapped | writePolicy | uninit | lifecycle | hwInconsistent | dmaNotLive | detachInUse | bufAccess
deriving DecidableEq, Repr

/-- ISR return values (R403). -/
inductive IsrRet where
  | notMine | handled
deriving DecidableEq, Repr

/-- The direction of a CSR access (R61). -/
inductive Dir where
  | read | write
deriving DecidableEq, Repr

/-- The continuation of a coordinate read (R31). -/
inductive Cont where
  | framePos | wait
deriving DecidableEq, Repr

/-- `pc(Caller k)` (R31). The poll's iteration count `i` is in the location (R190). -/
inductive CallerPc where
  | cIdle
  | cPoll (i : Nat) (K : Cont)
  | cData (K : Cont)
  | cDecide
  | cWreg
  | cSleep
  | cStuck
deriving DecidableEq, Repr

/-- `pc(Isr)` (R31). -/
inductive IsrPc where
  | iIdle | iCheck | iStatus | iWake | iAck | iStuck
deriving DecidableEq, Repr

/-- `Device.run` (R44). -/
inductive RunState where
  | idle | running | stopping
deriving DecidableEq, Repr

/-- `Buffer.st` (R45). -/
inductive BufState where
  | none | allocated | programmed | retired
deriving DecidableEq, Repr

/-- The lifecycle states `L` (R49). -/
inductive LcState where
  | unattached | registersMapped | bufferAllocated | paletteAllocated | interruptArmed | published | running | detached
deriving DecidableEq, Repr

/-- `phase`, the progress of a detach (R48). -/
inductive Phase where
  | none | stopped | disabled
deriving DecidableEq, Repr

/-- A table of values by natural-number key, in one canonical form: keys strictly rising. A key that is not listed holds
no value. -/
abbrev Table (α : Type) := List (Nat × α)

/-- Buffer bytes by offset (R45, R72): a list of `Host.Cell`. A byte that is not listed holds no value, and a read of it is
a draw (R59, log entry 10). -/
abbrev Memory := Table Byte

/-- The CSR block's stored fields (R33 to R41). Derived fields and draws are computed at each read (`readStored`). -/
structure Csr where
  /-- `CTRL.START`. -/
  start       : Bool := false
  /-- `CTRL.AUTO_RESTART`. -/
  autoRestart : Bool := false
  /-- `GIE.ENABLE`. -/
  gieEnable   : Bool := false
  /-- `IER.FRAME_EN`. -/
  frameEn     : Bool := false
  /-- `IER.AUX_EN`. -/
  auxEn       : Bool := false
  /-- `ISR.FRAME`. -/
  isrFrame    : Bool := false
  /-- `ISR.AUX`. -/
  isrAux      : Bool := false
  /-- `BUF`; `none` is the spec's own value `⊥` (R39). -/
  buf         : Option Word := none
  /-- `COORD_DATA`; `none` before the first latch (R40). -/
  coordData   : Option Word := none
  /-- `COORD_CTRL.VALID`. -/
  valid       : Bool := false
deriving DecidableEq, Repr

/-- The `Device` record (R44), with the stuck mark of R402 and the word `x` of the last scanout read (R313, log entry 24).
`row`, `col` and `frame` are read by no rule while `run` is `idle`; their reset values are log entry 8's. -/
structure Device where
  run      : RunState := .idle
  row      : Nat := 0
  col      : Nat := 0
  frame    : BitVec 12 := 0
  scanWord : Word := 0
  stuck    : Bool := false
deriving DecidableEq, Repr

/-- The `Buffer` record (R45), one per allocation; `mapped_k` is kept in the caller's record (log entry 26). The values of `cpu` and
`bus` before an allocation are DESIGN CHOICE: log entry 8 at reset, log entry 35 in the record of a new handle. -/
structure Buffer where
  st  : BufState := .none
  /-- `Buffer.cpu`, an abstract CPU address (R14). -/
  cpu : Nat := 0
  bus : Word := 0
  mem : Memory := []
deriving DecidableEq, Repr

/-- `Lifecycle.res`, the resources held (R48). -/
structure Resources where
  handle : Bool := false
  regs   : Bool := false
  buf    : Bool := false
  pal    : Bool := false
  irq    : Bool := false
  fbdev  : Bool := false
deriving DecidableEq, Repr

/-- The `Lifecycle` record (R48), with the stuck mark of R402. -/
structure Lifecycle where
  L          : LcState := .unattached
  phase      : Phase := .none
  aborting   : Option Code := none
  irqEnabled : Bool := false
  res        : Resources := {}
  /-- `reg_base`, abstract (R92). -/
  regBase    : Nat := 0
  stuck      : Bool := false
deriving DecidableEq, Repr

/-- The `Isr` record (R52). -/
structure Isr where
  pc      : IsrPc := .iIdle
  s       : Word := 0
  anomaly : Nat := 0
deriving DecidableEq, Repr

/-- One pending buffer write of `Wc_k` (R46): its `n` is the number of its bytes. -/
structure WcEntry where
  off   : Nat
  bytes : List Byte
deriving DecidableEq, Repr

/-- The `Caller k` record: control location, locals and result (R30, R54), the synchronisation flags and queue membership
`k ∈ Q` (R51), `Wc_k` (R46) and `mapped_k` (R45). The reset values of `w`, `coord`, `dstOk`, `outcome` and `mapped`, which R60
does not give, are log entry 8's. `timeout` and `entered` serve the timed refinement only (R250). -/
structure Caller where
  pc      : CallerPc := .cIdle
  w       : Word := 0
  coord   : Coord := {}
  dstOk   : Bool := false
  outcome : Code := .ok
  res     : Option (Coord × Class) := none
  /-- `k ∈ Q`. -/
  queued  : Bool := false
  woken   : Bool := false
  sig     : Bool := false
  tarmed  : Bool := false
  texp    : Bool := false
  wc      : List WcEntry := []
  /-- `mapped_k`; R60 gives no reset value, and false is DESIGN CHOICE (log entry 8; for a new handle, log entry 35). -/
  mapped  : Bool := false
  timeout : Nat := 0
  entered : Nat := 0
deriving DecidableEq, Repr

/-- What a consumer or lifecycle operation returns (R26, R403): a bare code, or `OK` with its record. -/
inductive Result where
  | code (c : Code)
  /-- FB_READ. -/
  | bytes (bs : List Byte)
  /-- FB_WRITE. -/
  | count (n : Nat)
  /-- FB_CHECK_VAR. -/
  | geometry (v : Var)
  /-- A completed frame-position query. -/
  | framePos (c : Coord) (cls : Class)
deriving DecidableEq, Repr

/-- One entry of the event history (R61). -/
inductive Event where
  | csr (agent : Agent) (off : Nat) (dir : Dir) (value : Word)
  | scanout (busAddr : Word)
  | isrReturn (r : IsrRet)
  | ret (agent : Agent) (r : Result)
deriving DecidableEq, Repr

/-- The faulting datum of R401. -/
inductive Datum where
  | offset (off : Nat)
  | opWord
  | status (s : Word)
  /-- The bus address; `none` when `BUF = ⊥` (log entry 27). -/
  | bus (b : Option Word)
  | access (off n : Nat)
deriving DecidableEq, Repr

/-- What a fault records (R401). -/
structure FaultRecord where
  reason : FaultReason
  agent  : Agent
  word   : OpWord
  datum  : Datum
deriving DecidableEq, Repr

/-- One entry of the schedule: the agent that takes the step, the operation word, the operand record and draws that travel
beside it, and the milliseconds that pass before it (read only when `TIMED`). The model's own (log entries 1, 3, 4, 19). -/
structure Request where
  agent   : Agent
  word    : OpWord
  opnd    : Operands := {}
  draws   : List Nat := []
  elapsed : Nat := 0
deriving DecidableEq, Repr

/-- What the last step returned to its agent (`return x` of R130, R164, R192; a code; an ISR value). The model's own output
field, read by no rule (log entry 12). -/
inductive Ret where
  | none
  /-- The step was not enabled, and nothing happened (R20 `hold`). -/
  | held
  | faulted (r : FaultReason)
  | word (x : Word)
  | cls (c : Class)
  | isr (r : IsrRet)
  | result (r : Result)
deriving DecidableEq, Repr

/-- The whole machine. -/
@[ext]
structure State where
  /-- The parameters of R13; no step changes them. -/
  params   : Params := {}
  csr      : Csr := {}
  /-- The storage words of the simulated register block (R143), by offset; used only when `SIM_REGS`. -/
  sim      : Table Word := []
  dev      : Device := {}
  /-- The current `Buffer` record. -/
  buf      : Buffer := {}
  /-- The `Buffer` records of earlier handles (R160, R284). -/
  oldBufs  : List Buffer := []
  /-- The palette, 16 entries, `none` for `⊥` (R47). -/
  pal      : List (Option Word) := List.replicate paletteEntries none
  lc       : Lifecycle := {}
  isr      : Isr := {}
  /-- The callers `0 … N_CALLERS − 1` (R15, R54). -/
  callers  : List Caller := [{}]
  /-- The event history, oldest first (R61). -/
  history  : List Event := []
  /-- The fault records, oldest first; the sticky fault set is their reasons (R62, R401). -/
  faults   : List FaultRecord := []
  /-- Milliseconds passed, the time base of the timed refinement (R250, log entry 19). -/
  clock    : Nat := 0
  /-- The steps still to be taken, next one first: the choice of R15 as plain data (log entry 1). -/
  sched    : List Request := []
  /-- The agent taking the current step. -/
  agent    : Agent := .lifecycle
  /-- The current step's operand record. -/
  opnd     : Operands := {}
  /-- The current step's draws that are not used yet. -/
  tape     : List Nat := []
  /-- How many draws `Config.freeNat` has answered. -/
  fresh    : Nat := 0
  /-- What the last step returned. -/
  ret      : Ret := .none
deriving DecidableEq, Repr

/-- Reset (R60, R450) under given parameters and number of callers. The values R60 does not give are log entry 8's. -/
def State.resetWith (p : Params) (nCallers : Nat) : State :=
  { params := p, callers := List.replicate nCallers {} }

/-- Reset with the default parameters and one caller, the common setup of 95_test_vectors.md (log entry 5). -/
def State.reset : State := State.resetWith {} 1

end Sys2Proof.Machine
end

