-- ==== Sys2Proof/Machine/Operands.lean ====
section
/-!
DEFINITION. Operand forms: the coordinate word and its classification (R104, R192), access widths and little-endian bytes
(R73, R112), buffer ranges (R76), pixel addressing (R106, R170), write-combining entries (R82, R83), clipping and geometry
(R341 to R344), and the tables' read and write.
-/

namespace Sys2Proof.Machine

/-! ### Tables -/

/-- The value at a key; `none` where nothing is listed. -/
def Table.read {α : Type} : Table α → Nat → Option α
  | [], _ => none
  | (x, v) :: t, a => if a = x then some v else Table.read t a

/-- Set the value at a key, keeping the keys strictly rising. -/
def Table.write {α : Type} : Table α → Nat → α → Table α
  | [], a, v => [(a, v)]
  | (x, u) :: t, a, v =>
    if a < x then (a, v) :: (x, u) :: t
    else if a = x then (a, v) :: t
    else (x, u) :: Table.write t a v

/-- The canonical form: keys strictly rising. -/
abbrev Table.wf {α : Type} (t : Table α) : Prop := t.Pairwise fun p q => p.1 < q.1

/-- The canonical form of memory. Every listed byte is a value, and an unlisted one has none, so no entry equals what an
unlisted offset reads as. -/
abbrev Memory.wf (m : Memory) : Prop := Table.wf m

/-- The byte of `Buffer.mem` at an offset, `none` where nothing has drained (R59). -/
abbrev Memory.read (m : Memory) (off : Nat) : Option Byte := Table.read m off

/-- `Buffer.mem[off + j] <- bytes[j]` for every byte (R166). -/
def Memory.writeBytes : Memory → Nat → List Byte → Memory
  | m, _, [] => m
  | m, off, b :: bs => Memory.writeBytes (Table.write m off b) (off + 1) bs

/-! ### The coordinate word -/

/-- `unpack` of R104: bits 31:20 frame id, 19:10 row, 9:0 column. -/
def unpack (w : Word) : Coord :=
  { frame := w.extractLsb' 20 12, row := w.extractLsb' 10 10, col := w.extractLsb' 0 10 }

/-- `pack` of R104: the three fields side by side. -/
def pack (f : BitVec 12) (r c : BitVec 10) : Word := (f ++ r) ++ c

/-- `classify` of R192, unsigned comparisons with the thresholds of R7. -/
def classify (c : Coord) : Class :=
  { vblank := decide (c.row.toNat < vblankRows)
    hblank := decide (c.col.toNat < hblankCols)
    vsync  := decide (vsyncFirst ≤ c.row.toNat) && decide (c.row.toNat < vsyncEnd) }

/-! ### Widths and bytes -/

/-- The number of bytes a width code selects (R112); code 3 spells none. -/
def widthBytes (w : BitVec 2) : Nat :=
  if w = 0 then 1 else if w = 1 then 2 else if w = 2 then 4 else 0

/-- The low `n` bytes of a word, least significant first (R73, R165). -/
def bytesOf : Nat → Word → List Byte
  | 0, _ => []
  | n + 1, v => v.extractLsb' 0 8 :: bytesOf n (v >>> 8)

/-- The word whose bytes are given least significant first, zero-extended (R73, R164). -/
def ofBytes : List Byte → Word
  | [] => 0
  | b :: bs => zext 32 b ||| (ofBytes bs <<< 8)

/-- R76: natural alignment and `off + n ≤ FB_SIZE`. -/
def accessOk (off n : Nat) : Bool := off % n == 0 && decide (off + n ≤ fbSize)

/-! ### Pixel addressing -/

/-- The buffer offset of pixel `(x, y)` (R106). -/
def pixelOffset (x y : Nat) : Nat := bytesPerPixel * (hActive * y + x)

/-- Whether a scan position is visible (R310, R311). -/
def visible (row col : Nat) : Bool := decide (vblankRows ≤ row) && decide (hblankCols ≤ col)

/-- The scanout offset of a visible position (R311, R376). -/
def scanOffset (row col : Nat) : Nat := pixelOffset (col - hblankCols) (row - vblankRows)

/-! ### Write-combining entries -/

/-- Whether an entry writes the byte at an offset. -/
def WcEntry.covers (e : WcEntry) (a : Nat) : Bool := decide (e.off ≤ a) && decide (a < e.off + e.bytes.length)

/-- Whether two entries write a byte in common. -/
def WcEntry.overlaps (e f : WcEntry) : Bool :=
  decide (e.off < f.off + f.bytes.length) && decide (f.off < e.off + e.bytes.length)
    && !e.bytes.isEmpty && !f.bytes.isEmpty

/-- The bytes pending for one offset, oldest first (R83). -/
def pendingBytes : List WcEntry → Nat → List Byte
  | [], _ => []
  | e :: es, a =>
    match if e.covers a then e.bytes[a - e.off]? else none with
    | some b => b :: pendingBytes es a
    | none => pendingBytes es a

/-- A set of entries read from a number, entry `j` being in it when bit `j` of the number is 1. -/
def pickEntries : Nat → List WcEntry → List (Bool × WcEntry)
  | _, [] => []
  | m, e :: es => (m % 2 == 1, e) :: pickEntries (m / 2) es

/-- One entry put before a closed set: it goes in when a later one in the set writes one of its bytes. -/
def closeEntry (p : Bool × WcEntry) (closed : List (Bool × WcEntry)) : List (Bool × WcEntry) :=
  (p.1 || closed.any fun q => q.1 && p.2.overlaps q.2, p.2) :: closed

/-- The least set that holds a given one and leaves no earlier entry outside it that writes one of its bytes (R166). -/
def closeEntries (l : List (Bool × WcEntry)) : List (Bool × WcEntry) := l.foldr closeEntry []

/-- A non-empty set (R166): the first entry is taken when none is. -/
def someEntry : List (Bool × WcEntry) → List (Bool × WcEntry)
  | [] => []
  | (b, e) :: r => ((b || !(r.any fun p => p.1)), e) :: r

/-- The set `E` of R166 that a draw chooses: every set R166 allows is some draw's, and every draw gives one (log entry 11). -/
def drainChoice (m : Nat) (wc : List WcEntry) : List (Bool × WcEntry) := someEntry (closeEntries (pickEntries m wc))

/-- The entries of a choice that drain, in `Wc_k` order. -/
def drained (l : List (Bool × WcEntry)) : List WcEntry := (l.filter fun p => p.1).map fun p => p.2

/-- The entries of a choice that stay pending. -/
def undrained (l : List (Bool × WcEntry)) : List WcEntry := (l.filter fun p => !p.1).map fun p => p.2

/-- The bytes of the drained entries written in order (R166). -/
def drainInto : Memory → List WcEntry → Memory
  | m, [] => m
  | m, e :: es => drainInto (Memory.writeBytes m e.off e.bytes) es

/-- One-byte entries for consecutive offsets (R342). -/
def byteEntries : Nat → List Byte → List WcEntry
  | _, [] => []
  | off, b :: bs => { off, bytes := [b] } :: byteEntries (off + 1) bs

/-! ### The buffer device's operands -/

/-- `min(n, FB_SIZE − off)` (R341, R342). -/
def clip (off n : Nat) : Nat := min n (fbSize - off)

/-- Whether a geometry request is accepted (R344). -/
def varAccepted (v : Var) : Bool :=
  v.xres == hActive && v.yres == vActive && v.bitsPerPixel == bitsPerPixelOnly && v.xoffset == 0 && v.yoffset == 0
    && !v.interlaced && decide (v.xresVirtual ≤ hActive) && decide (v.yresVirtual ≤ vActive)

/-- The geometry granted: under-sized virtual resolutions rounded up (R344). -/
def varGranted (v : Var) : Var := { v with xresVirtual := hActive, yresVirtual := vActive }

end Sys2Proof.Machine
end

