-- ==== Sys2Proof/Machine/Flags.lean ====
section
/-!
DEFINITION. Status flags and register words: the interrupt line (R35, R43), the words CSR reads assemble from the stored
fields (R34 to R42, R133), the mask of bits that are draws at each read, and the fields a write stores (R134 to R138).
-/

namespace Sys2Proof.Machine

/-! ### Command values and masks (R102, R103) -/

/-- `FRAME_MASK`. -/
abbrev frameMask : Word := 0x1
/-- `CTRL_START_CMD`: START and AUTO_RESTART. -/
abbrev ctrlStartCmd : Word := 0x81
/-- `CTRL_STOP_CMD`. -/
abbrev ctrlStopCmd : Word := 0x0
/-- `GIE_ON`. -/
abbrev gieOn : Word := 0x1
/-- `GIE_OFF`. -/
abbrev gieOff : Word := 0x0
/-- `IER_ON`. -/
abbrev ierOn : Word := frameMask
/-- `IER_OFF`. -/
abbrev ierOff : Word := 0x0
/-- `INT_PENDING_MASK`: CTRL bit 9. -/
abbrev intPendingMask : Word := 0x200
/-- `VALID_MASK`: COORD_CTRL bit 0. -/
abbrev validMask : Word := 0x1

/-! ### The interrupt line -/

/-- `irq_line = GIE.ENABLE ∧ ((IER & ISR)[1:0] ≠ 0)` (R43). -/
def Csr.irqLine (c : Csr) : Bool := c.gieEnable && ((c.frameEn && c.isrFrame) || (c.auxEn && c.isrAux))

/-! ### Register words -/

/-- The registers of the block (R33), and the legal offsets that name none of them (R42). -/
inductive CsrReg where
  | ctrl | gie | ier | isr | buf | coordData | coordCtrl | reserved
deriving DecidableEq, Repr

/-- The register at a legal offset (R100). Under the default map only 0x14 is reserved (log entry 16). -/
def regAt (m : RegMap) (off : Nat) : CsrReg :=
  if off = m.ctrl then .ctrl
  else if off = m.gie then .gie
  else if off = m.ier then .ier
  else if off = m.isr then .isr
  else if off = m.buf then .buf
  else if off = m.coordData then .coordData
  else if off = m.coordCtrl then .coordCtrl
  else .reserved

/-- `CTRL` as R133 assembles it, the draws DONE and READY left 0 (they are in the draw mask). -/
def Csr.ctrlWord (c : Csr) (run : RunState) : Word :=
  bitAt 0 c.start ||| bitAt 2 (run == .idle) ||| bitAt 7 c.autoRestart ||| bitAt 9 c.irqLine

/-- `GIE` (R36). -/
def Csr.gieWord (c : Csr) : Word := bitAt 0 c.gieEnable

/-- `IER` (R37). -/
def Csr.ierWord (c : Csr) : Word := bitAt 0 c.frameEn ||| bitAt 1 c.auxEn

/-- `ISR` (R38). -/
def Csr.isrWord (c : Csr) : Word := bitAt 0 c.isrFrame ||| bitAt 1 c.isrAux

/-- `COORD_CTRL` (R41). -/
def Csr.coordCtrlWord (c : Csr) : Word := bitAt 0 c.valid

/-- The bits of a register that hold or derive a value (R133); bits in `regDrawMask` do not count. -/
def Csr.regWord (c : Csr) (run : RunState) : CsrReg → Word
  | .ctrl      => c.ctrlWord run
  | .gie       => c.gieWord
  | .ier       => c.ierWord
  | .isr       => c.isrWord
  | .buf       => c.buf.getD 0
  | .coordData => c.coordData.getD 0
  | .coordCtrl => c.coordCtrlWord
  | .reserved  => 0

/-- Every bit. -/
abbrev allBits : Word := 0xFFFFFFFF

/-- The bits of a register that are draws at a read. Faithful: DONE and READY, the reserved word, and BUF and COORD_DATA while
they hold no value (R34, R39, R40, R42). Not faithful: also INT_PENDING, all of ISR and COORD_CTRL, and every reserved bit
(R35, R38, R41, R42; log entry 18). -/
def Csr.regDrawMask (c : Csr) (faithful : Bool) : CsrReg → Word
  | .ctrl      => if faithful then 0x0000000A else 0xFFFFFF7A
  | .gie       => if faithful then 0 else 0xFFFFFFFE
  | .ier       => if faithful then 0 else 0xFFFFFFFC
  | .isr       => if faithful then 0 else allBits
  | .buf       => if c.buf.isNone then allBits else 0
  | .coordData => if c.coordData.isNone then allBits else 0
  | .coordCtrl => if faithful then 0 else allBits
  | .reserved  => allBits

/-! ### Stored fields -/

/-- The two writable fields of `CTRL` (R134). -/
def Csr.storeCtrl (c : Csr) (v : Word) : Csr := { c with start := v.getLsbD 0, autoRestart := v.getLsbD 7 }

/-- A write of `GIE` (R135). -/
def Csr.storeGie (c : Csr) (v : Word) : Csr := { c with gieEnable := v.getLsbD 0 }

/-- A write of `IER` (R136). -/
def Csr.storeIer (c : Csr) (v : Word) : Csr := { c with frameEn := v.getLsbD 0, auxEn := v.getLsbD 1 }

/-- A write of `ISR`: write 1 to clear, each bit by itself (R137). -/
def Csr.clearIsr (c : Csr) (v : Word) : Csr :=
  { c with isrFrame := c.isrFrame && !v.getLsbD 0, isrAux := c.isrAux && !v.getLsbD 1 }

/-- The per-frame cause at a frame boundary: latched when enabled, whatever `GIE` is (R312). -/
def Csr.raiseFrame (c : Csr) : Csr := { c with isrFrame := c.isrFrame || c.frameEn }

/-- A coordinate latch (R315). -/
def Csr.latch (c : Csr) (w : Word) : Csr := { c with coordData := some w, valid := true }

/-- The read side effect (R141): a read of `COORD_CTRL` clears `VALID`; no other read has one. -/
def Csr.readEffect (c : Csr) : CsrReg → Csr
  | .coordCtrl => { c with valid := false }
  | _ => c

/-! ### Numbers of codes and reasons (R400, R403) -/

/-- The number of a fault reason. -/
def FaultReason.number : FaultReason → Nat
  | .badOffset => 1 | .unmapped => 2 | .writePolicy => 3 | .uninit => 4 | .lifecycle => 5
  | .hwInconsistent => 6 | .dmaNotLive => 7 | .detachInUse => 8 | .bufAccess => 9

/-- The number of a return code. -/
def Code.number : Code → Nat
  | .ok => 0 | .eNomem => 1 | .eUnavail => 2 | .eIntr => 3 | .eTimedout => 4 | .eHwpoll => 5
  | .eFault => 6 | .eInval => 7 | .eNospc => 8

/-- The number of an ISR return value. -/
def IsrRet.number : IsrRet → Nat
  | .notMine => 0 | .handled => 1

/-- The code of a result. -/
def Result.codeOf : Result → Code
  | .code c => c
  | _ => .ok

end Sys2Proof.Machine
end

