-- ==== Sys2Proof/Machine/Ops.lean ====
section
/-!
DEFINITION. The named operations every meaning is written over: updates of the state's parts, draws, the guards of the
agents, raising a fault (R20, R400 to R402), interrupt entry and return (R409, R410), CSR accesses with their checks (R130 to
R143), buffer reads (R83, R164), scanout reads (R313), the frame boundary (R312), the wait queue's operations (R87), release
and new handles (R277, R284), and how the next step is fetched.
-/

namespace Sys2Proof.Machine

/-- The result of a meaning. -/
abbrev Out := Host.Outcome State Fault Refusal

/-! ### Updates -/

def State.setCsr (s : State) (c : Csr) : State := { s with csr := c }
def State.setSim (s : State) (t : Table Word) : State := { s with sim := t }
def State.setDev (s : State) (d : Device) : State := { s with dev := d }
def State.setBuf (s : State) (b : Buffer) : State := { s with buf := b }
def State.setPal (s : State) (p : List (Option Word)) : State := { s with pal := p }
def State.setLc (s : State) (l : Lifecycle) : State := { s with lc := l }
def State.setIsr (s : State) (i : Isr) : State := { s with isr := i }
def State.setRet (s : State) (r : Ret) : State := { s with ret := r }
/-- Append to the event history (R61). -/
def State.addEvent (s : State) (e : Event) : State := { s with history := s.history ++ [e] }
/-- Append to the fault records (R62, R401). -/
def State.addFault (s : State) (f : FaultRecord) : State := { s with faults := s.faults ++ [f] }
/-- Change caller `k`'s record; nothing happens where there is no such caller. -/
def State.modCaller (s : State) (k : Nat) (f : Caller → Caller) : State := { s with callers := s.callers.modify k f }
/-- Change every caller's record. -/
def State.mapCallers (s : State) (f : Caller → Caller) : State := { s with callers := s.callers.map f }

/-! ### Draws (R20, log entry 4) -/

/-- The next draw: the one supplied with the step, or else a free value. -/
def State.draw (s : State) : Nat :=
  match s.tape with
  | x :: _ => x
  | [] => Config.freeNat s.fresh

/-- The state once the next draw is used. -/
def State.drawn (s : State) : State :=
  match s.tape with
  | _ :: xs => { s with tape := xs }
  | [] => { s with fresh := s.fresh + 1 }

/-- `draw r ∈ {ok, errors}`: `none` for ok. -/
def State.drawResult (s : State) (errs : List Code) : Option Code :=
  (none :: errs.map some).getD (s.draw % (errs.length + 1)) none

/-! ### Predicates -/

/-- Fully initialized (R50). -/
def State.fullyInit (s : State) : Bool :=
  s.lc.L == .running && s.lc.phase == .none && s.lc.aborting.isNone

/-- A live buffer (R160). -/
def Buffer.live (b : Buffer) : Bool := b.st == .allocated || b.st == .programmed

/-- Whether the device may read four bytes at a bus address: inside the live buffer (R93, R313). -/
def Buffer.holdsBus (b : Buffer) (a : Word) : Bool :=
  b.live && decide (b.bus.toNat ≤ a.toNat) && decide (a.toNat + 4 ≤ b.bus.toNat + fbSize)

/-- A byte of the buffer as the device would read it. -/
def State.memByte (s : State) (off : Nat) : Option Byte := s.buf.mem.read off

/-- The fault set (R62). -/
def State.faultSet (s : State) : List FaultReason := s.faults.map FaultRecord.reason

/-- `Q`, the indices of the queued callers (R51). -/
def State.queue (s : State) : List Nat :=
  (List.range s.callers.length).filter fun k => (s.callers[k]?.map Caller.queued).getD false

/-! ### Holding and faulting -/

/-- The step is not enabled: the agent waits and nothing changes (R20 `hold`, log entry 6). -/
def hold (s : State) : State := s.setRet .held

/-- The stuck location a fault leaves its agent in (R402). -/
def stick (s : State) : State :=
  match s.agent with
  | .caller k  => s.modCaller k fun c => { c with pc := .cStuck }
  | .isr       => s.setIsr { s.isr with pc := .iStuck }
  | .lifecycle => s.setLc { s.lc with stuck := true }
  | .device    => s.setDev { s.dev with stuck := true }
  | _          => s

/-- TAKING A FAULT, `raise Fault(reason)` (R20, R400 to R402): record the reason, the raising agent, the operation word and the
faulting datum; leave the raising agent stuck; change nothing else. -/
def raiseFault (i : Instr) (r : FaultReason) (d : Datum) (s : State) : State :=
  ((stick s).addFault { reason := r, agent := s.agent, word := encode i, datum := d }).setRet (.faulted r)

/-! ### Interrupt entry and return -/

/-- TAKING THE INTERRUPT (R210, R409): the ISR starts at its one entry; nothing is saved and no mask changes. -/
def isrEnter (s : State) : State := s.setIsr { s.isr with pc := .iCheck }

/-- RETURNING FROM THE INTERRUPT (R410): back to `I_IDLE` with a value recorded in the history; nothing is restored. -/
def isrReturn (r : IsrRet) (s : State) : State :=
  ((s.setIsr { s.isr with pc := .iIdle }).addEvent (.isrReturn r)).setRet (.isr r)

/-! ### Guards: which agent takes the step (R113, R379) -/

/-- A step of an existing caller. -/
def asCaller (s : State) (f : Nat → Caller → State → State) : Out :=
  match s.agent with
  | .caller k =>
    match s.callers[k]? with
    | some c => .next (f k c s)
    | none => .refused .wrongAgent
  | _ => .refused .wrongAgent

/-- A step of a caller enabled at one control location only (R370). -/
def asCallerAt (pc : CallerPc) (s : State) (f : Nat → Caller → State → State) : Out :=
  asCaller s fun k c s => if c.pc = pc then f k c s else hold s

/-- A step of an existing caller's timer. -/
def asTimer (s : State) (f : Nat → Caller → State → State) : Out :=
  match s.agent with
  | .timer k =>
    match s.callers[k]? with
    | some c => .next (f k c s)
    | none => .refused .wrongAgent
  | _ => .refused .wrongAgent

/-- A step of an existing caller's signal. -/
def asSignal (s : State) (f : Nat → Caller → State → State) : Out :=
  match s.agent with
  | .signal k =>
    match s.callers[k]? with
    | some c => .next (f k c s)
    | none => .refused .wrongAgent
  | _ => .refused .wrongAgent

/-- A step of an existing caller's write-combining path. -/
def asWcDrain (s : State) (f : Nat → Caller → State → State) : Out :=
  match s.agent with
  | .wcDrain k =>
    match s.callers[k]? with
    | some c => .next (f k c s)
    | none => .refused .wrongAgent
  | _ => .refused .wrongAgent

/-- A step of the platform. -/
def asPlatform (s : State) (f : State → State) : Out :=
  match s.agent with
  | .platform => .next (f s)
  | _ => .refused .wrongAgent

/-- A step of the ISR, enabled at one control location. -/
def asIsrAt (pc : IsrPc) (s : State) (f : State → State) : Out :=
  match s.agent with
  | .isr => .next (if s.isr.pc = pc then f s else hold s)
  | _ => .refused .wrongAgent

/-- A step of the device: enabled while it scans and is not stuck (R311, R315, R402). -/
def asScanning (s : State) (f : State → State) : Out :=
  match s.agent with
  | .device => .next (if s.dev.run ≠ .idle ∧ s.dev.stuck = false then f s else hold s)
  | _ => .refused .wrongAgent

/-- A lifecycle step (R283): a stuck agent has none (R402); outside the step's admission condition it raises
`Fault(LIFECYCLE)`. -/
def asLifecycle (i : Instr) (s : State) (admitted : Bool) (f : State → State) : Out :=
  match s.agent with
  | .lifecycle =>
    .next (if s.lc.stuck then hold s else if admitted then f s else raiseFault i .lifecycle .opWord s)
  | _ => .refused .wrongAgent

/-- A CSR operation's agent: a caller at `C_IDLE` (R370) or the lifecycle agent while it is not stuck (R110; log entry 14). -/
def asCsrMaster (s : State) (f : State → State) : Out :=
  match s.agent with
  | .caller k =>
    match s.callers[k]? with
    | some c => .next (if c.pc = .cIdle then f s else hold s)
    | none => .refused .wrongAgent
  | .lifecycle => .next (if s.lc.stuck then hold s else f s)
  | _ => .refused .wrongAgent

/-- A consumer operation (R340): issued at `C_IDLE`; `Fault(UNINIT)` unless the handle is fully initialized. -/
def asConsumer (i : Instr) (s : State) (f : Nat → Caller → State → State) : Out :=
  asCallerAt .cIdle s fun k c s => if s.fullyInit then f k c s else raiseFault i .uninit .opWord s

/-! ### Returning to a caller -/

/-- `return code` of a consumer operation (R20, R370): the outcome and the record, noted in the history (R61). -/
def returnCaller (k : Nat) (r : Result) (s : State) : State :=
  ((s.modCaller k fun c => { c with outcome := r.codeOf, pc := .cIdle }).addEvent (.ret (.caller k) r)).setRet (.result r)

/-- `leave(c)` of R242: off the queue, timer and flags cleared, outcome returned. -/
def leaveWait (k : Nat) (c : Code) (s : State) : State :=
  returnCaller k (.code c) (s.modCaller k fun x =>
    { x with queued := false, tarmed := false, texp := false, woken := false })

/-- The wake-all: every queued caller at once (R214). -/
def wakeAll (s : State) : State := s.mapCallers fun c => if c.queued then { c with woken := true } else c

/-! ### CSR accesses -/

/-- `write_allowed` of R132. -/
def writeAllowed (m : RegMap) (a : Agent) (off : Nat) : Bool :=
  match a with
  | .lifecycle => true
  | .isr => off == m.isr
  | _ => false

/-- `check_access` of R132, in its order; `none` when the access is admitted. -/
def checkAccess (s : State) (d : Dir) (off : Nat) : Option FaultReason :=
  if off % 4 ≠ 0 ∨ s.params.regMap.len ≤ off then some .badOffset
  else if s.lc.res.regs = false then some .unmapped
  else if d = .write ∧ writeAllowed s.params.regMap s.agent off = false then some .writePolicy
  else none

/-- The bits a read of an offset draws; with `SIM_REGS`, all of a word nothing has written (R143). -/
def readDrawMask (s : State) (off : Nat) : Word :=
  if s.params.simRegs then (if (Table.read s.sim off).isNone then allBits else 0)
  else s.csr.regDrawMask s.params.hwFaithful (regAt s.params.regMap off)

/-- The bits a read of an offset finds stored or derived. -/
def readStored (s : State) (off : Nat) : Word :=
  if s.params.simRegs then (Table.read s.sim off).getD 0
  else s.csr.regWord s.dev.run (regAt s.params.regMap off)

/-- `read_value` of R133: the stored bits, with drawn bits where the mask is 1. -/
def readValue (s : State) (off : Nat) : Word :=
  if readDrawMask s off = 0 then readStored s off
  else (readStored s off &&& ~~~ readDrawMask s off) ||| (BitVec.ofNat 32 s.draw &&& readDrawMask s off)

/-- The state after the draw of a read, if it takes one. -/
def readDrawn (s : State) (off : Nat) : State := if readDrawMask s off = 0 then s else s.drawn

/-- `apply_read_side_effect` of R130, R141. The simulated block has none (R143). -/
def readEffect (s : State) (off : Nat) : State :=
  if s.params.simRegs then s else s.setCsr (s.csr.readEffect (regAt s.params.regMap off))

/-- `MmioRead(off)` once admitted: the value, and the state with the access recorded. -/
def csrReadState (s : State) (off : Nat) : State :=
  (readEffect (readDrawn s off) off).addEvent (.csr s.agent off .read (readValue s off))

/-- `MmioRead(off)` inside operation `i` (R130): its checks, and then what the operation does with the value. -/
def mmioRead (i : Instr) (off : Nat) (s : State) (k : Word → State → State) : State :=
  match checkAccess s .read off with
  | some r => raiseFault i r (.offset off) s
  | none => k (readValue s off) (csrReadState s off)

/-- An idle engine is started: the position and frame id are draws (R134, D15). -/
def startScan (run : RunState) (s : State) : State :=
  let row := s.draw % s.params.vTotal
  let s₁ := s.drawn
  let col := s₁.draw % s₁.params.hTotal
  let s₂ := s₁.drawn
  let frame := BitVec.ofNat 12 s₂.draw
  let s₃ := s₂.drawn
  s₃.setDev { s₃.dev with run, row, col, frame }

/-- A write of `CTRL` (R134): the two fields, and the engine's run state. -/
def writeCtrl (s : State) (v : Word) : State :=
  let s' := s.setCsr (s.csr.storeCtrl v)
  match s.dev.run with
  | .idle =>
    if v.getLsbD 0 then startScan (if v.getLsbD 7 then .running else .stopping) s' else s'
  | .running =>
    if v.getLsbD 7 then s'
    else s'.setDev { s.dev with run := if s.params.stopPolicy = .immediate then .idle else .stopping }
  | .stopping =>
    if v.getLsbD 0 && v.getLsbD 7 then s'.setDev { s.dev with run := .running } else s'

/-- A write of `BUF` (R138): the address, and whether the live buffer is the programmed one. -/
def writeBuf (s : State) (v : Word) : State :=
  let s' := s.setCsr { s.csr with buf := some v }
  if s.buf.live then s'.setBuf { s.buf with st := if v = s.buf.bus then .programmed else .allocated } else s'

/-- `write_effect` of R131, register by register (R134 to R140); with `SIM_REGS`, the whole word is stored (R143). -/
def writeEffect (s : State) (off : Nat) (v : Word) : State :=
  if s.params.simRegs then s.setSim (Table.write s.sim off v)
  else
    match regAt s.params.regMap off with
    | .ctrl      => writeCtrl s v
    | .gie       => s.setCsr (s.csr.storeGie v)
    | .ier       => s.setCsr (s.csr.storeIer v)
    | .isr       => s.setCsr (s.csr.clearIsr v)
    | .buf       => writeBuf s v
    | .coordData => s
    | .coordCtrl => s
    | .reserved  => s

/-- `MmioWrite(off, v)` once admitted: its effect, with the access recorded. -/
def csrWriteState (s : State) (off : Nat) (v : Word) : State :=
  (writeEffect s off v).addEvent (.csr s.agent off .write v)

/-- `MmioWrite(off, v)` inside operation `i` (R131): its checks, and then what the operation does next. -/
def mmioWrite (i : Instr) (off : Nat) (v : Word) (s : State) (k : State → State) : State :=
  match checkAccess s .write off with
  | some r => raiseFault i r (.offset off) s
  | none => k (csrWriteState s off v)

/-- Two writes in one step, in order (R275, R279). Both are checked before either is made, so that a fault is precise (R401). -/
def mmioWrite2 (i : Instr) (off₁ : Nat) (v₁ : Word) (off₂ : Nat) (v₂ : Word) (s : State) (k : State → State) : State :=
  match checkAccess s .write off₁, checkAccess s .write off₂ with
  | some r, _ => raiseFault i r (.offset off₁) s
  | none, some r => raiseFault i r (.offset off₂) s
  | none, none => k (csrWriteState (csrWriteState s off₁ v₁) off₂ v₂)

/-! ### Buffer reads -/

/-- The values a caller's read of one byte may return: the memory byte (`none` where it holds no value) and the caller's own
pending bytes (R83). -/
def byteChoices (s : State) (c : Caller) (off : Nat) : List (Option Byte) :=
  s.memByte off :: (pendingBytes c.wc off).map some

/-- The choice a read of one byte makes, by a draw where there is more than one. -/
def byteChoice (s : State) (c : Caller) (off : Nat) : Option Byte :=
  if (pendingBytes c.wc off).isEmpty then s.memByte off
  else (byteChoices s c off).getD (s.draw % (byteChoices s c off).length) none

/-- The state after that choice. -/
def byteChosen (s : State) (c : Caller) (off : Nat) : State :=
  if (pendingBytes c.wc off).isEmpty then s else s.drawn

/-- One byte of a caller's read (R83, R164): the chosen value, or any byte where the choice holds none (R59). -/
def loadByte (s : State) (c : Caller) (off : Nat) : Byte × State :=
  match byteChoice s c off with
  | some b => (b, byteChosen s c off)
  | none => (BitVec.ofNat 8 (byteChosen s c off).draw, (byteChosen s c off).drawn)

/-- `n` bytes of a caller's read from an offset on. -/
def loadBytes (c : Caller) : Nat → Nat → State → List Byte × State
  | _, 0, s => ([], s)
  | off, n + 1, s =>
    let b := loadByte s c off
    let r := loadBytes c (off + 1) n b.2
    (b.1 :: r.1, r.2)

/-- A caller's mapping admits its access: mapped, buffer live, aligned and in range (R164, R165). -/
def mappedAccessOk (s : State) (c : Caller) (off n : Nat) : Bool := c.mapped && s.buf.live && accessOk off n

/-! ### The scan engine -/

/-- One byte of a scanout read: `Buffer.mem` only (R84), any byte where it holds no value. -/
def scanByte (s : State) (off : Nat) : Byte × State :=
  match s.memByte off with
  | some b => (b, s)
  | none => (BitVec.ofNat 8 s.draw, s.drawn)

/-- The bytes of a scanout read. -/
def scanBytes : Nat → Nat → State → List Byte × State
  | _, 0, s => ([], s)
  | off, n + 1, s =>
    let b := scanByte s off
    let r := scanBytes (off + 1) n b.2
    (b.1 :: r.1, r.2)

/-- `scanout_read(b)` once admitted (R313): the word is the device's own, the address goes into the history. -/
def scanoutState (s : State) (b : Word) : State :=
  let r := scanBytes (b.toNat - s.buf.bus.toNat) 4 s
  (r.2.setDev { r.2.dev with scanWord := ofBytes r.1 }).addEvent (.scanout b)

/-- The liveness check of a scanout read of bus address `b` through `BUF = base`: the four bytes lie in the live buffer (R313); and,
with `bufMustBeBus`, `BUF` is that buffer's own bus address, any other failing whatever the sum (R376; log entry 34). -/
def scanoutLive (s : State) (base b : Word) : Bool :=
  s.buf.holdsBus b && (!s.params.bufMustBeBus || base == s.buf.bus)

/-- `scanout_read` at a scan offset (R311, R313): through `BUF`, modulo 2^32 (R376), or `Fault(DMA_NOT_LIVE)`. -/
def scanoutRead (i : Instr) (off : Nat) (s : State) (k : State → State) : State :=
  match s.csr.buf with
  | none => raiseFault i .dmaNotLive (.bus none) s
  | some base =>
    let b := base + BitVec.ofNat 32 off
    if scanoutLive s base b then k (scanoutState s b) else raiseFault i .dmaNotLive (.bus (some b)) s

/-- The next frame id (R312, D14). -/
def nextFrame (s : State) : BitVec 12 :=
  if s.params.frameIdIncrements then s.dev.frame + 1 else BitVec.ofNat 12 s.draw

/-- `frame_boundary()` of R312: frame id, per-frame cause, end of a stopping scan. -/
def frameBoundary (s : State) : State :=
  let s' := if s.params.frameIdIncrements then s else s.drawn
  (s'.setDev { s'.dev with frame := nextFrame s, run := if s'.dev.run = .stopping then .idle else s'.dev.run }).setCsr
    s'.csr.raiseFrame

/-- The column after this one (R311). -/
def nextCol (s : State) : Nat := if s.dev.col + 1 = s.params.hTotal then 0 else s.dev.col + 1

/-- The row after this position, before the wrap at the end of the frame (R311). -/
def nextRow (s : State) : Nat := if s.dev.col + 1 = s.params.hTotal then s.dev.row + 1 else s.dev.row

/-- The position step of R311, with the frame boundary where the last row ends. -/
def advancePos (s : State) : State :=
  if nextRow s = s.params.vTotal then frameBoundary (s.setDev { s.dev with col := nextCol s, row := 0 })
  else s.setDev { s.dev with col := nextCol s, row := nextRow s }

/-! ### Lifecycle -/

/-- `fail(e)` (45_lifecycle.md, common notation). -/
def failAttach (e : Code) (s : State) : State := s.setLc { s.lc with aborting := some e }

/-- The allocation of R162: addresses drawn under its law, no byte with a value, no mapping. -/
def allocBuffer (s : State) : State :=
  let cpu := bytesPerPixel * s.draw
  let s₁ := s.drawn
  let bus := BitVec.ofNat 32 (bytesPerPixel * (s₁.draw % ((2 ^ 32 - fbSize) / bytesPerPixel + 1)))
  let s₂ := s₁.drawn
  (s₂.setBuf { st := .allocated, cpu, bus, mem := [] }).mapCallers fun c => { c with mapped := false }

/-- `return code` of a lifecycle operation (R20, R403), noted in the history (R61). -/
def returnLifecycle (c : Code) (s : State) : State :=
  (s.addEvent (.ret .lifecycle (.code c))).setRet (.result (.code c))

/-- A lifecycle operation succeeds: the lifecycle record it leaves, and `OK` returned (R403; log entry 25). -/
def State.completeLc (s : State) (l : Lifecycle) : State := returnLifecycle .ok (s.setLc l)

/-- An empty palette. -/
def emptyPalette : List (Option Word) := List.replicate paletteEntries none

/-- Release every held resource, in reverse order of acquisition (R277): the buffer retires, the palette is gone, and the
ISR can no longer be delivered. -/
def releaseAll (s : State) : State :=
  let s₁ := if s.lc.res.pal then s.setPal emptyPalette else s
  let s₂ := if s.lc.res.buf then s₁.setBuf { s₁.buf with st := .retired } else s₁
  s₂.setLc { s₂.lc with res := {} }

/-- A new handle (R160, R284): the retired record stays as it is, and a new one starts at `None`. Beside `st` the spec states nothing
of the new record: `cpu` and `bus` 0, no byte with a value, and no mapping are DESIGN CHOICE (log entry 35). -/
def newHandle (s : State) : State :=
  let s' := { s with oldBufs := s.oldBufs ++ [s.buf] }
  (((s'.setBuf {}).setPal emptyPalette).mapCallers fun c => { c with mapped := false }).setLc
    { s'.lc with irqEnabled := false }

/-- A handle for an attach: a new one after a detach (R284) and wherever the last buffer is retired (R160, log entry 15). -/
def freshHandle (s : State) : State :=
  if s.lc.L = .detached ∨ s.buf.st = .retired then newHandle s else s

/-- Whether some caller is mid-operation or waits in `Q` (R278). -/
def State.inUse (s : State) : Bool := s.callers.any fun c => c.queued || c.pc != .cIdle

/-- Whether every `Wc_k` is empty (R280). -/
def State.allDrained (s : State) : Bool := s.callers.all fun c => c.wc.isEmpty

/-! ### The next step (R15, R16) -/

/-- The next scheduled step: its agent, operands and draws become the current ones, and time passes. -/
def fetch (s : State) : Option (Request × State) :=
  match s.sched with
  | [] => none
  | q :: rest =>
    some (q, { s with sched := rest, agent := q.agent, opnd := q.opnd, tape := q.draws, clock := s.clock + q.elapsed,
                      ret := .none })

/-- A request for a word, issued by an agent that owns its operation, with an empty operand record and no draws supplied. -/
def requestFor (w : OpWord) : Request :=
  { agent := ((decode w).map Instr.issuer).getD (.caller 0), word := w }

end Sys2Proof.Machine
end

