-- ==== Sys2Proof/Machine/BufferAccess.lean ====
section
/-!
DEFINITION. Family 2, buffer access (41_dma_buffer.md R164 to R166): a caller's mapped load and store, and the drain of its
pending writes.
-/

namespace Sys2Proof.Machine

/-- BUF_LOAD (R164): `n` bytes at the operand `off`, each the memory byte or an own pending one, as a zero-extended
little-endian word. Width code 3 is no operation (R113). -/
def execBufLoad (w : BitVec 2) (s : State) : Out :=
  if w = 3 then .refused (.undefinedWord (encode (.bufLoad w)))
  else asCallerAt .cIdle s fun _ c s =>
    if mappedAccessOk s c s.opnd.off (widthBytes w) then
      let r := loadBytes c s.opnd.off (widthBytes w) s
      r.2.setRet (.word (ofBytes r.1))
    else raiseFault (.bufLoad w) .bufAccess (.access s.opnd.off (widthBytes w)) s

/-- BUF_STORE (R165): append the `n` low bytes of the operand `v` to `Wc_k`; memory does not change at this step. Width code 3
is no operation (R113). -/
def execBufStore (w : BitVec 2) (s : State) : Out :=
  if w = 3 then .refused (.undefinedWord (encode (.bufStore w)))
  else asCallerAt .cIdle s fun k c s =>
    if mappedAccessOk s c s.opnd.off (widthBytes w) then
      s.modCaller k fun x =>
        { x with wc := x.wc ++ [{ off := s.opnd.off, bytes := bytesOf (widthBytes w) s.opnd.v }] }
    else raiseFault (.bufStore w) .bufAccess (.access s.opnd.off (widthBytes w)) s

/-- WC_DRAIN (R166): enabled while `Wc_k` is not empty. The drawn set of entries is written in `Wc_k` order where the buffer is
live, and leaves `Wc_k`. -/
def execWcDrain (s : State) : Out :=
  asWcDrain s fun k c s =>
    if c.wc.isEmpty then hold s
    else
      let e := drainChoice s.draw c.wc
      let s' := s.drawn.modCaller k fun x => { x with wc := undrained e }
      if s.buf.live then s'.setBuf { s.buf with mem := drainInto s.buf.mem (drained e) } else s'

end Sys2Proof.Machine
end

