-- ==== Sys2Proof/Machine/Consumer.lean ====
section
/-!
DEFINITION. Family 8, the consumer interface (47_consumer_interface.md R340 to R346). Every operation checks full initialization
first (`asConsumer`).
-/

namespace Sys2Proof.Machine

/-- FB_READ (R341): bytes from an offset, clipped at the end of the buffer. -/
def execFbRead (s : State) : Out :=
  asConsumer .fbRead s fun k c s =>
    if fbSize ≤ s.opnd.off then returnCaller k (.bytes []) s
    else
      let r := loadBytes c s.opnd.off (clip s.opnd.off s.opnd.n) s
      returnCaller k (.bytes r.1) r.2

/-- FB_WRITE (R342): bytes at an offset, clipped, through the write-combining path. -/
def execFbWrite (s : State) : Out :=
  asConsumer .fbWrite s fun k _ s =>
    if s.opnd.bytes.isEmpty then returnCaller k (.count 0) s
    else if fbSize ≤ s.opnd.off then returnCaller k (.code .eNospc) s
    else
      let m := clip s.opnd.off s.opnd.bytes.length
      returnCaller k (.count m)
        (s.modCaller k fun x => { x with wc := x.wc ++ byteEntries s.opnd.off (s.opnd.bytes.take m) })

/-- FB_MMAP (R343): map the whole buffer into the caller. -/
def execFbMmap (s : State) : Out :=
  asConsumer .fbMmap s fun k _ s =>
    if s.opnd.len = 0 ∨ fbSize < s.opnd.len then returnCaller k (.code .eInval) s
    else returnCaller k (.code .ok) (s.modCaller k fun x => { x with mapped := true })

/-- FB_CHECK_VAR (R344): geometry negotiation. -/
def execFbCheckVar (s : State) : Out :=
  asConsumer .fbCheckVar s fun k _ s =>
    if varAccepted s.opnd.var then returnCaller k (.geometry (varGranted s.opnd.var)) s
    else returnCaller k (.code .eInval) s

/-- FB_SETCOLREG (R345): write one palette entry, packed by the OPEN function `PACK_COLOR`. -/
def execFbSetcolreg (idx : BitVec 8) (s : State) : Out :=
  asConsumer (.fbSetcolreg idx) s fun k _ s =>
    if paletteEntries ≤ idx.toNat then returnCaller k (.code .eInval) s
    else
      returnCaller k (.code .ok)
        (s.setPal (s.pal.set idx.toNat
          (some (Config.packColor s.opnd.red s.opnd.green s.opnd.blue s.opnd.transp))))

/-- Q_FRAMEPOS (R346): the frame-position query begins. -/
def execQFramepos (s : State) : Out :=
  asConsumer .qFramepos s fun k _ s =>
    s.modCaller k fun x => { x with dstOk := s.opnd.dstOk, pc := .cPoll 0 .framePos }

end Sys2Proof.Machine
end

