-- ==== Sys2Proof/Machine/Coordinate.lean ====
section
/-!
DEFINITION. Family 3, the coordinate decoder (42_coordinate_decoder.md R190 to R192).
-/

namespace Sys2Proof.Machine

/-- Whether another poll is allowed after iteration `i` (R190). -/
def pollAgain (b : PollBound) (i : Nat) : Bool :=
  match b with
  | .bounded n => decide (i + 1 < n)
  | .unbounded => true

/-- The poll's bound is reached (R190): a waiter leaves the queue, and the operation returns `E_HWPOLL`. -/
def pollExhausted (k : Nat) (K : Cont) (s : State) : State :=
  returnCaller k (.code .eHwpoll)
    (match K with
      | .wait => s.modCaller k fun x => { x with queued := false, tarmed := false, texp := false }
      | .framePos => s)

/-- COORD_POLL (R190): one read of `COORD_CTRL`, which clears `VALID`. -/
def execCoordPoll (s : State) : Out :=
  asCaller s fun k c s =>
    match c.pc with
    | .cPoll i K =>
      mmioRead .coordPoll s.params.regMap.coordCtrl s fun r t =>
        if r &&& validMask ≠ 0 then t.modCaller k fun x => { x with pc := .cData K }
        else if pollAgain s.params.pollMax i then t.modCaller k fun x => { x with pc := .cPoll (i + 1) K }
        else pollExhausted k K t
    | _ => hold s

/-- What a decoded coordinate does next (R191): a frame-position query returns, a wait goes on to its check. -/
def coordDecoded (k : Nat) (dstOk : Bool) (K : Cont) (w : Word) (s : State) : State :=
  let s' := s.modCaller k fun x => { x with w, coord := unpack w }
  match K with
  | .wait => s'.modCaller k fun x => { x with pc := .cDecide }
  | .framePos =>
    if dstOk then
      returnCaller k (.framePos (unpack w) (classify (unpack w)))
        (s'.modCaller k fun x => { x with res := some (unpack w, classify (unpack w)) })
    else returnCaller k (.code .eFault) s'

/-- COORD_READ (R191): one read of `COORD_DATA`, unpacked and classified. -/
def execCoordRead (s : State) : Out :=
  asCaller s fun k c s =>
    match c.pc with
    | .cData K => mmioRead .coordRead s.params.regMap.coordData s fun w t => coordDecoded k c.dstOk K w t
    | _ => hold s

/-- COORD_CLASSIFY (R192): a pure function of its operand; it changes no state but the value it returns. -/
def execCoordClassify (s : State) : Out :=
  asCallerAt .cIdle s fun _ _ s => s.setRet (.cls (classify s.opnd.coord))

end Sys2Proof.Machine
end

