-- ==== Sys2Proof/Machine/CsrAccess.lean ====
section
/-!
DEFINITION. Family 1, CSR access (40_register_interface.md R130 to R132). The checks, values and effects of an access are
`mmioRead` and `mmioWrite` of Ops.
-/

namespace Sys2Proof.Machine

/-- CSR_READ (R130): the checked read of the register at `off = zext_32(arg)`; its value is returned. -/
def execCsrRead (off : BitVec 8) (s : State) : Out :=
  asCsrMaster s fun s => mmioRead (.csrRead off) off.toNat s fun x t => t.setRet (.word x)

/-- CSR_WRITE (R131): the checked write of the operand `v`. -/
def execCsrWrite (off : BitVec 8) (s : State) : Out :=
  asCsrMaster s fun s => mmioWrite (.csrWrite off) off.toNat s.opnd.v s id

end Sys2Proof.Machine
end

