-- ==== Sys2Proof/Machine/Interrupt.lean ====
section
/-!
DEFINITION. Family 4, the frame-sync interrupt service (43_isr.md R210 to R215).
-/

namespace Sys2Proof.Machine

/-- IRQ_DELIVER (R210): enabled while the ISR is installed and idle, whatever the line is. -/
def execIrqDeliver (s : State) : Out :=
  asPlatform s fun s => if s.lc.res.irq ∧ s.isr.pc = .iIdle then isrEnter s else hold s

/-- ISR_CHECK (R212): read `CTRL`; return `IRQ_NOT_MINE` where INT_PENDING is clear. -/
def execIsrCheck (s : State) : Out :=
  asIsrAt .iCheck s fun s =>
    mmioRead .isrCheck s.params.regMap.ctrl s fun c t =>
      if c &&& intPendingMask = 0 then isrReturn .notMine t else t.setIsr { t.isr with pc := .iStatus }

/-- ISR_STATUS (R213): read `ISR`. Zero is a fatal inconsistency; a word other than `FRAME_MASK` counts one anomaly. -/
def execIsrStatus (s : State) : Out :=
  asIsrAt .iStatus s fun s =>
    mmioRead .isrStatus s.params.regMap.isr s fun v t =>
      if v = 0 then raiseFault .isrStatus .hwInconsistent (.status v) t
      else t.setIsr { pc := .iWake, s := v, anomaly := if v = frameMask then t.isr.anomaly else t.isr.anomaly + 1 }

/-- ISR_WAKE (R214): wake every queued caller in one step. -/
def execIsrWake (s : State) : Out :=
  asIsrAt .iWake s fun s => (wakeAll s).setIsr { s.isr with pc := .iAck }

/-- ISR_ACK (R215): write back exactly the word read, and return `IRQ_HANDLED`. -/
def execIsrAck (s : State) : Out :=
  asIsrAt .iAck s fun s => mmioWrite .isrAck s.params.regMap.isr s.isr.s s fun t => isrReturn .handled t

end Sys2Proof.Machine
end

