-- ==== Sys2Proof/Machine/LifecycleSteps.lean ====
section
/-!
DEFINITION. Family 6, the device lifecycle (45_lifecycle.md R270 to R284): attach, abort and detach. Every step but LC_ABORT is
admitted only while no failed attach awaits its rollback (common notation of 45_lifecycle.md).
-/

namespace Sys2Proof.Machine

/-- The admission of an attach or detach step: no error awaits its rollback, and the handle is where the step starts. -/
def lcAt (s : State) (here : Bool) : Bool := s.lc.aborting.isNone && here

/-- LC_MAP (R270, R284): allocate the handle and map the register block, or fail. -/
def execLcMap (s : State) : Out :=
  asLifecycle .lcMap s (lcAt s (s.lc.L == .unattached || s.lc.L == .detached)) fun s =>
    match s.drawResult [.eNomem, .eUnavail] with
    | some e => failAttach e s.drawn
    | none =>
      let t := freshHandle s.drawn
      t.drawn.completeLc
        { t.lc with regBase := t.draw, res := { handle := true, regs := true }, L := .registersMapped }

/-- LC_ALLOC_BUF (R271, R162): allocate the DMA buffer, or fail. -/
def execLcAllocBuf (s : State) : Out :=
  asLifecycle .lcAllocBuf s (lcAt s (s.lc.L == .registersMapped)) fun s =>
    match s.drawResult [.eNomem] with
    | some e => failAttach e s.drawn
    | none =>
      (allocBuffer s.drawn).completeLc { s.lc with res := { s.lc.res with buf := true }, L := .bufferAllocated }

/-- LC_ALLOC_PAL (R272): allocate the palette, or fail. -/
def execLcAllocPal (s : State) : Out :=
  asLifecycle .lcAllocPal s (lcAt s (s.lc.L == .bufferAllocated)) fun s =>
    match s.drawResult [.eNomem] with
    | some e => failAttach e s.drawn
    | none =>
      (s.drawn.setPal emptyPalette).completeLc { s.lc with res := { s.lc.res with pal := true }, L := .paletteAllocated }

/-- LC_INSTALL_ISR (R273): register the ISR on the line, or fail. -/
def execLcInstallIsr (s : State) : Out :=
  asLifecycle .lcInstallIsr s (lcAt s (s.lc.L == .paletteAllocated)) fun s =>
    match s.drawResult [.eUnavail] with
    | some e => failAttach e s.drawn
    | none => s.drawn.completeLc { s.lc with res := { s.lc.res with irq := true }, L := .interruptArmed }

/-- LC_PUBLISH (R274): write `BUF`, then register the consumer interface, or fail with the write made. -/
def execLcPublish (s : State) : Out :=
  asLifecycle .lcPublish s (lcAt s (s.lc.L == .interruptArmed)) fun s =>
    mmioWrite .lcPublish s.params.regMap.buf s.buf.bus s fun t =>
      match t.drawResult [.eNomem, .eUnavail] with
      | some e => failAttach e t.drawn
      | none => t.drawn.completeLc { t.lc with res := { t.lc.res with fbdev := true }, L := .published }

/-- LC_ENABLE_IRQ (R275): `GIE` and then `IER` on, in one step. -/
def execLcEnableIrq (s : State) : Out :=
  asLifecycle .lcEnableIrq s (lcAt s (s.lc.L == .published && !s.lc.irqEnabled)) fun s =>
    mmioWrite2 .lcEnableIrq s.params.regMap.gie gieOn s.params.regMap.ier ierOn s fun t =>
      t.completeLc { t.lc with irqEnabled := true }

/-- LC_START (R276): start the device; the handle is fully initialized. -/
def execLcStart (s : State) : Out :=
  asLifecycle .lcStart s (lcAt s (s.lc.L == .published && s.lc.irqEnabled)) fun s =>
    mmioWrite .lcStart s.params.regMap.ctrl ctrlStartCmd s fun t =>
      t.completeLc { t.lc with L := .running, phase := .none }

/-- LC_ABORT (R277): admitted while a failed attach awaits its rollback; holds while an installed ISR runs; releases
everything and returns the error. -/
def execLcAbort (s : State) : Out :=
  asLifecycle .lcAbort s s.lc.aborting.isSome fun s =>
    if s.lc.res.irq ∧ s.isr.pc ≠ .iIdle then hold s
    else
      let t := releaseAll s
      returnLifecycle (s.lc.aborting.getD .ok)
        (t.setLc { t.lc with irqEnabled := false, L := .unattached, aborting := none })

/-- LC_DETACH_STOP (R278): stop the device, unless some caller is mid-operation or queued. -/
def execLcDetachStop (s : State) : Out :=
  asLifecycle .lcDetachStop s (lcAt s (s.lc.L == .running && s.lc.phase == .none)) fun s =>
    if s.inUse then raiseFault .lcDetachStop .detachInUse .opWord s
    else
      mmioWrite .lcDetachStop s.params.regMap.ctrl ctrlStopCmd s fun t => t.completeLc { t.lc with phase := .stopped }

/-- LC_DETACH_DISABLE (R279): `GIE` and then `IER` off, in one step. -/
def execLcDetachDisable (s : State) : Out :=
  asLifecycle .lcDetachDisable s (lcAt s (s.lc.L == .running && s.lc.phase == .stopped)) fun s =>
    mmioWrite2 .lcDetachDisable s.params.regMap.gie gieOff s.params.regMap.ier ierOff s fun t =>
      t.completeLc { t.lc with irqEnabled := false, phase := .disabled }

/-- LC_DETACH_RELEASE (R280): holds until the ISR is idle and every `Wc_k` is empty; then releases everything and removes every
mapping. -/
def execLcDetachRelease (s : State) : Out :=
  asLifecycle .lcDetachRelease s (lcAt s (s.lc.L == .running && s.lc.phase == .disabled)) fun s =>
    if s.isr.pc = .iIdle ∧ s.allDrained then
      let t := (releaseAll s).mapCallers fun c => { c with mapped := false }
      t.completeLc { t.lc with L := .detached, phase := .none }
    else hold s

end Sys2Proof.Machine
end

