-- ==== Sys2Proof/Machine/ScanEngine.lean ====
section
/-!
DEFINITION. Family 7, the scan engine (46_scan_engine.md R310 to R315).
-/

namespace Sys2Proof.Machine

/-- DEV_ADVANCE (R311): scan one position, reading the buffer where it is visible. -/
def execDevAdvance (s : State) : Out :=
  asScanning s fun s =>
    if visible s.dev.row s.dev.col then
      scanoutRead .devAdvance (scanOffset s.dev.row s.dev.col) s advancePos
    else advancePos s

/-- DEV_LATCH (R315): publish the scan position. -/
def execDevLatch (s : State) : Out :=
  asScanning s fun s =>
    s.setCsr (s.csr.latch (pack s.dev.frame (BitVec.ofNat 10 s.dev.row) (BitVec.ofNat 10 s.dev.col)))

end Sys2Proof.Machine
end

