-- ==== Sys2Proof/Machine/WaitVblank.lean ====
section
/-!
DEFINITION. Family 5, the wait for vertical blank (44_wait_vblank.md R240 to R245, R250).
-/

namespace Sys2Proof.Machine

/-- WAIT_ENTER (R240): the wait begins and its timer is armed. The timeout and the time of entry serve R250 only. -/
def execWaitEnter (s : State) : Out :=
  asConsumer .waitEnter s fun k _ s =>
    s.modCaller k fun x =>
      { x with tarmed := true, texp := false, pc := .cWreg,
               timeout := s.opnd.timeout.getD s.params.waitTimeout, entered := s.clock }

/-- WAIT_REGISTER (R241): join the queue before the first check, in one step. -/
def execWaitRegister (s : State) : Out :=
  asCallerAt .cWreg s fun k _ s =>
    s.modCaller k fun x => { x with queued := true, woken := false, pc := .cPoll 0 .wait }

/-- WAIT_CHECK (R242): vertical blank, then a signal, then the timeout, else sleep. -/
def execWaitCheck (s : State) : Out :=
  asCallerAt .cDecide s fun k c s =>
    if (classify c.coord).vblank then leaveWait k .ok s
    else if c.sig then leaveWait k .eIntr (s.modCaller k fun x => { x with sig := false })
    else if c.texp then leaveWait k .eTimedout s
    else s.modCaller k fun x => { x with pc := .cSleep }

/-- WAIT_SLEEP (R243): holds until woken, signalled or expired; then the predicate is checked again. -/
def execWaitSleep (s : State) : Out :=
  asCallerAt .cSleep s fun k c s =>
    if c.woken || c.sig || c.texp then s.modCaller k fun x => { x with woken := false, pc := .cPoll 0 .wait }
    else hold s

/-- Whether a timer may expire (R244); with `TIMED`, only once the timeout has elapsed since WAIT_ENTER (R250). -/
def timerMayExpire (s : State) (c : Caller) : Bool :=
  c.tarmed && !c.texp && (!s.params.timed || decide (c.entered + c.timeout ≤ s.clock))

/-- TIMER_EXPIRE (R244): the wait's timeout elapses. -/
def execTimerExpire (s : State) : Out :=
  asTimer s fun k c s => if timerMayExpire s c then s.modCaller k fun x => { x with texp := true } else hold s

/-- SIGNAL_DELIVER (R245): an external interruption, pending until a wait returns `E_INTR`. -/
def execSignalDeliver (s : State) : Out :=
  asSignal s fun k c s => if c.sig then hold s else s.modCaller k fun x => { x with sig := true }

end Sys2Proof.Machine
end

