-- ==== Sys2Proof/Machine/Dispatch.lean ====
section
/-!
DEFINITION. The dispatch: one arm per row of the operation table, each one direct call of that operation's meaning.
-/

namespace Sys2Proof.Machine

/-- The meaning of one operation, taken by `s.agent` with the operand record and draws that `s` holds. -/
def exec (i : Instr) (s : State) : Host.Outcome State Fault Refusal :=
  match i with
  | .csrRead off => Sys2Proof.Machine.execCsrRead off s
  | .csrWrite off => Sys2Proof.Machine.execCsrWrite off s
  | .bufLoad w => Sys2Proof.Machine.execBufLoad w s
  | .bufStore w => Sys2Proof.Machine.execBufStore w s
  | .wcDrain => Sys2Proof.Machine.execWcDrain s
  | .coordPoll => Sys2Proof.Machine.execCoordPoll s
  | .coordRead => Sys2Proof.Machine.execCoordRead s
  | .coordClassify => Sys2Proof.Machine.execCoordClassify s
  | .irqDeliver => Sys2Proof.Machine.execIrqDeliver s
  | .isrCheck => Sys2Proof.Machine.execIsrCheck s
  | .isrStatus => Sys2Proof.Machine.execIsrStatus s
  | .isrWake => Sys2Proof.Machine.execIsrWake s
  | .isrAck => Sys2Proof.Machine.execIsrAck s
  | .waitEnter => Sys2Proof.Machine.execWaitEnter s
  | .waitRegister => Sys2Proof.Machine.execWaitRegister s
  | .waitCheck => Sys2Proof.Machine.execWaitCheck s
  | .waitSleep => Sys2Proof.Machine.execWaitSleep s
  | .timerExpire => Sys2Proof.Machine.execTimerExpire s
  | .signalDeliver => Sys2Proof.Machine.execSignalDeliver s
  | .lcMap => Sys2Proof.Machine.execLcMap s
  | .lcAllocBuf => Sys2Proof.Machine.execLcAllocBuf s
  | .lcAllocPal => Sys2Proof.Machine.execLcAllocPal s
  | .lcInstallIsr => Sys2Proof.Machine.execLcInstallIsr s
  | .lcPublish => Sys2Proof.Machine.execLcPublish s
  | .lcEnableIrq => Sys2Proof.Machine.execLcEnableIrq s
  | .lcStart => Sys2Proof.Machine.execLcStart s
  | .lcAbort => Sys2Proof.Machine.execLcAbort s
  | .lcDetachStop => Sys2Proof.Machine.execLcDetachStop s
  | .lcDetachDisable => Sys2Proof.Machine.execLcDetachDisable s
  | .lcDetachRelease => Sys2Proof.Machine.execLcDetachRelease s
  | .devAdvance => Sys2Proof.Machine.execDevAdvance s
  | .devLatch => Sys2Proof.Machine.execDevLatch s
  | .fbRead => Sys2Proof.Machine.execFbRead s
  | .fbWrite => Sys2Proof.Machine.execFbWrite s
  | .fbMmap => Sys2Proof.Machine.execFbMmap s
  | .fbCheckVar => Sys2Proof.Machine.execFbCheckVar s
  | .fbSetcolreg idx => Sys2Proof.Machine.execFbSetcolreg idx s
  | .qFramepos => Sys2Proof.Machine.execQFramepos s

end Sys2Proof.Machine
end

