-- ==== Sys2Proof/Machine/Step.lean ====
section
/-!
DEFINITION. One step of the machine (R15, R16): the next scheduled step's word is decoded and, if its agent owns the operation,
executed. There is no instruction fetch from memory (R21, R90); the schedule in `State.sched` stands for the free choice of
which agent steps next.
-/

namespace Sys2Proof.Machine

/-- One step. With nothing scheduled no agent takes a step and the state stays as it is (log entry 1). -/
def step (s : State) : Host.Outcome State Fault Refusal :=
  match fetch s with
  | none => .next s
  | some (q, s') =>
    match decode q.word with
    | none => .refused (.undefinedWord q.word)
    | some i => if i.issuedBy q.agent then exec i s' else .refused .wrongAgent

/-- The state in which the very next step is the operation whose bits are `w`, issued by an agent that owns it (log entry 2). -/
def State.withFetchWord (s : State) (nbits w : Nat) : State :=
  { s with sched := requestFor (BitVec.ofNat 16 (w % 2 ^ nbits)) :: s.sched }

end Sys2Proof.Machine
end

