-- ==== Sys2Proof/Safety.lean ====
section
/-!
DEFINITION. What counts as a safe run (R62), and the invariants of the machine that the statements for the provers use: memory's
canonical form and range, the raster (R310), the lifecycle's resources (R285), what use of the handle implies (R286, R289),
the wait queue (R87, R249), the poll bound (R375), and the cause the ISR services (R213, R215).
-/

namespace Sys2Proof.Machine

/-- No fault is recorded (R62). -/
abbrev State.Successful (s : State) : Prop := s.faults = []

/-! ### Memory -/

/-- Every memory and table of the machine is in its canonical form. -/
abbrev State.MemCanonical (s : State) : Prop :=
  s.buf.mem.wf ∧ (∀ b ∈ s.oldBufs, b.mem.wf) ∧ Table.wf s.sim

/-- Every listed byte and every pending write lies inside the buffer (R45, R72). -/
abbrev State.MemInRange (s : State) : Prop :=
  (∀ p ∈ s.buf.mem, p.1 < fbSize) ∧ ∀ c ∈ s.callers, ∀ e ∈ c.wc, e.off + e.bytes.length ≤ fbSize

/-- A live buffer's bus address is aligned and leaves room for the whole buffer (R162), and `Programmed` means `BUF = bus`
(R45). -/
abbrev State.BusLawful (s : State) : Prop :=
  (s.buf.live → s.buf.bus.toNat % 4 = 0 ∧ s.buf.bus.toNat + fbSize ≤ 2 ^ 32)
    ∧ (s.buf.st = .programmed → s.csr.buf = some s.buf.bus)

/-- The palette has its 16 entries (R47). -/
abbrev State.PaletteSized (s : State) : Prop := s.pal.length = paletteEntries

/-! ### The raster -/

/-- The scan position is a position of the raster (R44, R310). -/
abbrev State.ScanInRange (s : State) : Prop := s.dev.row < s.params.vTotal ∧ s.dev.col < s.params.hTotal

/-! ### The lifecycle -/

/-- The resources held at each lifecycle state (R281, R285). -/
def heldAt : LcState → Resources
  | .unattached       => {}
  | .registersMapped  => { handle := true, regs := true }
  | .bufferAllocated  => { handle := true, regs := true, buf := true }
  | .paletteAllocated => { handle := true, regs := true, buf := true, pal := true }
  | .interruptArmed   => { handle := true, regs := true, buf := true, pal := true, irq := true }
  | .published        => { handle := true, regs := true, buf := true, pal := true, irq := true, fbdev := true }
  | .running          => { handle := true, regs := true, buf := true, pal := true, irq := true, fbdev := true }
  | .detached         => {}

/-- The lifecycle states at which an attach step may have failed (R281). -/
def LcState.mayAbort : LcState → Bool
  | .published | .running => false
  | _ => true

/-- The resource invariants of R285, with what keeps them: `res` is what `L` holds, the buffer is live exactly while `BUF` is
held, interrupts are enabled only from LC_ENABLE_IRQ to LC_DETACH_DISABLE, an error awaits its rollback only where a step can
fail, and a detach is under way only at `RUNNING`. -/
abbrev State.ResourcesMatch (s : State) : Prop :=
  s.lc.res = heldAt s.lc.L
    ∧ (s.lc.res.buf = s.buf.live)
    ∧ (s.lc.irqEnabled → s.lc.res.fbdev)
    ∧ (s.lc.phase = .disabled → s.lc.irqEnabled = false)
    ∧ (s.lc.aborting.isSome → s.lc.L.mayAbort)
    ∧ (s.lc.phase ≠ .none → s.lc.L = .running)

/-- Whether a caller is inside an operation of several steps. -/
def CallerPc.midOperation : CallerPc → Bool
  | .cIdle | .cStuck => false
  | _ => true

/-- Whether the ISR is inside an invocation. -/
def IsrPc.serving : IsrPc → Bool
  | .iIdle | .iStuck => false
  | _ => true

/-- What use of the handle implies (R278, R280, R285, R286): a caller is mid-operation only while the handle is fully
initialized, a mapping or a pending pixel write exists only at `RUNNING`, and the ISR runs only while it is installed. -/
abbrev State.UseNeedsHandle (s : State) : Prop :=
  (∀ c ∈ s.callers, (c.pc.midOperation → s.lc.L = .running ∧ s.lc.phase = .none)
      ∧ (c.mapped → s.lc.L = .running) ∧ (c.wc ≠ [] → s.lc.L = .running))
    ∧ (s.isr.pc.serving → s.lc.res.irq)

/-! ### The wait queue -/

/-- Whether a caller is between WAIT_REGISTER and the return of its wait. -/
def CallerPc.waiting : CallerPc → Bool
  | .cPoll _ .wait | .cData .wait | .cDecide | .cSleep => true
  | _ => false

/-- A caller is in `Q` exactly while it waits (R241, R242), but for one that a fault left stuck; its timer runs only during a
wait (R240, R242, R190), and has expired only if it runs (R244). -/
abbrev State.QueueMatches (s : State) : Prop :=
  ∀ c ∈ s.callers,
    (c.pc.waiting → c.queued) ∧ (c.queued → c.pc.waiting ∨ c.pc = .cStuck)
      ∧ (c.tarmed → c.pc.waiting ∨ c.pc = .cWreg ∨ c.pc = .cStuck) ∧ (c.texp → c.tarmed)

/-- The poll index of a location. -/
def CallerPc.pollIndex : CallerPc → Option Nat
  | .cPoll i _ => some i
  | _ => none

/-- Whether an index is below the bound. -/
def pollAbove : PollBound → Nat → Bool
  | .bounded n, i => decide (i < n)
  | .unbounded, _ => true

/-- The poll index counts `0 … POLL_MAX − 1` (R375). -/
abbrev State.PollsBounded (s : State) : Prop :=
  ∀ c ∈ s.callers, ∀ i ∈ c.pc.pollIndex, pollAbove s.params.pollMax i

/-! ### The ISR -/

/-- On faithful hardware the ISR's cause stays until it is acknowledged: at ISR_STATUS some cause is set, and every bit the ISR
will write back is still 1 (R213, R215). -/
abbrev State.CauseHeld (s : State) : Prop :=
  (s.isr.pc = .iStatus → s.csr.isrWord ≠ 0)
    ∧ (s.isr.pc = .iWake ∨ s.isr.pc = .iAck → s.isr.s ≠ 0 ∧ s.isr.s &&& ~~~ s.csr.isrWord = 0)

/-- The hardware of the spec's normal case: faithful, not the simulated block. -/
abbrev State.Faithful (s : State) : Prop := s.params.hwFaithful = true ∧ s.params.simRegs = false

/-! ### Conditions on the state that steps start from -/

/-- A caller takes the step, and its record is `c`. -/
abbrev State.ByCaller (s : State) (k : Nat) (c : Caller) : Prop := s.agent = .caller k ∧ s.callers[k]? = some c

/-- The lifecycle agent takes the step and no fault has left it stuck. -/
abbrev State.ByLifecycle (s : State) : Prop := s.agent = .lifecycle ∧ s.lc.stuck = false

/-- The device takes the step, scans, and no fault has left it stuck (R311, R402). -/
abbrev State.ByScanner (s : State) : Prop := s.agent = .device ∧ s.dev.run ≠ .idle ∧ s.dev.stuck = false

/-- An agent that may issue a CSR operation now: the lifecycle agent, or a caller at `C_IDLE` (R110, R370). -/
abbrev State.CsrMaster (s : State) : Prop :=
  s.ByLifecycle ∨ ∃ k c, s.ByCaller k c ∧ c.pc = .cIdle

/-- The hardware's register block is mapped, under an admissible map (not the simulated block of R143). -/
abbrev State.CsrReady (s : State) : Prop := s.params.regMap.wf = true ∧ s.lc.res.regs = true ∧ s.params.simRegs = false

/-- A byte offset legal for a CSR access (R101). -/
abbrev State.LegalOffset (s : State) (off : BitVec 8) : Prop := off.toNat % 4 = 0 ∧ off.toNat < s.params.regMap.len

/-- A fault left the agent of the step stuck (R402). -/
def State.agentStuck (s : State) : Bool :=
  match s.agent with
  | .caller k  => (s.callers[k]?).any fun c => c.pc == .cStuck
  | .isr       => s.isr.pc == .iStuck
  | .lifecycle => s.lc.stuck
  | .device    => s.dev.stuck
  | _          => false

/-! ### What a step leaves unchanged -/

/-- The register block and the scan engine. -/
abbrev SameDevice (s t : State) : Prop := t.csr = s.csr ∧ t.sim = s.sim ∧ t.dev = s.dev

/-- The buffer records, every byte of the buffer, and the palette. -/
abbrev SameBuffer (s t : State) : Prop :=
  t.buf = s.buf ∧ t.oldBufs = s.oldBufs ∧ t.pal = s.pal ∧ ∀ a, t.memByte a = s.memByte a

/-- The lifecycle and the ISR. -/
abbrev SameControl (s t : State) : Prop := t.lc = s.lc ∧ t.isr = s.isr

/-- The parameters, the schedule and the step's own agent and operands. -/
abbrev SameRun (s t : State) : Prop :=
  t.params = s.params ∧ t.clock = s.clock ∧ t.sched = s.sched ∧ t.agent = s.agent ∧ t.opnd = s.opnd

/-- The event history and the fault records. -/
abbrev SameLog (s t : State) : Prop := t.history = s.history ∧ t.faults = s.faults

/-- A step that is not enabled (R20 `hold`): nothing changes. That it is shown as a next state with the model's own returned value
`held` is log entries 6 and 12. -/
abbrev Waits (s : State) (o : Out) : Prop := o = .next { s with ret := .held }

/-- A step that raises a fault (R20, R400 to R402): the record, the raising agent stuck, nothing else changed. -/
def TakesFault (i : Instr) (r : FaultReason) (d : Datum) (s : State) (o : Out) : Prop :=
  ∃ t, o = .next t
    ∧ t.faults = s.faults ++ [{ reason := r, agent := s.agent, word := encode i, datum := d }]
    ∧ (match s.agent with
        | .caller k  => t.callers = s.callers.modify k (fun c => { c with pc := .cStuck })
                          ∧ t.isr = s.isr ∧ t.lc = s.lc ∧ t.dev = s.dev
        | .isr       => t.isr = { s.isr with pc := .iStuck } ∧ t.callers = s.callers ∧ t.lc = s.lc ∧ t.dev = s.dev
        | .lifecycle => t.lc = { s.lc with stuck := true } ∧ t.callers = s.callers ∧ t.isr = s.isr ∧ t.dev = s.dev
        | .device    => t.dev = { s.dev with stuck := true } ∧ t.callers = s.callers ∧ t.isr = s.isr ∧ t.lc = s.lc
        | _ => False)
    ∧ t.csr = s.csr ∧ t.sim = s.sim ∧ t.history = s.history ∧ SameBuffer s t ∧ SameRun s t

/-! ### What a register reads as -/

/-- The value of a read on faithful hardware (R133): every bit that holds or derives a value has it, every reserved bit is 0,
and DONE, READY, the reserved word, and BUF and COORD_DATA without a value are any value. -/
def ReadsAs (s : State) (r : CsrReg) (x : Word) : Prop :=
  match r with
  | .ctrl      => x.getLsbD 0 = s.csr.start ∧ x.getLsbD 2 = decide (s.dev.run = .idle) ∧ x.getLsbD 7 = s.csr.autoRestart
                    ∧ x.getLsbD 9 = s.csr.irqLine ∧ ∀ b, b ∉ [0, 1, 2, 3, 7, 9] → x.getLsbD b = false
  | .gie       => x.getLsbD 0 = s.csr.gieEnable ∧ ∀ b, 1 ≤ b → x.getLsbD b = false
  | .ier       => x.getLsbD 0 = s.csr.frameEn ∧ x.getLsbD 1 = s.csr.auxEn ∧ ∀ b, 2 ≤ b → x.getLsbD b = false
  | .isr       => x.getLsbD 0 = s.csr.isrFrame ∧ x.getLsbD 1 = s.csr.isrAux ∧ ∀ b, 2 ≤ b → x.getLsbD b = false
  | .buf       => ∀ v, s.csr.buf = some v → x = v
  | .coordData => ∀ v, s.csr.coordData = some v → x = v
  | .coordCtrl => x.getLsbD 0 = s.csr.valid ∧ ∀ b, 1 ≤ b → x.getLsbD b = false
  | .reserved  => True

/-- The value of a read on hardware that is not faithful (R133): INT_PENDING, all of ISR and COORD_CTRL, and every reserved bit are any
value too (R35, R38, R41, R42; log entry 18), and the other stored and derived bits are as on faithful hardware. -/
def ReadsAsUnfaithful (s : State) (r : CsrReg) (x : Word) : Prop :=
  match r with
  | .ctrl      => x.getLsbD 0 = s.csr.start ∧ x.getLsbD 2 = decide (s.dev.run = .idle) ∧ x.getLsbD 7 = s.csr.autoRestart
  | .gie       => x.getLsbD 0 = s.csr.gieEnable
  | .ier       => x.getLsbD 0 = s.csr.frameEn ∧ x.getLsbD 1 = s.csr.auxEn
  | .buf       => ∀ v, s.csr.buf = some v → x = v
  | .coordData => ∀ v, s.csr.coordData = some v → x = v
  | .isr | .coordCtrl | .reserved => True

/-- Every value that a read of a legal offset may return: on the hardware as R133 says, faithful or not, and in the simulated block
the last word written there, or any word before one (R143). -/
def CanReadAs (s : State) (off : Nat) (x : Word) : Prop :=
  if s.params.simRegs = true then ∀ v, Table.read s.sim off = some v → x = v
  else if s.params.hwFaithful = true then ReadsAs s (regAt s.params.regMap off) x
  else ReadsAsUnfaithful s (regAt s.params.regMap off) x

/-- A byte that a caller's read of one offset may return (R83, R164): the memory byte, any byte where memory holds no value, or
a byte of an own pending write. -/
abbrev AllowedByte (s : State) (c : Caller) (a : Nat) (b : Byte) : Prop :=
  s.memByte a = some b ∨ s.memByte a = none ∨ b ∈ pendingBytes c.wc a

/-- A set of pending entries that may drain in one step (R166), the entries in it marked `true`: not empty, and with no entry
outside it that writes, earlier, a byte of one in it. -/
abbrev DrainSet (wc : List WcEntry) (l : List (Bool × WcEntry)) : Prop :=
  l.map (fun p => p.2) = wc ∧ (∃ p ∈ l, p.1 = true)
    ∧ l.Pairwise fun p q => ∀ a, q.1 = true → p.2.covers a = true → q.2.covers a = true → p.1 = true

/-! ### Admission of the lifecycle steps (R270 to R280, R281) -/

/-- Where each lifecycle operation is enabled, its hold conditions apart (R283). -/
def lcAdmitted (s : State) : Instr → Bool
  | .lcMap           => s.lc.aborting.isNone && (s.lc.L == .unattached || s.lc.L == .detached)
  | .lcAllocBuf      => s.lc.aborting.isNone && s.lc.L == .registersMapped
  | .lcAllocPal      => s.lc.aborting.isNone && s.lc.L == .bufferAllocated
  | .lcInstallIsr    => s.lc.aborting.isNone && s.lc.L == .paletteAllocated
  | .lcPublish       => s.lc.aborting.isNone && s.lc.L == .interruptArmed
  | .lcEnableIrq     => s.lc.aborting.isNone && s.lc.L == .published && !s.lc.irqEnabled
  | .lcStart         => s.lc.aborting.isNone && s.lc.L == .published && s.lc.irqEnabled
  | .lcAbort         => s.lc.aborting.isSome
  | .lcDetachStop    => s.lc.aborting.isNone && s.lc.L == .running && s.lc.phase == .none
  | .lcDetachDisable => s.lc.aborting.isNone && s.lc.L == .running && s.lc.phase == .stopped
  | .lcDetachRelease => s.lc.aborting.isNone && s.lc.L == .running && s.lc.phase == .disabled
  | _ => true

end Sys2Proof.Machine
end

