-- ==== Sys2Proof/Certificates/Slice0/Obligations.lean ====
section
/-!
DEFINITION. The statements for the provers. Each says which rule of the spec it formalises; a clause that is the model's own
choice names its log entry. States are arbitrary: what a statement needs of the state is among its hypotheses, and the
invariants used there are stated to be kept by every step.
-/

open Sys2Proof Sys2Proof.Machine

/-! ## Encoding and the step -/

/-- 30_encoding.md sections 4 and 5: a word decodes to an operation exactly when the operation is well formed and encodes to the
word. No bit of a word is dropped, and no word spells two operations. -/
def Obligations.DecodeIffEncodes : Prop :=
  ∀ (w : OpWord) (i : Instr), decode w = some i ↔ i.wf = true ∧ encode i = w

/-- How many operations R111 lists for each family. -/
def opsInFamily : Nat → Nat
  | 1 => 2 | 2 => 3 | 3 => 3 | 4 => 5 | 5 => 6 | 6 => 11 | 7 => 2 | 8 => 6 | _ => 0

/-- 30_encoding.md section 5: the words the decoder refuses, by family, operation and argument. -/
def Obligations.RefusedWordsAreTheReservedOnes : Prop :=
  ∀ w : OpWord,
    decode w = none ↔
      ¬ ((w.extractLsb' 8 4).toNat < opsInFamily (w.extractLsb' 12 4).toNat
          ∧ ((w.extractLsb' 12 4).toNat = 1
              ∨ ((w.extractLsb' 12 4).toNat = 8 ∧ (w.extractLsb' 8 4).toNat = 4)
              ∨ ((w.extractLsb' 12 4).toNat = 2 ∧ (w.extractLsb' 8 4).toNat < 2 ∧ (w.extractLsb' 0 8).toNat < 3)
              ∨ (w.extractLsb' 0 8).toNat = 0))

/-- R111 at one word of each family, and the refused words of 95_test_vectors.md sections 2.2 and 2.9. -/
def Obligations.TableWordsDecode : Prop :=
  decode 0x101C = some (.csrRead 0x1C) ∧ decode 0x110C = some (.csrWrite 0x0C) ∧ decode 0x2002 = some (.bufLoad 2)
    ∧ decode 0x2101 = some (.bufStore 1) ∧ decode 0x2200 = some .wcDrain ∧ decode 0x3000 = some .coordPoll
    ∧ decode 0x4400 = some .isrAck ∧ decode 0x5300 = some .waitSleep ∧ decode 0x6A00 = some .lcDetachRelease
    ∧ decode 0x7100 = some .devLatch ∧ decode 0x84FF = some (.fbSetcolreg 0xFF) ∧ decode 0x8500 = some .qFramepos
    ∧ decode 0x2003 = none ∧ decode 0x2006 = none ∧ decode 0x2203 = none ∧ decode 0x6B00 = none ∧ decode 0xF123 = none

/-- The next scheduled step runs its decoded operation, with its agent, operands and draws the current ones. The schedule, the
clock and the returned value are the model's own (log entries 1, 2, 3, 12, 19). -/
def Obligations.StepRunsTheScheduledOperation : Prop :=
  ∀ (s : State) (q : Request) (rest : List Request) (i : Instr),
    s.sched = q :: rest → decode q.word = some i → i.issuedBy q.agent = true →
      step s = exec i { s with sched := rest, agent := q.agent, opnd := q.opnd, tape := q.draws,
                               clock := s.clock + q.elapsed, ret := .none }

/-- R113 and R379: a word that spells no operation is refused, and so is an operation issued by an agent that does not own it,
by `step` and by every meaning. -/
def Obligations.WrongWordsAndAgentsAreRefused : Prop :=
  (∀ (s : State) (q : Request) (rest : List Request), s.sched = q :: rest →
      (decode q.word = none → step s = .refused (.undefinedWord q.word))
        ∧ ∀ i, decode q.word = some i → i.issuedBy q.agent = false → step s = .refused .wrongAgent)
    ∧ ∀ (i : Instr) (s : State), i.wf = true → i.issuedBy s.agent = false → exec i s = .refused .wrongAgent

/-! ## CSR access -/

/-- R130, R133, R141: an admitted read returns the register's value as R133 assembles it, on faithful hardware and on hardware that is
not (R35, R38, R41, R42; log entry 18); it notes the access, and has no effect but the clearing of `VALID` by a read of
`COORD_CTRL`. R370: a caller elsewhere than at `C_IDLE` issues no CSR operation (for CSR_WRITE, log entry 14). -/
def Obligations.CsrReadReturnsTheRegister : Prop :=
  ∀ (s : State) (off : BitVec 8),
    (s.CsrReady → s.CsrMaster → s.LegalOffset off →
      ∃ x t, exec (.csrRead off) s = .next t ∧ t.ret = .word x
        ∧ (s.params.hwFaithful = true → ReadsAs s (regAt s.params.regMap off.toNat) x)
        ∧ (s.params.hwFaithful = false → ReadsAsUnfaithful s (regAt s.params.regMap off.toNat) x)
        ∧ t.csr = (if regAt s.params.regMap off.toNat = .coordCtrl then { s.csr with valid := false } else s.csr)
        ∧ t.history = s.history ++ [.csr s.agent off.toNat .read x]
        ∧ t.sim = s.sim ∧ t.dev = s.dev ∧ t.callers = s.callers ∧ t.faults = s.faults
        ∧ SameBuffer s t ∧ SameControl s t ∧ SameRun s t)
      ∧ ∀ (k : Nat) (c : Caller), s.ByCaller k c → c.pc ≠ .cIdle →
        Waits s (exec (.csrRead off) s) ∧ Waits s (exec (.csrWrite off) s)

/-- R132: a CSR operation's checks in their order, each raising its fault with no access made. -/
def Obligations.CsrChecksFaultInOrder : Prop :=
  ∀ (s : State) (off : BitVec 8), s.CsrMaster →
    (¬ s.LegalOffset off →
        TakesFault (.csrRead off) .badOffset (.offset off.toNat) s (exec (.csrRead off) s)
          ∧ TakesFault (.csrWrite off) .badOffset (.offset off.toNat) s (exec (.csrWrite off) s))
      ∧ (s.LegalOffset off → s.lc.res.regs = false →
        TakesFault (.csrRead off) .unmapped (.offset off.toNat) s (exec (.csrRead off) s)
          ∧ TakesFault (.csrWrite off) .unmapped (.offset off.toNat) s (exec (.csrWrite off) s))
      ∧ (s.LegalOffset off → s.lc.res.regs = true → (∃ k, s.agent = .caller k) →
        TakesFault (.csrWrite off) .writePolicy (.offset off.toNat) s (exec (.csrWrite off) s))

/-- The run state a write of `CTRL` leaves (R134). -/
def runAfterCtrl (p : StopPolicy) (v : Word) : RunState → RunState
  | .idle     => if v.getLsbD 0 then (if v.getLsbD 7 then .running else .stopping) else .idle
  | .running  => if v.getLsbD 7 then .running else (if p = .immediate then .idle else .stopping)
  | .stopping => if v.getLsbD 0 ∧ v.getLsbD 7 then .running else .stopping

/-- R134: a write of `CTRL` stores START and AUTO_RESTART and moves the engine's run state; an idle engine that it starts takes
some position of the raster, and otherwise the position stays. -/
def Obligations.CtrlWriteStartsAndStops : Prop :=
  ∀ (s : State) (off : BitVec 8), s.CsrReady → s.params.wf = true → s.ByLifecycle → off.toNat = s.params.regMap.ctrl →
    ∃ t, exec (.csrWrite off) s = .next t
      ∧ t.csr = { s.csr with start := s.opnd.v.getLsbD 0, autoRestart := s.opnd.v.getLsbD 7 }
      ∧ t.dev.run = runAfterCtrl s.params.stopPolicy s.opnd.v s.dev.run
      ∧ (if s.dev.run = .idle ∧ s.opnd.v.getLsbD 0 = true then t.ScanInRange
          else t.dev = { s.dev with run := t.dev.run })
      ∧ t.dev.stuck = s.dev.stuck
      ∧ t.history = s.history ++ [.csr .lifecycle off.toNat .write s.opnd.v]
      ∧ t.sim = s.sim ∧ t.callers = s.callers ∧ t.faults = s.faults
      ∧ SameBuffer s t ∧ SameControl s t ∧ SameRun s t

/-- R135 to R140: the lifecycle agent's writes of `GIE`, `IER`, `ISR` and `BUF`, a live buffer being `Programmed` exactly when the word
written to `BUF` is its bus address, and of the registers a write does not change. Nothing else moves but the event history. R140
speaks of the default map's 0x14; that under another map every legal offset without a register is reserved too is the model's
choice (log entry 16). That the written 1 clears is R137's reading (log entry 22). -/
def Obligations.RegisterWritesStoreTheirBits : Prop :=
  ∀ (s : State) (off : BitVec 8), s.CsrReady → s.ByLifecycle → s.LegalOffset off →
    let s₁ := { s with history := s.history ++ [.csr .lifecycle off.toNat .write s.opnd.v] }
    match regAt s.params.regMap off.toNat with
    | .gie => exec (.csrWrite off) s = .next { s₁ with csr := { s.csr with gieEnable := s.opnd.v.getLsbD 0 } }
    | .ier => exec (.csrWrite off) s
        = .next { s₁ with csr := { s.csr with frameEn := s.opnd.v.getLsbD 0, auxEn := s.opnd.v.getLsbD 1 } }
    | .isr => exec (.csrWrite off) s
        = .next { s₁ with csr := { s.csr with isrFrame := s.csr.isrFrame && !s.opnd.v.getLsbD 0,
                                              isrAux := s.csr.isrAux && !s.opnd.v.getLsbD 1 } }
    | .buf => exec (.csrWrite off) s
        = .next { s₁ with csr := { s.csr with buf := some s.opnd.v },
                          buf := if s.buf.st = .allocated ∨ s.buf.st = .programmed then
                              { s.buf with st := if s.opnd.v = s.buf.bus then .programmed else .allocated } else s.buf }
    | .coordData | .coordCtrl | .reserved => exec (.csrWrite off) s = .next s₁
    | .ctrl => True

/-- R143: in the simulated register block every legal offset is one storage word. A write stores all its bits there and has no
other effect; a read returns the last word written, any word before one, and has no effect. -/
def Obligations.SimulatedBlockStoresWords : Prop :=
  ∀ (s : State) (off : BitVec 8), s.params.simRegs = true → s.lc.res.regs = true → s.LegalOffset off →
    (s.ByLifecycle →
        ∃ t, exec (.csrWrite off) s = .next t
          ∧ (∀ a, Table.read t.sim a = if a = off.toNat then some s.opnd.v else Table.read s.sim a)
          ∧ t.csr = s.csr ∧ t.dev = s.dev ∧ t.callers = s.callers ∧ t.faults = s.faults
          ∧ t.history = s.history ++ [.csr .lifecycle off.toNat .write s.opnd.v]
          ∧ SameBuffer s t ∧ SameControl s t ∧ SameRun s t)
      ∧ (s.CsrMaster →
        ∃ x t, exec (.csrRead off) s = .next t ∧ t.ret = .word x
          ∧ (∀ v, Table.read s.sim off.toNat = some v → x = v)
          ∧ t.callers = s.callers ∧ t.faults = s.faults
          ∧ t.history = s.history ++ [.csr s.agent off.toNat .read x]
          ∧ SameDevice s t ∧ SameBuffer s t ∧ SameControl s t ∧ SameRun s t)

/-- 00_scope.md section 5, `draw`, R83, R164 and R341: CSR_READ may return every word that R133 allows for the register, on
faithful hardware and on hardware that is not, and every word that R143 allows in the simulated block; BUF_LOAD of every width every
list of allowed bytes, each byte chosen by itself, and FB_READ every such list: for each there are draws that make it the one
returned. How draws reach the machine is log entry 4. -/
def Obligations.DrawsReachEveryReadValue : Prop :=
  (∀ (s : State) (off : BitVec 8) (x : Word), s.lc.res.regs = true → s.CsrMaster → s.LegalOffset off →
      CanReadAs s off.toNat x →
        ∃ d t, exec (.csrRead off) { s with tape := [d] } = .next t ∧ t.ret = .word x)
    ∧ ∀ (s : State) (k : Nat) (c : Caller) (bs : List Byte), s.ByCaller k c → c.pc = .cIdle →
      (∀ j b, bs[j]? = some b → AllowedByte s c (s.opnd.off + j) b) →
        (∀ w : BitVec 2, w ≠ 3 → c.mapped = true → s.buf.live = true → s.opnd.off % widthBytes w = 0 →
            s.opnd.off + widthBytes w ≤ fbSize → bs.length = widthBytes w →
              ∃ ds t, exec (.bufLoad w) { s with tape := ds } = .next t ∧ t.ret = .word (ofBytes bs))
          ∧ (s.fullyInit = true → bs.length = min s.opnd.n (fbSize - s.opnd.off) →
              ∃ ds t, exec .fbRead { s with tape := ds } = .next t ∧ t.ret = .result (.bytes bs))

/-! ## Buffer access and write-combining -/

/-- R164: a mapped load returns, little-endian and zero-extended, one allowed value for each byte, and changes nothing but the
draws; an access without a mapping, to a buffer that is not live, misaligned or out of range takes `BUF_ACCESS`; elsewhere than at
`C_IDLE` the step is not enabled (R370). -/
def Obligations.BufLoadReturnsAllowedBytes : Prop :=
  ∀ (s : State) (k : Nat) (c : Caller) (w : BitVec 2), w ≠ 3 → s.ByCaller k c →
    (c.pc ≠ .cIdle → Waits s (exec (.bufLoad w) s)) ∧ (c.pc = .cIdle →
    (c.mapped = true ∧ s.buf.live = true ∧ s.opnd.off % widthBytes w = 0 ∧ s.opnd.off + widthBytes w ≤ fbSize →
        ∃ bs t, exec (.bufLoad w) s = .next t ∧ bs.length = widthBytes w
          ∧ (∀ j b, bs[j]? = some b → AllowedByte s c (s.opnd.off + j) b)
          ∧ t.ret = .word (ofBytes bs) ∧ t.callers = s.callers
          ∧ SameDevice s t ∧ SameBuffer s t ∧ SameControl s t ∧ SameRun s t ∧ SameLog s t)
      ∧ (¬ (c.mapped = true ∧ s.buf.live = true ∧ s.opnd.off % widthBytes w = 0 ∧ s.opnd.off + widthBytes w ≤ fbSize) →
        TakesFault (.bufLoad w) .bufAccess (.access s.opnd.off (widthBytes w)) s (exec (.bufLoad w) s)))

/-- R165: a mapped store appends its low bytes, least significant first, to `Wc_k`; no byte of memory changes at this step. The
same accesses fault as for a load, and elsewhere than at `C_IDLE` the step is not enabled (R370). -/
def Obligations.BufStoreAppendsToTheWritePath : Prop :=
  ∀ (s : State) (k : Nat) (c : Caller) (w : BitVec 2), w ≠ 3 → s.ByCaller k c →
    (c.pc ≠ .cIdle → Waits s (exec (.bufStore w) s)) ∧ (c.pc = .cIdle →
    (c.mapped = true ∧ s.buf.live = true ∧ s.opnd.off % widthBytes w = 0 ∧ s.opnd.off + widthBytes w ≤ fbSize →
        ∃ bs t, exec (.bufStore w) s = .next t ∧ bs.length = widthBytes w
          ∧ (∀ j, j < widthBytes w → bs[j]? = some (s.opnd.v.extractLsb' (8 * j) 8))
          ∧ t.callers = s.callers.set k { c with wc := c.wc ++ [{ off := s.opnd.off, bytes := bs }] }
          ∧ t.ret = s.ret
          ∧ SameDevice s t ∧ SameBuffer s t ∧ SameControl s t ∧ SameRun s t ∧ SameLog s t)
      ∧ (¬ (c.mapped = true ∧ s.buf.live = true ∧ s.opnd.off % widthBytes w = 0 ∧ s.opnd.off + widthBytes w ≤ fbSize) →
        TakesFault (.bufStore w) .bufAccess (.access s.opnd.off (widthBytes w)) s (exec (.bufStore w) s)))

/-- R166, R82: a drain writes the bytes of an allowed set of pending entries, the latest entry of the set winning each byte; every
other byte is as before; the entries leave `Wc_k` and the others keep their order. With nothing pending the step waits. -/
def Obligations.DrainWritesAnAllowedSet : Prop :=
  ∀ (s : State) (k : Nat) (c : Caller), s.agent = .wcDrain k → s.callers[k]? = some c →
    (c.wc = [] → Waits s (exec .wcDrain s))
      ∧ (c.wc ≠ [] →
        ∃ l t, exec .wcDrain s = .next t ∧ DrainSet c.wc l
          ∧ t.callers = s.callers.set k { c with wc := (l.filter fun p => !p.1).map fun p => p.2 }
          ∧ (∀ a, t.memByte a =
              if s.buf.live = true then
                ((pendingBytes ((l.filter fun p => p.1).map fun p => p.2) a).getLast?).or (s.memByte a)
              else s.memByte a)
          ∧ t.buf.st = s.buf.st ∧ t.buf.bus = s.buf.bus ∧ t.buf.cpu = s.buf.cpu ∧ t.oldBufs = s.oldBufs ∧ t.pal = s.pal
          ∧ SameDevice s t ∧ SameControl s t ∧ SameRun s t ∧ SameLog s t)

/-- R166: every allowed set is one a drain may take. How the choice reaches the machine is log entry 11. -/
def Obligations.DrainMayTakeEveryAllowedSet : Prop :=
  ∀ (s : State) (k : Nat) (c : Caller) (l : List (Bool × WcEntry)), s.agent = .wcDrain k → s.callers[k]? = some c →
    DrainSet c.wc l →
      ∃ d t, exec .wcDrain { s with tape := [d] } = .next t
        ∧ t.callers = s.callers.set k { c with wc := (l.filter fun p => !p.1).map fun p => p.2 }

/-- R74: little-endian access across widths, byte by byte in memory and as a caller with nothing pending reads it: a 1-byte read at
`off + 1` after a drained 4-byte write of `v` is bits 15:8 of `v`, and a drained 1-byte write at `off + 3` replaces bits 31:24 of the
word a 4-byte read at `off` gives, and no others. -/
def Obligations.MixedWidthAccessIsLittleEndian : Prop :=
  ∀ (m : Memory) (off : Nat) (v : Word) (b : Byte),
    (Memory.writeBytes m off (bytesOf 4 v)).read (off + 1) = some (v.extractLsb' 8 8)
      ∧ (∃ b₀ b₁ b₂ b₃,
        (Memory.writeBytes (Memory.writeBytes m off (bytesOf 4 v)) (off + 3) [b]).read off = some b₀
        ∧ (Memory.writeBytes (Memory.writeBytes m off (bytesOf 4 v)) (off + 3) [b]).read (off + 1) = some b₁
        ∧ (Memory.writeBytes (Memory.writeBytes m off (bytesOf 4 v)) (off + 3) [b]).read (off + 2) = some b₂
        ∧ (Memory.writeBytes (Memory.writeBytes m off (bytesOf 4 v)) (off + 3) [b]).read (off + 3) = some b₃
        ∧ ofBytes [b₀, b₁, b₂, b₃] = (v &&& 0x00FFFFFF) ||| (zext 32 b <<< 24))
      ∧ ∀ (s : State) (c : Caller), c.wc = [] →
        (s.buf.mem = drainInto m [{ off, bytes := bytesOf 4 v }] → (loadBytes c (off + 1) 1 s).1 = [v.extractLsb' 8 8])
          ∧ ((∀ j, j < 4 → m.read (off + j) = some (v.extractLsb' (8 * j) 8)) →
            s.buf.mem = drainInto m [{ off := off + 3, bytes := [b] }] →
              ofBytes (loadBytes c off 4 s).1 = (v &&& 0x00FFFFFF) ||| (zext 32 b <<< 24))

/-- 20_memory.md section 5, R82, R84, R314: the buffer's bytes change only at a drain, at an allocation and at the start of a new
handle; no other step of any agent changes a byte. -/
def Obligations.OnlyDrainsAndNewBuffersChangeMemory : Prop :=
  ∀ (i : Instr) (s t : State) (a : Nat), exec i s = .next t → i ≠ .wcDrain → i ≠ .lcAllocBuf → i ≠ .lcMap →
    t.memByte a = s.memByte a

/-! ## Coordinate decoder -/

/-- R190: one poll reads `COORD_CTRL`, clears `VALID`, and goes on to the data read, to the next poll, or, at the bound, returns
`E_HWPOLL`, a waiter leaving the queue. On faithful hardware the bit read is `VALID`. Elsewhere than at `C_POLL` the step is not
enabled (R370). -/
def Obligations.CoordPollFollowsValid : Prop :=
  ∀ (s : State) (k : Nat) (c : Caller), s.ByCaller k c →
    ((∀ i K, c.pc ≠ .cPoll i K) → Waits s (exec .coordPoll s))
      ∧ ∀ (i : Nat) (K : Cont), s.CsrReady → c.pc = .cPoll i K →
        ∃ r t, exec .coordPoll s = .next t
          ∧ (s.params.hwFaithful = true → r = if s.csr.valid then 1 else 0)
          ∧ t.csr = { s.csr with valid := false }
          ∧ (if r.getLsbD 0 = true then
              t.callers = s.callers.set k { c with pc := .cData K }
                ∧ t.history = s.history ++ [.csr (.caller k) s.params.regMap.coordCtrl .read r]
            else if pollAbove s.params.pollMax (i + 1) = true then
              t.callers = s.callers.set k { c with pc := .cPoll (i + 1) K }
                ∧ t.history = s.history ++ [.csr (.caller k) s.params.regMap.coordCtrl .read r]
            else
              t.callers = s.callers.set k
                  (match K with
                    | .wait => { c with queued := false, tarmed := false, texp := false, outcome := .eHwpoll, pc := .cIdle }
                    | .framePos => { c with outcome := .eHwpoll, pc := .cIdle })
                ∧ t.history = s.history ++ [.csr (.caller k) s.params.regMap.coordCtrl .read r, .ret (.caller k) (.code .eHwpoll)]
                ∧ t.ret = .result (.code .eHwpoll))
          ∧ t.sim = s.sim ∧ t.dev = s.dev ∧ t.faults = s.faults ∧ SameBuffer s t ∧ SameControl s t ∧ SameRun s t

/-- R191: the coordinate word is read, unpacked and classified; a frame-position query returns it where its destination is valid
and `E_FAULT` where it is not, and a wait goes on to its check. Elsewhere than at `C_DATA` the step is not enabled (R370). -/
def Obligations.CoordReadDecodesTheWord : Prop :=
  ∀ (s : State) (k : Nat) (c : Caller), s.ByCaller k c →
    ((∀ K, c.pc ≠ .cData K) → Waits s (exec .coordRead s))
      ∧ ∀ K : Cont, s.CsrReady → c.pc = .cData K →
        ∃ w t, exec .coordRead s = .next t ∧ (∀ v, s.csr.coordData = some v → w = v)
          ∧ (match K with
              | .wait =>
                t.callers = s.callers.set k { c with w := w, coord := unpack w, pc := .cDecide }
                  ∧ t.history = s.history ++ [.csr (.caller k) s.params.regMap.coordData .read w]
              | .framePos =>
                if c.dstOk = true then
                  t.callers = s.callers.set k { c with w := w, coord := unpack w, res := some (unpack w, classify (unpack w)),
                                                       outcome := .ok, pc := .cIdle }
                  ∧ t.history = s.history ++ [.csr (.caller k) s.params.regMap.coordData .read w,
                                              .ret (.caller k) (.framePos (unpack w) (classify (unpack w)))]
                else
                  t.callers = s.callers.set k { c with w := w, coord := unpack w, outcome := .eFault, pc := .cIdle }
                  ∧ t.history = s.history ++ [.csr (.caller k) s.params.regMap.coordData .read w,
                                              .ret (.caller k) (.code .eFault)])
          ∧ t.faults = s.faults ∧ SameDevice s t ∧ SameBuffer s t ∧ SameControl s t ∧ SameRun s t

/-- R192: the classification by the thresholds 45, 160, 10 and 12, with no state changed but the value returned (log entry 12);
elsewhere than at `C_IDLE` the step is not enabled (a next state by log entry 6). -/
def Obligations.ClassifyComparesWithTheThresholds : Prop :=
  ∀ (s : State) (k : Nat) (c : Caller), s.ByCaller k c →
    (c.pc = .cIdle →
        ∃ cls, exec .coordClassify s = .next { s with ret := .cls cls }
          ∧ (cls.vblank = true ↔ s.opnd.coord.row.toNat < 45)
          ∧ (cls.hblank = true ↔ s.opnd.coord.col.toNat < 160)
          ∧ (cls.vsync = true ↔ 10 ≤ s.opnd.coord.row.toNat ∧ s.opnd.coord.row.toNat < 12))
      ∧ (c.pc ≠ .cIdle → Waits s (exec .coordClassify s))

/-- R104, R374: unpacking takes bits 31:20, 19:10 and 9:0 as numbers, packing puts them back, and the two are inverse. -/
def Obligations.PackAndUnpackAreInverse : Prop :=
  (∀ w : Word,
      (unpack w).frame.toNat = w.toNat / 2 ^ 20 ∧ (unpack w).row.toNat = w.toNat / 2 ^ 10 % 2 ^ 10
        ∧ (unpack w).col.toNat = w.toNat % 2 ^ 10 ∧ pack (unpack w).frame (unpack w).row (unpack w).col = w)
    ∧ ∀ (f : BitVec 12) (r c : BitVec 10),
      unpack (pack f r c) = { frame := f, row := r, col := c }
        ∧ (pack f r c).toNat = f.toNat * 2 ^ 20 + r.toNat * 2 ^ 10 + c.toNat

/-! ## Interrupt service -/

/-- R210, R409: delivery starts an installed idle ISR at its entry, saves nothing, and waits otherwise. -/
def Obligations.DeliveryEntersTheInstalledIdleIsr : Prop :=
  ∀ s : State, s.agent = .platform →
    (s.lc.res.irq = true ∧ s.isr.pc = .iIdle → exec .irqDeliver s = .next { s with isr := { s.isr with pc := .iCheck } })
      ∧ (¬ (s.lc.res.irq = true ∧ s.isr.pc = .iIdle) → Waits s (exec .irqDeliver s))

/-- R212, R217: one read of `CTRL`; with INT_PENDING clear the ISR returns `IRQ_NOT_MINE` and changes nothing else, with it set it
goes on to the status read. On faithful hardware INT_PENDING is the interrupt line (R35). Elsewhere than at `I_CHECK` the step is
not enabled (R371). -/
def Obligations.IsrCheckAnswersForThisDevice : Prop :=
  ∀ s : State, s.agent = .isr →
    (s.isr.pc ≠ .iCheck → Waits s (exec .isrCheck s)) ∧ (s.CsrReady → s.isr.pc = .iCheck →
    ∃ x t, exec .isrCheck s = .next t ∧ (s.params.hwFaithful = true → x.getLsbD 9 = s.csr.irqLine)
      ∧ (x.getLsbD 9 = false →
          t.isr = { s.isr with pc := .iIdle } ∧ t.ret = .isr .notMine
            ∧ t.history = s.history ++ [.csr .isr s.params.regMap.ctrl .read x, .isrReturn .notMine])
      ∧ (x.getLsbD 9 = true →
          t.isr = { s.isr with pc := .iStatus }
            ∧ t.history = s.history ++ [.csr .isr s.params.regMap.ctrl .read x])
      ∧ t.callers = s.callers ∧ t.lc = s.lc ∧ t.faults = s.faults ∧ SameDevice s t ∧ SameBuffer s t ∧ SameRun s t)

/-- R213, R219: the status word read. Zero is a fatal inconsistency that leaves the ISR stuck; any other word is serviced, and one
that is not `FRAME_MASK` counts an anomaly. On faithful hardware the word is the stored status. Elsewhere than at `I_STATUS`
the step is not enabled (R371). -/
def Obligations.IsrStatusClassifiesTheCause : Prop :=
  ∀ s : State, s.agent = .isr →
    (s.isr.pc ≠ .iStatus → Waits s (exec .isrStatus s)) ∧ (s.CsrReady → s.isr.pc = .iStatus →
      ∃ v t, exec .isrStatus s = .next t
        ∧ (s.params.hwFaithful = true → ReadsAs s .isr v)
        ∧ t.history = s.history ++ [.csr .isr s.params.regMap.isr .read v]
        ∧ (v = 0 → t.isr = { s.isr with pc := .iStuck }
            ∧ t.faults = s.faults ++ [{ reason := .hwInconsistent, agent := .isr, word := 0x4200, datum := .status 0 }])
        ∧ (v ≠ 0 → t.faults = s.faults
            ∧ t.isr = { pc := .iWake, s := v, anomaly := s.isr.anomaly + (if v = 1 then 0 else 1) })
        ∧ t.callers = s.callers ∧ t.lc = s.lc ∧ SameDevice s t ∧ SameBuffer s t ∧ SameRun s t)

/-- R214: every queued caller is woken in one step, and no other caller's record changes; elsewhere than at `I_WAKE` the step is
not enabled (a next state and its returned value by log entries 6 and 12). -/
def Obligations.IsrWakeWakesEveryQueuedCaller : Prop :=
  ∀ s : State, s.agent = .isr →
    (s.isr.pc = .iWake →
        ∃ t, exec .isrWake s = .next t
          ∧ (∀ k : Nat, t.callers[k]? = (s.callers[k]?).map fun (c : Caller) => { c with woken := c.woken || c.queued })
          ∧ t.isr = { s.isr with pc := .iAck } ∧ t.lc = s.lc ∧ t.ret = s.ret
          ∧ SameDevice s t ∧ SameBuffer s t ∧ SameRun s t ∧ SameLog s t)
      ∧ (s.isr.pc ≠ .iWake → Waits s (exec .isrWake s))

/-- R215, R137, R410: the ISR writes back exactly the word it read, which clears the bits set in it and no others, and returns
`IRQ_HANDLED`; elsewhere than at `I_ACK` the step is not enabled. The returned values and that waiting is a next state are log
entries 6 and 12, and that a written 1 clears is R137's reading (log entry 22). -/
def Obligations.IsrAckClearsWhatWasRead : Prop :=
  ∀ s : State, s.agent = .isr →
    (s.CsrReady → s.isr.pc = .iAck →
        exec .isrAck s
          = .next { s with
              csr := { s.csr with isrFrame := s.csr.isrFrame && !s.isr.s.getLsbD 0,
                                  isrAux := s.csr.isrAux && !s.isr.s.getLsbD 1 }
              isr := { s.isr with pc := .iIdle }
              history := s.history ++ [.csr .isr s.params.regMap.isr .write s.isr.s, .isrReturn .handled]
              ret := .isr .handled })
      ∧ (s.isr.pc ≠ .iAck → Waits s (exec .isrAck s))

/-- 43_isr.md, the corner cases of ISR_STATUS and ISR_ACK on faithful hardware: from the check to the acknowledge, the cause that the
ISR services stays set, and every bit it will write back is still 1. Kept by every operation but a direct CSR_WRITE, which the
block itself never issues. -/
def Obligations.FaithfulCauseIsHeldForTheIsr : Prop :=
  ∀ (i : Instr) (s t : State), s.params.regMap.wf = true → s.Faithful → (∀ off, i ≠ .csrWrite off) → s.CauseHeld →
    exec i s = .next t → t.CauseHeld

/-! ## Wait for vertical blank -/

/-- R240, R346: a wait begins with its timer armed and not expired, and a frame-position query notes whether its destination is
valid and goes on to the poll. The stored timeout and time of entry are the timed refinement's (log entry 19). Elsewhere than at
`C_IDLE` neither is enabled (R370). -/
def Obligations.WaitsAndQueriesBegin : Prop :=
  ∀ (s : State) (k : Nat) (c : Caller), s.ByCaller k c →
    (c.pc ≠ .cIdle → Waits s (exec .waitEnter s) ∧ Waits s (exec .qFramepos s)) ∧ (c.pc = .cIdle → s.fullyInit = true →
    exec .waitEnter s
        = .next { s with callers := (s.callers.set k
            { c with tarmed := true, texp := false, pc := .cWreg,
                     timeout := s.opnd.timeout.getD s.params.waitTimeout, entered := s.clock }) }
      ∧ exec .qFramepos s
        = .next { s with callers := s.callers.set k { c with dstOk := s.opnd.dstOk, pc := .cPoll 0 .framePos } })

/-- R242: vertical blank, then a signal, then the timeout decide a wait; with none of them the caller goes to sleep. Elsewhere than
at `C_DECIDE` the step is not enabled (R370). -/
def Obligations.WaitCheckDecidesInOrder : Prop :=
  ∀ (s : State) (k : Nat) (c : Caller), s.ByCaller k c →
    (c.pc ≠ .cDecide → Waits s (exec .waitCheck s)) ∧ (c.pc = .cDecide →
    let left := fun (x : Caller) (e : Code) =>
      State.mk s.params s.csr s.sim s.dev s.buf s.oldBufs s.pal s.lc s.isr
        (s.callers.set k { x with queued := false, tarmed := false, texp := false, woken := false, outcome := e, pc := .cIdle })
        (s.history ++ [.ret (.caller k) (.code e)]) s.faults s.clock s.sched s.agent s.opnd s.tape s.fresh (.result (.code e))
    if c.coord.row.toNat < 45 then exec .waitCheck s = .next (left c .ok)
    else if c.sig = true then exec .waitCheck s = .next (left { c with sig := false } .eIntr)
    else if c.texp = true then exec .waitCheck s = .next (left c .eTimedout)
    else exec .waitCheck s = .next { s with callers := s.callers.set k { c with pc := .cSleep } })

/-- R241, R243: the caller joins the queue before its first check, in one step; a sleeper goes on exactly when it is woken,
signalled or expired, and then polls again. Elsewhere than at its location each step is not enabled. -/
def Obligations.RegisterAndWakeLeadToAPoll : Prop :=
  ∀ (s : State) (k : Nat) (c : Caller), s.ByCaller k c →
    (c.pc = .cWreg →
        exec .waitRegister s
          = .next { s with callers := s.callers.set k { c with queued := true, woken := false, pc := .cPoll 0 .wait } })
      ∧ (c.pc = .cSleep →
        (c.woken = true ∨ c.sig = true ∨ c.texp = true →
            exec .waitSleep s = .next { s with callers := s.callers.set k { c with woken := false, pc := .cPoll 0 .wait } })
          ∧ (¬ (c.woken = true ∨ c.sig = true ∨ c.texp = true) → Waits s (exec .waitSleep s)))
      ∧ (c.pc ≠ .cWreg → Waits s (exec .waitRegister s)) ∧ (c.pc ≠ .cSleep → Waits s (exec .waitSleep s))

/-- R244, R245, R250: an armed timer that has not expired may expire at any time, or, in the timed refinement, once its timeout
has elapsed (log entry 19), and otherwise its step waits; a signal becomes pending at any location of its caller, and waits while
one is pending. -/
def Obligations.TimersExpireAndSignalsBecomePending : Prop :=
  ∀ (s : State) (k : Nat) (c : Caller), s.callers[k]? = some c →
    (s.agent = .signal k →
        (c.sig = false → exec .signalDeliver s = .next { s with callers := s.callers.set k { c with sig := true } })
          ∧ (c.sig = true → Waits s (exec .signalDeliver s)))
      ∧ (s.agent = .timer k →
        (c.tarmed = true ∧ c.texp = false ∧ (s.params.timed = true → c.entered + c.timeout ≤ s.clock) →
            exec .timerExpire s = .next { s with callers := s.callers.set k { c with texp := true } })
          ∧ (¬ (c.tarmed = true ∧ c.texp = false ∧ (s.params.timed = true → c.entered + c.timeout ≤ s.clock)) →
            Waits s (exec .timerExpire s)))

/-- R249, R30: no step of another agent takes a wake-all, a signal or an expiry away from a caller, nor moves the caller or its
locals or its queue membership; and a caller that a step wakes was queued. So a wake-all between a check and the sleep leaves
the sleep enabled. -/
def Obligations.OtherAgentsNeverLoseAWakeup : Prop :=
  ∀ (i : Instr) (s t : State) (k : Nat) (c : Caller), exec i s = .next t → s.agent ≠ .caller k → s.callers[k]? = some c →
    ∃ c', t.callers[k]? = some c'
      ∧ c'.pc = c.pc ∧ c'.w = c.w ∧ c'.coord = c.coord ∧ c'.dstOk = c.dstOk ∧ c'.outcome = c.outcome ∧ c'.res = c.res
      ∧ c'.queued = c.queued ∧ c'.tarmed = c.tarmed
      ∧ (c.woken = true → c'.woken = true) ∧ (c.sig = true → c'.sig = true) ∧ (c.texp = true → c'.texp = true)
      ∧ (c'.woken = true → c.woken = true ∨ (i = .isrWake ∧ c.queued = true))
      ∧ (c'.sig = true → c.sig = true ∨ (i = .signalDeliver ∧ s.agent = .signal k))
      ∧ (c'.texp = true → c.texp = true ∨ (i = .timerExpire ∧ s.agent = .timer k))

/-! ## Device lifecycle -/

/-- R270, R284: a mapping step holds the handle and the registers, or leaves every field as it was but for the error that awaits
its rollback. After a detach, and wherever the last buffer is retired (log entry 15), it starts a new handle; that no byte of its record
has a value and no caller a mapping before an allocation is the model's choice (log entry 35). A success returns
`OK` (R403, log entry 25). -/
def Obligations.MapHoldsTheRegistersOrFails : Prop :=
  ∀ s : State, s.ByLifecycle → lcAdmitted s .lcMap = true →
    ∃ t, exec .lcMap s = .next t
      ∧ ((t.lc = { s.lc with L := .registersMapped, res := { handle := true, regs := true }, regBase := t.lc.regBase,
                             irqEnabled := if s.lc.L = .detached ∨ s.buf.st = .retired then false else s.lc.irqEnabled }
            ∧ t.history = s.history ++ [.ret .lifecycle (.code .ok)] ∧ t.ret = .result (.code .ok)
            ∧ (if s.lc.L = .detached ∨ s.buf.st = .retired then
                t.buf.st = .none ∧ (∀ a, t.memByte a = none) ∧ t.oldBufs = s.oldBufs ++ [s.buf]
                  ∧ t.pal = List.replicate 16 none ∧ t.callers = s.callers.map (fun c => { c with mapped := false })
              else SameBuffer s t ∧ t.callers = s.callers))
          ∨ ((t.lc = { s.lc with aborting := some .eNomem } ∨ t.lc = { s.lc with aborting := some .eUnavail })
            ∧ SameBuffer s t ∧ t.callers = s.callers ∧ t.history = s.history))
      ∧ t.isr = s.isr ∧ t.faults = s.faults ∧ SameDevice s t ∧ SameRun s t

/-- R271, R162, R163: an allocation gives a buffer under the address law, with no byte that has a value and no mapping, or leaves
the buffer as it was. A success returns
`OK` (R403, log entry 25). -/
def Obligations.AllocBufGivesALawfulBufferOrFails : Prop :=
  ∀ s : State, s.ByLifecycle → lcAdmitted s .lcAllocBuf = true →
    ∃ t, exec .lcAllocBuf s = .next t
      ∧ ((t.lc = { s.lc with L := .bufferAllocated, res := { s.lc.res with buf := true } }
            ∧ t.buf.st = .allocated ∧ t.buf.bus.toNat % 4 = 0 ∧ t.buf.bus.toNat + fbSize ≤ 2 ^ 32 ∧ t.buf.cpu % 4 = 0
            ∧ (∀ a, t.memByte a = none) ∧ t.callers = s.callers.map (fun c => { c with mapped := false })
            ∧ t.oldBufs = s.oldBufs ∧ t.pal = s.pal
            ∧ t.history = s.history ++ [.ret .lifecycle (.code .ok)] ∧ t.ret = .result (.code .ok))
          ∨ (t.lc = { s.lc with aborting := some .eNomem } ∧ SameBuffer s t ∧ t.callers = s.callers ∧ t.history = s.history))
      ∧ t.isr = s.isr ∧ t.faults = s.faults ∧ SameDevice s t ∧ SameRun s t

/-- R272, R273: the palette's allocation and the ISR's installation, each with its one failure. A success returns
`OK` (R403, log entry 25). -/
def Obligations.AllocPalAndInstallIsrHoldOrFail : Prop :=
  ∀ s : State, s.ByLifecycle →
    (lcAdmitted s .lcAllocPal = true →
        ∃ t, exec .lcAllocPal s = .next t
          ∧ ((t.lc = { s.lc with L := .paletteAllocated, res := { s.lc.res with pal := true } }
                ∧ t.pal = List.replicate 16 none
                ∧ t.history = s.history ++ [.ret .lifecycle (.code .ok)] ∧ t.ret = .result (.code .ok))
              ∨ (t.lc = { s.lc with aborting := some .eNomem } ∧ t.pal = s.pal ∧ t.history = s.history))
          ∧ t.buf = s.buf ∧ (∀ a, t.memByte a = s.memByte a) ∧ t.oldBufs = s.oldBufs ∧ t.callers = s.callers ∧ t.isr = s.isr
          ∧ t.faults = s.faults ∧ SameDevice s t ∧ SameRun s t)
      ∧ (lcAdmitted s .lcInstallIsr = true →
        ∃ t, exec .lcInstallIsr s = .next t
          ∧ ((t.lc = { s.lc with L := .interruptArmed, res := { s.lc.res with irq := true } }
                ∧ t.history = s.history ++ [.ret .lifecycle (.code .ok)] ∧ t.ret = .result (.code .ok))
              ∨ (t.lc = { s.lc with aborting := some .eUnavail } ∧ t.history = s.history))
          ∧ t.callers = s.callers ∧ t.isr = s.isr ∧ t.faults = s.faults
          ∧ SameBuffer s t ∧ SameDevice s t ∧ SameRun s t)

/-- R274: the buffer's bus address is written to `BUF`, which programs a live buffer, and then the consumer interface is
registered or the step fails with the write made. A success returns
`OK` (R403, log entry 25). -/
def Obligations.PublishWritesBufThenRegisters : Prop :=
  ∀ s : State, s.CsrReady → s.ByLifecycle → lcAdmitted s .lcPublish = true →
    ∃ t, exec .lcPublish s = .next t
      ∧ t.csr = { s.csr with buf := some s.buf.bus }
      ∧ t.buf = (if s.buf.live = true then { s.buf with st := .programmed } else s.buf)
      ∧ (∀ a, t.memByte a = s.memByte a)
      ∧ ((t.lc = { s.lc with L := .published, res := { s.lc.res with fbdev := true } } ∧ t.ret = .result (.code .ok)
            ∧ t.history = s.history ++ [.csr .lifecycle s.params.regMap.buf .write s.buf.bus, .ret .lifecycle (.code .ok)])
          ∨ ((t.lc = { s.lc with aborting := some .eNomem } ∨ t.lc = { s.lc with aborting := some .eUnavail })
            ∧ t.history = s.history ++ [.csr .lifecycle s.params.regMap.buf .write s.buf.bus]))
      ∧ t.sim = s.sim ∧ t.dev = s.dev ∧ t.oldBufs = s.oldBufs ∧ t.pal = s.pal ∧ t.callers = s.callers ∧ t.isr = s.isr
      ∧ t.faults = s.faults ∧ SameRun s t

/-- R275, R279: the two interrupt enables written in one step, `GIE` before `IER`, on at the attach and off at the detach. A success returns
`OK` (R403, log entry 25). -/
def Obligations.EnableAndDisableWriteBothEnables : Prop :=
  ∀ s : State, s.CsrReady → s.ByLifecycle →
    (lcAdmitted s .lcEnableIrq = true →
        exec .lcEnableIrq s
          = .next { s with
              csr := { s.csr with gieEnable := true, frameEn := true, auxEn := false }
              lc := { s.lc with irqEnabled := true }
              history := s.history ++ [.csr .lifecycle s.params.regMap.gie .write 1,
                                       .csr .lifecycle s.params.regMap.ier .write 1, .ret .lifecycle (.code .ok)]
              ret := .result (.code .ok) })
      ∧ (lcAdmitted s .lcDetachDisable = true →
        exec .lcDetachDisable s
          = .next { s with
              csr := { s.csr with gieEnable := false, frameEn := false, auxEn := false }
              lc := { s.lc with irqEnabled := false, phase := .disabled }
              history := s.history ++ [.csr .lifecycle s.params.regMap.gie .write 0,
                                       .csr .lifecycle s.params.regMap.ier .write 0, .ret .lifecycle (.code .ok)]
              ret := .result (.code .ok) })

/-- R276: the start command is written, an idle engine starts at some position of the raster, and the handle is fully
initialized. A success returns
`OK` (R403, log entry 25). -/
def Obligations.StartRunsTheDevice : Prop :=
  ∀ s : State, s.CsrReady → s.params.wf = true → s.ByLifecycle → lcAdmitted s .lcStart = true →
    ∃ t, exec .lcStart s = .next t
      ∧ t.csr = { s.csr with start := true, autoRestart := true }
      ∧ t.dev.run = .running ∧ t.dev.stuck = s.dev.stuck
      ∧ (s.dev.run = .idle → t.ScanInRange)
      ∧ (s.dev.run ≠ .idle → t.dev = { s.dev with run := .running })
      ∧ t.lc = { s.lc with L := .running, phase := .none } ∧ t.fullyInit = true
      ∧ t.history = s.history ++ [.csr .lifecycle s.params.regMap.ctrl .write 0x81, .ret .lifecycle (.code .ok)]
      ∧ t.ret = .result (.code .ok)
      ∧ t.sim = s.sim ∧ t.callers = s.callers ∧ t.isr = s.isr ∧ t.faults = s.faults ∧ SameBuffer s t ∧ SameRun s t

/-- R277: a failed attach is rolled back in one step, with no CSR written: everything held is released, the buffer retires, and
the failed step's error is returned; the step waits while an installed ISR runs. -/
def Obligations.AbortReleasesEverything : Prop :=
  ∀ (s : State) (e : Code), s.ByLifecycle → s.lc.aborting = some e →
    (s.lc.res.irq = false ∨ s.isr.pc = .iIdle →
        exec .lcAbort s
          = .next { s with
              lc := { s.lc with res := {}, irqEnabled := false, L := .unattached, aborting := none }
              buf := if s.lc.res.buf then { s.buf with st := .retired } else s.buf
              pal := if s.lc.res.pal then List.replicate 16 none else s.pal
              history := s.history ++ [.ret .lifecycle (.code e)]
              ret := .result (.code e) })
      ∧ (s.lc.res.irq = true ∧ s.isr.pc ≠ .iIdle → Waits s (exec .lcAbort s))

/-- R278: a detach stops the device, unless a caller is mid-operation or queued, which takes `DETACH_IN_USE` with no CSR
written. A success returns
`OK` (R403, log entry 25). -/
def Obligations.DetachStopStopsTheDevice : Prop :=
  ∀ s : State, s.ByLifecycle → lcAdmitted s .lcDetachStop = true →
    (s.CsrReady → (∀ c ∈ s.callers, c.queued = false ∧ c.pc = .cIdle) →
        exec .lcDetachStop s
          = .next { s with
              csr := { s.csr with start := false, autoRestart := false }
              dev := if s.dev.run = .running then
                  { s.dev with run := if s.params.stopPolicy = .immediate then .idle else .stopping } else s.dev
              lc := { s.lc with phase := .stopped }
              history := s.history ++ [.csr .lifecycle s.params.regMap.ctrl .write 0, .ret .lifecycle (.code .ok)]
              ret := .result (.code .ok) })
      ∧ ((∃ c ∈ s.callers, c.queued = true ∨ c.pc ≠ .cIdle) →
        TakesFault .lcDetachStop .detachInUse .opWord s (exec .lcDetachStop s))

/-- R280: a detach ends by releasing everything and removing every mapping, and waits until the ISR is idle and every pending
write has drained. A success returns
`OK` (R403, log entry 25). -/
def Obligations.DetachReleaseReleasesEverything : Prop :=
  ∀ s : State, s.ByLifecycle → lcAdmitted s .lcDetachRelease = true →
    (s.isr.pc = .iIdle ∧ (∀ c ∈ s.callers, c.wc = []) →
        exec .lcDetachRelease s
          = .next { s with
              lc := { s.lc with res := {}, L := .detached, phase := .none }
              buf := if s.lc.res.buf then { s.buf with st := .retired } else s.buf
              pal := if s.lc.res.pal then List.replicate 16 none else s.pal
              callers := s.callers.map fun c => { c with mapped := false }
              history := s.history ++ [.ret .lifecycle (.code .ok)]
              ret := .result (.code .ok) })
      ∧ (¬ (s.isr.pc = .iIdle ∧ ∀ c ∈ s.callers, c.wc = []) → Waits s (exec .lcDetachRelease s))

/-- R283: a lifecycle operation issued outside its state takes `LIFECYCLE`. -/
def Obligations.LifecycleOutOfStateFaults : Prop :=
  ∀ (i : Instr) (s : State), i.issuedBy .lifecycle = true → (∀ off, i ≠ .csrRead off ∧ i ≠ .csrWrite off) → s.ByLifecycle →
    lcAdmitted s i = false → TakesFault i .lifecycle .opWord s (exec i s)

/-- R270 to R274, R162 and R134, `draw`: every outcome of an attach step, every lawful buffer address, every base of the
register block, and every position of the raster with every frame id at a start, is what some draws give. How draws reach the
machine is log entry 4. -/
def Obligations.AttachDrawsReachEveryOutcome : Prop :=
  ∀ s : State, s.ByLifecycle →
    (∀ r ∈ [(Instr.lcMap, LcState.registersMapped, [Code.eNomem, Code.eUnavail]),
            (Instr.lcAllocBuf, LcState.bufferAllocated, [Code.eNomem]),
            (Instr.lcAllocPal, LcState.paletteAllocated, [Code.eNomem]),
            (Instr.lcInstallIsr, LcState.interruptArmed, [Code.eUnavail]),
            (Instr.lcPublish, LcState.published, [Code.eNomem, Code.eUnavail])],
        (r.1 = .lcPublish → s.CsrReady) → lcAdmitted s r.1 = true →
          (∃ ds t, exec r.1 { s with tape := ds } = .next t ∧ t.lc.L = r.2.1 ∧ t.lc.aborting = none)
            ∧ ∀ e ∈ r.2.2, ∃ ds t, exec r.1 { s with tape := ds } = .next t ∧ t.lc = { s.lc with aborting := some e })
      ∧ (∀ (cpu : Nat) (bus : Word), lcAdmitted s .lcAllocBuf = true → cpu % 4 = 0 → bus.toNat % 4 = 0 →
        bus.toNat + fbSize ≤ 2 ^ 32 →
          ∃ ds t, exec .lcAllocBuf { s with tape := ds } = .next t ∧ t.lc.L = .bufferAllocated ∧ t.buf.cpu = cpu
            ∧ t.buf.bus = bus)
      ∧ (∀ base : Nat, lcAdmitted s .lcMap = true →
          ∃ ds t, exec .lcMap { s with tape := ds } = .next t ∧ t.lc.L = .registersMapped ∧ t.lc.regBase = base)
      ∧ ∀ (row col : Nat) (frame : BitVec 12), s.CsrReady → lcAdmitted s .lcStart = true → s.dev.run = .idle →
        row < s.params.vTotal → col < s.params.hTotal →
          ∃ ds t, exec .lcStart { s with tape := ds } = .next t
            ∧ t.dev.row = row ∧ t.dev.col = col ∧ t.dev.frame = frame

/-! ## Scan engine -/

/-- The position and the frame boundary after a step from a position of the raster (R311, R312), `w` being the word last
scanned. -/
def Advanced (s t : State) (w : Word) : Prop :=
  if s.dev.col + 1 < s.params.hTotal then
    t.dev = { s.dev with col := s.dev.col + 1, scanWord := w } ∧ t.csr = s.csr
  else if s.dev.row + 1 < s.params.vTotal then
    t.dev = { s.dev with col := 0, row := s.dev.row + 1, scanWord := w } ∧ t.csr = s.csr
  else
    t.dev = { s.dev with col := 0, row := 0, scanWord := w, frame := t.dev.frame,
                         run := if s.dev.run = .stopping then .idle else s.dev.run }
      ∧ (s.params.frameIdIncrements = true → t.dev.frame = s.dev.frame + 1)
      ∧ t.csr = { s.csr with isrFrame := s.csr.isrFrame || s.csr.frameEn }

/-- R312, R313, `draw`: a step may scan the word `w`, and, where the frame id does not increment and the step crosses the frame
boundary, leave every frame id with it. How draws reach the machine is log entry 4. -/
def ScanDrawn (s : State) (w : Word) : Prop :=
  ∀ frame : BitVec 12, ∃ ds t, exec .devAdvance { s with tape := ds } = .next t ∧ t.dev.scanWord = w
    ∧ (s.params.frameIdIncrements = false → s.dev.col + 1 = s.params.hTotal → s.dev.row + 1 = s.params.vTotal →
        t.dev.frame = frame)

/-- R311, R312, R313: the device scans one position. Outside the visible region it reads nothing; inside, it reads the position's
word through `BUF`, or takes `DMA_NOT_LIVE` where `BUF` has no value or the word is in no live buffer; on a machine with
`bufMustBeBus` also wherever `BUF` is not the live buffer's bus address, as R376 says (log entry 34). The word read is kept in
`scanWord` (log entry 24), and the datum of the fault where `BUF` has no value is the model's choice (log entry 27). A byte scanned
that memory has no value for, and a frame id that is drawn at the boundary, may be any (log entry 4). -/
def Obligations.AdvanceScansOnePosition : Prop :=
  ∀ s : State, s.ByScanner → s.ScanInRange →
    (s.dev.row < 45 ∨ s.dev.col < 160 →
        (∃ t, exec .devAdvance s = .next t ∧ Advanced s t s.dev.scanWord ∧ t.history = s.history
          ∧ t.callers = s.callers ∧ t.sim = s.sim ∧ t.faults = s.faults ∧ SameBuffer s t ∧ SameControl s t ∧ SameRun s t)
          ∧ ScanDrawn s s.dev.scanWord)
      ∧ (45 ≤ s.dev.row ∧ 160 ≤ s.dev.col →
        (∀ base, s.csr.buf = some base →
          let b := base + BitVec.ofNat 32 (4 * ((s.dev.row - 45) * 640 + (s.dev.col - 160)))
          let ok := s.buf.live = true ∧ s.buf.bus.toNat ≤ b.toNat ∧ b.toNat + 4 ≤ s.buf.bus.toNat + fbSize
            ∧ (s.params.bufMustBeBus = true → base = s.buf.bus)
          (ok →
              (∃ w t, exec .devAdvance s = .next t ∧ Advanced s t w ∧ t.history = s.history ++ [.scanout b]
                ∧ (∀ j v, j < 4 → s.memByte (b.toNat - s.buf.bus.toNat + j) = some v → w.extractLsb' (8 * j) 8 = v)
                ∧ t.callers = s.callers ∧ t.sim = s.sim ∧ t.faults = s.faults
                ∧ SameBuffer s t ∧ SameControl s t ∧ SameRun s t)
                ∧ ∀ w : Word, (∀ j v, j < 4 → s.memByte (b.toNat - s.buf.bus.toNat + j) = some v → w.extractLsb' (8 * j) 8 = v) →
                    ScanDrawn s w)
            ∧ (¬ ok →
              TakesFault .devAdvance .dmaNotLive (.bus (some b)) s (exec .devAdvance s)))
        ∧ (s.csr.buf = none → TakesFault .devAdvance .dmaNotLive (.bus none) s (exec .devAdvance s)))

/-- R315, R311: a latch publishes the scan position and sets `VALID`; an idle or stuck engine takes no step. -/
def Obligations.LatchPublishesThePosition : Prop :=
  ∀ s : State, s.agent = .device →
    (s.ByScanner →
        exec .devLatch s
          = .next { s with csr := { s.csr with
              coordData := some (pack s.dev.frame (BitVec.ofNat 10 s.dev.row) (BitVec.ofNat 10 s.dev.col)), valid := true } })
      ∧ (¬ s.ByScanner → Waits s (exec .devAdvance s) ∧ Waits s (exec .devLatch s))

/-- R313, R376: while `BUF` holds the live buffer's bus address, a scan of the default raster never faults, and the address read
is the natural sum. -/
def Obligations.ProgrammedScanoutNeverFaults : Prop :=
  ∀ s t : State, s.BusLawful → s.buf.st = .programmed → s.ScanInRange → s.params.vTotal = 525 → s.params.hTotal = 800 →
    s.ByScanner → exec .devAdvance s = .next t →
      t.faults = s.faults
        ∧ (45 ≤ s.dev.row ∧ 160 ≤ s.dev.col →
          ∃ b : Word, b.toNat = s.buf.bus.toNat + 4 * ((s.dev.row - 45) * 640 + (s.dev.col - 160))
            ∧ t.history = s.history ++ [.scanout b])

/-! ## Consumer interface -/

/-- R340: a consumer operation on a handle that is not fully initialized takes `UNINIT` and does nothing else. -/
def Obligations.ConsumersNeedFullInitialization : Prop :=
  ∀ (i : Instr) (s : State) (k : Nat) (c : Caller),
    (i = .fbRead ∨ i = .fbWrite ∨ i = .fbMmap ∨ i = .fbCheckVar ∨ (∃ idx, i = .fbSetcolreg idx) ∨ i = .qFramepos
      ∨ i = .waitEnter) →
    s.ByCaller k c → c.pc = .cIdle → s.fullyInit = false → TakesFault i .uninit .opWord s (exec i s)

/-- R341: a read returns the bytes from its offset, clipped at the end of the buffer, each an allowed value. Elsewhere
than at `C_IDLE` the step is not enabled (R370). -/
def Obligations.FbReadReturnsClippedBytes : Prop :=
  ∀ (s : State) (k : Nat) (c : Caller), s.ByCaller k c →
    (c.pc ≠ .cIdle → Waits s (exec .fbRead s)) ∧ (c.pc = .cIdle → s.fullyInit = true →
    ∃ bs t, exec .fbRead s = .next t ∧ bs.length = min s.opnd.n (fbSize - s.opnd.off)
      ∧ (∀ j b, bs[j]? = some b → AllowedByte s c (s.opnd.off + j) b)
      ∧ t.callers = s.callers.set k { c with outcome := .ok }
      ∧ t.history = s.history ++ [.ret (.caller k) (.bytes bs)] ∧ t.ret = .result (.bytes bs)
      ∧ t.faults = s.faults ∧ SameDevice s t ∧ SameBuffer s t ∧ SameControl s t ∧ SameRun s t)

/-- R342: a write appends one-byte entries for the bytes that fit and returns their count; past the end it returns `E_NOSPC`, and
an empty write returns 0. No byte of memory changes at this step. Elsewhere than at `C_IDLE` the
step is not enabled (R370). -/
def Obligations.FbWriteAppendsClippedBytes : Prop :=
  ∀ (s : State) (k : Nat) (c : Caller), s.ByCaller k c →
    (c.pc ≠ .cIdle → Waits s (exec .fbWrite s)) ∧ (c.pc = .cIdle → s.fullyInit = true →
    ∃ es r t, exec .fbWrite s = .next t
      ∧ (if s.opnd.bytes = [] then es = [] ∧ r = .count 0
          else if fbSize ≤ s.opnd.off then es = [] ∧ r = .code .eNospc
          else r = .count (min s.opnd.bytes.length (fbSize - s.opnd.off))
            ∧ es.length = min s.opnd.bytes.length (fbSize - s.opnd.off)
            ∧ ∀ (j : Nat) (b : Byte), j < es.length → s.opnd.bytes[j]? = some b →
                es[j]? = some ({ off := s.opnd.off + j, bytes := [b] } : WcEntry))
      ∧ t.callers = s.callers.set k { c with wc := c.wc ++ es, outcome := r.codeOf }
      ∧ t.history = s.history ++ [.ret (.caller k) r] ∧ t.ret = .result r
      ∧ t.faults = s.faults ∧ SameDevice s t ∧ SameBuffer s t ∧ SameControl s t ∧ SameRun s t)

/-- R343: a mapping of a length from 1 to the whole buffer is granted, and any other is `E_INVAL`. Elsewhere than at `C_IDLE` the
step is not enabled (R370). -/
def Obligations.FbMmapGrantsTheBuffer : Prop :=
  ∀ (s : State) (k : Nat) (c : Caller), s.ByCaller k c →
    (c.pc ≠ .cIdle → Waits s (exec .fbMmap s)) ∧ (c.pc = .cIdle → s.fullyInit = true →
    (1 ≤ s.opnd.len ∧ s.opnd.len ≤ 1228800 →
        exec .fbMmap s = .next { s with
          callers := s.callers.set k { c with mapped := true, outcome := .ok }
          history := s.history ++ [.ret (.caller k) (.code .ok)]
          ret := .result (.code .ok) })
      ∧ (s.opnd.len = 0 ∨ 1228800 < s.opnd.len →
        exec .fbMmap s = .next { s with
          callers := s.callers.set k { c with outcome := .eInval }
          history := s.history ++ [.ret (.caller k) (.code .eInval)]
          ret := .result (.code .eInval) }))

/-- R344: exactly one geometry is accepted, with under-sized virtual resolutions rounded up; anything else is `E_INVAL`.
Elsewhere than at `C_IDLE` the step is not enabled (R370). -/
def Obligations.CheckVarAcceptsOneGeometry : Prop :=
  ∀ (s : State) (k : Nat) (c : Caller), s.ByCaller k c →
    (c.pc ≠ .cIdle → Waits s (exec .fbCheckVar s)) ∧ (c.pc = .cIdle → s.fullyInit = true →
    let v := s.opnd.var
    let ok := v.xres = 640 ∧ v.yres = 480 ∧ v.bitsPerPixel = 32 ∧ v.xoffset = 0 ∧ v.yoffset = 0 ∧ v.interlaced = false
      ∧ v.xresVirtual ≤ 640 ∧ v.yresVirtual ≤ 480
    (ok → exec .fbCheckVar s = .next { s with
        callers := s.callers.set k { c with outcome := .ok }
        history := s.history ++ [.ret (.caller k) (.geometry { v with xresVirtual := 640, yresVirtual := 480 })]
        ret := .result (.geometry { v with xresVirtual := 640, yresVirtual := 480 }) })
      ∧ (¬ ok → exec .fbCheckVar s = .next { s with
        callers := s.callers.set k { c with outcome := .eInval }
        history := s.history ++ [.ret (.caller k) (.code .eInval)]
        ret := .result (.code .eInval) }))

/-- R345: a palette index below 16 has its entry written with the packed colour, and any other index is `E_INVAL`. The packing
function is OPEN (log entry 20), so the statement holds for every one. Elsewhere than at `C_IDLE` the
step is not enabled (R370). -/
def Obligations.SetcolregWritesOneEntry : Prop :=
  ∀ (s : State) (k : Nat) (c : Caller) (idx : BitVec 8), s.ByCaller k c →
    (c.pc ≠ .cIdle → Waits s (exec (.fbSetcolreg idx) s)) ∧ (c.pc = .cIdle → s.fullyInit = true →
    (idx.toNat < 16 →
        exec (.fbSetcolreg idx) s = .next { s with
          pal := s.pal.set idx.toNat (some (Config.packColor s.opnd.red s.opnd.green s.opnd.blue s.opnd.transp))
          callers := s.callers.set k { c with outcome := .ok }
          history := s.history ++ [.ret (.caller k) (.code .ok)]
          ret := .result (.code .ok) })
      ∧ (16 ≤ idx.toNat →
        exec (.fbSetcolreg idx) s = .next { s with
          callers := s.callers.set k { c with outcome := .eInval }
          history := s.history ++ [.ret (.caller k) (.code .eInval)]
          ret := .result (.code .eInval) }))

/-! ## The machine as a whole -/

/-- R285: the resource invariants are kept by every step of the machine. -/
def Obligations.EveryStepKeepsTheResourceInvariants : Prop :=
  ∀ s t : State, s.ResourcesMatch → step s = .next t → t.ResourcesMatch

/-- 45_lifecycle.md sections 3 and 4, R286: every step keeps what use of the handle implies: no caller is mid-operation, no
mapping and no pending pixel write exists, and the ISR does not run, but while the handle allows it. -/
def Obligations.EveryStepKeepsUseUnderTheHandle : Prop :=
  ∀ s t : State, s.ResourcesMatch → s.UseNeedsHandle → step s = .next t → t.UseNeedsHandle

/-- R241, R242, R190, R244, R375: every step keeps the queue's membership and the timers as the waits have them, and the poll
indices below the bound. -/
def Obligations.EveryStepKeepsTheQueueInvariants : Prop :=
  ∀ s t : State, s.params.pollMax.wf = true → s.QueueMatches → s.PollsBounded → step s = .next t →
    t.QueueMatches ∧ t.PollsBounded

/-- 10_state.md R44, R45, R47, R162: every step keeps memory canonical and inside the buffer, the palette at 16 entries, a live
buffer's bus address lawful, and the scan position inside the raster. -/
def Obligations.EveryStepKeepsMemoryAndRasterInvariants : Prop :=
  ∀ s t : State, s.params.wf = true → s.MemCanonical → s.MemInRange → s.PaletteSized → s.BusLawful → s.ScanInRange →
    step s = .next t → t.MemCanonical ∧ t.MemInRange ∧ t.PaletteSized ∧ t.BusLawful ∧ t.ScanInRange

/-- 10_state.md section 7: reset under any well-formed parameters and any number of callers has the values of the reset table and
meets every invariant. Where the table is silent the values the invariants meet are the model's choice: the scan position and
`mapped_k` false (log entry 8), and the palette's entries without a value (log entry 9). -/
def Obligations.ResetMeetsTheInvariants : Prop :=
  ∀ (p : Params) (n : Nat), p.wf = true →
    let s := State.resetWith p n
    s.csr = { start := false, autoRestart := false, gieEnable := false, frameEn := false, auxEn := false, isrFrame := false,
              isrAux := false, buf := none, coordData := none, valid := false }
      ∧ s.dev.run = .idle ∧ s.csr.irqLine = false ∧ s.buf.st = .none ∧ s.lc.L = .unattached ∧ s.lc.phase = .none
      ∧ s.lc.aborting = none ∧ s.lc.irqEnabled = false ∧ s.lc.res = {} ∧ s.isr.pc = .iIdle ∧ s.isr.anomaly = 0
      ∧ s.Successful ∧ s.callers.length = n
      ∧ (∀ c ∈ s.callers, c.pc = .cIdle ∧ c.res = none ∧ c.wc = [] ∧ c.queued = false ∧ c.woken = false ∧ c.sig = false
          ∧ c.tarmed = false ∧ c.texp = false)
      ∧ s.MemCanonical ∧ s.MemInRange ∧ s.PaletteSized ∧ s.BusLawful ∧ s.ScanInRange ∧ s.ResourcesMatch ∧ s.UseNeedsHandle
      ∧ s.QueueMatches ∧ s.PollsBounded ∧ s.CauseHeld

/-- 40_register_interface.md section 1, the shared-resource policy, over all operations: only the lifecycle agent changes the
control, enable and buffer-base fields, the lifecycle record and the run of the engine, but for the device's own scan; only it,
the ISR and the device change the status bits; only the device writes the coordinate latch, and a read can only clear
`VALID`. -/
def Obligations.OnlyOwnersChangeTheRegisters : Prop :=
  ∀ (i : Instr) (s t : State), s.params.regMap.wf = true → exec i s = .next t →
    (s.agent ≠ .lifecycle →
        t.csr.start = s.csr.start ∧ t.csr.autoRestart = s.csr.autoRestart ∧ t.csr.gieEnable = s.csr.gieEnable
          ∧ t.csr.frameEn = s.csr.frameEn ∧ t.csr.auxEn = s.csr.auxEn ∧ t.csr.buf = s.csr.buf ∧ t.lc = s.lc)
      ∧ (s.agent ≠ .lifecycle → s.agent ≠ .device → t.dev = s.dev)
      ∧ (s.agent ≠ .lifecycle → s.agent ≠ .isr → s.agent ≠ .device →
          t.csr.isrFrame = s.csr.isrFrame ∧ t.csr.isrAux = s.csr.isrAux)
      ∧ (s.agent ≠ .device → t.csr.coordData = s.csr.coordData ∧ (t.csr.valid = true → s.csr.valid = true))
      ∧ (s.agent ≠ .isr → s.agent ≠ .platform → t.isr = s.isr)

/-- R62, R61, R402: every step keeps every fault record and event, the parameters and the number of callers, and an agent that a
fault left stuck stays so. R20, R400, R402: a stuck agent takes no further step: none of its operations is enabled. -/
def Obligations.FaultsAndStuckAgentsStay : Prop :=
  (∀ s t : State, step s = .next t →
      s.faults <+: t.faults ∧ s.history <+: t.history ∧ t.params = s.params ∧ t.callers.length = s.callers.length
        ∧ (s.isr.pc = .iStuck → t.isr.pc = .iStuck) ∧ (s.lc.stuck = true → t.lc.stuck = true)
        ∧ (s.dev.stuck = true → t.dev.stuck = true)
        ∧ ∀ (k : Nat) (c : Caller), s.callers[k]? = some c → c.pc = .cStuck → ∃ c', t.callers[k]? = some c' ∧ c'.pc = .cStuck)
    ∧ ∀ (i : Instr) (s : State), i.wf = true → i.issuedBy s.agent = true → s.agentStuck = true → Waits s (exec i s)

/-- 42_coordinate_decoder.md and 43_isr.md, the exceptions of COORD_POLL, COORD_READ, ISR_CHECK, ISR_STATUS and ISR_ACK: under the
invariants the accesses that a wait, a query and the ISR make inside their steps never fault. The one fault of such a step is
ISR_STATUS's own `HW_INCONSISTENT` (R213), and on faithful hardware whose cause is held it is not raised either. -/
def Obligations.WaitAndIsrAccessesNeverFault : Prop :=
  ∀ (i : Instr) (s t : State), s.params.regMap.wf = true → s.ResourcesMatch → s.UseNeedsHandle → exec i s = .next t →
    ((i = .coordPoll ∨ i = .coordRead ∨ i = .isrCheck ∨ i = .isrWake ∨ i = .isrAck) → t.faults = s.faults)
      ∧ (i = .isrStatus →
        (t.faults = s.faults
            ∨ t.faults = s.faults ++ [{ reason := .hwInconsistent, agent := .isr, word := 0x4200, datum := .status 0 }])
          ∧ (s.Faithful → s.CauseHeld → t.faults = s.faults))
end

