-- ==== Sys2Proof/Laws/State.lean ====
section
/-!
SUPPORT. One lemma per field per update of the state, so that no proof unfolds a record update; and the fields a draw, a hold,
a fault and the ISR's entry and return leave alone.
-/

namespace Sys2Proof.Machine

/-! ### setCsr -/

@[simp] theorem State.setCsr_params (s : State) (c : Csr) : (s.setCsr c).params = s.params := rfl
@[simp] theorem State.setCsr_csr (s : State) (c : Csr) : (s.setCsr c).csr = c := rfl
@[simp] theorem State.setCsr_sim (s : State) (c : Csr) : (s.setCsr c).sim = s.sim := rfl
@[simp] theorem State.setCsr_dev (s : State) (c : Csr) : (s.setCsr c).dev = s.dev := rfl
@[simp] theorem State.setCsr_buf (s : State) (c : Csr) : (s.setCsr c).buf = s.buf := rfl
@[simp] theorem State.setCsr_oldBufs (s : State) (c : Csr) : (s.setCsr c).oldBufs = s.oldBufs := rfl
@[simp] theorem State.setCsr_pal (s : State) (c : Csr) : (s.setCsr c).pal = s.pal := rfl
@[simp] theorem State.setCsr_lc (s : State) (c : Csr) : (s.setCsr c).lc = s.lc := rfl
@[simp] theorem State.setCsr_isr (s : State) (c : Csr) : (s.setCsr c).isr = s.isr := rfl
@[simp] theorem State.setCsr_callers (s : State) (c : Csr) : (s.setCsr c).callers = s.callers := rfl
@[simp] theorem State.setCsr_history (s : State) (c : Csr) : (s.setCsr c).history = s.history := rfl
@[simp] theorem State.setCsr_faults (s : State) (c : Csr) : (s.setCsr c).faults = s.faults := rfl
@[simp] theorem State.setCsr_clock (s : State) (c : Csr) : (s.setCsr c).clock = s.clock := rfl
@[simp] theorem State.setCsr_sched (s : State) (c : Csr) : (s.setCsr c).sched = s.sched := rfl
@[simp] theorem State.setCsr_agent (s : State) (c : Csr) : (s.setCsr c).agent = s.agent := rfl
@[simp] theorem State.setCsr_opnd (s : State) (c : Csr) : (s.setCsr c).opnd = s.opnd := rfl
@[simp] theorem State.setCsr_tape (s : State) (c : Csr) : (s.setCsr c).tape = s.tape := rfl
@[simp] theorem State.setCsr_fresh (s : State) (c : Csr) : (s.setCsr c).fresh = s.fresh := rfl
@[simp] theorem State.setCsr_ret (s : State) (c : Csr) : (s.setCsr c).ret = s.ret := rfl

/-! ### setSim -/

@[simp] theorem State.setSim_params (s : State) (t : Table Word) : (s.setSim t).params = s.params := rfl
@[simp] theorem State.setSim_csr (s : State) (t : Table Word) : (s.setSim t).csr = s.csr := rfl
@[simp] theorem State.setSim_sim (s : State) (t : Table Word) : (s.setSim t).sim = t := rfl
@[simp] theorem State.setSim_dev (s : State) (t : Table Word) : (s.setSim t).dev = s.dev := rfl
@[simp] theorem State.setSim_buf (s : State) (t : Table Word) : (s.setSim t).buf = s.buf := rfl
@[simp] theorem State.setSim_oldBufs (s : State) (t : Table Word) : (s.setSim t).oldBufs = s.oldBufs := rfl
@[simp] theorem State.setSim_pal (s : State) (t : Table Word) : (s.setSim t).pal = s.pal := rfl
@[simp] theorem State.setSim_lc (s : State) (t : Table Word) : (s.setSim t).lc = s.lc := rfl
@[simp] theorem State.setSim_isr (s : State) (t : Table Word) : (s.setSim t).isr = s.isr := rfl
@[simp] theorem State.setSim_callers (s : State) (t : Table Word) : (s.setSim t).callers = s.callers := rfl
@[simp] theorem State.setSim_history (s : State) (t : Table Word) : (s.setSim t).history = s.history := rfl
@[simp] theorem State.setSim_faults (s : State) (t : Table Word) : (s.setSim t).faults = s.faults := rfl
@[simp] theorem State.setSim_clock (s : State) (t : Table Word) : (s.setSim t).clock = s.clock := rfl
@[simp] theorem State.setSim_sched (s : State) (t : Table Word) : (s.setSim t).sched = s.sched := rfl
@[simp] theorem State.setSim_agent (s : State) (t : Table Word) : (s.setSim t).agent = s.agent := rfl
@[simp] theorem State.setSim_opnd (s : State) (t : Table Word) : (s.setSim t).opnd = s.opnd := rfl
@[simp] theorem State.setSim_tape (s : State) (t : Table Word) : (s.setSim t).tape = s.tape := rfl
@[simp] theorem State.setSim_fresh (s : State) (t : Table Word) : (s.setSim t).fresh = s.fresh := rfl
@[simp] theorem State.setSim_ret (s : State) (t : Table Word) : (s.setSim t).ret = s.ret := rfl

/-! ### setDev -/

@[simp] theorem State.setDev_params (s : State) (d : Device) : (s.setDev d).params = s.params := rfl
@[simp] theorem State.setDev_csr (s : State) (d : Device) : (s.setDev d).csr = s.csr := rfl
@[simp] theorem State.setDev_sim (s : State) (d : Device) : (s.setDev d).sim = s.sim := rfl
@[simp] theorem State.setDev_dev (s : State) (d : Device) : (s.setDev d).dev = d := rfl
@[simp] theorem State.setDev_buf (s : State) (d : Device) : (s.setDev d).buf = s.buf := rfl
@[simp] theorem State.setDev_oldBufs (s : State) (d : Device) : (s.setDev d).oldBufs = s.oldBufs := rfl
@[simp] theorem State.setDev_pal (s : State) (d : Device) : (s.setDev d).pal = s.pal := rfl
@[simp] theorem State.setDev_lc (s : State) (d : Device) : (s.setDev d).lc = s.lc := rfl
@[simp] theorem State.setDev_isr (s : State) (d : Device) : (s.setDev d).isr = s.isr := rfl
@[simp] theorem State.setDev_callers (s : State) (d : Device) : (s.setDev d).callers = s.callers := rfl
@[simp] theorem State.setDev_history (s : State) (d : Device) : (s.setDev d).history = s.history := rfl
@[simp] theorem State.setDev_faults (s : State) (d : Device) : (s.setDev d).faults = s.faults := rfl
@[simp] theorem State.setDev_clock (s : State) (d : Device) : (s.setDev d).clock = s.clock := rfl
@[simp] theorem State.setDev_sched (s : State) (d : Device) : (s.setDev d).sched = s.sched := rfl
@[simp] theorem State.setDev_agent (s : State) (d : Device) : (s.setDev d).agent = s.agent := rfl
@[simp] theorem State.setDev_opnd (s : State) (d : Device) : (s.setDev d).opnd = s.opnd := rfl
@[simp] theorem State.setDev_tape (s : State) (d : Device) : (s.setDev d).tape = s.tape := rfl
@[simp] theorem State.setDev_fresh (s : State) (d : Device) : (s.setDev d).fresh = s.fresh := rfl
@[simp] theorem State.setDev_ret (s : State) (d : Device) : (s.setDev d).ret = s.ret := rfl

/-! ### setBuf -/

@[simp] theorem State.setBuf_params (s : State) (b : Buffer) : (s.setBuf b).params = s.params := rfl
@[simp] theorem State.setBuf_csr (s : State) (b : Buffer) : (s.setBuf b).csr = s.csr := rfl
@[simp] theorem State.setBuf_sim (s : State) (b : Buffer) : (s.setBuf b).sim = s.sim := rfl
@[simp] theorem State.setBuf_dev (s : State) (b : Buffer) : (s.setBuf b).dev = s.dev := rfl
@[simp] theorem State.setBuf_buf (s : State) (b : Buffer) : (s.setBuf b).buf = b := rfl
@[simp] theorem State.setBuf_oldBufs (s : State) (b : Buffer) : (s.setBuf b).oldBufs = s.oldBufs := rfl
@[simp] theorem State.setBuf_pal (s : State) (b : Buffer) : (s.setBuf b).pal = s.pal := rfl
@[simp] theorem State.setBuf_lc (s : State) (b : Buffer) : (s.setBuf b).lc = s.lc := rfl
@[simp] theorem State.setBuf_isr (s : State) (b : Buffer) : (s.setBuf b).isr = s.isr := rfl
@[simp] theorem State.setBuf_callers (s : State) (b : Buffer) : (s.setBuf b).callers = s.callers := rfl
@[simp] theorem State.setBuf_history (s : State) (b : Buffer) : (s.setBuf b).history = s.history := rfl
@[simp] theorem State.setBuf_faults (s : State) (b : Buffer) : (s.setBuf b).faults = s.faults := rfl
@[simp] theorem State.setBuf_clock (s : State) (b : Buffer) : (s.setBuf b).clock = s.clock := rfl
@[simp] theorem State.setBuf_sched (s : State) (b : Buffer) : (s.setBuf b).sched = s.sched := rfl
@[simp] theorem State.setBuf_agent (s : State) (b : Buffer) : (s.setBuf b).agent = s.agent := rfl
@[simp] theorem State.setBuf_opnd (s : State) (b : Buffer) : (s.setBuf b).opnd = s.opnd := rfl
@[simp] theorem State.setBuf_tape (s : State) (b : Buffer) : (s.setBuf b).tape = s.tape := rfl
@[simp] theorem State.setBuf_fresh (s : State) (b : Buffer) : (s.setBuf b).fresh = s.fresh := rfl
@[simp] theorem State.setBuf_ret (s : State) (b : Buffer) : (s.setBuf b).ret = s.ret := rfl

/-! ### setPal -/

@[simp] theorem State.setPal_params (s : State) (p : List (Option Word)) : (s.setPal p).params = s.params := rfl
@[simp] theorem State.setPal_csr (s : State) (p : List (Option Word)) : (s.setPal p).csr = s.csr := rfl
@[simp] theorem State.setPal_sim (s : State) (p : List (Option Word)) : (s.setPal p).sim = s.sim := rfl
@[simp] theorem State.setPal_dev (s : State) (p : List (Option Word)) : (s.setPal p).dev = s.dev := rfl
@[simp] theorem State.setPal_buf (s : State) (p : List (Option Word)) : (s.setPal p).buf = s.buf := rfl
@[simp] theorem State.setPal_oldBufs (s : State) (p : List (Option Word)) : (s.setPal p).oldBufs = s.oldBufs := rfl
@[simp] theorem State.setPal_pal (s : State) (p : List (Option Word)) : (s.setPal p).pal = p := rfl
@[simp] theorem State.setPal_lc (s : State) (p : List (Option Word)) : (s.setPal p).lc = s.lc := rfl
@[simp] theorem State.setPal_isr (s : State) (p : List (Option Word)) : (s.setPal p).isr = s.isr := rfl
@[simp] theorem State.setPal_callers (s : State) (p : List (Option Word)) : (s.setPal p).callers = s.callers := rfl
@[simp] theorem State.setPal_history (s : State) (p : List (Option Word)) : (s.setPal p).history = s.history := rfl
@[simp] theorem State.setPal_faults (s : State) (p : List (Option Word)) : (s.setPal p).faults = s.faults := rfl
@[simp] theorem State.setPal_clock (s : State) (p : List (Option Word)) : (s.setPal p).clock = s.clock := rfl
@[simp] theorem State.setPal_sched (s : State) (p : List (Option Word)) : (s.setPal p).sched = s.sched := rfl
@[simp] theorem State.setPal_agent (s : State) (p : List (Option Word)) : (s.setPal p).agent = s.agent := rfl
@[simp] theorem State.setPal_opnd (s : State) (p : List (Option Word)) : (s.setPal p).opnd = s.opnd := rfl
@[simp] theorem State.setPal_tape (s : State) (p : List (Option Word)) : (s.setPal p).tape = s.tape := rfl
@[simp] theorem State.setPal_fresh (s : State) (p : List (Option Word)) : (s.setPal p).fresh = s.fresh := rfl
@[simp] theorem State.setPal_ret (s : State) (p : List (Option Word)) : (s.setPal p).ret = s.ret := rfl

/-! ### setLc -/

@[simp] theorem State.setLc_params (s : State) (l : Lifecycle) : (s.setLc l).params = s.params := rfl
@[simp] theorem State.setLc_csr (s : State) (l : Lifecycle) : (s.setLc l).csr = s.csr := rfl
@[simp] theorem State.setLc_sim (s : State) (l : Lifecycle) : (s.setLc l).sim = s.sim := rfl
@[simp] theorem State.setLc_dev (s : State) (l : Lifecycle) : (s.setLc l).dev = s.dev := rfl
@[simp] theorem State.setLc_buf (s : State) (l : Lifecycle) : (s.setLc l).buf = s.buf := rfl
@[simp] theorem State.setLc_oldBufs (s : State) (l : Lifecycle) : (s.setLc l).oldBufs = s.oldBufs := rfl
@[simp] theorem State.setLc_pal (s : State) (l : Lifecycle) : (s.setLc l).pal = s.pal := rfl
@[simp] theorem State.setLc_lc (s : State) (l : Lifecycle) : (s.setLc l).lc = l := rfl
@[simp] theorem State.setLc_isr (s : State) (l : Lifecycle) : (s.setLc l).isr = s.isr := rfl
@[simp] theorem State.setLc_callers (s : State) (l : Lifecycle) : (s.setLc l).callers = s.callers := rfl
@[simp] theorem State.setLc_history (s : State) (l : Lifecycle) : (s.setLc l).history = s.history := rfl
@[simp] theorem State.setLc_faults (s : State) (l : Lifecycle) : (s.setLc l).faults = s.faults := rfl
@[simp] theorem State.setLc_clock (s : State) (l : Lifecycle) : (s.setLc l).clock = s.clock := rfl
@[simp] theorem State.setLc_sched (s : State) (l : Lifecycle) : (s.setLc l).sched = s.sched := rfl
@[simp] theorem State.setLc_agent (s : State) (l : Lifecycle) : (s.setLc l).agent = s.agent := rfl
@[simp] theorem State.setLc_opnd (s : State) (l : Lifecycle) : (s.setLc l).opnd = s.opnd := rfl
@[simp] theorem State.setLc_tape (s : State) (l : Lifecycle) : (s.setLc l).tape = s.tape := rfl
@[simp] theorem State.setLc_fresh (s : State) (l : Lifecycle) : (s.setLc l).fresh = s.fresh := rfl
@[simp] theorem State.setLc_ret (s : State) (l : Lifecycle) : (s.setLc l).ret = s.ret := rfl

/-! ### setIsr -/

@[simp] theorem State.setIsr_params (s : State) (i : Isr) : (s.setIsr i).params = s.params := rfl
@[simp] theorem State.setIsr_csr (s : State) (i : Isr) : (s.setIsr i).csr = s.csr := rfl
@[simp] theorem State.setIsr_sim (s : State) (i : Isr) : (s.setIsr i).sim = s.sim := rfl
@[simp] theorem State.setIsr_dev (s : State) (i : Isr) : (s.setIsr i).dev = s.dev := rfl
@[simp] theorem State.setIsr_buf (s : State) (i : Isr) : (s.setIsr i).buf = s.buf := rfl
@[simp] theorem State.setIsr_oldBufs (s : State) (i : Isr) : (s.setIsr i).oldBufs = s.oldBufs := rfl
@[simp] theorem State.setIsr_pal (s : State) (i : Isr) : (s.setIsr i).pal = s.pal := rfl
@[simp] theorem State.setIsr_lc (s : State) (i : Isr) : (s.setIsr i).lc = s.lc := rfl
@[simp] theorem State.setIsr_isr (s : State) (i : Isr) : (s.setIsr i).isr = i := rfl
@[simp] theorem State.setIsr_callers (s : State) (i : Isr) : (s.setIsr i).callers = s.callers := rfl
@[simp] theorem State.setIsr_history (s : State) (i : Isr) : (s.setIsr i).history = s.history := rfl
@[simp] theorem State.setIsr_faults (s : State) (i : Isr) : (s.setIsr i).faults = s.faults := rfl
@[simp] theorem State.setIsr_clock (s : State) (i : Isr) : (s.setIsr i).clock = s.clock := rfl
@[simp] theorem State.setIsr_sched (s : State) (i : Isr) : (s.setIsr i).sched = s.sched := rfl
@[simp] theorem State.setIsr_agent (s : State) (i : Isr) : (s.setIsr i).agent = s.agent := rfl
@[simp] theorem State.setIsr_opnd (s : State) (i : Isr) : (s.setIsr i).opnd = s.opnd := rfl
@[simp] theorem State.setIsr_tape (s : State) (i : Isr) : (s.setIsr i).tape = s.tape := rfl
@[simp] theorem State.setIsr_fresh (s : State) (i : Isr) : (s.setIsr i).fresh = s.fresh := rfl
@[simp] theorem State.setIsr_ret (s : State) (i : Isr) : (s.setIsr i).ret = s.ret := rfl

/-! ### setRet -/

@[simp] theorem State.setRet_params (s : State) (r : Ret) : (s.setRet r).params = s.params := rfl
@[simp] theorem State.setRet_csr (s : State) (r : Ret) : (s.setRet r).csr = s.csr := rfl
@[simp] theorem State.setRet_sim (s : State) (r : Ret) : (s.setRet r).sim = s.sim := rfl
@[simp] theorem State.setRet_dev (s : State) (r : Ret) : (s.setRet r).dev = s.dev := rfl
@[simp] theorem State.setRet_buf (s : State) (r : Ret) : (s.setRet r).buf = s.buf := rfl
@[simp] theorem State.setRet_oldBufs (s : State) (r : Ret) : (s.setRet r).oldBufs = s.oldBufs := rfl
@[simp] theorem State.setRet_pal (s : State) (r : Ret) : (s.setRet r).pal = s.pal := rfl
@[simp] theorem State.setRet_lc (s : State) (r : Ret) : (s.setRet r).lc = s.lc := rfl
@[simp] theorem State.setRet_isr (s : State) (r : Ret) : (s.setRet r).isr = s.isr := rfl
@[simp] theorem State.setRet_callers (s : State) (r : Ret) : (s.setRet r).callers = s.callers := rfl
@[simp] theorem State.setRet_history (s : State) (r : Ret) : (s.setRet r).history = s.history := rfl
@[simp] theorem State.setRet_faults (s : State) (r : Ret) : (s.setRet r).faults = s.faults := rfl
@[simp] theorem State.setRet_clock (s : State) (r : Ret) : (s.setRet r).clock = s.clock := rfl
@[simp] theorem State.setRet_sched (s : State) (r : Ret) : (s.setRet r).sched = s.sched := rfl
@[simp] theorem State.setRet_agent (s : State) (r : Ret) : (s.setRet r).agent = s.agent := rfl
@[simp] theorem State.setRet_opnd (s : State) (r : Ret) : (s.setRet r).opnd = s.opnd := rfl
@[simp] theorem State.setRet_tape (s : State) (r : Ret) : (s.setRet r).tape = s.tape := rfl
@[simp] theorem State.setRet_fresh (s : State) (r : Ret) : (s.setRet r).fresh = s.fresh := rfl
@[simp] theorem State.setRet_ret (s : State) (r : Ret) : (s.setRet r).ret = r := rfl

/-! ### addEvent -/

@[simp] theorem State.addEvent_params (s : State) (e : Event) : (s.addEvent e).params = s.params := rfl
@[simp] theorem State.addEvent_csr (s : State) (e : Event) : (s.addEvent e).csr = s.csr := rfl
@[simp] theorem State.addEvent_sim (s : State) (e : Event) : (s.addEvent e).sim = s.sim := rfl
@[simp] theorem State.addEvent_dev (s : State) (e : Event) : (s.addEvent e).dev = s.dev := rfl
@[simp] theorem State.addEvent_buf (s : State) (e : Event) : (s.addEvent e).buf = s.buf := rfl
@[simp] theorem State.addEvent_oldBufs (s : State) (e : Event) : (s.addEvent e).oldBufs = s.oldBufs := rfl
@[simp] theorem State.addEvent_pal (s : State) (e : Event) : (s.addEvent e).pal = s.pal := rfl
@[simp] theorem State.addEvent_lc (s : State) (e : Event) : (s.addEvent e).lc = s.lc := rfl
@[simp] theorem State.addEvent_isr (s : State) (e : Event) : (s.addEvent e).isr = s.isr := rfl
@[simp] theorem State.addEvent_callers (s : State) (e : Event) : (s.addEvent e).callers = s.callers := rfl
@[simp] theorem State.addEvent_history (s : State) (e : Event) : (s.addEvent e).history = s.history ++ [e] := rfl
@[simp] theorem State.addEvent_faults (s : State) (e : Event) : (s.addEvent e).faults = s.faults := rfl
@[simp] theorem State.addEvent_clock (s : State) (e : Event) : (s.addEvent e).clock = s.clock := rfl
@[simp] theorem State.addEvent_sched (s : State) (e : Event) : (s.addEvent e).sched = s.sched := rfl
@[simp] theorem State.addEvent_agent (s : State) (e : Event) : (s.addEvent e).agent = s.agent := rfl
@[simp] theorem State.addEvent_opnd (s : State) (e : Event) : (s.addEvent e).opnd = s.opnd := rfl
@[simp] theorem State.addEvent_tape (s : State) (e : Event) : (s.addEvent e).tape = s.tape := rfl
@[simp] theorem State.addEvent_fresh (s : State) (e : Event) : (s.addEvent e).fresh = s.fresh := rfl
@[simp] theorem State.addEvent_ret (s : State) (e : Event) : (s.addEvent e).ret = s.ret := rfl

/-! ### addFault -/

@[simp] theorem State.addFault_params (s : State) (f : FaultRecord) : (s.addFault f).params = s.params := rfl
@[simp] theorem State.addFault_csr (s : State) (f : FaultRecord) : (s.addFault f).csr = s.csr := rfl
@[simp] theorem State.addFault_sim (s : State) (f : FaultRecord) : (s.addFault f).sim = s.sim := rfl
@[simp] theorem State.addFault_dev (s : State) (f : FaultRecord) : (s.addFault f).dev = s.dev := rfl
@[simp] theorem State.addFault_buf (s : State) (f : FaultRecord) : (s.addFault f).buf = s.buf := rfl
@[simp] theorem State.addFault_oldBufs (s : State) (f : FaultRecord) : (s.addFault f).oldBufs = s.oldBufs := rfl
@[simp] theorem State.addFault_pal (s : State) (f : FaultRecord) : (s.addFault f).pal = s.pal := rfl
@[simp] theorem State.addFault_lc (s : State) (f : FaultRecord) : (s.addFault f).lc = s.lc := rfl
@[simp] theorem State.addFault_isr (s : State) (f : FaultRecord) : (s.addFault f).isr = s.isr := rfl
@[simp] theorem State.addFault_callers (s : State) (f : FaultRecord) : (s.addFault f).callers = s.callers := rfl
@[simp] theorem State.addFault_history (s : State) (f : FaultRecord) : (s.addFault f).history = s.history := rfl
@[simp] theorem State.addFault_faults (s : State) (f : FaultRecord) : (s.addFault f).faults = s.faults ++ [f] := rfl
@[simp] theorem State.addFault_clock (s : State) (f : FaultRecord) : (s.addFault f).clock = s.clock := rfl
@[simp] theorem State.addFault_sched (s : State) (f : FaultRecord) : (s.addFault f).sched = s.sched := rfl
@[simp] theorem State.addFault_agent (s : State) (f : FaultRecord) : (s.addFault f).agent = s.agent := rfl
@[simp] theorem State.addFault_opnd (s : State) (f : FaultRecord) : (s.addFault f).opnd = s.opnd := rfl
@[simp] theorem State.addFault_tape (s : State) (f : FaultRecord) : (s.addFault f).tape = s.tape := rfl
@[simp] theorem State.addFault_fresh (s : State) (f : FaultRecord) : (s.addFault f).fresh = s.fresh := rfl
@[simp] theorem State.addFault_ret (s : State) (f : FaultRecord) : (s.addFault f).ret = s.ret := rfl

/-! ### modCaller -/

@[simp] theorem State.modCaller_params (s : State) (k : Nat) (f : Caller → Caller) : (s.modCaller k f).params = s.params := rfl
@[simp] theorem State.modCaller_csr (s : State) (k : Nat) (f : Caller → Caller) : (s.modCaller k f).csr = s.csr := rfl
@[simp] theorem State.modCaller_sim (s : State) (k : Nat) (f : Caller → Caller) : (s.modCaller k f).sim = s.sim := rfl
@[simp] theorem State.modCaller_dev (s : State) (k : Nat) (f : Caller → Caller) : (s.modCaller k f).dev = s.dev := rfl
@[simp] theorem State.modCaller_buf (s : State) (k : Nat) (f : Caller → Caller) : (s.modCaller k f).buf = s.buf := rfl
@[simp] theorem State.modCaller_oldBufs (s : State) (k : Nat) (f : Caller → Caller) : (s.modCaller k f).oldBufs = s.oldBufs := rfl
@[simp] theorem State.modCaller_pal (s : State) (k : Nat) (f : Caller → Caller) : (s.modCaller k f).pal = s.pal := rfl
@[simp] theorem State.modCaller_lc (s : State) (k : Nat) (f : Caller → Caller) : (s.modCaller k f).lc = s.lc := rfl
@[simp] theorem State.modCaller_isr (s : State) (k : Nat) (f : Caller → Caller) : (s.modCaller k f).isr = s.isr := rfl
@[simp] theorem State.modCaller_callers (s : State) (k : Nat) (f : Caller → Caller) : (s.modCaller k f).callers = s.callers.modify k f := rfl
@[simp] theorem State.modCaller_history (s : State) (k : Nat) (f : Caller → Caller) : (s.modCaller k f).history = s.history := rfl
@[simp] theorem State.modCaller_faults (s : State) (k : Nat) (f : Caller → Caller) : (s.modCaller k f).faults = s.faults := rfl
@[simp] theorem State.modCaller_clock (s : State) (k : Nat) (f : Caller → Caller) : (s.modCaller k f).clock = s.clock := rfl
@[simp] theorem State.modCaller_sched (s : State) (k : Nat) (f : Caller → Caller) : (s.modCaller k f).sched = s.sched := rfl
@[simp] theorem State.modCaller_agent (s : State) (k : Nat) (f : Caller → Caller) : (s.modCaller k f).agent = s.agent := rfl
@[simp] theorem State.modCaller_opnd (s : State) (k : Nat) (f : Caller → Caller) : (s.modCaller k f).opnd = s.opnd := rfl
@[simp] theorem State.modCaller_tape (s : State) (k : Nat) (f : Caller → Caller) : (s.modCaller k f).tape = s.tape := rfl
@[simp] theorem State.modCaller_fresh (s : State) (k : Nat) (f : Caller → Caller) : (s.modCaller k f).fresh = s.fresh := rfl
@[simp] theorem State.modCaller_ret (s : State) (k : Nat) (f : Caller → Caller) : (s.modCaller k f).ret = s.ret := rfl

/-! ### mapCallers -/

@[simp] theorem State.mapCallers_params (s : State) (f : Caller → Caller) : (s.mapCallers f).params = s.params := rfl
@[simp] theorem State.mapCallers_csr (s : State) (f : Caller → Caller) : (s.mapCallers f).csr = s.csr := rfl
@[simp] theorem State.mapCallers_sim (s : State) (f : Caller → Caller) : (s.mapCallers f).sim = s.sim := rfl
@[simp] theorem State.mapCallers_dev (s : State) (f : Caller → Caller) : (s.mapCallers f).dev = s.dev := rfl
@[simp] theorem State.mapCallers_buf (s : State) (f : Caller → Caller) : (s.mapCallers f).buf = s.buf := rfl
@[simp] theorem State.mapCallers_oldBufs (s : State) (f : Caller → Caller) : (s.mapCallers f).oldBufs = s.oldBufs := rfl
@[simp] theorem State.mapCallers_pal (s : State) (f : Caller → Caller) : (s.mapCallers f).pal = s.pal := rfl
@[simp] theorem State.mapCallers_lc (s : State) (f : Caller → Caller) : (s.mapCallers f).lc = s.lc := rfl
@[simp] theorem State.mapCallers_isr (s : State) (f : Caller → Caller) : (s.mapCallers f).isr = s.isr := rfl
@[simp] theorem State.mapCallers_callers (s : State) (f : Caller → Caller) : (s.mapCallers f).callers = s.callers.map f := rfl
@[simp] theorem State.mapCallers_history (s : State) (f : Caller → Caller) : (s.mapCallers f).history = s.history := rfl
@[simp] theorem State.mapCallers_faults (s : State) (f : Caller → Caller) : (s.mapCallers f).faults = s.faults := rfl
@[simp] theorem State.mapCallers_clock (s : State) (f : Caller → Caller) : (s.mapCallers f).clock = s.clock := rfl
@[simp] theorem State.mapCallers_sched (s : State) (f : Caller → Caller) : (s.mapCallers f).sched = s.sched := rfl
@[simp] theorem State.mapCallers_agent (s : State) (f : Caller → Caller) : (s.mapCallers f).agent = s.agent := rfl
@[simp] theorem State.mapCallers_opnd (s : State) (f : Caller → Caller) : (s.mapCallers f).opnd = s.opnd := rfl
@[simp] theorem State.mapCallers_tape (s : State) (f : Caller → Caller) : (s.mapCallers f).tape = s.tape := rfl
@[simp] theorem State.mapCallers_fresh (s : State) (f : Caller → Caller) : (s.mapCallers f).fresh = s.fresh := rfl
@[simp] theorem State.mapCallers_ret (s : State) (f : Caller → Caller) : (s.mapCallers f).ret = s.ret := rfl

/-! ### drawn -/

@[simp] theorem State.drawn_params (s : State) : s.drawn.params = s.params := by
  unfold State.drawn; split <;> rfl
@[simp] theorem State.drawn_csr (s : State) : s.drawn.csr = s.csr := by
  unfold State.drawn; split <;> rfl
@[simp] theorem State.drawn_sim (s : State) : s.drawn.sim = s.sim := by
  unfold State.drawn; split <;> rfl
@[simp] theorem State.drawn_dev (s : State) : s.drawn.dev = s.dev := by
  unfold State.drawn; split <;> rfl
@[simp] theorem State.drawn_buf (s : State) : s.drawn.buf = s.buf := by
  unfold State.drawn; split <;> rfl
@[simp] theorem State.drawn_oldBufs (s : State) : s.drawn.oldBufs = s.oldBufs := by
  unfold State.drawn; split <;> rfl
@[simp] theorem State.drawn_pal (s : State) : s.drawn.pal = s.pal := by
  unfold State.drawn; split <;> rfl
@[simp] theorem State.drawn_lc (s : State) : s.drawn.lc = s.lc := by
  unfold State.drawn; split <;> rfl
@[simp] theorem State.drawn_isr (s : State) : s.drawn.isr = s.isr := by
  unfold State.drawn; split <;> rfl
@[simp] theorem State.drawn_callers (s : State) : s.drawn.callers = s.callers := by
  unfold State.drawn; split <;> rfl
@[simp] theorem State.drawn_history (s : State) : s.drawn.history = s.history := by
  unfold State.drawn; split <;> rfl
@[simp] theorem State.drawn_faults (s : State) : s.drawn.faults = s.faults := by
  unfold State.drawn; split <;> rfl
@[simp] theorem State.drawn_clock (s : State) : s.drawn.clock = s.clock := by
  unfold State.drawn; split <;> rfl
@[simp] theorem State.drawn_sched (s : State) : s.drawn.sched = s.sched := by
  unfold State.drawn; split <;> rfl
@[simp] theorem State.drawn_agent (s : State) : s.drawn.agent = s.agent := by
  unfold State.drawn; split <;> rfl
@[simp] theorem State.drawn_opnd (s : State) : s.drawn.opnd = s.opnd := by
  unfold State.drawn; split <;> rfl
@[simp] theorem State.drawn_ret (s : State) : s.drawn.ret = s.ret := by
  unfold State.drawn; split <;> rfl

/-! ### hold -/

@[simp] theorem hold_params (s : State) : (hold s).params = s.params := rfl
@[simp] theorem hold_csr (s : State) : (hold s).csr = s.csr := rfl
@[simp] theorem hold_sim (s : State) : (hold s).sim = s.sim := rfl
@[simp] theorem hold_dev (s : State) : (hold s).dev = s.dev := rfl
@[simp] theorem hold_buf (s : State) : (hold s).buf = s.buf := rfl
@[simp] theorem hold_oldBufs (s : State) : (hold s).oldBufs = s.oldBufs := rfl
@[simp] theorem hold_pal (s : State) : (hold s).pal = s.pal := rfl
@[simp] theorem hold_lc (s : State) : (hold s).lc = s.lc := rfl
@[simp] theorem hold_isr (s : State) : (hold s).isr = s.isr := rfl
@[simp] theorem hold_callers (s : State) : (hold s).callers = s.callers := rfl
@[simp] theorem hold_history (s : State) : (hold s).history = s.history := rfl
@[simp] theorem hold_faults (s : State) : (hold s).faults = s.faults := rfl
@[simp] theorem hold_clock (s : State) : (hold s).clock = s.clock := rfl
@[simp] theorem hold_sched (s : State) : (hold s).sched = s.sched := rfl
@[simp] theorem hold_agent (s : State) : (hold s).agent = s.agent := rfl
@[simp] theorem hold_opnd (s : State) : (hold s).opnd = s.opnd := rfl
@[simp] theorem hold_tape (s : State) : (hold s).tape = s.tape := rfl
@[simp] theorem hold_fresh (s : State) : (hold s).fresh = s.fresh := rfl
@[simp] theorem hold_ret (s : State) : (hold s).ret = Ret.held := rfl

/-! ### stick and raiseFault -/

@[simp] theorem stick_params (s : State) : (stick s).params = s.params := by
  unfold stick; split <;> rfl
@[simp] theorem stick_csr (s : State) : (stick s).csr = s.csr := by
  unfold stick; split <;> rfl
@[simp] theorem stick_sim (s : State) : (stick s).sim = s.sim := by
  unfold stick; split <;> rfl
@[simp] theorem stick_buf (s : State) : (stick s).buf = s.buf := by
  unfold stick; split <;> rfl
@[simp] theorem stick_oldBufs (s : State) : (stick s).oldBufs = s.oldBufs := by
  unfold stick; split <;> rfl
@[simp] theorem stick_pal (s : State) : (stick s).pal = s.pal := by
  unfold stick; split <;> rfl
@[simp] theorem stick_history (s : State) : (stick s).history = s.history := by
  unfold stick; split <;> rfl
@[simp] theorem stick_faults (s : State) : (stick s).faults = s.faults := by
  unfold stick; split <;> rfl
@[simp] theorem stick_clock (s : State) : (stick s).clock = s.clock := by
  unfold stick; split <;> rfl
@[simp] theorem stick_sched (s : State) : (stick s).sched = s.sched := by
  unfold stick; split <;> rfl
@[simp] theorem stick_agent (s : State) : (stick s).agent = s.agent := by
  unfold stick; split <;> rfl
@[simp] theorem stick_opnd (s : State) : (stick s).opnd = s.opnd := by
  unfold stick; split <;> rfl
@[simp] theorem stick_tape (s : State) : (stick s).tape = s.tape := by
  unfold stick; split <;> rfl
@[simp] theorem stick_fresh (s : State) : (stick s).fresh = s.fresh := by
  unfold stick; split <;> rfl
@[simp] theorem stick_ret (s : State) : (stick s).ret = s.ret := by
  unfold stick; split <;> rfl
@[simp] theorem raiseFault_params (i : Instr) (r : FaultReason) (d : Datum) (s : State) :
    (raiseFault i r d s).params = s.params := by simp [raiseFault]
@[simp] theorem raiseFault_csr (i : Instr) (r : FaultReason) (d : Datum) (s : State) :
    (raiseFault i r d s).csr = s.csr := by simp [raiseFault]
@[simp] theorem raiseFault_sim (i : Instr) (r : FaultReason) (d : Datum) (s : State) :
    (raiseFault i r d s).sim = s.sim := by simp [raiseFault]
@[simp] theorem raiseFault_buf (i : Instr) (r : FaultReason) (d : Datum) (s : State) :
    (raiseFault i r d s).buf = s.buf := by simp [raiseFault]
@[simp] theorem raiseFault_oldBufs (i : Instr) (r : FaultReason) (d : Datum) (s : State) :
    (raiseFault i r d s).oldBufs = s.oldBufs := by simp [raiseFault]
@[simp] theorem raiseFault_pal (i : Instr) (r : FaultReason) (d : Datum) (s : State) :
    (raiseFault i r d s).pal = s.pal := by simp [raiseFault]
@[simp] theorem raiseFault_history (i : Instr) (r : FaultReason) (d : Datum) (s : State) :
    (raiseFault i r d s).history = s.history := by simp [raiseFault]
@[simp] theorem raiseFault_clock (i : Instr) (r : FaultReason) (d : Datum) (s : State) :
    (raiseFault i r d s).clock = s.clock := by simp [raiseFault]
@[simp] theorem raiseFault_sched (i : Instr) (r : FaultReason) (d : Datum) (s : State) :
    (raiseFault i r d s).sched = s.sched := by simp [raiseFault]
@[simp] theorem raiseFault_agent (i : Instr) (r : FaultReason) (d : Datum) (s : State) :
    (raiseFault i r d s).agent = s.agent := by simp [raiseFault]
@[simp] theorem raiseFault_opnd (i : Instr) (r : FaultReason) (d : Datum) (s : State) :
    (raiseFault i r d s).opnd = s.opnd := by simp [raiseFault]
@[simp] theorem raiseFault_tape (i : Instr) (r : FaultReason) (d : Datum) (s : State) :
    (raiseFault i r d s).tape = s.tape := by simp [raiseFault]
@[simp] theorem raiseFault_fresh (i : Instr) (r : FaultReason) (d : Datum) (s : State) :
    (raiseFault i r d s).fresh = s.fresh := by simp [raiseFault]
@[simp] theorem raiseFault_dev (i : Instr) (r : FaultReason) (d : Datum) (s : State) :
    (raiseFault i r d s).dev = (stick s).dev := by simp [raiseFault]
@[simp] theorem raiseFault_lc (i : Instr) (r : FaultReason) (d : Datum) (s : State) :
    (raiseFault i r d s).lc = (stick s).lc := by simp [raiseFault]
@[simp] theorem raiseFault_isr (i : Instr) (r : FaultReason) (d : Datum) (s : State) :
    (raiseFault i r d s).isr = (stick s).isr := by simp [raiseFault]
@[simp] theorem raiseFault_callers (i : Instr) (r : FaultReason) (d : Datum) (s : State) :
    (raiseFault i r d s).callers = (stick s).callers := by simp [raiseFault]
@[simp] theorem raiseFault_faults (i : Instr) (r : FaultReason) (d : Datum) (s : State) :
    (raiseFault i r d s).faults = s.faults ++ [{ reason := r, agent := s.agent, word := encode i, datum := d }] := by
  simp [raiseFault]
@[simp] theorem raiseFault_ret (i : Instr) (r : FaultReason) (d : Datum) (s : State) :
    (raiseFault i r d s).ret = .faulted r := rfl

/-! ### isrEnter and isrReturn -/

@[simp] theorem isrEnter_params (s : State) : (isrEnter s).params = s.params := rfl
@[simp] theorem isrEnter_csr (s : State) : (isrEnter s).csr = s.csr := rfl
@[simp] theorem isrEnter_sim (s : State) : (isrEnter s).sim = s.sim := rfl
@[simp] theorem isrEnter_dev (s : State) : (isrEnter s).dev = s.dev := rfl
@[simp] theorem isrEnter_buf (s : State) : (isrEnter s).buf = s.buf := rfl
@[simp] theorem isrEnter_oldBufs (s : State) : (isrEnter s).oldBufs = s.oldBufs := rfl
@[simp] theorem isrEnter_pal (s : State) : (isrEnter s).pal = s.pal := rfl
@[simp] theorem isrEnter_lc (s : State) : (isrEnter s).lc = s.lc := rfl
@[simp] theorem isrEnter_isr (s : State) : (isrEnter s).isr = { s.isr with pc := .iCheck } := rfl
@[simp] theorem isrEnter_callers (s : State) : (isrEnter s).callers = s.callers := rfl
@[simp] theorem isrEnter_history (s : State) : (isrEnter s).history = s.history := rfl
@[simp] theorem isrEnter_faults (s : State) : (isrEnter s).faults = s.faults := rfl
@[simp] theorem isrEnter_clock (s : State) : (isrEnter s).clock = s.clock := rfl
@[simp] theorem isrEnter_sched (s : State) : (isrEnter s).sched = s.sched := rfl
@[simp] theorem isrEnter_agent (s : State) : (isrEnter s).agent = s.agent := rfl
@[simp] theorem isrEnter_opnd (s : State) : (isrEnter s).opnd = s.opnd := rfl
@[simp] theorem isrEnter_tape (s : State) : (isrEnter s).tape = s.tape := rfl
@[simp] theorem isrEnter_fresh (s : State) : (isrEnter s).fresh = s.fresh := rfl
@[simp] theorem isrEnter_ret (s : State) : (isrEnter s).ret = s.ret := rfl
@[simp] theorem isrReturn_params (r : IsrRet) (s : State) : (isrReturn r s).params = s.params := rfl
@[simp] theorem isrReturn_csr (r : IsrRet) (s : State) : (isrReturn r s).csr = s.csr := rfl
@[simp] theorem isrReturn_sim (r : IsrRet) (s : State) : (isrReturn r s).sim = s.sim := rfl
@[simp] theorem isrReturn_dev (r : IsrRet) (s : State) : (isrReturn r s).dev = s.dev := rfl
@[simp] theorem isrReturn_buf (r : IsrRet) (s : State) : (isrReturn r s).buf = s.buf := rfl
@[simp] theorem isrReturn_oldBufs (r : IsrRet) (s : State) : (isrReturn r s).oldBufs = s.oldBufs := rfl
@[simp] theorem isrReturn_pal (r : IsrRet) (s : State) : (isrReturn r s).pal = s.pal := rfl
@[simp] theorem isrReturn_lc (r : IsrRet) (s : State) : (isrReturn r s).lc = s.lc := rfl
@[simp] theorem isrReturn_isr (r : IsrRet) (s : State) : (isrReturn r s).isr = { s.isr with pc := .iIdle } := rfl
@[simp] theorem isrReturn_callers (r : IsrRet) (s : State) : (isrReturn r s).callers = s.callers := rfl
@[simp] theorem isrReturn_history (r : IsrRet) (s : State) : (isrReturn r s).history = s.history ++ [.isrReturn r] := rfl
@[simp] theorem isrReturn_faults (r : IsrRet) (s : State) : (isrReturn r s).faults = s.faults := rfl
@[simp] theorem isrReturn_clock (r : IsrRet) (s : State) : (isrReturn r s).clock = s.clock := rfl
@[simp] theorem isrReturn_sched (r : IsrRet) (s : State) : (isrReturn r s).sched = s.sched := rfl
@[simp] theorem isrReturn_agent (r : IsrRet) (s : State) : (isrReturn r s).agent = s.agent := rfl
@[simp] theorem isrReturn_opnd (r : IsrRet) (s : State) : (isrReturn r s).opnd = s.opnd := rfl
@[simp] theorem isrReturn_tape (r : IsrRet) (s : State) : (isrReturn r s).tape = s.tape := rfl
@[simp] theorem isrReturn_fresh (r : IsrRet) (s : State) : (isrReturn r s).fresh = s.fresh := rfl
@[simp] theorem isrReturn_ret (r : IsrRet) (s : State) : (isrReturn r s).ret = .isr r := rfl

/-! ### returnCaller and wakeAll -/

@[simp] theorem returnCaller_params (k : Nat) (r : Result) (s : State) :
    (returnCaller k r s).params = s.params := rfl
@[simp] theorem returnCaller_csr (k : Nat) (r : Result) (s : State) :
    (returnCaller k r s).csr = s.csr := rfl
@[simp] theorem returnCaller_sim (k : Nat) (r : Result) (s : State) :
    (returnCaller k r s).sim = s.sim := rfl
@[simp] theorem returnCaller_dev (k : Nat) (r : Result) (s : State) :
    (returnCaller k r s).dev = s.dev := rfl
@[simp] theorem returnCaller_buf (k : Nat) (r : Result) (s : State) :
    (returnCaller k r s).buf = s.buf := rfl
@[simp] theorem returnCaller_oldBufs (k : Nat) (r : Result) (s : State) :
    (returnCaller k r s).oldBufs = s.oldBufs := rfl
@[simp] theorem returnCaller_pal (k : Nat) (r : Result) (s : State) :
    (returnCaller k r s).pal = s.pal := rfl
@[simp] theorem returnCaller_lc (k : Nat) (r : Result) (s : State) :
    (returnCaller k r s).lc = s.lc := rfl
@[simp] theorem returnCaller_isr (k : Nat) (r : Result) (s : State) :
    (returnCaller k r s).isr = s.isr := rfl
@[simp] theorem returnCaller_callers (k : Nat) (r : Result) (s : State) :
    (returnCaller k r s).callers = s.callers.modify k fun c => { c with outcome := r.codeOf, pc := .cIdle } := rfl
@[simp] theorem returnCaller_history (k : Nat) (r : Result) (s : State) :
    (returnCaller k r s).history = s.history ++ [.ret (.caller k) r] := rfl
@[simp] theorem returnCaller_faults (k : Nat) (r : Result) (s : State) :
    (returnCaller k r s).faults = s.faults := rfl
@[simp] theorem returnCaller_clock (k : Nat) (r : Result) (s : State) :
    (returnCaller k r s).clock = s.clock := rfl
@[simp] theorem returnCaller_sched (k : Nat) (r : Result) (s : State) :
    (returnCaller k r s).sched = s.sched := rfl
@[simp] theorem returnCaller_agent (k : Nat) (r : Result) (s : State) :
    (returnCaller k r s).agent = s.agent := rfl
@[simp] theorem returnCaller_opnd (k : Nat) (r : Result) (s : State) :
    (returnCaller k r s).opnd = s.opnd := rfl
@[simp] theorem returnCaller_tape (k : Nat) (r : Result) (s : State) :
    (returnCaller k r s).tape = s.tape := rfl
@[simp] theorem returnCaller_fresh (k : Nat) (r : Result) (s : State) :
    (returnCaller k r s).fresh = s.fresh := rfl
@[simp] theorem returnCaller_ret (k : Nat) (r : Result) (s : State) :
    (returnCaller k r s).ret = .result r := rfl

/-! ### returnLifecycle and completeLc -/

@[simp] theorem returnLifecycle_params (c : Code) (s : State) : (returnLifecycle c s).params = s.params := rfl
@[simp] theorem returnLifecycle_csr (c : Code) (s : State) : (returnLifecycle c s).csr = s.csr := rfl
@[simp] theorem returnLifecycle_sim (c : Code) (s : State) : (returnLifecycle c s).sim = s.sim := rfl
@[simp] theorem returnLifecycle_dev (c : Code) (s : State) : (returnLifecycle c s).dev = s.dev := rfl
@[simp] theorem returnLifecycle_buf (c : Code) (s : State) : (returnLifecycle c s).buf = s.buf := rfl
@[simp] theorem returnLifecycle_oldBufs (c : Code) (s : State) : (returnLifecycle c s).oldBufs = s.oldBufs := rfl
@[simp] theorem returnLifecycle_pal (c : Code) (s : State) : (returnLifecycle c s).pal = s.pal := rfl
@[simp] theorem returnLifecycle_lc (c : Code) (s : State) : (returnLifecycle c s).lc = s.lc := rfl
@[simp] theorem returnLifecycle_isr (c : Code) (s : State) : (returnLifecycle c s).isr = s.isr := rfl
@[simp] theorem returnLifecycle_callers (c : Code) (s : State) : (returnLifecycle c s).callers = s.callers := rfl
@[simp] theorem returnLifecycle_history (c : Code) (s : State) : (returnLifecycle c s).history = s.history ++ [.ret .lifecycle (.code c)] := rfl
@[simp] theorem returnLifecycle_faults (c : Code) (s : State) : (returnLifecycle c s).faults = s.faults := rfl
@[simp] theorem returnLifecycle_clock (c : Code) (s : State) : (returnLifecycle c s).clock = s.clock := rfl
@[simp] theorem returnLifecycle_sched (c : Code) (s : State) : (returnLifecycle c s).sched = s.sched := rfl
@[simp] theorem returnLifecycle_agent (c : Code) (s : State) : (returnLifecycle c s).agent = s.agent := rfl
@[simp] theorem returnLifecycle_opnd (c : Code) (s : State) : (returnLifecycle c s).opnd = s.opnd := rfl
@[simp] theorem returnLifecycle_tape (c : Code) (s : State) : (returnLifecycle c s).tape = s.tape := rfl
@[simp] theorem returnLifecycle_fresh (c : Code) (s : State) : (returnLifecycle c s).fresh = s.fresh := rfl
@[simp] theorem returnLifecycle_ret (c : Code) (s : State) : (returnLifecycle c s).ret = .result (.code c) := rfl

@[simp] theorem State.completeLc_params (s : State) (l : Lifecycle) : (s.completeLc l).params = s.params := rfl
@[simp] theorem State.completeLc_csr (s : State) (l : Lifecycle) : (s.completeLc l).csr = s.csr := rfl
@[simp] theorem State.completeLc_sim (s : State) (l : Lifecycle) : (s.completeLc l).sim = s.sim := rfl
@[simp] theorem State.completeLc_dev (s : State) (l : Lifecycle) : (s.completeLc l).dev = s.dev := rfl
@[simp] theorem State.completeLc_buf (s : State) (l : Lifecycle) : (s.completeLc l).buf = s.buf := rfl
@[simp] theorem State.completeLc_oldBufs (s : State) (l : Lifecycle) : (s.completeLc l).oldBufs = s.oldBufs := rfl
@[simp] theorem State.completeLc_pal (s : State) (l : Lifecycle) : (s.completeLc l).pal = s.pal := rfl
@[simp] theorem State.completeLc_lc (s : State) (l : Lifecycle) : (s.completeLc l).lc = l := rfl
@[simp] theorem State.completeLc_isr (s : State) (l : Lifecycle) : (s.completeLc l).isr = s.isr := rfl
@[simp] theorem State.completeLc_callers (s : State) (l : Lifecycle) : (s.completeLc l).callers = s.callers := rfl
@[simp] theorem State.completeLc_history (s : State) (l : Lifecycle) : (s.completeLc l).history = s.history ++ [.ret .lifecycle (.code .ok)] := rfl
@[simp] theorem State.completeLc_faults (s : State) (l : Lifecycle) : (s.completeLc l).faults = s.faults := rfl
@[simp] theorem State.completeLc_clock (s : State) (l : Lifecycle) : (s.completeLc l).clock = s.clock := rfl
@[simp] theorem State.completeLc_sched (s : State) (l : Lifecycle) : (s.completeLc l).sched = s.sched := rfl
@[simp] theorem State.completeLc_agent (s : State) (l : Lifecycle) : (s.completeLc l).agent = s.agent := rfl
@[simp] theorem State.completeLc_opnd (s : State) (l : Lifecycle) : (s.completeLc l).opnd = s.opnd := rfl
@[simp] theorem State.completeLc_tape (s : State) (l : Lifecycle) : (s.completeLc l).tape = s.tape := rfl
@[simp] theorem State.completeLc_fresh (s : State) (l : Lifecycle) : (s.completeLc l).fresh = s.fresh := rfl
@[simp] theorem State.completeLc_ret (s : State) (l : Lifecycle) : (s.completeLc l).ret = .result (.code .ok) := rfl

end Sys2Proof.Machine
end

