-- ==== Sys2Proof/Laws/Guards.lean ====
section
/-!
SUPPORT. The guards of the agents, forwards (what a meaning answers where its agent takes the step) and backwards (what a next
state says of the step), and the checks of a CSR access (R132) under an admissible register map (R100).
-/

namespace Sys2Proof.Machine

/-! ### Callers, timers, signals and drains -/

theorem asCaller_eq {s : State} {k : Nat} {c : Caller} (h : s.ByCaller k c) (f : Nat → Caller → State → State) :
    asCaller s f = .next (f k c s) := by simp [asCaller, h.1, h.2]

theorem asCallerAt_eq {s : State} {k : Nat} {c : Caller} {pc : CallerPc} (h : s.ByCaller k c) (hpc : c.pc = pc)
    (f : Nat → Caller → State → State) : asCallerAt pc s f = .next (f k c s) := by
  simp [asCallerAt, asCaller_eq h, hpc]

theorem asConsumer_eq {s : State} {k : Nat} {c : Caller} (i : Instr) (h : s.ByCaller k c) (hpc : c.pc = .cIdle)
    (f : Nat → Caller → State → State) :
    asConsumer i s f = .next (if s.fullyInit then f k c s else raiseFault i .uninit .opWord s) :=
  asCallerAt_eq h hpc _

/-- A next state of a caller's step: there is such a caller, and the step did its work. -/
theorem asCaller_next {s t : State} {f : Nat → Caller → State → State} (h : asCaller s f = .next t) :
    ∃ k c, s.ByCaller k c ∧ t = f k c s := by
  unfold asCaller at h
  split at h
  · rename_i k hk
    split at h
    · rename_i c hc
      exact ⟨k, c, ⟨hk, hc⟩, by simpa using h.symm⟩
    · cases h
  · cases h

/-- A next state of a step at one control location: the step did its work there, and waited anywhere else. -/
theorem asCallerAt_next {s t : State} {pc : CallerPc} {f : Nat → Caller → State → State}
    (h : asCallerAt pc s f = .next t) :
    ∃ k c, s.ByCaller k c ∧ ((c.pc = pc ∧ t = f k c s) ∨ (c.pc ≠ pc ∧ t = hold s)) := by
  obtain ⟨k, c, hk, rfl⟩ := asCaller_next h
  refine ⟨k, c, hk, ?_⟩
  by_cases hp : c.pc = pc <;> simp [hp]

/-- A next state of a consumer operation: its work, the `UNINIT` fault, or a wait. -/
theorem asConsumer_next {s t : State} {i : Instr} {f : Nat → Caller → State → State} (h : asConsumer i s f = .next t) :
    ∃ k c, s.ByCaller k c ∧
      ((c.pc = .cIdle ∧ s.fullyInit = true ∧ t = f k c s)
        ∨ (c.pc = .cIdle ∧ s.fullyInit = false ∧ t = raiseFault i .uninit .opWord s)
        ∨ (c.pc ≠ .cIdle ∧ t = hold s)) := by
  obtain ⟨k, c, hk, ⟨hp, rfl⟩ | ⟨hp, rfl⟩⟩ := asCallerAt_next h
  · refine ⟨k, c, hk, ?_⟩
    by_cases hf : s.fullyInit = true
    · exact .inl ⟨hp, hf, by simp [hf]⟩
    · exact .inr (.inl ⟨hp, by simpa using hf, by simp [hf]⟩)
  · exact ⟨k, c, hk, .inr (.inr ⟨hp, rfl⟩)⟩

/-- Elsewhere than at its control location a caller's step waits (R370). -/
theorem asCallerAt_elsewhere {s : State} {k : Nat} {c : Caller} {pc : CallerPc} (h : s.ByCaller k c) (hpc : c.pc ≠ pc)
    (f : Nat → Caller → State → State) : Waits s (asCallerAt pc s f) := by
  simp [Waits, asCallerAt, asCaller_eq h, hpc, hold, State.setRet]

theorem asConsumer_elsewhere {s : State} {k : Nat} {c : Caller} (i : Instr) (h : s.ByCaller k c) (hpc : c.pc ≠ .cIdle)
    (f : Nat → Caller → State → State) : Waits s (asConsumer i s f) := asCallerAt_elsewhere h hpc _

theorem asTimer_eq {s : State} {k : Nat} {c : Caller} (h : s.agent = .timer k) (hc : s.callers[k]? = some c)
    (f : Nat → Caller → State → State) : asTimer s f = .next (f k c s) := by simp [asTimer, h, hc]

theorem asTimer_next {s t : State} {f : Nat → Caller → State → State} (h : asTimer s f = .next t) :
    ∃ k c, s.agent = .timer k ∧ s.callers[k]? = some c ∧ t = f k c s := by
  unfold asTimer at h
  split at h
  · rename_i k hk
    split at h
    · rename_i c hc
      exact ⟨k, c, hk, hc, by simpa using h.symm⟩
    · cases h
  · cases h

theorem asSignal_eq {s : State} {k : Nat} {c : Caller} (h : s.agent = .signal k) (hc : s.callers[k]? = some c)
    (f : Nat → Caller → State → State) : asSignal s f = .next (f k c s) := by simp [asSignal, h, hc]

theorem asSignal_next {s t : State} {f : Nat → Caller → State → State} (h : asSignal s f = .next t) :
    ∃ k c, s.agent = .signal k ∧ s.callers[k]? = some c ∧ t = f k c s := by
  unfold asSignal at h
  split at h
  · rename_i k hk
    split at h
    · rename_i c hc
      exact ⟨k, c, hk, hc, by simpa using h.symm⟩
    · cases h
  · cases h

theorem asWcDrain_eq {s : State} {k : Nat} {c : Caller} (h : s.agent = .wcDrain k) (hc : s.callers[k]? = some c)
    (f : Nat → Caller → State → State) : asWcDrain s f = .next (f k c s) := by simp [asWcDrain, h, hc]

theorem asWcDrain_next {s t : State} {f : Nat → Caller → State → State} (h : asWcDrain s f = .next t) :
    ∃ k c, s.agent = .wcDrain k ∧ s.callers[k]? = some c ∧ t = f k c s := by
  unfold asWcDrain at h
  split at h
  · rename_i k hk
    split at h
    · rename_i c hc
      exact ⟨k, c, hk, hc, by simpa using h.symm⟩
    · cases h
  · cases h

/-! ### The platform, the ISR, the device and the lifecycle agent -/

theorem asPlatform_eq {s : State} (h : s.agent = .platform) (f : State → State) : asPlatform s f = .next (f s) := by
  simp [asPlatform, h]

theorem asPlatform_next {s t : State} {f : State → State} (h : asPlatform s f = .next t) :
    s.agent = .platform ∧ t = f s := by
  unfold asPlatform at h
  split at h
  · rename_i hk
    exact ⟨hk, by simpa using h.symm⟩
  · cases h

theorem asIsrAt_eq {s : State} {pc : IsrPc} (h : s.agent = .isr) (hpc : s.isr.pc = pc) (f : State → State) :
    asIsrAt pc s f = .next (f s) := by simp [asIsrAt, h, hpc]

/-- Elsewhere than at its control location a step of the ISR waits (R371). -/
theorem asIsrAt_elsewhere {s : State} {pc : IsrPc} (h : s.agent = .isr) (hpc : s.isr.pc ≠ pc) (f : State → State) :
    Waits s (asIsrAt pc s f) := by simp [Waits, asIsrAt, h, hpc, hold, State.setRet]

theorem asIsrAt_next {s t : State} {pc : IsrPc} {f : State → State} (h : asIsrAt pc s f = .next t) :
    s.agent = .isr ∧ ((s.isr.pc = pc ∧ t = f s) ∨ (s.isr.pc ≠ pc ∧ t = hold s)) := by
  unfold asIsrAt at h
  split at h
  · rename_i hk
    refine ⟨hk, ?_⟩
    have ht : t = if s.isr.pc = pc then f s else hold s := by simpa using h.symm
    by_cases hp : s.isr.pc = pc <;> simp [ht, hp]
  · cases h

theorem asScanning_eq {s : State} (h : s.ByScanner) (f : State → State) : asScanning s f = .next (f s) := by
  simp [asScanning, h.1, h.2.1, h.2.2]

/-- A stuck engine takes no step (R402). -/
theorem asScanning_stuck {s : State} (h : s.agent = .device) (hs : s.dev.stuck = true) (f : State → State) :
    Waits s (asScanning s f) := by simp [Waits, asScanning, h, hs, hold, State.setRet]

theorem asScanning_next {s t : State} {f : State → State} (h : asScanning s f = .next t) :
    s.agent = .device ∧ ((s.ByScanner ∧ t = f s) ∨ (¬ s.ByScanner ∧ t = hold s)) := by
  unfold asScanning at h
  split at h
  · rename_i hk
    refine ⟨hk, ?_⟩
    have ht : t = if s.dev.run ≠ .idle ∧ s.dev.stuck = false then f s else hold s := by simpa using h.symm
    by_cases hp : s.dev.run ≠ .idle ∧ s.dev.stuck = false
    · exact .inl ⟨⟨hk, hp⟩, by rw [ht, if_pos hp]⟩
    · exact .inr ⟨fun hs => hp hs.2, by rw [ht, if_neg hp]⟩
  · cases h

theorem asLifecycle_eq {s : State} {adm : Bool} (i : Instr) (h : s.ByLifecycle) (ha : adm = true) (f : State → State) :
    asLifecycle i s adm f = .next (f s) := by simp [asLifecycle, h.1, h.2, ha]

theorem asLifecycle_out {s : State} {adm : Bool} (i : Instr) (h : s.ByLifecycle) (ha : adm = false) (f : State → State) :
    asLifecycle i s adm f = .next (raiseFault i .lifecycle .opWord s) := by simp [asLifecycle, h.1, h.2, ha]

/-- A stuck lifecycle agent takes no step (R402). -/
theorem asLifecycle_stuck {s : State} {adm : Bool} (i : Instr) (h : s.agent = .lifecycle) (hs : s.lc.stuck = true)
    (f : State → State) : Waits s (asLifecycle i s adm f) := by simp [Waits, asLifecycle, h, hs, hold, State.setRet]

theorem asLifecycle_next {s t : State} {i : Instr} {adm : Bool} {f : State → State}
    (h : asLifecycle i s adm f = .next t) :
    s.agent = .lifecycle ∧
      ((s.ByLifecycle ∧ adm = true ∧ t = f s)
        ∨ (s.ByLifecycle ∧ adm = false ∧ t = raiseFault i .lifecycle .opWord s)
        ∨ (s.lc.stuck = true ∧ t = hold s)) := by
  unfold asLifecycle at h
  split at h
  · rename_i hk
    refine ⟨hk, ?_⟩
    have ht := (Host.Outcome.next.inj h).symm
    by_cases hs : s.lc.stuck = true
    · exact .inr (.inr ⟨hs, by simpa [hs] using ht⟩)
    · have hs' : s.lc.stuck = false := by simpa using hs
      by_cases ha : adm = true
      · exact .inl ⟨⟨hk, hs'⟩, ha, by simpa [hs', ha] using ht⟩
      · have ha' : adm = false := by simpa using ha
        exact .inr (.inl ⟨⟨hk, hs'⟩, ha', by simpa [hs', ha'] using ht⟩)
  · cases h

theorem asCsrMaster_eq {s : State} (h : s.CsrMaster) (f : State → State) : asCsrMaster s f = .next (f s) := by
  rcases h with h | ⟨k, c, h, hp⟩
  · simp [asCsrMaster, h.1, h.2]
  · simp [asCsrMaster, h.1, h.2, hp]

/-- A caller elsewhere than at `C_IDLE`, or a stuck lifecycle agent, issues no CSR operation (R370, R402). -/
theorem asCsrMaster_elsewhere {s : State} {k : Nat} {c : Caller} (h : s.ByCaller k c) (hp : c.pc ≠ .cIdle)
    (f : State → State) : Waits s (asCsrMaster s f) := by
  simp [Waits, asCsrMaster, h.1, h.2, hp, hold, State.setRet]

theorem asCsrMaster_stuck {s : State} (h : s.agent = .lifecycle) (hs : s.lc.stuck = true) (f : State → State) :
    Waits s (asCsrMaster s f) := by simp [Waits, asCsrMaster, h, hs, hold, State.setRet]

theorem asCsrMaster_next {s t : State} {f : State → State} (h : asCsrMaster s f = .next t) :
    ((∃ k c, s.ByCaller k c) ∨ s.agent = .lifecycle) ∧ ((s.CsrMaster ∧ t = f s) ∨ (¬ s.CsrMaster ∧ t = hold s)) := by
  unfold asCsrMaster at h
  split at h
  · rename_i k hk
    split at h
    · rename_i c hc
      refine ⟨.inl ⟨k, c, hk, hc⟩, ?_⟩
      have ht := (Host.Outcome.next.inj h).symm
      by_cases hp : c.pc = .cIdle
      · exact .inl ⟨.inr ⟨k, c, ⟨hk, hc⟩, hp⟩, by simpa [hp] using ht⟩
      · refine .inr ⟨?_, by simpa [hp] using ht⟩
        rintro (h' | ⟨k', c', h', hp'⟩)
        · exact absurd (hk.symm.trans h'.1) (by simp)
        · have := hk.symm.trans h'.1
          simp only [Agent.caller.injEq] at this
          subst this
          have := hc.symm.trans h'.2
          simp only [Option.some.injEq] at this
          subst this
          exact hp hp'
    · cases h
  · rename_i hk
    refine ⟨.inr hk, ?_⟩
    have ht := (Host.Outcome.next.inj h).symm
    by_cases hs : s.lc.stuck = true
    · refine .inr ⟨?_, by simpa [hs] using ht⟩
      rintro (h' | ⟨k', c', h', hp'⟩)
      · exact absurd h'.2 (by simp [hs])
      · exact absurd (hk.symm.trans h'.1) (by simp)
    · exact .inl ⟨.inl ⟨hk, by simpa using hs⟩, by simpa [hs] using ht⟩
  · cases h

/-! ### The checks of a CSR access -/

/-- A read is admitted exactly at a legal offset of a mapped block. -/
theorem checkAccess_read_none {s : State} {off : Nat} :
    checkAccess s .read off = none ↔ off % 4 = 0 ∧ off < s.params.regMap.len ∧ s.lc.res.regs = true := by
  unfold checkAccess
  by_cases h : off % 4 ≠ 0 ∨ s.params.regMap.len ≤ off
  · simp only [h, if_true]
    constructor
    · intro h'; cases h'
    · rintro ⟨h1, h2, -⟩; omega
  · by_cases hr : s.lc.res.regs = false
    · simp only [h, if_false, hr, if_true]
      constructor
      · intro h'; cases h'
      · rintro ⟨-, -, h3⟩; cases h3
    · simp only [h, if_false, hr]
      simp only [ne_eq, not_or, not_not, not_le] at h
      simp only [reduceCtorEq, false_and, if_false, true_iff]
      exact ⟨h.1, h.2, by simp⟩

/-- A write needs the write policy as well. -/
theorem checkAccess_write_none {s : State} {off : Nat} :
    checkAccess s .write off = none ↔
      off % 4 = 0 ∧ off < s.params.regMap.len ∧ s.lc.res.regs = true
        ∧ writeAllowed s.params.regMap s.agent off = true := by
  unfold checkAccess
  by_cases h : off % 4 ≠ 0 ∨ s.params.regMap.len ≤ off
  · simp only [h, if_true]
    constructor
    · intro h'; cases h'
    · rintro ⟨h1, h2, -⟩; omega
  · by_cases hr : s.lc.res.regs = false
    · simp only [h, if_false, hr, if_true]
      constructor
      · intro h'; cases h'
      · rintro ⟨-, -, h3, -⟩; cases h3
    · have hr' : s.lc.res.regs = true := by simpa using hr
      have h' : off % 4 = 0 ∧ off < s.params.regMap.len := by omega
      by_cases hw : writeAllowed s.params.regMap s.agent off = true
      · simp [h', hr', hw]
      · have hw' : writeAllowed s.params.regMap s.agent off = false := by simpa using hw
        simp only [h, if_false, hr', hw']
        simp

/-- Off a legal offset every access is `BAD_OFFSET`. -/
theorem checkAccess_badOffset {s : State} {off : Nat} (d : Dir)
    (h : ¬ (off % 4 = 0 ∧ off < s.params.regMap.len)) : checkAccess s d off = some .badOffset := by
  have : off % 4 ≠ 0 ∨ s.params.regMap.len ≤ off := by omega
  simp only [checkAccess, this, if_true]

/-- At a legal offset of an unmapped block every access is `UNMAPPED`. -/
theorem checkAccess_unmapped {s : State} {off : Nat} (d : Dir) (h : off % 4 = 0 ∧ off < s.params.regMap.len)
    (hr : s.lc.res.regs = false) : checkAccess s d off = some .unmapped := by
  have : ¬ (off % 4 ≠ 0 ∨ s.params.regMap.len ≤ off) := by omega
  simp only [checkAccess, this, if_false, hr, if_true]

/-- A mapped block's write that the policy forbids is `WRITE_POLICY`. -/
theorem checkAccess_writePolicy {s : State} {off : Nat} (h : off % 4 = 0 ∧ off < s.params.regMap.len)
    (hr : s.lc.res.regs = true) (hw : writeAllowed s.params.regMap s.agent off = false) :
    checkAccess s .write off = some .writePolicy := by
  have : ¬ (off % 4 ≠ 0 ∨ s.params.regMap.len ≤ off) := by omega
  simp only [checkAccess, this, if_false, hr, hw]
  simp

theorem mmioRead_of_admitted {i : Instr} {off : Nat} {s : State} {k : Word → State → State}
    (h : checkAccess s .read off = none) : mmioRead i off s k = k (readValue s off) (csrReadState s off) := by
  simp only [mmioRead, h]

theorem mmioRead_of_fault {i : Instr} {off : Nat} {s : State} {k : Word → State → State} {r : FaultReason}
    (h : checkAccess s .read off = some r) : mmioRead i off s k = raiseFault i r (.offset off) s := by
  simp only [mmioRead, h]

theorem mmioWrite_of_admitted {i : Instr} {off : Nat} {v : Word} {s : State} {k : State → State}
    (h : checkAccess s .write off = none) : mmioWrite i off v s k = k (csrWriteState s off v) := by
  simp only [mmioWrite, h]

theorem mmioWrite_of_fault {i : Instr} {off : Nat} {v : Word} {s : State} {k : State → State} {r : FaultReason}
    (h : checkAccess s .write off = some r) : mmioWrite i off v s k = raiseFault i r (.offset off) s := by
  simp only [mmioWrite, h]

theorem mmioWrite2_of_admitted {i : Instr} {a b : Nat} {v w : Word} {s : State} {k : State → State}
    (ha : checkAccess s .write a = none) (hb : checkAccess s .write b = none) :
    mmioWrite2 i a v b w s k = k (csrWriteState (csrWriteState s a v) b w) := by
  simp only [mmioWrite2, ha, hb]

/-- What a read inside a step can do. -/
theorem mmioRead_cases (i : Instr) (off : Nat) (s : State) (k : Word → State → State) :
    (∃ r, mmioRead i off s k = raiseFault i r (.offset off) s)
      ∨ (checkAccess s .read off = none ∧ mmioRead i off s k = k (readValue s off) (csrReadState s off)) := by
  cases h : checkAccess s .read off with
  | none => exact .inr ⟨rfl, mmioRead_of_admitted h⟩
  | some r => exact .inl ⟨r, mmioRead_of_fault h⟩

/-- What a write inside a step can do. -/
theorem mmioWrite_cases (i : Instr) (off : Nat) (v : Word) (s : State) (k : State → State) :
    (∃ r, mmioWrite i off v s k = raiseFault i r (.offset off) s)
      ∨ (checkAccess s .write off = none ∧ mmioWrite i off v s k = k (csrWriteState s off v)) := by
  cases h : checkAccess s .write off with
  | none => exact .inr ⟨rfl, mmioWrite_of_admitted h⟩
  | some r => exact .inl ⟨r, mmioWrite_of_fault h⟩

/-- What two writes inside a step can do. -/
theorem mmioWrite2_cases (i : Instr) (a : Nat) (v : Word) (b : Nat) (w : Word) (s : State) (k : State → State) :
    (∃ r off, mmioWrite2 i a v b w s k = raiseFault i r (.offset off) s)
      ∨ (checkAccess s .write a = none ∧ checkAccess s .write b = none
          ∧ mmioWrite2 i a v b w s k = k (csrWriteState (csrWriteState s a v) b w)) := by
  cases ha : checkAccess s .write a with
  | some r => exact .inl ⟨r, a, by simp only [mmioWrite2, ha]⟩
  | none =>
    cases hb : checkAccess s .write b with
    | some r => exact .inl ⟨r, b, by simp only [mmioWrite2, ha, hb]⟩
    | none => exact .inr ⟨rfl, rfl, mmioWrite2_of_admitted ha hb⟩

/-! ### Admissible register maps -/

/-- Every register of an admissible map is at a legal offset. -/
theorem RegMap.legal_of_wf {m : RegMap} (h : m.wf = true) {o : Nat} (ho : o ∈ m.offsets) : o % 4 = 0 ∧ o < m.len := by
  have := h
  simp only [RegMap.wf, Bool.and_eq_true, List.all_eq_true] at this
  simpa using this.2 o ho

theorem RegMap.distinct_of_wf {m : RegMap} (h : m.wf = true) : m.offsets.Nodup := by
  have := h
  simp only [RegMap.wf, Bool.and_eq_true] at this
  simpa using this.1

@[simp] theorem regAt_ctrl (m : RegMap) : regAt m m.ctrl = .ctrl := by simp [regAt]

theorem regAt_gie {m : RegMap} (h : m.wf = true) : regAt m m.gie = .gie := by
  have := RegMap.distinct_of_wf h
  simp only [RegMap.offsets, List.nodup_cons, List.mem_cons, not_or] at this
  simp [regAt, @eq_comm _ m.gie, this]

theorem regAt_ier {m : RegMap} (h : m.wf = true) : regAt m m.ier = .ier := by
  have := RegMap.distinct_of_wf h
  simp only [RegMap.offsets, List.nodup_cons, List.mem_cons, not_or] at this
  simp [regAt, @eq_comm _ m.ier, this]

theorem regAt_isr {m : RegMap} (h : m.wf = true) : regAt m m.isr = .isr := by
  have := RegMap.distinct_of_wf h
  simp only [RegMap.offsets, List.nodup_cons, List.mem_cons, not_or] at this
  simp [regAt, @eq_comm _ m.isr, this]

theorem regAt_buf {m : RegMap} (h : m.wf = true) : regAt m m.buf = .buf := by
  have := RegMap.distinct_of_wf h
  simp only [RegMap.offsets, List.nodup_cons, List.mem_cons, not_or] at this
  simp [regAt, @eq_comm _ m.buf, this]

theorem regAt_coordData {m : RegMap} (h : m.wf = true) : regAt m m.coordData = .coordData := by
  have := RegMap.distinct_of_wf h
  simp only [RegMap.offsets, List.nodup_cons, List.mem_cons, not_or] at this
  simp [regAt, @eq_comm _ m.coordData, this]

theorem regAt_coordCtrl {m : RegMap} (h : m.wf = true) : regAt m m.coordCtrl = .coordCtrl := by
  have := RegMap.distinct_of_wf h
  simp only [RegMap.offsets, List.nodup_cons, List.mem_cons, not_or] at this
  simp [regAt, @eq_comm _ m.coordCtrl, this]

/-- The lifecycle agent may write every legal offset of a mapped block. -/
theorem lifecycle_write_admitted {s : State} {off : Nat} (ha : s.agent = .lifecycle) (hr : s.lc.res.regs = true)
    (ho : off % 4 = 0 ∧ off < s.params.regMap.len) : checkAccess s .write off = none :=
  checkAccess_write_none.mpr ⟨ho.1, ho.2, hr, by simp [ha, writeAllowed]⟩

end Sys2Proof.Machine
end

