-- ==== Sys2Proof/Laws/Memory.lean ====
section
/-!
SUPPORT. The laws of tables and of buffer memory: a read after a write, a write leaves every other key alone, and every
operation keeps the canonical form.
-/

namespace Sys2Proof.Machine

/-- A read after a write: the value written at its key, the old value at every other. -/
theorem Table.read_write {α : Type} (t : Table α) (a b : Nat) (v : α) :
    Table.read (Table.write t a v) b = if b = a then some v else Table.read t b := by
  induction t with
  | nil => simp [Table.write, Table.read]
  | cons p t ih =>
    obtain ⟨x, u⟩ := p
    unfold Table.write
    split
    · simp [Table.read]
    · split
      · rename_i h
        subst h
        by_cases hb : b = a <;> simp [Table.read, hb]
      · rename_i h
        by_cases hx : b = x
        · subst hx
          simp [Table.read, Ne.symm h]
        · simp [Table.read, hx, ih]

@[simp] theorem Table.read_write_self {α : Type} (t : Table α) (a : Nat) (v : α) :
    Table.read (Table.write t a v) a = some v := by simp [Table.read_write]

theorem Table.read_write_ne {α : Type} (t : Table α) {a b : Nat} (v : α) (h : b ≠ a) :
    Table.read (Table.write t a v) b = Table.read t b := by simp [Table.read_write, h]

/-- The keys after a write: the old ones and the written one. -/
theorem Table.mem_write {α : Type} (t : Table α) (a : Nat) (v : α) (p : Nat × α)
    (h : p ∈ Table.write t a v) : p = (a, v) ∨ p ∈ t := by
  induction t with
  | nil => simpa [Table.write] using h
  | cons q t ih =>
    obtain ⟨x, u⟩ := q
    unfold Table.write at h
    split at h
    · simpa using h
    · split at h
      · rcases List.mem_cons.mp h with h | h
        · exact .inl h
        · exact .inr (List.mem_cons_of_mem _ h)
      · rcases List.mem_cons.mp h with h | h
        · exact .inr (h ▸ List.mem_cons_self)
        · exact (ih h).imp_right (List.mem_cons_of_mem _)

/-- A write keeps the canonical form. -/
theorem Table.wf_write {α : Type} (t : Table α) (a : Nat) (v : α) (h : Table.wf t) :
    Table.wf (Table.write t a v) := by
  induction t with
  | nil => simp [Table.write]
  | cons q t ih =>
    obtain ⟨x, u⟩ := q
    have hc := List.pairwise_cons.mp h
    unfold Table.write
    split
    · rename_i hlt
      refine List.pairwise_cons.mpr ⟨?_, h⟩
      intro p hp
      rcases List.mem_cons.mp hp with hp | hp
      · simpa [hp] using hlt
      · exact lt_trans hlt (hc.1 p hp)
    · split
      · rename_i _ heq
        subst heq
        exact List.pairwise_cons.mpr ⟨hc.1, hc.2⟩
      · rename_i hnlt hne
        refine List.pairwise_cons.mpr ⟨?_, ih hc.2⟩
        intro p hp
        rcases Table.mem_write t a v p hp with hp | hp
        · subst hp
          show x < a
          omega
        · exact hc.1 p hp

/-- Writing a byte string keeps the canonical form. -/
theorem Memory.wf_writeBytes (m : Memory) (off : Nat) (bs : List Byte) (h : m.wf) :
    (Memory.writeBytes m off bs).wf := by
  induction bs generalizing m off with
  | nil => exact h
  | cons b bs ih => exact ih _ _ (Table.wf_write m off b h)

/-- What a byte string leaves at each offset. -/
theorem Memory.read_writeBytes (m : Memory) (off : Nat) (bs : List Byte) (a : Nat) :
    (Memory.writeBytes m off bs).read a =
      if off ≤ a ∧ a < off + bs.length then bs[a - off]? else m.read a := by
  induction bs generalizing m off with
  | nil =>
    have : ¬ (off ≤ a ∧ a < off + ([] : List Byte).length) := by simp
    rw [if_neg this]
    rfl
  | cons b bs ih =>
    unfold Memory.writeBytes
    rw [ih]
    by_cases h : a = off
    · subst h
      simp [Memory.read]
    · by_cases h2 : off + 1 ≤ a ∧ a < off + 1 + bs.length
      · have h3 : off ≤ a ∧ a < off + (b :: bs).length := by simp; omega
        have h4 : a - off = (a - (off + 1)) + 1 := by omega
        rw [if_pos h2, if_pos h3, h4]
        rfl
      · have h3 : ¬ (off ≤ a ∧ a < off + (b :: bs).length) := by simp; omega
        rw [if_neg h2, if_neg h3]
        exact Table.read_write_ne m b h

/-- Draining entries keeps the canonical form. -/
theorem Memory.wf_drainInto (m : Memory) (es : List WcEntry) (h : m.wf) : (drainInto m es).wf := by
  induction es generalizing m with
  | nil => exact h
  | cons e es ih => exact ih _ (Memory.wf_writeBytes m e.off e.bytes h)

/-- A byte no drained entry covers keeps its value. -/
theorem Memory.read_drainInto_of_not_covered (m : Memory) (es : List WcEntry) (a : Nat)
    (h : ∀ e ∈ es, e.covers a = false) : (drainInto m es).read a = m.read a := by
  induction es generalizing m with
  | nil => rfl
  | cons e es ih =>
    unfold drainInto
    rw [ih _ fun f hf => h f (List.mem_cons_of_mem _ hf), Memory.read_writeBytes]
    have := h e List.mem_cons_self
    have hn : ¬ (e.off ≤ a ∧ a < e.off + e.bytes.length) := by
      simpa [WcEntry.covers] using this
    rw [if_neg hn]

/-- Reset memory lists nothing, so it is canonical. -/
theorem State.reset_mem_wf : State.reset.buf.mem.wf := List.Pairwise.nil

end Sys2Proof.Machine
end

