-- ==== Sys2Proof/Laws/Ops.lean ====
section
/-!
SUPPORT. One lemma per shared operation that says once everything it can do: draws, CSR accesses, buffer reads, the scan engine's
operations and the lifecycle's. A draw's part of the state (`tape`, `fresh`) is left open: no statement rests on it.
-/

namespace Sys2Proof.Machine

/-! ### Draws -/

/-- The state with other draws left. -/
abbrev State.withDraws (s : State) (tp : List Nat) (fr : Nat) : State := { s with tape := tp, fresh := fr }

theorem State.drawn_eq (s : State) : ∃ tp fr, s.drawn = s.withDraws tp fr := by
  unfold State.drawn
  split
  · exact ⟨_, _, rfl⟩
  · exact ⟨_, _, rfl⟩

@[simp] theorem State.withDraws_self (s : State) : s.withDraws s.tape s.fresh = s := rfl

/-- A drawn result is ok or one of the errors. -/
theorem State.drawResult_mem (s : State) (errs : List Code) : ∀ e, s.drawResult errs = some e → e ∈ errs := by
  intro e h
  unfold State.drawResult at h
  have hlt : s.draw % (errs.length + 1) < (none :: errs.map some).length := by
    simpa using Nat.mod_lt _ (Nat.succ_pos _)
  rw [List.getD_eq_getElem _ _ hlt] at h
  have := List.getElem_mem hlt
  rw [h] at this
  simpa using this

/-- A supplied draw chooses the result it numbers. -/
theorem State.drawResult_of_tape (s : State) (errs : List Code) (n : Nat) (tp : List Nat) (h : s.tape = n :: tp)
    (hn : n ≤ errs.length) : s.drawResult errs = (none :: errs.map some).getD n none := by
  unfold State.drawResult State.draw
  rw [h]
  simp only
  rw [Nat.mod_eq_of_lt (by omega)]

theorem State.draw_of_tape (s : State) (n : Nat) (tp : List Nat) (h : s.tape = n :: tp) : s.draw = n := by
  simp [State.draw, h]

theorem State.drawn_of_tape (s : State) (n : Nat) (tp : List Nat) (h : s.tape = n :: tp) :
    s.drawn = { s with tape := tp } := by
  simp [State.drawn, h]

/-! ### Callers -/

theorem State.modCaller_eq {s : State} {k : Nat} {c : Caller} (h : s.callers[k]? = some c) (f : Caller → Caller) :
    s.modCaller k f = { s with callers := s.callers.set k (f c) } := by
  have : s.callers.modify k f = s.callers.set k (f c) := by
    rw [List.modify_eq_set_getElem?, h]; rfl
  simp only [State.modCaller, this]

theorem List.getElem?_set_self_of_some {α : Type} {l : List α} {k : Nat} {a : α} (b : α) (h : l[k]? = some a) :
    (l.set k b)[k]? = some b := by
  have : k < l.length := by
    rcases Nat.lt_or_ge k l.length with h' | h'
    · exact h'
    · rw [List.getElem?_eq_none h'] at h; cases h
  simp [this]

/-- A member of a list with one element changed: the new one, or an old one. -/
theorem List.mem_set_cases {α : Type} {l : List α} {k : Nat} {a b : α} (h : a ∈ l.set k b) : a = b ∨ a ∈ l := by
  rcases List.mem_or_eq_of_mem_set h with h | h
  · exact .inr h
  · exact .inl h

/-- A member of a list with one element modified: a modified one, or an old one. -/
theorem List.mem_modify_cases {α : Type} {l : List α} {k : Nat} {f : α → α} {a : α} (h : a ∈ l.modify k f) :
    (∃ b, l[k]? = some b ∧ a = f b) ∨ a ∈ l := by
  obtain ⟨i, hi, rfl⟩ := List.mem_iff_getElem.mp h
  rw [List.getElem_modify]
  have hi' : i < l.length := by simpa using hi
  by_cases hk : k = i
  · subst hk
    exact .inl ⟨l[k], by simp [hi'], by simp⟩
  · exact .inr (by simp [hk])

/-! ### CSR accesses -/

/-- An admitted read: the read side effect, the access in the history, and at most draws used. -/
theorem csrReadState_eq (s : State) (off : Nat) :
    ∃ tp fr, csrReadState s off =
      ({ s with
          csr := if s.params.simRegs then s.csr else s.csr.readEffect (regAt s.params.regMap off)
          history := s.history ++ [.csr s.agent off .read (readValue s off)] } : State).withDraws tp fr := by
  obtain ⟨tp, fr, h⟩ : ∃ tp fr, readDrawn s off = s.withDraws tp fr := by
    unfold readDrawn
    split
    · exact ⟨s.tape, s.fresh, rfl⟩
    · exact s.drawn_eq
  refine ⟨tp, fr, ?_⟩
  unfold csrReadState
  rw [h]
  unfold readEffect
  by_cases hs : s.params.simRegs = true <;> simp [hs, State.setCsr, State.addEvent]

theorem Csr.readEffect_eq (c : Csr) (r : CsrReg) :
    c.readEffect r = if r = .coordCtrl then { c with valid := false } else c := by
  cases r <;> simp [Csr.readEffect]

/-- The read effect touches `VALID` only. -/
theorem Csr.readEffect_frame (c : Csr) (r : CsrReg) : ∃ v, c.readEffect r = { c with valid := v } := by
  cases r <;> exact ⟨_, rfl⟩

/-- A start of an idle engine: some position of the raster, some frame id. -/
theorem startScan_eq (run : RunState) (s : State) :
    ∃ row col frame tp fr,
      startScan run s = ({ s with dev := { s.dev with run, row, col, frame } } : State).withDraws tp fr
        ∧ (0 < s.params.vTotal → row < s.params.vTotal) ∧ (0 < s.params.hTotal → col < s.params.hTotal) := by
  obtain ⟨t1, f1, h1⟩ := s.drawn_eq
  obtain ⟨t2, f2, h2⟩ := (s.withDraws t1 f1).drawn_eq
  obtain ⟨t3, f3, h3⟩ := ((s.withDraws t1 f1).withDraws t2 f2).drawn_eq
  refine ⟨s.draw % s.params.vTotal, (s.withDraws t1 f1).draw % s.params.hTotal,
    BitVec.ofNat 12 ((s.withDraws t1 f1).withDraws t2 f2).draw, t3, f3, ?_, ?_, ?_⟩
  · simp only [startScan, h1, h2, h3, State.setDev]
  · exact fun h => Nat.mod_lt _ h
  · exact fun h => Nat.mod_lt _ h

/-- A start with its three draws supplied takes the position they give. -/
theorem startScan_of_tape (run : RunState) (s : State) (row col frame : Nat) (h : s.tape = [row, col, frame])
    (hr : row < s.params.vTotal) (hc : col < s.params.hTotal) :
    startScan run s =
      { s with dev := { s.dev with run, row, col, frame := BitVec.ofNat 12 frame }, tape := [] } := by
  simp [startScan, State.draw, State.drawn, State.setDev, h, Nat.mod_eq_of_lt hr, Nat.mod_eq_of_lt hc]

/-- A write of `CTRL`: the two fields, and the engine's record where its run state moves. -/
theorem writeCtrl_eq (s : State) (v : Word) :
    ∃ d tp fr, writeCtrl s v = ({ s with csr := s.csr.storeCtrl v, dev := d } : State).withDraws tp fr
      ∧ d.stuck = s.dev.stuck ∧ d.scanWord = s.dev.scanWord
      ∧ ((d.row = s.dev.row ∧ d.col = s.dev.col ∧ d.frame = s.dev.frame)
          ∨ (s.dev.run = .idle ∧ (0 < s.params.vTotal → d.row < s.params.vTotal)
              ∧ (0 < s.params.hTotal → d.col < s.params.hTotal))) := by
  unfold writeCtrl
  cases hrun : s.dev.run with
  | idle =>
    simp only
    split
    · obtain ⟨row, col, frame, tp, fr, h, hr, hc⟩ :=
        startScan_eq (if v.getLsbD 7 then .running else .stopping) (s.setCsr (s.csr.storeCtrl v))
      exact ⟨_, tp, fr, h, rfl, rfl, .inr ⟨trivial, hr, hc⟩⟩
    · exact ⟨s.dev, s.tape, s.fresh, rfl, rfl, rfl, .inl ⟨rfl, rfl, rfl⟩⟩
  | running =>
    simp only
    split
    · exact ⟨s.dev, s.tape, s.fresh, rfl, rfl, rfl, .inl ⟨rfl, rfl, rfl⟩⟩
    · exact ⟨{ s.dev with run := if s.params.stopPolicy = .immediate then .idle else .stopping }, s.tape, s.fresh, rfl,
        rfl, rfl, .inl ⟨rfl, rfl, rfl⟩⟩
  | stopping =>
    simp only
    split
    · exact ⟨{ s.dev with run := .running }, s.tape, s.fresh, rfl, rfl, rfl, .inl ⟨rfl, rfl, rfl⟩⟩
    · exact ⟨s.dev, s.tape, s.fresh, rfl, rfl, rfl, .inl ⟨rfl, rfl, rfl⟩⟩

/-- The effect of a write on the whole state: the register block, the engine, and whether the live buffer is programmed. -/
theorem writeEffect_eq (s : State) (off : Nat) (v : Word) :
    ∃ c sm d b tp fr,
      writeEffect s off v = ({ s with csr := c, sim := sm, dev := d, buf := b } : State).withDraws tp fr
      ∧ (sm = s.sim ∨ sm = Table.write s.sim off v)
      ∧ d.stuck = s.dev.stuck
      ∧ ((d.row = s.dev.row ∧ d.col = s.dev.col)
          ∨ ((0 < s.params.vTotal → d.row < s.params.vTotal) ∧ (0 < s.params.hTotal → d.col < s.params.hTotal)))
      ∧ (b.cpu = s.buf.cpu ∧ b.bus = s.buf.bus ∧ b.mem = s.buf.mem ∧ b.live = s.buf.live)
      ∧ ((b.st = s.buf.st ∧ c.buf = s.csr.buf)
          ∨ (c.buf = some v ∧ s.buf.live = true ∧ b.st = if v = s.buf.bus then .programmed else .allocated)
          ∨ (c.buf = some v ∧ s.buf.live = false ∧ b.st = s.buf.st))
      ∧ c.coordData = s.csr.coordData ∧ c.valid = s.csr.valid := by
  unfold writeEffect
  by_cases hs : s.params.simRegs = true
  · exact ⟨s.csr, Table.write s.sim off v, s.dev, s.buf, s.tape, s.fresh, by simp [hs, State.setSim], .inr rfl, rfl,
      .inl ⟨rfl, rfl⟩, ⟨rfl, rfl, rfl, rfl⟩, .inl ⟨rfl, rfl⟩, rfl, rfl⟩
  · simp only [hs]
    cases regAt s.params.regMap off with
    | ctrl =>
      obtain ⟨d, tp, fr, h, hst, -, hpos⟩ := writeCtrl_eq s v
      refine ⟨s.csr.storeCtrl v, s.sim, d, s.buf, tp, fr, h, .inl rfl, hst, ?_, ⟨rfl, rfl, rfl, rfl⟩, .inl ⟨rfl, rfl⟩, rfl, rfl⟩
      rcases hpos with h | h
      · exact .inl ⟨h.1, h.2.1⟩
      · exact .inr h.2
    | buf =>
      by_cases hl : s.buf.live = true
      · refine ⟨{ s.csr with buf := some v }, s.sim, s.dev,
          { s.buf with st := if v = s.buf.bus then .programmed else .allocated }, s.tape, s.fresh,
          by simp [writeBuf, hl, State.setBuf, State.setCsr], .inl rfl, rfl, .inl ⟨rfl, rfl⟩, ⟨rfl, rfl, rfl, ?_⟩,
          .inr (.inl ⟨rfl, hl, rfl⟩), rfl, rfl⟩
        rw [hl]
        by_cases hv : v = s.buf.bus <;> simp [Buffer.live, hv]
      · have hl' : s.buf.live = false := by simpa using hl
        exact ⟨{ s.csr with buf := some v }, s.sim, s.dev, s.buf, s.tape, s.fresh,
          by simp [writeBuf, hl', State.setCsr], .inl rfl, rfl, .inl ⟨rfl, rfl⟩, ⟨rfl, rfl, rfl, rfl⟩,
          .inr (.inr ⟨rfl, hl', rfl⟩), rfl, rfl⟩
    | gie => exact ⟨s.csr.storeGie v, s.sim, s.dev, s.buf, s.tape, s.fresh, rfl, .inl rfl, rfl, .inl ⟨rfl, rfl⟩, ⟨rfl, rfl, rfl, rfl⟩,
        .inl ⟨rfl, rfl⟩, rfl, rfl⟩
    | ier => exact ⟨s.csr.storeIer v, s.sim, s.dev, s.buf, s.tape, s.fresh, rfl, .inl rfl, rfl, .inl ⟨rfl, rfl⟩, ⟨rfl, rfl, rfl, rfl⟩,
        .inl ⟨rfl, rfl⟩, rfl, rfl⟩
    | isr => exact ⟨s.csr.clearIsr v, s.sim, s.dev, s.buf, s.tape, s.fresh, rfl, .inl rfl, rfl, .inl ⟨rfl, rfl⟩, ⟨rfl, rfl, rfl, rfl⟩,
        .inl ⟨rfl, rfl⟩, rfl, rfl⟩
    | coordData => exact ⟨s.csr, s.sim, s.dev, s.buf, s.tape, s.fresh, rfl, .inl rfl, rfl, .inl ⟨rfl, rfl⟩, ⟨rfl, rfl, rfl, rfl⟩,
        .inl ⟨rfl, rfl⟩, rfl, rfl⟩
    | coordCtrl => exact ⟨s.csr, s.sim, s.dev, s.buf, s.tape, s.fresh, rfl, .inl rfl, rfl, .inl ⟨rfl, rfl⟩, ⟨rfl, rfl, rfl, rfl⟩,
        .inl ⟨rfl, rfl⟩, rfl, rfl⟩
    | reserved => exact ⟨s.csr, s.sim, s.dev, s.buf, s.tape, s.fresh, rfl, .inl rfl, rfl, .inl ⟨rfl, rfl⟩, ⟨rfl, rfl, rfl, rfl⟩,
        .inl ⟨rfl, rfl⟩, rfl, rfl⟩

/-- An admitted write's effect outside the register block, the engine and the buffer record: the access in the history. -/
theorem csrWriteState_frame (s : State) (off : Nat) (v : Word) :
    ∃ c sm d b tp fr,
      csrWriteState s off v
        = ({ s with csr := c, sim := sm, dev := d, buf := b,
                    history := s.history ++ [.csr s.agent off .write v] } : State).withDraws tp fr
      ∧ (sm = s.sim ∨ sm = Table.write s.sim off v)
      ∧ d.stuck = s.dev.stuck
      ∧ ((d.row = s.dev.row ∧ d.col = s.dev.col)
          ∨ ((0 < s.params.vTotal → d.row < s.params.vTotal) ∧ (0 < s.params.hTotal → d.col < s.params.hTotal)))
      ∧ (b.cpu = s.buf.cpu ∧ b.bus = s.buf.bus ∧ b.mem = s.buf.mem ∧ b.live = s.buf.live)
      ∧ ((b.st = s.buf.st ∧ c.buf = s.csr.buf)
          ∨ (c.buf = some v ∧ s.buf.live = true ∧ b.st = if v = s.buf.bus then .programmed else .allocated)
          ∨ (c.buf = some v ∧ s.buf.live = false ∧ b.st = s.buf.st))
      ∧ c.coordData = s.csr.coordData ∧ c.valid = s.csr.valid := by
  obtain ⟨c, sm, d, b, tp, fr, h, rest⟩ := writeEffect_eq s off v
  exact ⟨c, sm, d, b, tp, fr, by rw [csrWriteState, h]; rfl, rest⟩

/-! ### Buffer reads -/

/-- One byte of a caller's read is an allowed one, and only draws are used. -/
theorem loadByte_eq (s : State) (c : Caller) (off : Nat) :
    ∃ b tp fr, loadByte s c off = (b, s.withDraws tp fr) ∧ AllowedByte s c off b := by
  have hchosen : ∃ tp fr, byteChosen s c off = s.withDraws tp fr := by
    unfold byteChosen
    split
    · exact ⟨s.tape, s.fresh, rfl⟩
    · exact s.drawn_eq
  obtain ⟨tp, fr, hch⟩ := hchosen
  have hmem : byteChoice s c off = s.memByte off ∨ ∃ b ∈ pendingBytes c.wc off, byteChoice s c off = some b := by
    unfold byteChoice
    split
    · exact .inl rfl
    · have hlt : s.draw % (byteChoices s c off).length < (byteChoices s c off).length :=
        Nat.mod_lt _ (by simp [byteChoices])
      rw [List.getD_eq_getElem _ _ hlt]
      have := List.getElem_mem hlt
      generalize (byteChoices s c off)[s.draw % (byteChoices s c off).length] = x at this
      simp only [byteChoices, List.mem_cons, List.mem_map] at this
      rcases this with h | ⟨b, hb, rfl⟩
      · exact .inl h
      · exact .inr ⟨b, hb, rfl⟩
  unfold loadByte
  cases hb : byteChoice s c off with
  | some b =>
    refine ⟨b, tp, fr, by simp [hch], ?_⟩
    rcases hmem with h | ⟨b', hb', h⟩
    · exact .inl (by rw [← h, hb])
    · rw [hb] at h
      exact .inr (.inr (by simpa [Option.some.inj h] using hb'))
  | none =>
    obtain ⟨tp', fr', hd⟩ := (s.withDraws tp fr).drawn_eq
    refine ⟨BitVec.ofNat 8 (s.withDraws tp fr).draw, tp', fr', by simp only [hch, hd], ?_⟩
    rcases hmem with h | ⟨b', hb', h⟩
    · exact .inr (.inl (by rw [← h, hb]))
    · rw [hb] at h; cases h

/-- `n` bytes of a caller's read are allowed ones, and only draws are used. -/
theorem loadBytes_eq (c : Caller) (off n : Nat) (s : State) :
    ∃ bs tp fr, loadBytes c off n s = (bs, s.withDraws tp fr) ∧ bs.length = n
      ∧ ∀ (j : Nat) b, bs[j]? = some b → AllowedByte s c (off + j) b := by
  induction n generalizing off s with
  | zero => exact ⟨[], s.tape, s.fresh, rfl, rfl, by simp⟩
  | succ n ih =>
    obtain ⟨b, tp, fr, hb, hab⟩ := loadByte_eq s c off
    obtain ⟨bs, tp', fr', hbs, hlen, hal⟩ := ih (off + 1) (s.withDraws tp fr)
    refine ⟨b :: bs, tp', fr', ?_, by simp [hlen], ?_⟩
    · simp only [loadBytes, hb, hbs]
    · intro j x hj
      cases j with
      | zero =>
        simp only [List.getElem?_cons_zero, Option.some.injEq] at hj
        subst hj
        simpa using hab
      | succ j =>
        have := hal j x (by simpa using hj)
        rwa [show off + (j + 1) = off + 1 + j by omega]

/-- Some draws choose any allowed byte, and no other draw is used. -/
theorem loadByte_reaches {s : State} {c : Caller} {off : Nat} {b : Byte} (h : AllowedByte s c off b) :
    ∃ ds, ∀ tp, loadByte { s with tape := ds ++ tp } c off = (b, { s with tape := tp }) := by
  have hm : ∀ tp, State.memByte { s with tape := tp } off = s.memByte off := fun _ => rfl
  by_cases hp : pendingBytes c.wc off = []
  · rcases h with h | h | h
    · exact ⟨[], fun tp => by simp [loadByte, byteChoice, byteChosen, hp, hm, h]⟩
    · exact ⟨[b.toNat], fun tp => by simp [loadByte, byteChoice, byteChosen, hp, hm, h, State.draw, State.drawn]⟩
    · simp [hp] at h
  · have chosen : ∀ (i : Nat) (tp : List Nat) (x : Option Byte), i < (byteChoices s c off).length →
        (byteChoices s c off)[i]? = some x →
        byteChoice { s with tape := i :: tp } c off = x ∧ byteChosen { s with tape := i :: tp } c off = { s with tape := tp } := by
      intro i tp x hi hx
      have hc : byteChoices { s with tape := i :: tp } c off = byteChoices s c off := rfl
      exact ⟨by simp [byteChoice, hp, hc, State.draw, Nat.mod_eq_of_lt hi, hx], by simp [byteChosen, hp, State.drawn]⟩
    have first := fun tp => chosen 0 tp (s.memByte off) (by simp [byteChoices]) rfl
    rcases h with h | h | h
    · exact ⟨[0], fun tp => by simp [loadByte, (first tp).1, (first tp).2, h]⟩
    · exact ⟨[0, b.toNat], fun tp => by
        simp [loadByte, (first (b.toNat :: tp)).1, (first (b.toNat :: tp)).2, h, State.draw, State.drawn]⟩
    · obtain ⟨i, hi, hb⟩ := List.getElem_of_mem h
      have later := fun tp => chosen (i + 1) tp (some b) (by simpa [byteChoices] using hi) (by simp [byteChoices, hi, hb])
      exact ⟨[i + 1], fun tp => by simp [loadByte, (later tp).1, (later tp).2]⟩

/-- Some draws choose any list of allowed bytes, each byte by itself. -/
theorem loadBytes_reaches {s : State} {c : Caller} (off : Nat) (bs : List Byte)
    (h : ∀ (j : Nat) b, bs[j]? = some b → AllowedByte s c (off + j) b) :
    ∃ ds, ∀ tp, loadBytes c off bs.length { s with tape := ds ++ tp } = (bs, { s with tape := tp }) := by
  induction bs generalizing off with
  | nil => exact ⟨[], fun tp => rfl⟩
  | cons b bs ih =>
    obtain ⟨ds, hd⟩ := loadByte_reaches (h 0 b rfl)
    obtain ⟨es, he⟩ := ih (off + 1) fun j x hj => by
      simpa [Nat.add_assoc, Nat.add_comm 1 j] using h (j + 1) x (by simpa using hj)
    refine ⟨ds ++ es, fun tp => ?_⟩
    have hd' := hd (es ++ tp)
    rw [Nat.add_zero] at hd'
    simp only [List.length_cons, loadBytes, List.append_assoc, hd', he tp]

/-- The bytes of a scanout read: `Buffer.mem`'s where they hold a value. -/
theorem scanBytes_eq (off n : Nat) (s : State) :
    ∃ bs tp fr, scanBytes off n s = (bs, s.withDraws tp fr) ∧ bs.length = n
      ∧ ∀ (j : Nat) v, j < n → s.memByte (off + j) = some v → bs[j]? = some v := by
  induction n generalizing off s with
  | zero => exact ⟨[], s.tape, s.fresh, rfl, rfl, by simp⟩
  | succ n ih =>
    have hb : ∃ b tp fr, scanByte s off = (b, s.withDraws tp fr) ∧ ∀ v, s.memByte off = some v → b = v := by
      unfold scanByte
      cases hm : s.memByte off with
      | some v => exact ⟨v, s.tape, s.fresh, rfl, by simp⟩
      | none =>
        obtain ⟨tp, fr, h⟩ := s.drawn_eq
        exact ⟨BitVec.ofNat 8 s.draw, tp, fr, by simp only [h], by simp⟩
    obtain ⟨b, tp, fr, hb, hv⟩ := hb
    obtain ⟨bs, tp', fr', hbs, hlen, hal⟩ := ih (off + 1) (s.withDraws tp fr)
    refine ⟨b :: bs, tp', fr', ?_, by simp [hlen], ?_⟩
    · simp only [scanBytes, hb, hbs]
    · intro j v hj hm
      cases j with
      | zero => simp [hv v (by simpa using hm)]
      | succ j =>
        have := hal j v (by omega) (by rw [show off + 1 + j = off + (j + 1) by omega]; exact hm)
        simpa using this

/-- What the liveness check of a scanout read admits. -/
theorem scanoutLive_iff (s : State) (base b : Word) :
    scanoutLive s base b = true ↔
      s.buf.live = true ∧ s.buf.bus.toNat ≤ b.toNat ∧ b.toNat + 4 ≤ s.buf.bus.toNat + fbSize
        ∧ (s.params.bufMustBeBus = true → base = s.buf.bus) := by
  cases h : s.params.bufMustBeBus <;> simp [scanoutLive, Buffer.holdsBus, h, and_assoc]

/-- An admitted scanout read: the word kept, the address in the history, only draws used. -/
theorem scanoutState_eq (s : State) (b : Word) :
    ∃ w tp fr, scanoutState s b
        = ({ s with dev := { s.dev with scanWord := w }, history := s.history ++ [.scanout b] } : State).withDraws tp fr
      ∧ ∃ bs, w = ofBytes bs ∧ bs.length = 4
        ∧ ∀ (j : Nat) v, j < 4 → s.memByte (b.toNat - s.buf.bus.toNat + j) = some v → bs[j]? = some v := by
  obtain ⟨bs, tp, fr, h, hlen, hv⟩ := scanBytes_eq (b.toNat - s.buf.bus.toNat) 4 s
  refine ⟨ofBytes bs, tp, fr, ?_, bs, rfl, hlen, hv⟩
  simp only [scanoutState, h, State.setDev, State.addEvent]

/-! ### The frame boundary -/

/-- The frame boundary (R312). -/
theorem frameBoundary_eq (s : State) :
    ∃ f tp fr, frameBoundary s
        = ({ s with dev := { s.dev with frame := f, run := if s.dev.run = .stopping then .idle else s.dev.run },
                    csr := s.csr.raiseFrame } : State).withDraws tp fr
      ∧ (s.params.frameIdIncrements = true → f = s.dev.frame + 1) := by
  unfold frameBoundary
  by_cases hf : s.params.frameIdIncrements = true
  · exact ⟨nextFrame s, s.tape, s.fresh, by simp [hf, State.setDev, State.setCsr], fun _ => by simp [nextFrame, hf]⟩
  · obtain ⟨tp, fr, h⟩ := s.drawn_eq
    refine ⟨nextFrame s, tp, fr, ?_, fun h => absurd h hf⟩
    simp [hf, h, State.setDev, State.setCsr]

/-! ### Lifecycle -/

/-- An allocation: addresses under the law of R162, no byte with a value, no mapping. -/
theorem allocBuffer_eq (s : State) :
    ∃ cpu bus tp fr, allocBuffer s
        = ({ s with buf := { st := .allocated, cpu, bus, mem := [] },
                    callers := s.callers.map fun c => { c with mapped := false } } : State).withDraws tp fr
      ∧ cpu % 4 = 0 ∧ bus.toNat % 4 = 0 ∧ bus.toNat + fbSize ≤ 2 ^ 32 := by
  obtain ⟨t1, f1, h1⟩ := s.drawn_eq
  obtain ⟨t2, f2, h2⟩ := (s.withDraws t1 f1).drawn_eq
  refine ⟨bytesPerPixel * s.draw,
    BitVec.ofNat 32 (bytesPerPixel * ((s.withDraws t1 f1).draw % ((2 ^ 32 - fbSize) / bytesPerPixel + 1))), t2, f2, ?_,
    Nat.mul_mod_right _ _, ?_, ?_⟩
  · simp only [allocBuffer, h1, h2, State.setBuf, State.mapCallers]
  all_goals
    have hm : (s.withDraws t1 f1).draw % ((2 ^ 32 - fbSize) / bytesPerPixel + 1)
        < (2 ^ 32 - fbSize) / bytesPerPixel + 1 := Nat.mod_lt _ (Nat.succ_pos _)
    generalize (s.withDraws t1 f1).draw % ((2 ^ 32 - fbSize) / bytesPerPixel + 1) = m at hm
    have hm' : m < 1073434625 := hm
    have h4 : (BitVec.ofNat 32 (bytesPerPixel * m)).toNat = 4 * m := by
      rw [BitVec.toNat_ofNat]
      exact Nat.mod_eq_of_lt (show 4 * m < 2 ^ 32 by omega)
    have hf : fbSize = 1228800 := rfl
    omega

/-- A release: the palette and the live buffer go with the resources that held them. -/
theorem releaseAll_eq (s : State) :
    releaseAll s =
      { s with
        pal := if s.lc.res.pal then emptyPalette else s.pal
        buf := if s.lc.res.buf then { s.buf with st := .retired } else s.buf
        lc := { s.lc with res := {} } } := by
  unfold releaseAll
  cases s.lc.res.pal <;> cases s.lc.res.buf <;> rfl

/-- The handle of an attach: a new one, or the current one. -/
theorem freshHandle_eq (s : State) :
    freshHandle s =
      if s.lc.L = .detached ∨ s.buf.st = .retired then
        { s with oldBufs := s.oldBufs ++ [s.buf], buf := {}, pal := emptyPalette,
                 callers := s.callers.map (fun c => { c with mapped := false }),
                 lc := { s.lc with irqEnabled := false } }
      else s := by
  unfold freshHandle
  split <;> rfl

/-! ### Drains -/

theorem pickEntries_snd (m : Nat) (wc : List WcEntry) : (pickEntries m wc).map (fun p => p.2) = wc := by
  induction wc generalizing m with
  | nil => rfl
  | cons e es ih => simp [pickEntries, ih]

theorem closeEntries_snd (l : List (Bool × WcEntry)) :
    (closeEntries l).map (fun p => p.2) = l.map fun p => p.2 := by
  induction l with
  | nil => rfl
  | cons p l ih => simpa [closeEntries, closeEntry] using ih

theorem someEntry_snd (l : List (Bool × WcEntry)) : (someEntry l).map (fun p => p.2) = l.map fun p => p.2 := by
  cases l <;> simp [someEntry]

/-- Two entries that cover one byte overlap. -/
theorem WcEntry.overlaps_of_covers {e f : WcEntry} {a : Nat} (he : e.covers a = true) (hf : f.covers a = true) :
    e.overlaps f = true := by
  simp only [WcEntry.covers, Bool.and_eq_true, decide_eq_true_eq] at he hf
  simp only [WcEntry.overlaps, Bool.and_eq_true, decide_eq_true_eq, Bool.not_eq_true', List.isEmpty_eq_false_iff]
  refine ⟨⟨⟨by omega, by omega⟩, ?_⟩, ?_⟩
  · rintro h; simp [h] at he; omega
  · rintro h; simp [h] at hf; omega

/-- What a drain set asks of each entry and the entries after it. -/
abbrev DrainOrder (p q : Bool × WcEntry) : Prop :=
  ∀ a, q.1 = true → p.2.covers a = true → q.2.covers a = true → p.1 = true

theorem closeEntries_order (l : List (Bool × WcEntry)) : (closeEntries l).Pairwise DrainOrder := by
  induction l with
  | nil => exact List.Pairwise.nil
  | cons p l ih =>
    refine List.pairwise_cons.mpr ⟨?_, ih⟩
    intro q hq a hq1 hp hqa
    simp only [Bool.or_eq_true]
    refine .inr (List.any_eq_true.mpr ⟨q, hq, ?_⟩)
    simp [hq1, WcEntry.overlaps_of_covers hp hqa]

theorem someEntry_order {l : List (Bool × WcEntry)} (h : l.Pairwise DrainOrder) :
    (someEntry l).Pairwise DrainOrder := by
  cases l with
  | nil => exact h
  | cons p r =>
    obtain ⟨h1, h2⟩ := List.pairwise_cons.mp h
    refine List.pairwise_cons.mpr ⟨?_, h2⟩
    intro q hq a hq1 hp hqa
    simp [h1 q hq a hq1 hp hqa]

/-- Every draw gives an allowed drain set. -/
theorem drainChoice_isDrainSet (m : Nat) {wc : List WcEntry} (h : wc ≠ []) : DrainSet wc (drainChoice m wc) := by
  refine ⟨?_, ?_, someEntry_order (closeEntries_order _)⟩
  · rw [drainChoice, someEntry_snd, closeEntries_snd, pickEntries_snd]
  · have hne : closeEntries (pickEntries m wc) ≠ [] := by
      intro h0
      have := congrArg (List.map fun p : Bool × WcEntry => p.2) h0
      rw [closeEntries_snd, pickEntries_snd] at this
      exact h (by simpa using this)
    unfold drainChoice
    cases hl : closeEntries (pickEntries m wc) with
    | nil => exact absurd hl hne
    | cons p r =>
      by_cases hr : ∃ q ∈ r, q.1 = true
      · obtain ⟨q, hq, hq1⟩ := hr
        exact ⟨q, List.mem_cons_of_mem _ hq, hq1⟩
      · refine ⟨(p.1 || !(r.any fun q => q.1), p.2), List.mem_cons_self, ?_⟩
        have : (r.any fun q => q.1) = false := by
          simpa using fun a b hq hq1 => hr ⟨(a, b), hq, hq1⟩
        simp [this]

end Sys2Proof.Machine
end

