-- ==== Sys2Proof/Laws/Frames.lean ====
section
/-!
SUPPORT. The fields each shared operation leaves alone, one lemma per field, tagged for simp; and the pieces of a changed field that
it leaves alone.
-/

namespace Sys2Proof.Machine

/-! ### csrReadState -/

@[simp] theorem csrReadState_params (s : State) (off : Nat) : (csrReadState s off).params = s.params := by
  obtain ⟨_, _, h⟩ := csrReadState_eq s off; rw [h]
@[simp] theorem csrReadState_sim (s : State) (off : Nat) : (csrReadState s off).sim = s.sim := by
  obtain ⟨_, _, h⟩ := csrReadState_eq s off; rw [h]
@[simp] theorem csrReadState_dev (s : State) (off : Nat) : (csrReadState s off).dev = s.dev := by
  obtain ⟨_, _, h⟩ := csrReadState_eq s off; rw [h]
@[simp] theorem csrReadState_buf (s : State) (off : Nat) : (csrReadState s off).buf = s.buf := by
  obtain ⟨_, _, h⟩ := csrReadState_eq s off; rw [h]
@[simp] theorem csrReadState_oldBufs (s : State) (off : Nat) : (csrReadState s off).oldBufs = s.oldBufs := by
  obtain ⟨_, _, h⟩ := csrReadState_eq s off; rw [h]
@[simp] theorem csrReadState_pal (s : State) (off : Nat) : (csrReadState s off).pal = s.pal := by
  obtain ⟨_, _, h⟩ := csrReadState_eq s off; rw [h]
@[simp] theorem csrReadState_lc (s : State) (off : Nat) : (csrReadState s off).lc = s.lc := by
  obtain ⟨_, _, h⟩ := csrReadState_eq s off; rw [h]
@[simp] theorem csrReadState_isr (s : State) (off : Nat) : (csrReadState s off).isr = s.isr := by
  obtain ⟨_, _, h⟩ := csrReadState_eq s off; rw [h]
@[simp] theorem csrReadState_callers (s : State) (off : Nat) : (csrReadState s off).callers = s.callers := by
  obtain ⟨_, _, h⟩ := csrReadState_eq s off; rw [h]
@[simp] theorem csrReadState_faults (s : State) (off : Nat) : (csrReadState s off).faults = s.faults := by
  obtain ⟨_, _, h⟩ := csrReadState_eq s off; rw [h]
@[simp] theorem csrReadState_clock (s : State) (off : Nat) : (csrReadState s off).clock = s.clock := by
  obtain ⟨_, _, h⟩ := csrReadState_eq s off; rw [h]
@[simp] theorem csrReadState_sched (s : State) (off : Nat) : (csrReadState s off).sched = s.sched := by
  obtain ⟨_, _, h⟩ := csrReadState_eq s off; rw [h]
@[simp] theorem csrReadState_agent (s : State) (off : Nat) : (csrReadState s off).agent = s.agent := by
  obtain ⟨_, _, h⟩ := csrReadState_eq s off; rw [h]
@[simp] theorem csrReadState_opnd (s : State) (off : Nat) : (csrReadState s off).opnd = s.opnd := by
  obtain ⟨_, _, h⟩ := csrReadState_eq s off; rw [h]
@[simp] theorem csrReadState_ret (s : State) (off : Nat) : (csrReadState s off).ret = s.ret := by
  obtain ⟨_, _, h⟩ := csrReadState_eq s off; rw [h]

@[simp] theorem csrReadState_history (s : State) (off : Nat) :
    (csrReadState s off).history = s.history ++ [.csr s.agent off .read (readValue s off)] := by
  obtain ⟨_, _, h⟩ := csrReadState_eq s off; rw [h]
/-- A read clears `VALID` or changes no field of the block. -/
theorem csrReadState_csr (s : State) (off : Nat) :
    (csrReadState s off).csr = if s.params.simRegs then s.csr else s.csr.readEffect (regAt s.params.regMap off) := by
  obtain ⟨_, _, h⟩ := csrReadState_eq s off; rw [h]
theorem csrReadState_csr_frame (s : State) (off : Nat) :
    ∃ v, (csrReadState s off).csr = { s.csr with valid := v } ∧ (v = true → s.csr.valid = true) := by
  rw [csrReadState_csr]
  split
  · exact ⟨s.csr.valid, rfl, id⟩
  · cases regAt s.params.regMap off <;>
      first | exact ⟨s.csr.valid, rfl, id⟩ | exact ⟨false, rfl, fun h => by cases h⟩

/-! ### csrWriteState -/

@[simp] theorem csrWriteState_params (s : State) (off : Nat) (v : Word) : (csrWriteState s off v).params = s.params := by
  obtain ⟨_, _, _, _, _, _, h, _⟩ := csrWriteState_frame s off v; rw [h]
@[simp] theorem csrWriteState_oldBufs (s : State) (off : Nat) (v : Word) : (csrWriteState s off v).oldBufs = s.oldBufs := by
  obtain ⟨_, _, _, _, _, _, h, _⟩ := csrWriteState_frame s off v; rw [h]
@[simp] theorem csrWriteState_pal (s : State) (off : Nat) (v : Word) : (csrWriteState s off v).pal = s.pal := by
  obtain ⟨_, _, _, _, _, _, h, _⟩ := csrWriteState_frame s off v; rw [h]
@[simp] theorem csrWriteState_lc (s : State) (off : Nat) (v : Word) : (csrWriteState s off v).lc = s.lc := by
  obtain ⟨_, _, _, _, _, _, h, _⟩ := csrWriteState_frame s off v; rw [h]
@[simp] theorem csrWriteState_isr (s : State) (off : Nat) (v : Word) : (csrWriteState s off v).isr = s.isr := by
  obtain ⟨_, _, _, _, _, _, h, _⟩ := csrWriteState_frame s off v; rw [h]
@[simp] theorem csrWriteState_callers (s : State) (off : Nat) (v : Word) : (csrWriteState s off v).callers = s.callers := by
  obtain ⟨_, _, _, _, _, _, h, _⟩ := csrWriteState_frame s off v; rw [h]
@[simp] theorem csrWriteState_faults (s : State) (off : Nat) (v : Word) : (csrWriteState s off v).faults = s.faults := by
  obtain ⟨_, _, _, _, _, _, h, _⟩ := csrWriteState_frame s off v; rw [h]
@[simp] theorem csrWriteState_clock (s : State) (off : Nat) (v : Word) : (csrWriteState s off v).clock = s.clock := by
  obtain ⟨_, _, _, _, _, _, h, _⟩ := csrWriteState_frame s off v; rw [h]
@[simp] theorem csrWriteState_sched (s : State) (off : Nat) (v : Word) : (csrWriteState s off v).sched = s.sched := by
  obtain ⟨_, _, _, _, _, _, h, _⟩ := csrWriteState_frame s off v; rw [h]
@[simp] theorem csrWriteState_agent (s : State) (off : Nat) (v : Word) : (csrWriteState s off v).agent = s.agent := by
  obtain ⟨_, _, _, _, _, _, h, _⟩ := csrWriteState_frame s off v; rw [h]
@[simp] theorem csrWriteState_opnd (s : State) (off : Nat) (v : Word) : (csrWriteState s off v).opnd = s.opnd := by
  obtain ⟨_, _, _, _, _, _, h, _⟩ := csrWriteState_frame s off v; rw [h]
@[simp] theorem csrWriteState_ret (s : State) (off : Nat) (v : Word) : (csrWriteState s off v).ret = s.ret := by
  obtain ⟨_, _, _, _, _, _, h, _⟩ := csrWriteState_frame s off v; rw [h]

@[simp] theorem csrWriteState_history (s : State) (off : Nat) (v : Word) :
    (csrWriteState s off v).history = s.history ++ [.csr s.agent off .write v] := by
  obtain ⟨_, _, _, _, _, _, h, _⟩ := csrWriteState_frame s off v; rw [h]
@[simp] theorem csrWriteState_mem (s : State) (off : Nat) (v : Word) : (csrWriteState s off v).buf.mem = s.buf.mem := by
  obtain ⟨_, _, _, _, _, _, h, -, -, -, hb, -⟩ := csrWriteState_frame s off v; rw [h]; exact hb.2.2.1
@[simp] theorem csrWriteState_bus (s : State) (off : Nat) (v : Word) : (csrWriteState s off v).buf.bus = s.buf.bus := by
  obtain ⟨_, _, _, _, _, _, h, -, -, -, hb, -⟩ := csrWriteState_frame s off v; rw [h]; exact hb.2.1
@[simp] theorem csrWriteState_live (s : State) (off : Nat) (v : Word) :
    (csrWriteState s off v).buf.live = s.buf.live := by
  obtain ⟨_, _, _, _, _, _, h, -, -, -, hb, -⟩ := csrWriteState_frame s off v; rw [h]; exact hb.2.2.2
@[simp] theorem csrWriteState_dev_stuck (s : State) (off : Nat) (v : Word) :
    (csrWriteState s off v).dev.stuck = s.dev.stuck := by
  obtain ⟨_, _, _, _, _, _, h, -, hd, -⟩ := csrWriteState_frame s off v; rw [h]; exact hd
@[simp] theorem csrWriteState_coordData (s : State) (off : Nat) (v : Word) :
    (csrWriteState s off v).csr.coordData = s.csr.coordData := by
  obtain ⟨_, _, _, _, _, _, h, -, -, -, -, -, hc, -⟩ := csrWriteState_frame s off v; rw [h]; exact hc
@[simp] theorem csrWriteState_valid (s : State) (off : Nat) (v : Word) :
    (csrWriteState s off v).csr.valid = s.csr.valid := by
  obtain ⟨_, _, _, _, _, _, h, -, -, -, -, -, -, hc⟩ := csrWriteState_frame s off v; rw [h]; exact hc

/-! ### scanoutState -/

@[simp] theorem scanoutState_params (s : State) (b : Word) : (scanoutState s b).params = s.params := by
  obtain ⟨_, _, _, h, _⟩ := scanoutState_eq s b; rw [h]
@[simp] theorem scanoutState_csr (s : State) (b : Word) : (scanoutState s b).csr = s.csr := by
  obtain ⟨_, _, _, h, _⟩ := scanoutState_eq s b; rw [h]
@[simp] theorem scanoutState_sim (s : State) (b : Word) : (scanoutState s b).sim = s.sim := by
  obtain ⟨_, _, _, h, _⟩ := scanoutState_eq s b; rw [h]
@[simp] theorem scanoutState_buf (s : State) (b : Word) : (scanoutState s b).buf = s.buf := by
  obtain ⟨_, _, _, h, _⟩ := scanoutState_eq s b; rw [h]
@[simp] theorem scanoutState_oldBufs (s : State) (b : Word) : (scanoutState s b).oldBufs = s.oldBufs := by
  obtain ⟨_, _, _, h, _⟩ := scanoutState_eq s b; rw [h]
@[simp] theorem scanoutState_pal (s : State) (b : Word) : (scanoutState s b).pal = s.pal := by
  obtain ⟨_, _, _, h, _⟩ := scanoutState_eq s b; rw [h]
@[simp] theorem scanoutState_lc (s : State) (b : Word) : (scanoutState s b).lc = s.lc := by
  obtain ⟨_, _, _, h, _⟩ := scanoutState_eq s b; rw [h]
@[simp] theorem scanoutState_isr (s : State) (b : Word) : (scanoutState s b).isr = s.isr := by
  obtain ⟨_, _, _, h, _⟩ := scanoutState_eq s b; rw [h]
@[simp] theorem scanoutState_callers (s : State) (b : Word) : (scanoutState s b).callers = s.callers := by
  obtain ⟨_, _, _, h, _⟩ := scanoutState_eq s b; rw [h]
@[simp] theorem scanoutState_faults (s : State) (b : Word) : (scanoutState s b).faults = s.faults := by
  obtain ⟨_, _, _, h, _⟩ := scanoutState_eq s b; rw [h]
@[simp] theorem scanoutState_clock (s : State) (b : Word) : (scanoutState s b).clock = s.clock := by
  obtain ⟨_, _, _, h, _⟩ := scanoutState_eq s b; rw [h]
@[simp] theorem scanoutState_sched (s : State) (b : Word) : (scanoutState s b).sched = s.sched := by
  obtain ⟨_, _, _, h, _⟩ := scanoutState_eq s b; rw [h]
@[simp] theorem scanoutState_agent (s : State) (b : Word) : (scanoutState s b).agent = s.agent := by
  obtain ⟨_, _, _, h, _⟩ := scanoutState_eq s b; rw [h]
@[simp] theorem scanoutState_opnd (s : State) (b : Word) : (scanoutState s b).opnd = s.opnd := by
  obtain ⟨_, _, _, h, _⟩ := scanoutState_eq s b; rw [h]
@[simp] theorem scanoutState_ret (s : State) (b : Word) : (scanoutState s b).ret = s.ret := by
  obtain ⟨_, _, _, h, _⟩ := scanoutState_eq s b; rw [h]

@[simp] theorem scanoutState_history (s : State) (b : Word) :
    (scanoutState s b).history = s.history ++ [.scanout b] := by
  obtain ⟨_, _, _, h, _⟩ := scanoutState_eq s b; rw [h]
theorem scanoutState_dev (s : State) (b : Word) : ∃ w, (scanoutState s b).dev = { s.dev with scanWord := w } := by
  obtain ⟨w, _, _, h, _⟩ := scanoutState_eq s b; exact ⟨w, by rw [h]⟩

/-! ### frameBoundary -/

@[simp] theorem frameBoundary_params (s : State) : (frameBoundary s).params = s.params := by
  obtain ⟨_, _, _, h, _⟩ := frameBoundary_eq s; rw [h]
@[simp] theorem frameBoundary_sim (s : State) : (frameBoundary s).sim = s.sim := by
  obtain ⟨_, _, _, h, _⟩ := frameBoundary_eq s; rw [h]
@[simp] theorem frameBoundary_buf (s : State) : (frameBoundary s).buf = s.buf := by
  obtain ⟨_, _, _, h, _⟩ := frameBoundary_eq s; rw [h]
@[simp] theorem frameBoundary_oldBufs (s : State) : (frameBoundary s).oldBufs = s.oldBufs := by
  obtain ⟨_, _, _, h, _⟩ := frameBoundary_eq s; rw [h]
@[simp] theorem frameBoundary_pal (s : State) : (frameBoundary s).pal = s.pal := by
  obtain ⟨_, _, _, h, _⟩ := frameBoundary_eq s; rw [h]
@[simp] theorem frameBoundary_lc (s : State) : (frameBoundary s).lc = s.lc := by
  obtain ⟨_, _, _, h, _⟩ := frameBoundary_eq s; rw [h]
@[simp] theorem frameBoundary_isr (s : State) : (frameBoundary s).isr = s.isr := by
  obtain ⟨_, _, _, h, _⟩ := frameBoundary_eq s; rw [h]
@[simp] theorem frameBoundary_callers (s : State) : (frameBoundary s).callers = s.callers := by
  obtain ⟨_, _, _, h, _⟩ := frameBoundary_eq s; rw [h]
@[simp] theorem frameBoundary_history (s : State) : (frameBoundary s).history = s.history := by
  obtain ⟨_, _, _, h, _⟩ := frameBoundary_eq s; rw [h]
@[simp] theorem frameBoundary_faults (s : State) : (frameBoundary s).faults = s.faults := by
  obtain ⟨_, _, _, h, _⟩ := frameBoundary_eq s; rw [h]
@[simp] theorem frameBoundary_clock (s : State) : (frameBoundary s).clock = s.clock := by
  obtain ⟨_, _, _, h, _⟩ := frameBoundary_eq s; rw [h]
@[simp] theorem frameBoundary_sched (s : State) : (frameBoundary s).sched = s.sched := by
  obtain ⟨_, _, _, h, _⟩ := frameBoundary_eq s; rw [h]
@[simp] theorem frameBoundary_agent (s : State) : (frameBoundary s).agent = s.agent := by
  obtain ⟨_, _, _, h, _⟩ := frameBoundary_eq s; rw [h]
@[simp] theorem frameBoundary_opnd (s : State) : (frameBoundary s).opnd = s.opnd := by
  obtain ⟨_, _, _, h, _⟩ := frameBoundary_eq s; rw [h]
@[simp] theorem frameBoundary_ret (s : State) : (frameBoundary s).ret = s.ret := by
  obtain ⟨_, _, _, h, _⟩ := frameBoundary_eq s; rw [h]

@[simp] theorem frameBoundary_csr (s : State) : (frameBoundary s).csr = s.csr.raiseFrame := by
  obtain ⟨_, _, _, h, _⟩ := frameBoundary_eq s; rw [h]
theorem frameBoundary_dev (s : State) :
    ∃ f, (frameBoundary s).dev = { s.dev with frame := f, run := if s.dev.run = .stopping then .idle else s.dev.run } := by
  obtain ⟨f, _, _, h, _⟩ := frameBoundary_eq s; exact ⟨f, by rw [h]⟩

/-! ### advancePos -/

@[simp] theorem advancePos_params (s : State) : (advancePos s).params = s.params := by
  unfold advancePos; split <;> simp
@[simp] theorem advancePos_sim (s : State) : (advancePos s).sim = s.sim := by
  unfold advancePos; split <;> simp
@[simp] theorem advancePos_buf (s : State) : (advancePos s).buf = s.buf := by
  unfold advancePos; split <;> simp
@[simp] theorem advancePos_oldBufs (s : State) : (advancePos s).oldBufs = s.oldBufs := by
  unfold advancePos; split <;> simp
@[simp] theorem advancePos_pal (s : State) : (advancePos s).pal = s.pal := by
  unfold advancePos; split <;> simp
@[simp] theorem advancePos_lc (s : State) : (advancePos s).lc = s.lc := by
  unfold advancePos; split <;> simp
@[simp] theorem advancePos_isr (s : State) : (advancePos s).isr = s.isr := by
  unfold advancePos; split <;> simp
@[simp] theorem advancePos_callers (s : State) : (advancePos s).callers = s.callers := by
  unfold advancePos; split <;> simp
@[simp] theorem advancePos_history (s : State) : (advancePos s).history = s.history := by
  unfold advancePos; split <;> simp
@[simp] theorem advancePos_faults (s : State) : (advancePos s).faults = s.faults := by
  unfold advancePos; split <;> simp
@[simp] theorem advancePos_clock (s : State) : (advancePos s).clock = s.clock := by
  unfold advancePos; split <;> simp
@[simp] theorem advancePos_sched (s : State) : (advancePos s).sched = s.sched := by
  unfold advancePos; split <;> simp
@[simp] theorem advancePos_agent (s : State) : (advancePos s).agent = s.agent := by
  unfold advancePos; split <;> simp
@[simp] theorem advancePos_opnd (s : State) : (advancePos s).opnd = s.opnd := by
  unfold advancePos; split <;> simp
@[simp] theorem advancePos_ret (s : State) : (advancePos s).ret = s.ret := by
  unfold advancePos; split <;> simp

/-- One position further: the register block is as it was, or latched the per-frame cause. -/
theorem advancePos_csr (s : State) : (advancePos s).csr = s.csr ∨ (advancePos s).csr = s.csr.raiseFrame := by
  unfold advancePos; split <;> simp
@[simp] theorem advancePos_stuck (s : State) : (advancePos s).dev.stuck = s.dev.stuck := by
  unfold advancePos
  split
  · obtain ⟨f, h⟩ := frameBoundary_dev (s.setDev { s.dev with col := nextCol s, row := 0 }); rw [h]; rfl
  · rfl

/-! ### failAttach -/

@[simp] theorem failAttach_params (e : Code) (s : State) : (failAttach e s).params = s.params := by
  rfl
@[simp] theorem failAttach_csr (e : Code) (s : State) : (failAttach e s).csr = s.csr := by
  rfl
@[simp] theorem failAttach_sim (e : Code) (s : State) : (failAttach e s).sim = s.sim := by
  rfl
@[simp] theorem failAttach_dev (e : Code) (s : State) : (failAttach e s).dev = s.dev := by
  rfl
@[simp] theorem failAttach_buf (e : Code) (s : State) : (failAttach e s).buf = s.buf := by
  rfl
@[simp] theorem failAttach_oldBufs (e : Code) (s : State) : (failAttach e s).oldBufs = s.oldBufs := by
  rfl
@[simp] theorem failAttach_pal (e : Code) (s : State) : (failAttach e s).pal = s.pal := by
  rfl
@[simp] theorem failAttach_isr (e : Code) (s : State) : (failAttach e s).isr = s.isr := by
  rfl
@[simp] theorem failAttach_callers (e : Code) (s : State) : (failAttach e s).callers = s.callers := by
  rfl
@[simp] theorem failAttach_history (e : Code) (s : State) : (failAttach e s).history = s.history := by
  rfl
@[simp] theorem failAttach_faults (e : Code) (s : State) : (failAttach e s).faults = s.faults := by
  rfl
@[simp] theorem failAttach_clock (e : Code) (s : State) : (failAttach e s).clock = s.clock := by
  rfl
@[simp] theorem failAttach_sched (e : Code) (s : State) : (failAttach e s).sched = s.sched := by
  rfl
@[simp] theorem failAttach_agent (e : Code) (s : State) : (failAttach e s).agent = s.agent := by
  rfl
@[simp] theorem failAttach_opnd (e : Code) (s : State) : (failAttach e s).opnd = s.opnd := by
  rfl
@[simp] theorem failAttach_tape (e : Code) (s : State) : (failAttach e s).tape = s.tape := by
  rfl
@[simp] theorem failAttach_fresh (e : Code) (s : State) : (failAttach e s).fresh = s.fresh := by
  rfl
@[simp] theorem failAttach_ret (e : Code) (s : State) : (failAttach e s).ret = s.ret := by
  rfl

@[simp] theorem failAttach_lc (e : Code) (s : State) : (failAttach e s).lc = { s.lc with aborting := some e } := rfl

/-! ### allocBuffer -/

@[simp] theorem allocBuffer_params (s : State) : (allocBuffer s).params = s.params := by
  obtain ⟨_, _, _, _, h, _⟩ := allocBuffer_eq s; rw [h]
@[simp] theorem allocBuffer_csr (s : State) : (allocBuffer s).csr = s.csr := by
  obtain ⟨_, _, _, _, h, _⟩ := allocBuffer_eq s; rw [h]
@[simp] theorem allocBuffer_sim (s : State) : (allocBuffer s).sim = s.sim := by
  obtain ⟨_, _, _, _, h, _⟩ := allocBuffer_eq s; rw [h]
@[simp] theorem allocBuffer_dev (s : State) : (allocBuffer s).dev = s.dev := by
  obtain ⟨_, _, _, _, h, _⟩ := allocBuffer_eq s; rw [h]
@[simp] theorem allocBuffer_oldBufs (s : State) : (allocBuffer s).oldBufs = s.oldBufs := by
  obtain ⟨_, _, _, _, h, _⟩ := allocBuffer_eq s; rw [h]
@[simp] theorem allocBuffer_pal (s : State) : (allocBuffer s).pal = s.pal := by
  obtain ⟨_, _, _, _, h, _⟩ := allocBuffer_eq s; rw [h]
@[simp] theorem allocBuffer_lc (s : State) : (allocBuffer s).lc = s.lc := by
  obtain ⟨_, _, _, _, h, _⟩ := allocBuffer_eq s; rw [h]
@[simp] theorem allocBuffer_isr (s : State) : (allocBuffer s).isr = s.isr := by
  obtain ⟨_, _, _, _, h, _⟩ := allocBuffer_eq s; rw [h]
@[simp] theorem allocBuffer_history (s : State) : (allocBuffer s).history = s.history := by
  obtain ⟨_, _, _, _, h, _⟩ := allocBuffer_eq s; rw [h]
@[simp] theorem allocBuffer_faults (s : State) : (allocBuffer s).faults = s.faults := by
  obtain ⟨_, _, _, _, h, _⟩ := allocBuffer_eq s; rw [h]
@[simp] theorem allocBuffer_clock (s : State) : (allocBuffer s).clock = s.clock := by
  obtain ⟨_, _, _, _, h, _⟩ := allocBuffer_eq s; rw [h]
@[simp] theorem allocBuffer_sched (s : State) : (allocBuffer s).sched = s.sched := by
  obtain ⟨_, _, _, _, h, _⟩ := allocBuffer_eq s; rw [h]
@[simp] theorem allocBuffer_agent (s : State) : (allocBuffer s).agent = s.agent := by
  obtain ⟨_, _, _, _, h, _⟩ := allocBuffer_eq s; rw [h]
@[simp] theorem allocBuffer_opnd (s : State) : (allocBuffer s).opnd = s.opnd := by
  obtain ⟨_, _, _, _, h, _⟩ := allocBuffer_eq s; rw [h]
@[simp] theorem allocBuffer_ret (s : State) : (allocBuffer s).ret = s.ret := by
  obtain ⟨_, _, _, _, h, _⟩ := allocBuffer_eq s; rw [h]

@[simp] theorem allocBuffer_callers (s : State) :
    (allocBuffer s).callers = s.callers.map fun c => { c with mapped := false } := by
  obtain ⟨_, _, _, _, h, _⟩ := allocBuffer_eq s; rw [h]
@[simp] theorem allocBuffer_mem (s : State) : (allocBuffer s).buf.mem = [] := by
  obtain ⟨_, _, _, _, h, _⟩ := allocBuffer_eq s; rw [h]
@[simp] theorem allocBuffer_st (s : State) : (allocBuffer s).buf.st = .allocated := by
  obtain ⟨_, _, _, _, h, _⟩ := allocBuffer_eq s; rw [h]

/-! ### releaseAll -/

@[simp] theorem releaseAll_params (s : State) : (releaseAll s).params = s.params := by
  rw [releaseAll_eq]
@[simp] theorem releaseAll_csr (s : State) : (releaseAll s).csr = s.csr := by
  rw [releaseAll_eq]
@[simp] theorem releaseAll_sim (s : State) : (releaseAll s).sim = s.sim := by
  rw [releaseAll_eq]
@[simp] theorem releaseAll_dev (s : State) : (releaseAll s).dev = s.dev := by
  rw [releaseAll_eq]
@[simp] theorem releaseAll_oldBufs (s : State) : (releaseAll s).oldBufs = s.oldBufs := by
  rw [releaseAll_eq]
@[simp] theorem releaseAll_isr (s : State) : (releaseAll s).isr = s.isr := by
  rw [releaseAll_eq]
@[simp] theorem releaseAll_callers (s : State) : (releaseAll s).callers = s.callers := by
  rw [releaseAll_eq]
@[simp] theorem releaseAll_history (s : State) : (releaseAll s).history = s.history := by
  rw [releaseAll_eq]
@[simp] theorem releaseAll_faults (s : State) : (releaseAll s).faults = s.faults := by
  rw [releaseAll_eq]
@[simp] theorem releaseAll_clock (s : State) : (releaseAll s).clock = s.clock := by
  rw [releaseAll_eq]
@[simp] theorem releaseAll_sched (s : State) : (releaseAll s).sched = s.sched := by
  rw [releaseAll_eq]
@[simp] theorem releaseAll_agent (s : State) : (releaseAll s).agent = s.agent := by
  rw [releaseAll_eq]
@[simp] theorem releaseAll_opnd (s : State) : (releaseAll s).opnd = s.opnd := by
  rw [releaseAll_eq]
@[simp] theorem releaseAll_tape (s : State) : (releaseAll s).tape = s.tape := by
  rw [releaseAll_eq]
@[simp] theorem releaseAll_fresh (s : State) : (releaseAll s).fresh = s.fresh := by
  rw [releaseAll_eq]
@[simp] theorem releaseAll_ret (s : State) : (releaseAll s).ret = s.ret := by
  rw [releaseAll_eq]

@[simp] theorem releaseAll_lc (s : State) : (releaseAll s).lc = { s.lc with res := {} } := by rw [releaseAll_eq]
@[simp] theorem releaseAll_mem (s : State) : (releaseAll s).buf.mem = s.buf.mem := by
  rw [releaseAll_eq]; cases s.lc.res.buf <;> rfl
@[simp] theorem releaseAll_bus (s : State) : (releaseAll s).buf.bus = s.buf.bus := by
  rw [releaseAll_eq]; cases s.lc.res.buf <;> rfl

/-! ### freshHandle -/

@[simp] theorem freshHandle_params (s : State) : (freshHandle s).params = s.params := by
  rw [freshHandle_eq]; split <;> rfl
@[simp] theorem freshHandle_csr (s : State) : (freshHandle s).csr = s.csr := by
  rw [freshHandle_eq]; split <;> rfl
@[simp] theorem freshHandle_sim (s : State) : (freshHandle s).sim = s.sim := by
  rw [freshHandle_eq]; split <;> rfl
@[simp] theorem freshHandle_dev (s : State) : (freshHandle s).dev = s.dev := by
  rw [freshHandle_eq]; split <;> rfl
@[simp] theorem freshHandle_isr (s : State) : (freshHandle s).isr = s.isr := by
  rw [freshHandle_eq]; split <;> rfl
@[simp] theorem freshHandle_history (s : State) : (freshHandle s).history = s.history := by
  rw [freshHandle_eq]; split <;> rfl
@[simp] theorem freshHandle_faults (s : State) : (freshHandle s).faults = s.faults := by
  rw [freshHandle_eq]; split <;> rfl
@[simp] theorem freshHandle_clock (s : State) : (freshHandle s).clock = s.clock := by
  rw [freshHandle_eq]; split <;> rfl
@[simp] theorem freshHandle_sched (s : State) : (freshHandle s).sched = s.sched := by
  rw [freshHandle_eq]; split <;> rfl
@[simp] theorem freshHandle_agent (s : State) : (freshHandle s).agent = s.agent := by
  rw [freshHandle_eq]; split <;> rfl
@[simp] theorem freshHandle_opnd (s : State) : (freshHandle s).opnd = s.opnd := by
  rw [freshHandle_eq]; split <;> rfl
@[simp] theorem freshHandle_tape (s : State) : (freshHandle s).tape = s.tape := by
  rw [freshHandle_eq]; split <;> rfl
@[simp] theorem freshHandle_fresh (s : State) : (freshHandle s).fresh = s.fresh := by
  rw [freshHandle_eq]; split <;> rfl
@[simp] theorem freshHandle_ret (s : State) : (freshHandle s).ret = s.ret := by
  rw [freshHandle_eq]; split <;> rfl

/-! ### leaveWait -/

@[simp] theorem leaveWait_params (k : Nat) (c : Code) (s : State) : (leaveWait k c s).params = s.params := by
  rfl
@[simp] theorem leaveWait_csr (k : Nat) (c : Code) (s : State) : (leaveWait k c s).csr = s.csr := by
  rfl
@[simp] theorem leaveWait_sim (k : Nat) (c : Code) (s : State) : (leaveWait k c s).sim = s.sim := by
  rfl
@[simp] theorem leaveWait_dev (k : Nat) (c : Code) (s : State) : (leaveWait k c s).dev = s.dev := by
  rfl
@[simp] theorem leaveWait_buf (k : Nat) (c : Code) (s : State) : (leaveWait k c s).buf = s.buf := by
  rfl
@[simp] theorem leaveWait_oldBufs (k : Nat) (c : Code) (s : State) : (leaveWait k c s).oldBufs = s.oldBufs := by
  rfl
@[simp] theorem leaveWait_pal (k : Nat) (c : Code) (s : State) : (leaveWait k c s).pal = s.pal := by
  rfl
@[simp] theorem leaveWait_lc (k : Nat) (c : Code) (s : State) : (leaveWait k c s).lc = s.lc := by
  rfl
@[simp] theorem leaveWait_isr (k : Nat) (c : Code) (s : State) : (leaveWait k c s).isr = s.isr := by
  rfl
@[simp] theorem leaveWait_faults (k : Nat) (c : Code) (s : State) : (leaveWait k c s).faults = s.faults := by
  rfl
@[simp] theorem leaveWait_clock (k : Nat) (c : Code) (s : State) : (leaveWait k c s).clock = s.clock := by
  rfl
@[simp] theorem leaveWait_sched (k : Nat) (c : Code) (s : State) : (leaveWait k c s).sched = s.sched := by
  rfl
@[simp] theorem leaveWait_agent (k : Nat) (c : Code) (s : State) : (leaveWait k c s).agent = s.agent := by
  rfl
@[simp] theorem leaveWait_opnd (k : Nat) (c : Code) (s : State) : (leaveWait k c s).opnd = s.opnd := by
  rfl
@[simp] theorem leaveWait_tape (k : Nat) (c : Code) (s : State) : (leaveWait k c s).tape = s.tape := by
  rfl
@[simp] theorem leaveWait_fresh (k : Nat) (c : Code) (s : State) : (leaveWait k c s).fresh = s.fresh := by
  rfl

/-! ### wakeAll -/

@[simp] theorem wakeAll_params (s : State) : (wakeAll s).params = s.params := by
  rfl
@[simp] theorem wakeAll_csr (s : State) : (wakeAll s).csr = s.csr := by
  rfl
@[simp] theorem wakeAll_sim (s : State) : (wakeAll s).sim = s.sim := by
  rfl
@[simp] theorem wakeAll_dev (s : State) : (wakeAll s).dev = s.dev := by
  rfl
@[simp] theorem wakeAll_buf (s : State) : (wakeAll s).buf = s.buf := by
  rfl
@[simp] theorem wakeAll_oldBufs (s : State) : (wakeAll s).oldBufs = s.oldBufs := by
  rfl
@[simp] theorem wakeAll_pal (s : State) : (wakeAll s).pal = s.pal := by
  rfl
@[simp] theorem wakeAll_lc (s : State) : (wakeAll s).lc = s.lc := by
  rfl
@[simp] theorem wakeAll_isr (s : State) : (wakeAll s).isr = s.isr := by
  rfl
@[simp] theorem wakeAll_history (s : State) : (wakeAll s).history = s.history := by
  rfl
@[simp] theorem wakeAll_faults (s : State) : (wakeAll s).faults = s.faults := by
  rfl
@[simp] theorem wakeAll_clock (s : State) : (wakeAll s).clock = s.clock := by
  rfl
@[simp] theorem wakeAll_sched (s : State) : (wakeAll s).sched = s.sched := by
  rfl
@[simp] theorem wakeAll_agent (s : State) : (wakeAll s).agent = s.agent := by
  rfl
@[simp] theorem wakeAll_opnd (s : State) : (wakeAll s).opnd = s.opnd := by
  rfl
@[simp] theorem wakeAll_tape (s : State) : (wakeAll s).tape = s.tape := by
  rfl
@[simp] theorem wakeAll_fresh (s : State) : (wakeAll s).fresh = s.fresh := by
  rfl
@[simp] theorem wakeAll_ret (s : State) : (wakeAll s).ret = s.ret := by
  rfl

end Sys2Proof.Machine
end

