-- ==== Sys2Proof/Laws/PerInstr.lean ====
section
/-!
SUPPORT. The statements about each operation as syntax, one lemma per constructor: its word has the operation number of the
table (R109, R111) in its high byte, and the agent the model schedules for it owns it (R110).
-/

namespace Sys2Proof.Laws

/-- Bits 15:8 of an operation's word: its family and its number in the family (R111). -/
def opNumber : Instr → BitVec 8
  | .csrRead _ => 0x10
  | .csrWrite _ => 0x11
  | .bufLoad _ => 0x20
  | .bufStore _ => 0x21
  | .wcDrain => 0x22
  | .coordPoll => 0x30
  | .coordRead => 0x31
  | .coordClassify => 0x32
  | .irqDeliver => 0x40
  | .isrCheck => 0x41
  | .isrStatus => 0x42
  | .isrWake => 0x43
  | .isrAck => 0x44
  | .waitEnter => 0x50
  | .waitRegister => 0x51
  | .waitCheck => 0x52
  | .waitSleep => 0x53
  | .timerExpire => 0x54
  | .signalDeliver => 0x55
  | .lcMap => 0x60
  | .lcAllocBuf => 0x61
  | .lcAllocPal => 0x62
  | .lcInstallIsr => 0x63
  | .lcPublish => 0x64
  | .lcEnableIrq => 0x65
  | .lcStart => 0x66
  | .lcAbort => 0x67
  | .lcDetachStop => 0x68
  | .lcDetachDisable => 0x69
  | .lcDetachRelease => 0x6A
  | .devAdvance => 0x70
  | .devLatch => 0x71
  | .fbRead => 0x80
  | .fbWrite => 0x81
  | .fbMmap => 0x82
  | .fbCheckVar => 0x83
  | .fbSetcolreg _ => 0x84
  | .qFramepos => 0x85

/-- The family's statement: the high byte of the word, and the owner of the operation. -/
def EncodedFamily.Statement (i : Instr) : Prop :=
  (encode i).extractLsb' 8 8 = opNumber i ∧ i.issuedBy i.issuer = true

/-- An argument of at most 8 bits leaves the high byte alone. -/
theorem highByte_of_arg {n : Nat} (p : OpWord) (a : BitVec n) (h : n ≤ 8) :
    (p ||| zext 16 a).extractLsb' 8 8 = p.extractLsb' 8 8 := by
  apply BitVec.eq_of_getLsbD_eq
  intro j hj
  simp only [zext, BitVec.getLsbD_extractLsb', BitVec.getLsbD_or, BitVec.getLsbD_setWidth]
  rw [BitVec.getLsbD_of_ge a (8 + j) (by omega)]
  simp

theorem EncodedFamily.csrRead (off : BitVec 8) : EncodedFamily.Statement (.csrRead off) :=
  ⟨highByte_of_arg _ _ (by decide), rfl⟩

theorem EncodedFamily.csrWrite (off : BitVec 8) : EncodedFamily.Statement (.csrWrite off) :=
  ⟨highByte_of_arg _ _ (by decide), rfl⟩

theorem EncodedFamily.bufLoad (w : BitVec 2) : EncodedFamily.Statement (.bufLoad w) :=
  ⟨highByte_of_arg _ _ (by decide), rfl⟩

theorem EncodedFamily.bufStore (w : BitVec 2) : EncodedFamily.Statement (.bufStore w) :=
  ⟨highByte_of_arg _ _ (by decide), rfl⟩

theorem EncodedFamily.wcDrain : EncodedFamily.Statement .wcDrain := ⟨by decide, rfl⟩

theorem EncodedFamily.coordPoll : EncodedFamily.Statement .coordPoll := ⟨by decide, rfl⟩

theorem EncodedFamily.coordRead : EncodedFamily.Statement .coordRead := ⟨by decide, rfl⟩

theorem EncodedFamily.coordClassify : EncodedFamily.Statement .coordClassify := ⟨by decide, rfl⟩

theorem EncodedFamily.irqDeliver : EncodedFamily.Statement .irqDeliver := ⟨by decide, rfl⟩

theorem EncodedFamily.isrCheck : EncodedFamily.Statement .isrCheck := ⟨by decide, rfl⟩

theorem EncodedFamily.isrStatus : EncodedFamily.Statement .isrStatus := ⟨by decide, rfl⟩

theorem EncodedFamily.isrWake : EncodedFamily.Statement .isrWake := ⟨by decide, rfl⟩

theorem EncodedFamily.isrAck : EncodedFamily.Statement .isrAck := ⟨by decide, rfl⟩

theorem EncodedFamily.waitEnter : EncodedFamily.Statement .waitEnter := ⟨by decide, rfl⟩

theorem EncodedFamily.waitRegister : EncodedFamily.Statement .waitRegister := ⟨by decide, rfl⟩

theorem EncodedFamily.waitCheck : EncodedFamily.Statement .waitCheck := ⟨by decide, rfl⟩

theorem EncodedFamily.waitSleep : EncodedFamily.Statement .waitSleep := ⟨by decide, rfl⟩

theorem EncodedFamily.timerExpire : EncodedFamily.Statement .timerExpire := ⟨by decide, rfl⟩

theorem EncodedFamily.signalDeliver : EncodedFamily.Statement .signalDeliver := ⟨by decide, rfl⟩

theorem EncodedFamily.lcMap : EncodedFamily.Statement .lcMap := ⟨by decide, rfl⟩

theorem EncodedFamily.lcAllocBuf : EncodedFamily.Statement .lcAllocBuf := ⟨by decide, rfl⟩

theorem EncodedFamily.lcAllocPal : EncodedFamily.Statement .lcAllocPal := ⟨by decide, rfl⟩

theorem EncodedFamily.lcInstallIsr : EncodedFamily.Statement .lcInstallIsr := ⟨by decide, rfl⟩

theorem EncodedFamily.lcPublish : EncodedFamily.Statement .lcPublish := ⟨by decide, rfl⟩

theorem EncodedFamily.lcEnableIrq : EncodedFamily.Statement .lcEnableIrq := ⟨by decide, rfl⟩

theorem EncodedFamily.lcStart : EncodedFamily.Statement .lcStart := ⟨by decide, rfl⟩

theorem EncodedFamily.lcAbort : EncodedFamily.Statement .lcAbort := ⟨by decide, rfl⟩

theorem EncodedFamily.lcDetachStop : EncodedFamily.Statement .lcDetachStop := ⟨by decide, rfl⟩

theorem EncodedFamily.lcDetachDisable : EncodedFamily.Statement .lcDetachDisable := ⟨by decide, rfl⟩

theorem EncodedFamily.lcDetachRelease : EncodedFamily.Statement .lcDetachRelease := ⟨by decide, rfl⟩

theorem EncodedFamily.devAdvance : EncodedFamily.Statement .devAdvance := ⟨by decide, rfl⟩

theorem EncodedFamily.devLatch : EncodedFamily.Statement .devLatch := ⟨by decide, rfl⟩

theorem EncodedFamily.fbRead : EncodedFamily.Statement .fbRead := ⟨by decide, rfl⟩

theorem EncodedFamily.fbWrite : EncodedFamily.Statement .fbWrite := ⟨by decide, rfl⟩

theorem EncodedFamily.fbMmap : EncodedFamily.Statement .fbMmap := ⟨by decide, rfl⟩

theorem EncodedFamily.fbCheckVar : EncodedFamily.Statement .fbCheckVar := ⟨by decide, rfl⟩

theorem EncodedFamily.fbSetcolreg (idx : BitVec 8) : EncodedFamily.Statement (.fbSetcolreg idx) :=
  ⟨highByte_of_arg _ _ (by decide), rfl⟩

theorem EncodedFamily.qFramepos : EncodedFamily.Statement .qFramepos := ⟨by decide, rfl⟩

end Sys2Proof.Laws
end

