-- ==== Sys2Proof/Laws/Values.lean ====
section
/-!
SUPPORT. What reads return and faults leave: the word a faithful read of each register gives, the bytes of widths and drains, and a
fault as the statements describe it.
-/

namespace Sys2Proof.Machine

/-- A fault raised by an agent that can be stuck. -/
theorem takesFault_raiseFault {i : Instr} {r : FaultReason} {d : Datum} {s : State}
    (h : (∃ k, s.agent = .caller k) ∨ s.agent = .isr ∨ s.agent = .lifecycle ∨ s.agent = .device) :
    TakesFault i r d s (.next (raiseFault i r d s)) := by
  refine ⟨_, rfl, by simp, ?_, by simp, by simp, by simp, ⟨by simp, by simp, by simp, by simp [State.memByte]⟩,
    ⟨by simp, by simp, by simp, by simp, by simp⟩⟩
  rcases h with ⟨k, h⟩ | h | h | h <;> simp [h, stick]

/-- What admits a mapped access (R164, R165). -/
theorem mappedAccessOk_iff {s : State} {c : Caller} {off n : Nat} :
    mappedAccessOk s c off n = true ↔
      c.mapped = true ∧ s.buf.live = true ∧ off % n = 0 ∧ off + n ≤ fbSize := by
  simp [mappedAccessOk, accessOk, and_assoc]

/-- The low bytes of a word, least significant first. -/
theorem bytesOf_get (n : Nat) (v : Word) :
    (bytesOf n v).length = n ∧ ∀ j, j < n → (bytesOf n v)[j]? = some (v.extractLsb' (8 * j) 8) := by
  induction n generalizing v with
  | zero => simp [bytesOf]
  | succ n ih =>
    refine ⟨by simp [bytesOf, (ih _).1], ?_⟩
    intro j hj
    cases j with
    | zero => simp [bytesOf]
    | succ j =>
      simp only [bytesOf, List.getElem?_cons_succ]
      rw [(ih _).2 j (by omega)]
      congr 1
      apply BitVec.eq_of_getLsbD_eq
      intro i hi
      simp only [BitVec.getLsbD_extractLsb', BitVec.getLsbD_ushiftRight]
      congr 2; omega

/-- One entry's byte comes before the later entries'. -/
theorem pendingBytes_cons_getLast (e : WcEntry) (es : List WcEntry) (a : Nat) (m : Option Byte) :
    ((pendingBytes (e :: es) a).getLast?).or m =
      ((pendingBytes es a).getLast?).or ((if e.covers a then e.bytes[a - e.off]? else none).or m) := by
  rw [pendingBytes]
  cases h : (if e.covers a = true then e.bytes[a - e.off]? else none) with
  | none => simp
  | some b =>
    simp only [List.getLast?_cons]
    cases (pendingBytes es a).getLast? <;> simp

/-- What a drain leaves at each offset: the latest drained byte, or the old one. -/
theorem drainInto_read (m : Memory) (es : List WcEntry) (a : Nat) :
    (drainInto m es).read a = ((pendingBytes es a).getLast?).or (m.read a) := by
  induction es generalizing m with
  | nil => simp [drainInto, pendingBytes]
  | cons e es ih =>
    rw [drainInto, ih, pendingBytes_cons_getLast, Memory.read_writeBytes]
    congr 1
    by_cases hc : e.off ≤ a ∧ a < e.off + e.bytes.length
    · have : e.covers a = true := by simpa [WcEntry.covers] using hc
      rw [if_pos hc, this, if_pos rfl]
      have hlt : a - e.off < e.bytes.length := by omega
      simp [List.getElem?_eq_getElem hlt]
    · have : ¬ e.covers a = true := by simpa [WcEntry.covers] using hc
      rw [if_neg hc, if_neg this]; rfl

/-- What a read of each register returns on faithful hardware (R133). -/
theorem readValue_readsAs (s : State) (off : Nat) (h : s.Faithful) :
    ReadsAs s (regAt s.params.regMap off) (readValue s off) := by
  obtain ⟨hf, hs⟩ := h
  unfold readValue readDrawMask readStored
  simp only [hs, hf, Bool.false_eq_true, if_false]
  generalize regAt s.params.regMap off = r
  generalize BitVec.ofNat 32 s.draw = d
  cases r with
  | ctrl =>
    have : (10 : Word) ≠ 0 := by decide
    simp only [Csr.regDrawMask, Csr.regWord, ReadsAs, Csr.ctrlWord, if_true, if_neg this, bitAt]
    refine ⟨?_, ?_, ?_, ?_, fun b hb => ?_⟩
    · cases s.csr.start <;> cases (s.dev.run == .idle) <;> cases s.csr.autoRestart <;> cases s.csr.irqLine <;> simp
    · cases s.csr.start <;> cases s.dev.run <;> cases s.csr.autoRestart <;> cases s.csr.irqLine <;> simp
    · cases s.csr.start <;> cases (s.dev.run == .idle) <;> cases s.csr.autoRestart <;> cases s.csr.irqLine <;> simp
    · cases s.csr.start <;> cases (s.dev.run == .idle) <;> cases s.csr.autoRestart <;> cases s.csr.irqLine <;> simp
    · by_cases hlt : b < 32
      · rw [BitVec.getLsbD_or, BitVec.getLsbD_and, BitVec.getLsbD_and]
        simp only [BitVec.getLsbD_or, apply_ite (fun w : Word => w.getLsbD b)]
        interval_cases b <;> first | (exfalso; revert hb; decide) | simp
      · exact BitVec.getLsbD_of_ge _ _ (by omega)
  | gie =>
    simp only [Csr.regDrawMask, Csr.regWord, ReadsAs, Csr.gieWord, if_true, bitAt]
    refine ⟨by cases s.csr.gieEnable <;> simp, ?_⟩
    intro b hb
    by_cases hlt : b < 32
    · interval_cases b <;> (cases s.csr.gieEnable <;> simp)
    · exact BitVec.getLsbD_of_ge _ _ (by omega)
  | coordCtrl =>
    simp only [Csr.regDrawMask, Csr.regWord, ReadsAs, Csr.coordCtrlWord, if_true, bitAt]
    refine ⟨by cases s.csr.valid <;> simp, ?_⟩
    intro b hb
    by_cases hlt : b < 32
    · interval_cases b <;> (cases s.csr.valid <;> simp)
    · exact BitVec.getLsbD_of_ge _ _ (by omega)
  | ier =>
    simp only [Csr.regDrawMask, Csr.regWord, ReadsAs, Csr.ierWord, if_true, bitAt]
    refine ⟨by cases s.csr.frameEn <;> cases s.csr.auxEn <;> simp, by cases s.csr.frameEn <;> cases s.csr.auxEn <;> simp, ?_⟩
    intro b hb
    by_cases hlt : b < 32
    · interval_cases b <;> (cases s.csr.frameEn <;> cases s.csr.auxEn <;> simp)
    · exact BitVec.getLsbD_of_ge _ _ (by omega)
  | isr =>
    simp only [Csr.regDrawMask, Csr.regWord, ReadsAs, Csr.isrWord, if_true, bitAt]
    refine ⟨by cases s.csr.isrFrame <;> cases s.csr.isrAux <;> simp, by cases s.csr.isrFrame <;> cases s.csr.isrAux <;> simp, ?_⟩
    intro b hb
    by_cases hlt : b < 32
    · interval_cases b <;> (cases s.csr.isrFrame <;> cases s.csr.isrAux <;> simp)
    · exact BitVec.getLsbD_of_ge _ _ (by omega)
  | buf =>
    intro v hv
    simp [Csr.regDrawMask, Csr.regWord, hv]
  | coordData =>
    intro v hv
    simp [Csr.regDrawMask, Csr.regWord, hv]
  | reserved => trivial

/-- One bit of a word with one bit. -/
theorem getLsbD_bitAt {k : Nat} (hk : k < 32) (b : Bool) (i : Nat) :
    (bitAt k b).getLsbD i = (b && decide (i = k)) := by
  cases b
  · simp [bitAt]
  · simp only [bitAt, if_true, BitVec.getLsbD_ofNat, Nat.testBit_two_pow, Bool.true_and]
    by_cases h : i = k
    · simp [h, hk]
    · simp [h, Ne.symm h]

/-- Two words agree outside a mask when their bits there do. -/
theorem agree_outside_iff (x a m : Word) :
    x &&& ~~~ m = a &&& ~~~ m ↔ ∀ i, i < 32 → m.getLsbD i = false → x.getLsbD i = a.getLsbD i := by
  constructor
  · intro h i hi hm
    have := congrArg (fun w : Word => w.getLsbD i) h
    simpa only [BitVec.getLsbD_and, BitVec.getLsbD_not, hi, hm, decide_true, Bool.not_false, Bool.and_true] using this
  · intro h
    apply BitVec.eq_of_getLsbD_eq
    intro i hi
    rw [BitVec.getLsbD_and, BitVec.getLsbD_and, BitVec.getLsbD_not]
    cases hm : m.getLsbD i with
    | false => rw [h i hi hm]
    | true => simp

/-- A word that R133 allows on faithful hardware agrees with the stored bits outside the drawn ones. -/
theorem readsAs_agrees (s : State) (r : CsrReg) (x : Word) : ReadsAs s r x →
    x &&& ~~~ s.csr.regDrawMask true r = s.csr.regWord s.dev.run r &&& ~~~ s.csr.regDrawMask true r := by
  intro h
  rw [agree_outside_iff]
  intro i hi hm
  cases r with
  | ctrl =>
    obtain ⟨h0, h2, h7, h9, hr⟩ := h
    simp only [Csr.regWord, Csr.ctrlWord, BitVec.getLsbD_or, getLsbD_bitAt, Nat.reduceLT]
    by_cases c : i ∈ [0,1,2,3,7,9]
    · simp only [List.mem_cons, List.not_mem_nil, or_false] at c
      rcases c with rfl|rfl|rfl|rfl|rfl|rfl <;> simp_all [Csr.regDrawMask]
      cases s.dev.run <;> rfl
    · rw [hr i c]; simp only [List.mem_cons, List.not_mem_nil, or_false, not_or] at c; simp [c]
  | gie =>
    obtain ⟨h0, hr⟩ := h
    simp only [Csr.regWord, Csr.gieWord, getLsbD_bitAt, Nat.reduceLT]
    rcases Nat.eq_zero_or_pos i with rfl | c
    · simpa using h0
    · rw [hr i c]; simp; omega
  | coordCtrl =>
    obtain ⟨h0, hr⟩ := h
    simp only [Csr.regWord, Csr.coordCtrlWord, getLsbD_bitAt, Nat.reduceLT]
    rcases Nat.eq_zero_or_pos i with rfl | c
    · simpa using h0
    · rw [hr i c]; simp; omega
  | ier =>
    obtain ⟨h0, h1, hr⟩ := h
    simp only [Csr.regWord, Csr.ierWord, BitVec.getLsbD_or, getLsbD_bitAt, Nat.reduceLT]
    by_cases c : 2 ≤ i
    · rw [hr i c]; simp; omega
    · have : i = 0 ∨ i = 1 := by omega
      rcases this with rfl | rfl <;> (first | rw [h0] | rw [h1]) <;> simp
  | isr =>
    obtain ⟨h0, h1, hr⟩ := h
    simp only [Csr.regWord, Csr.isrWord, BitVec.getLsbD_or, getLsbD_bitAt, Nat.reduceLT]
    by_cases c : 2 ≤ i
    · rw [hr i c]; simp; omega
    · have : i = 0 ∨ i = 1 := by omega
      rcases this with rfl | rfl <;> (first | rw [h0] | rw [h1]) <;> simp
  | buf =>
    cases hb : s.csr.buf with
    | none => simp [Csr.regDrawMask, hb] at hm; exfalso; revert hm; interval_cases i <;> decide
    | some v => simp [Csr.regWord, hb, h v hb]
  | coordData =>
    cases hb : s.csr.coordData with
    | none => simp [Csr.regDrawMask, hb] at hm; exfalso; revert hm; interval_cases i <;> decide
    | some v => simp [Csr.regWord, hb, h v hb]
  | reserved => exfalso; revert hm; simp only [Csr.regDrawMask]; interval_cases i <;> decide

/-- The words that may be read on hardware that is not faithful are those that agree with the stored bits outside the drawn ones. -/
theorem readsAsUnfaithful_iff (s : State) (r : CsrReg) (x : Word) : ReadsAsUnfaithful s r x ↔
    x &&& ~~~ s.csr.regDrawMask false r = s.csr.regWord s.dev.run r &&& ~~~ s.csr.regDrawMask false r := by
  rw [agree_outside_iff]
  constructor
  · intro h i hi hm
    cases r with
    | ctrl =>
      obtain ⟨h0, h2, h7⟩ := h
      simp only [Csr.regWord, Csr.ctrlWord, BitVec.getLsbD_or, getLsbD_bitAt, Nat.reduceLT]
      by_cases c : i ∈ [0,2,7]
      · simp only [List.mem_cons, List.not_mem_nil, or_false] at c
        rcases c with rfl|rfl|rfl <;> simp_all
        cases s.dev.run <;> rfl
      · exfalso; revert hm c; simp only [Csr.regDrawMask]; interval_cases i <;> decide
    | gie =>
      simp only [Csr.regWord, Csr.gieWord, getLsbD_bitAt, Nat.reduceLT]
      rcases Nat.eq_zero_or_pos i with rfl | c
      · have h : x.getLsbD 0 = s.csr.gieEnable := h
        rw [h]; simp
      · exfalso; revert hm c; simp only [Csr.regDrawMask]; interval_cases i <;> decide
    | ier =>
      obtain ⟨h0, h1⟩ := h
      simp only [Csr.regWord, Csr.ierWord, BitVec.getLsbD_or, getLsbD_bitAt, Nat.reduceLT]
      by_cases c : 2 ≤ i
      · exfalso; revert hm c; simp only [Csr.regDrawMask]; interval_cases i <;> decide
      · have : i = 0 ∨ i = 1 := by omega
        rcases this with rfl | rfl <;> (first | rw [h0] | rw [h1]) <;> simp
    | isr => exfalso; revert hm; simp only [Csr.regDrawMask]; interval_cases i <;> decide
    | coordCtrl => exfalso; revert hm; simp only [Csr.regDrawMask]; interval_cases i <;> decide
    | reserved => exfalso; revert hm; simp only [Csr.regDrawMask]; interval_cases i <;> decide
    | buf =>
      cases hb : s.csr.buf with
      | none => simp [Csr.regDrawMask, hb] at hm; exfalso; revert hm; interval_cases i <;> decide
      | some v => simp [Csr.regWord, hb, h v hb]
    | coordData =>
      cases hb : s.csr.coordData with
      | none => simp [Csr.regDrawMask, hb] at hm; exfalso; revert hm; interval_cases i <;> decide
      | some v => simp [Csr.regWord, hb, h v hb]
  · intro h
    cases r with
    | ctrl =>
      have h0 := h 0 (by decide) (by simp [Csr.regDrawMask]); have h2 := h 2 (by decide) (by simp [Csr.regDrawMask]); have h7 := h 7 (by decide) (by simp [Csr.regDrawMask])
      simp only [Csr.regWord, Csr.ctrlWord, BitVec.getLsbD_or, getLsbD_bitAt, Nat.reduceLT] at h0 h2 h7
      refine ⟨by rw [h0]; simp, ?_, by rw [h7]; simp⟩
      rw [h2]; cases s.dev.run <;> simp
    | gie => have h0 := h 0 (by decide) (by simp [Csr.regDrawMask]); simp only [Csr.regWord, Csr.gieWord, getLsbD_bitAt, Nat.reduceLT] at h0; show x.getLsbD 0 = _; rw [h0]; simp
    | ier =>
      have h0 := h 0 (by decide) (by simp [Csr.regDrawMask]); have h1 := h 1 (by decide) (by simp [Csr.regDrawMask])
      simp only [Csr.regWord, Csr.ierWord, BitVec.getLsbD_or, getLsbD_bitAt, Nat.reduceLT] at h0 h1
      exact ⟨by rw [h0]; simp, by rw [h1]; simp⟩
    | isr => trivial
    | coordCtrl => trivial
    | reserved => trivial
    | buf =>
      intro v hv; apply BitVec.eq_of_getLsbD_eq; intro i hi
      simpa [Csr.regWord, hv] using h i hi (by simp [Csr.regDrawMask, hv])
    | coordData =>
      intro v hv; apply BitVec.eq_of_getLsbD_eq; intro i hi
      simpa [Csr.regWord, hv] using h i hi (by simp [Csr.regDrawMask, hv])

/-- A word that a read of an offset may return agrees with the stored bits outside the drawn ones. -/
theorem canReadAs_agrees (s : State) (off : Nat) (x : Word) (h : CanReadAs s off x) :
    x &&& ~~~ readDrawMask s off = readStored s off &&& ~~~ readDrawMask s off := by
  unfold CanReadAs at h; unfold readDrawMask readStored
  split at h
  · rename_i hs
    simp only [hs, if_true]
    cases ht : Table.read s.sim off with
    | none => simp [allBits]
    | some v => simp [h v ht]
  · rename_i hs
    simp only [hs]
    split at h
    · rename_i hf; rw [hf]; exact readsAs_agrees _ _ _ h
    · rename_i hf; simp only [Bool.not_eq_true] at hf; rw [hf]; exact (readsAsUnfaithful_iff _ _ _).1 h

/-- What a read of each register returns on hardware that is not faithful. -/
theorem readValue_readsAsUnfaithful (s : State) (off : Nat) (hf : s.params.hwFaithful = false) (hs : s.params.simRegs = false) :
    ReadsAsUnfaithful s (regAt s.params.regMap off) (readValue s off) := by
  have e : s.csr.regDrawMask false (regAt s.params.regMap off) = readDrawMask s off := by simp [readDrawMask, hs, hf]
  have e2 : s.csr.regWord s.dev.run (regAt s.params.regMap off) = readStored s off := by simp [readStored, hs]
  rw [readsAsUnfaithful_iff, e, e2]; unfold readValue
  split
  · rfl
  · ext i; simp; grind

end Sys2Proof.Machine
end

