-- ==== Sys2Proof/Laws/Steps.lean ====
section
/-!
SUPPORT. One inversion lemma per operation: everything its meaning can do when it answers a next state. Proofs over all operations
cite these and unfold no meaning.
-/

namespace Sys2Proof.Machine

variable {s t : State}

/-! ### CSR access and buffer access -/

theorem execCsrRead_next {off : BitVec 8} (h : execCsrRead off s = .next t) :
    ((∃ k c, s.ByCaller k c) ∨ s.agent = .lifecycle) ∧
      (t = hold s
        ∨ (s.CsrMaster ∧ ∃ r, t = raiseFault (.csrRead off) r (.offset off.toNat) s)
        ∨ (s.CsrMaster ∧ checkAccess s .read off.toNat = none
            ∧ t = (csrReadState s off.toNat).setRet (.word (readValue s off.toNat)))) := by
  obtain ⟨ha, ⟨hm, rfl⟩ | ⟨-, rfl⟩⟩ := asCsrMaster_next h
  · refine ⟨ha, .inr ?_⟩
    rcases mmioRead_cases (.csrRead off) off.toNat s (fun x t => t.setRet (.word x)) with ⟨r, e⟩ | ⟨hc, e⟩
    · exact .inl ⟨hm, r, e⟩
    · exact .inr ⟨hm, hc, e⟩
  · exact ⟨ha, .inl rfl⟩

theorem execCsrWrite_next {off : BitVec 8} (h : execCsrWrite off s = .next t) :
    ((∃ k c, s.ByCaller k c) ∨ s.agent = .lifecycle) ∧
      (t = hold s
        ∨ (s.CsrMaster ∧ ∃ r, t = raiseFault (.csrWrite off) r (.offset off.toNat) s)
        ∨ (s.ByLifecycle ∧ checkAccess s .write off.toNat = none ∧ t = csrWriteState s off.toNat s.opnd.v)) := by
  obtain ⟨ha, ⟨hm, rfl⟩ | ⟨-, rfl⟩⟩ := asCsrMaster_next h
  · refine ⟨ha, .inr ?_⟩
    rcases mmioWrite_cases (.csrWrite off) off.toNat s.opnd.v s id with ⟨r, e⟩ | ⟨hc, e⟩
    · exact .inl ⟨hm, r, e⟩
    · refine .inr ⟨?_, hc, e⟩
      rcases hm with hm | ⟨k, c, hm, -⟩
      · exact hm
      · have := (checkAccess_write_none.mp hc).2.2.2
        simp [hm.1, writeAllowed] at this
  · exact ⟨ha, .inl rfl⟩

theorem execBufLoad_next {w : BitVec 2} (h : execBufLoad w s = .next t) :
    ∃ k c, s.ByCaller k c ∧
      (t = hold s
        ∨ (c.pc = .cIdle ∧ t = raiseFault (.bufLoad w) .bufAccess (.access s.opnd.off (widthBytes w)) s)
        ∨ (c.pc = .cIdle ∧ ∃ tp fr x, t = (s.withDraws tp fr).setRet (.word x))) := by
  unfold execBufLoad at h
  split at h
  · cases h
  · obtain ⟨k, c, hk, ⟨hp, rfl⟩ | ⟨-, rfl⟩⟩ := asCallerAt_next h
    · refine ⟨k, c, hk, .inr ?_⟩
      split
      · obtain ⟨bs, tp, fr, e, -⟩ := loadBytes_eq c s.opnd.off (widthBytes w) s
        exact .inr ⟨hp, tp, fr, ofBytes bs, by simp [e]⟩
      · exact .inl ⟨hp, rfl⟩
    · exact ⟨k, c, hk, .inl rfl⟩

theorem execBufStore_next {w : BitVec 2} (h : execBufStore w s = .next t) :
    ∃ k c, s.ByCaller k c ∧
      (t = hold s
        ∨ (c.pc = .cIdle ∧ t = raiseFault (.bufStore w) .bufAccess (.access s.opnd.off (widthBytes w)) s)
        ∨ (c.pc = .cIdle ∧ mappedAccessOk s c s.opnd.off (widthBytes w) = true
            ∧ t = s.modCaller k fun x =>
                { x with wc := x.wc ++ [{ off := s.opnd.off, bytes := bytesOf (widthBytes w) s.opnd.v }] })) := by
  unfold execBufStore at h
  split at h
  · cases h
  · obtain ⟨k, c, hk, ⟨hp, rfl⟩ | ⟨-, rfl⟩⟩ := asCallerAt_next h
    · refine ⟨k, c, hk, .inr ?_⟩
      split
      · rename_i hm
        exact .inr ⟨hp, hm, rfl⟩
      · exact .inl ⟨hp, rfl⟩
    · exact ⟨k, c, hk, .inl rfl⟩

theorem execWcDrain_next (h : execWcDrain s = .next t) :
    ∃ k c, s.agent = .wcDrain k ∧ s.callers[k]? = some c ∧
      (t = hold s
        ∨ (c.wc ≠ [] ∧ ∃ e tp fr, DrainSet c.wc e
            ∧ t = ((s.withDraws tp fr).modCaller k fun x => { x with wc := undrained e }).setBuf
                { s.buf with mem := if s.buf.live then drainInto s.buf.mem (drained e) else s.buf.mem })) := by
  obtain ⟨k, c, ha, hc, rfl⟩ := asWcDrain_next h
  refine ⟨k, c, ha, hc, ?_⟩
  split
  · exact .inl rfl
  · rename_i hw
    have hw' : c.wc ≠ [] := by simpa using hw
    obtain ⟨tp, fr, hd⟩ := s.drawn_eq
    refine .inr ⟨hw', drainChoice s.draw c.wc, tp, fr, drainChoice_isDrainSet _ hw', ?_⟩
    simp only [hd]
    cases hl : s.buf.live
    · simp only [Bool.false_eq_true, if_false]; rfl
    · simp only [if_true]

/-! ### Coordinate decoder -/

theorem execCoordPoll_next (h : execCoordPoll s = .next t) :
    ∃ k c, s.ByCaller k c ∧
      (t = hold s
        ∨ ∃ i K, c.pc = .cPoll i K ∧
          ((∃ r, checkAccess s .read s.params.regMap.coordCtrl = some r
              ∧ t = raiseFault .coordPoll r (.offset s.params.regMap.coordCtrl) s)
            ∨ t = (csrReadState s s.params.regMap.coordCtrl).modCaller k (fun x => { x with pc := .cData K })
            ∨ (pollAgain s.params.pollMax i = true
                ∧ t = (csrReadState s s.params.regMap.coordCtrl).modCaller k fun x => { x with pc := .cPoll (i + 1) K })
            ∨ t = pollExhausted k K (csrReadState s s.params.regMap.coordCtrl))) := by
  obtain ⟨k, c, hk, rfl⟩ := asCaller_next h
  refine ⟨k, c, hk, ?_⟩
  split
  · rename_i i K hp
    refine .inr ⟨i, K, hp, ?_⟩
    unfold mmioRead
    split
    · rename_i r hr
      exact .inl ⟨r, hr, rfl⟩
    · refine .inr ?_
      beta_reduce
      split
      · exact .inl rfl
      · split
        · rename_i hpa
          exact .inr (.inl ⟨hpa, rfl⟩)
        · exact .inr (.inr rfl)
  · exact .inl rfl

theorem execCoordRead_next (h : execCoordRead s = .next t) :
    ∃ k c, s.ByCaller k c ∧
      (t = hold s
        ∨ ∃ K, c.pc = .cData K ∧
          ((∃ r, checkAccess s .read s.params.regMap.coordData = some r
              ∧ t = raiseFault .coordRead r (.offset s.params.regMap.coordData) s)
            ∨ t = coordDecoded k c.dstOk K (readValue s s.params.regMap.coordData)
                (csrReadState s s.params.regMap.coordData))) := by
  obtain ⟨k, c, hk, rfl⟩ := asCaller_next h
  refine ⟨k, c, hk, ?_⟩
  split
  · rename_i K hp
    refine .inr ⟨K, hp, ?_⟩
    unfold mmioRead
    split
    · rename_i r hr
      exact .inl ⟨r, hr, rfl⟩
    · exact .inr rfl
  · exact .inl rfl

theorem execCoordClassify_next (h : execCoordClassify s = .next t) :
    ∃ k c, s.ByCaller k c ∧ (t = hold s ∨ t = s.setRet (.cls (classify s.opnd.coord))) := by
  obtain ⟨k, c, hk, ⟨-, rfl⟩ | ⟨-, rfl⟩⟩ := asCallerAt_next h
  · exact ⟨k, c, hk, .inr rfl⟩
  · exact ⟨k, c, hk, .inl rfl⟩

/-- What the end of a poll leaves alone: everything but the caller's record, the history and the returned value. -/
theorem pollExhausted_frame (k : Nat) (K : Cont) (s : State) :
    (pollExhausted k K s).params = s.params
      ∧ (pollExhausted k K s).csr = s.csr
      ∧ (pollExhausted k K s).sim = s.sim
      ∧ (pollExhausted k K s).dev = s.dev
      ∧ (pollExhausted k K s).buf = s.buf
      ∧ (pollExhausted k K s).oldBufs = s.oldBufs
      ∧ (pollExhausted k K s).pal = s.pal
      ∧ (pollExhausted k K s).lc = s.lc
      ∧ (pollExhausted k K s).isr = s.isr
      ∧ (pollExhausted k K s).faults = s.faults := by
  unfold pollExhausted
  cases K <;> simp

/-- What a decoded coordinate leaves alone: everything but the caller's record, the history and the returned value. -/
theorem coordDecoded_frame (k : Nat) (dstOk : Bool) (K : Cont) (w : Word) (s : State) :
    (coordDecoded k dstOk K w s).params = s.params
      ∧ (coordDecoded k dstOk K w s).csr = s.csr
      ∧ (coordDecoded k dstOk K w s).sim = s.sim
      ∧ (coordDecoded k dstOk K w s).dev = s.dev
      ∧ (coordDecoded k dstOk K w s).buf = s.buf
      ∧ (coordDecoded k dstOk K w s).oldBufs = s.oldBufs
      ∧ (coordDecoded k dstOk K w s).pal = s.pal
      ∧ (coordDecoded k dstOk K w s).lc = s.lc
      ∧ (coordDecoded k dstOk K w s).isr = s.isr
      ∧ (coordDecoded k dstOk K w s).faults = s.faults := by
  unfold coordDecoded
  cases K
  · simp only
    split <;> simp
  · simp

/-- A fault changes the lifecycle record in its stuck mark only. -/
theorem raiseFault_lc_frame (i : Instr) (r : FaultReason) (d : Datum) (s : State) :
    ∃ b, (raiseFault i r d s).lc = { s.lc with stuck := b } := by
  by_cases h : s.agent = .lifecycle
  · exact ⟨true, by simp [raiseFault, stick, h]⟩
  · exact ⟨s.lc.stuck, by cases h' : s.agent <;> simp_all [raiseFault, stick]⟩

/-! ### Interrupt service -/

theorem execIrqDeliver_next (h : execIrqDeliver s = .next t) :
    s.agent = .platform ∧ (t = hold s ∨ (s.lc.res.irq = true ∧ s.isr.pc = .iIdle ∧ t = isrEnter s)) := by
  obtain ⟨ha, rfl⟩ := asPlatform_next h
  refine ⟨ha, ?_⟩
  split
  · rename_i hc
    exact .inr ⟨hc.1, hc.2, rfl⟩
  · exact .inl rfl

theorem execIsrCheck_next (h : execIsrCheck s = .next t) :
    s.agent = .isr ∧
      (t = hold s
        ∨ (s.isr.pc = .iCheck ∧
          ((∃ r, checkAccess s .read s.params.regMap.ctrl = some r
              ∧ t = raiseFault .isrCheck r (.offset s.params.regMap.ctrl) s)
            ∨ (readValue s s.params.regMap.ctrl &&& intPendingMask = 0
                ∧ t = isrReturn .notMine (csrReadState s s.params.regMap.ctrl))
            ∨ (readValue s s.params.regMap.ctrl &&& intPendingMask ≠ 0
                ∧ t = (csrReadState s s.params.regMap.ctrl).setIsr { s.isr with pc := .iStatus })))) := by
  obtain ⟨ha, ⟨hp, rfl⟩ | ⟨-, rfl⟩⟩ := asIsrAt_next h
  · refine ⟨ha, .inr ⟨hp, ?_⟩⟩
    unfold mmioRead
    split
    · rename_i r hr
      exact .inl ⟨r, hr, rfl⟩
    · beta_reduce
      split
      · rename_i hz
        exact .inr (.inl ⟨hz, rfl⟩)
      · rename_i hz
        exact .inr (.inr ⟨hz, by simp⟩)
  · exact ⟨ha, .inl rfl⟩

theorem execIsrStatus_next (h : execIsrStatus s = .next t) :
    s.agent = .isr ∧
      (t = hold s
        ∨ (s.isr.pc = .iStatus ∧
          ((∃ r, checkAccess s .read s.params.regMap.isr = some r
              ∧ t = raiseFault .isrStatus r (.offset s.params.regMap.isr) s)
            ∨ (readValue s s.params.regMap.isr = 0
                ∧ t = raiseFault .isrStatus .hwInconsistent (.status (readValue s s.params.regMap.isr))
                    (csrReadState s s.params.regMap.isr))
            ∨ (readValue s s.params.regMap.isr ≠ 0
                ∧ ∃ n, t = (csrReadState s s.params.regMap.isr).setIsr
                    { pc := .iWake, s := readValue s s.params.regMap.isr, anomaly := n })))) := by
  obtain ⟨ha, ⟨hp, rfl⟩ | ⟨-, rfl⟩⟩ := asIsrAt_next h
  · refine ⟨ha, .inr ⟨hp, ?_⟩⟩
    unfold mmioRead
    split
    · rename_i r hr
      exact .inl ⟨r, hr, rfl⟩
    · beta_reduce
      split
      · rename_i hz
        exact .inr (.inl ⟨hz, rfl⟩)
      · rename_i hz
        exact .inr (.inr ⟨hz, _, rfl⟩)
  · exact ⟨ha, .inl rfl⟩

theorem execIsrWake_next (h : execIsrWake s = .next t) :
    s.agent = .isr ∧
      (t = hold s ∨ (s.isr.pc = .iWake ∧ t = (wakeAll s).setIsr { s.isr with pc := .iAck })) := by
  obtain ⟨ha, ⟨hp, rfl⟩ | ⟨-, rfl⟩⟩ := asIsrAt_next h
  · exact ⟨ha, .inr ⟨hp, rfl⟩⟩
  · exact ⟨ha, .inl rfl⟩

theorem execIsrAck_next (h : execIsrAck s = .next t) :
    s.agent = .isr ∧
      (t = hold s
        ∨ (s.isr.pc = .iAck ∧
          ((∃ r, checkAccess s .write s.params.regMap.isr = some r
              ∧ t = raiseFault .isrAck r (.offset s.params.regMap.isr) s)
            ∨ t = isrReturn .handled (csrWriteState s s.params.regMap.isr s.isr.s)))) := by
  obtain ⟨ha, ⟨hp, rfl⟩ | ⟨-, rfl⟩⟩ := asIsrAt_next h
  · refine ⟨ha, .inr ⟨hp, ?_⟩⟩
    unfold mmioWrite
    split
    · rename_i r hr
      exact .inl ⟨r, hr, rfl⟩
    · exact .inr rfl
  · exact ⟨ha, .inl rfl⟩

/-! ### Wait for vertical blank -/

theorem execWaitEnter_next (h : execWaitEnter s = .next t) :
    ∃ k c, s.ByCaller k c ∧
      (t = hold s
        ∨ (c.pc = .cIdle ∧ t = raiseFault .waitEnter .uninit .opWord s)
        ∨ (c.pc = .cIdle ∧ s.fullyInit = true
            ∧ t = s.modCaller k fun x =>
                { x with tarmed := true, texp := false, pc := .cWreg,
                         timeout := s.opnd.timeout.getD s.params.waitTimeout, entered := s.clock })) := by
  obtain ⟨k, c, hk, ⟨hp, hf, rfl⟩ | ⟨hp, -, rfl⟩ | ⟨-, rfl⟩⟩ := asConsumer_next h
  · exact ⟨k, c, hk, .inr (.inr ⟨hp, hf, rfl⟩)⟩
  · exact ⟨k, c, hk, .inr (.inl ⟨hp, rfl⟩)⟩
  · exact ⟨k, c, hk, .inl rfl⟩

theorem execWaitRegister_next (h : execWaitRegister s = .next t) :
    ∃ k c, s.ByCaller k c ∧
      (t = hold s
        ∨ (c.pc = .cWreg
            ∧ t = s.modCaller k fun x => { x with queued := true, woken := false, pc := .cPoll 0 .wait })) := by
  obtain ⟨k, c, hk, ⟨hp, rfl⟩ | ⟨-, rfl⟩⟩ := asCallerAt_next h
  · exact ⟨k, c, hk, .inr ⟨hp, rfl⟩⟩
  · exact ⟨k, c, hk, .inl rfl⟩

theorem execWaitCheck_next (h : execWaitCheck s = .next t) :
    ∃ k c, s.ByCaller k c ∧
      (t = hold s
        ∨ (c.pc = .cDecide ∧
          ((∃ e, t = leaveWait k e s)
            ∨ t = leaveWait k .eIntr (s.modCaller k fun x => { x with sig := false })
            ∨ t = s.modCaller k fun x => { x with pc := .cSleep }))) := by
  obtain ⟨k, c, hk, ⟨hp, rfl⟩ | ⟨-, rfl⟩⟩ := asCallerAt_next h
  · refine ⟨k, c, hk, .inr ⟨hp, ?_⟩⟩
    split
    · exact .inl ⟨_, rfl⟩
    · split
      · exact .inr (.inl rfl)
      · split
        · exact .inl ⟨_, rfl⟩
        · exact .inr (.inr rfl)
  · exact ⟨k, c, hk, .inl rfl⟩

theorem execWaitSleep_next (h : execWaitSleep s = .next t) :
    ∃ k c, s.ByCaller k c ∧
      (t = hold s
        ∨ (c.pc = .cSleep ∧ t = s.modCaller k fun x => { x with woken := false, pc := .cPoll 0 .wait })) := by
  obtain ⟨k, c, hk, ⟨hp, rfl⟩ | ⟨-, rfl⟩⟩ := asCallerAt_next h
  · refine ⟨k, c, hk, ?_⟩
    split
    · exact .inr ⟨hp, rfl⟩
    · exact .inl rfl
  · exact ⟨k, c, hk, .inl rfl⟩

theorem execTimerExpire_next (h : execTimerExpire s = .next t) :
    ∃ k c, s.agent = .timer k ∧ s.callers[k]? = some c ∧
      (t = hold s ∨ (c.tarmed = true ∧ t = s.modCaller k fun x => { x with texp := true })) := by
  obtain ⟨k, c, ha, hc, rfl⟩ := asTimer_next h
  refine ⟨k, c, ha, hc, ?_⟩
  split
  · rename_i hm
    simp only [timerMayExpire, Bool.and_eq_true] at hm
    exact .inr ⟨hm.1.1, rfl⟩
  · exact .inl rfl

theorem execSignalDeliver_next (h : execSignalDeliver s = .next t) :
    ∃ k c, s.agent = .signal k ∧ s.callers[k]? = some c ∧
      (t = hold s ∨ t = s.modCaller k fun x => { x with sig := true }) := by
  obtain ⟨k, c, ha, hc, rfl⟩ := asSignal_next h
  refine ⟨k, c, ha, hc, ?_⟩
  split
  · exact .inl rfl
  · exact .inr rfl

/-! ### Lifecycle -/

theorem lcAt_true {here : Bool} : lcAt s here = true ↔ s.lc.aborting = none ∧ here = true := by
  simp [lcAt]

theorem execLcMap_next (h : execLcMap s = .next t) :
    s.agent = .lifecycle ∧
      (t = hold s
        ∨ t = raiseFault .lcMap .lifecycle .opWord s
        ∨ (s.lc.aborting = none ∧ (s.lc.L = .unattached ∨ s.lc.L = .detached) ∧
          ((∃ e tp fr, t = failAttach e (s.withDraws tp fr))
            ∨ (∃ tp fr base, t = ((freshHandle s).withDraws tp fr).completeLc
                { (freshHandle s).lc with regBase := base, res := { handle := true, regs := true }, L := .registersMapped })))) := by
  obtain ⟨ha, ⟨-, hadm, rfl⟩ | ⟨-, -, rfl⟩ | ⟨-, rfl⟩⟩ := asLifecycle_next h
  · refine ⟨ha, .inr (.inr ?_)⟩
    rw [lcAt_true] at hadm
    refine ⟨hadm.1, by simpa using hadm.2, ?_⟩
    obtain ⟨tp, fr, hd⟩ := s.drawn_eq
    split
    · rename_i e _
      exact .inl ⟨e, tp, fr, by rw [hd]⟩
    · have hf : freshHandle s.drawn = (freshHandle s).withDraws tp fr := by
        rw [hd]; simp only [freshHandle_eq]; split <;> rfl
      obtain ⟨tp', fr', hd'⟩ := ((freshHandle s).withDraws tp fr).drawn_eq
      exact .inr ⟨tp', fr', ((freshHandle s).withDraws tp fr).draw, by simp only [hf, hd']⟩
  · exact ⟨ha, .inr (.inl rfl)⟩
  · exact ⟨ha, .inl rfl⟩

theorem execLcAllocBuf_next (h : execLcAllocBuf s = .next t) :
    s.agent = .lifecycle ∧
      (t = hold s
        ∨ t = raiseFault .lcAllocBuf .lifecycle .opWord s
        ∨ (s.lc.aborting = none ∧ s.lc.L = .registersMapped ∧
          ((∃ e tp fr, t = failAttach e (s.withDraws tp fr))
            ∨ (∃ tp fr, t = (allocBuffer (s.withDraws tp fr)).completeLc
                { s.lc with res := { s.lc.res with buf := true }, L := .bufferAllocated })))) := by
  obtain ⟨ha, ⟨-, hadm, rfl⟩ | ⟨-, -, rfl⟩ | ⟨-, rfl⟩⟩ := asLifecycle_next h
  · refine ⟨ha, .inr (.inr ?_)⟩
    rw [lcAt_true] at hadm
    refine ⟨hadm.1, by simpa using hadm.2, ?_⟩
    obtain ⟨tp, fr, hd⟩ := s.drawn_eq
    split
    · rename_i e _
      exact .inl ⟨e, tp, fr, by rw [hd]⟩
    · exact .inr ⟨tp, fr, by rw [hd]⟩
  · exact ⟨ha, .inr (.inl rfl)⟩
  · exact ⟨ha, .inl rfl⟩

theorem execLcAllocPal_next (h : execLcAllocPal s = .next t) :
    s.agent = .lifecycle ∧
      (t = hold s
        ∨ t = raiseFault .lcAllocPal .lifecycle .opWord s
        ∨ (s.lc.aborting = none ∧ s.lc.L = .bufferAllocated ∧
          ((∃ e tp fr, t = failAttach e (s.withDraws tp fr))
            ∨ (∃ tp fr, t = ((s.withDraws tp fr).setPal emptyPalette).completeLc
                { s.lc with res := { s.lc.res with pal := true }, L := .paletteAllocated })))) := by
  obtain ⟨ha, ⟨-, hadm, rfl⟩ | ⟨-, -, rfl⟩ | ⟨-, rfl⟩⟩ := asLifecycle_next h
  · refine ⟨ha, .inr (.inr ?_)⟩
    rw [lcAt_true] at hadm
    refine ⟨hadm.1, by simpa using hadm.2, ?_⟩
    obtain ⟨tp, fr, hd⟩ := s.drawn_eq
    split
    · rename_i e _
      exact .inl ⟨e, tp, fr, by rw [hd]⟩
    · exact .inr ⟨tp, fr, by rw [hd]⟩
  · exact ⟨ha, .inr (.inl rfl)⟩
  · exact ⟨ha, .inl rfl⟩

theorem execLcInstallIsr_next (h : execLcInstallIsr s = .next t) :
    s.agent = .lifecycle ∧
      (t = hold s
        ∨ t = raiseFault .lcInstallIsr .lifecycle .opWord s
        ∨ (s.lc.aborting = none ∧ s.lc.L = .paletteAllocated ∧
          ((∃ e tp fr, t = failAttach e (s.withDraws tp fr))
            ∨ (∃ tp fr, t = (s.withDraws tp fr).completeLc
                { s.lc with res := { s.lc.res with irq := true }, L := .interruptArmed })))) := by
  obtain ⟨ha, ⟨-, hadm, rfl⟩ | ⟨-, -, rfl⟩ | ⟨-, rfl⟩⟩ := asLifecycle_next h
  · refine ⟨ha, .inr (.inr ?_)⟩
    rw [lcAt_true] at hadm
    refine ⟨hadm.1, by simpa using hadm.2, ?_⟩
    obtain ⟨tp, fr, hd⟩ := s.drawn_eq
    split
    · rename_i e _
      exact .inl ⟨e, tp, fr, by rw [hd]⟩
    · exact .inr ⟨tp, fr, by rw [hd]⟩
  · exact ⟨ha, .inr (.inl rfl)⟩
  · exact ⟨ha, .inl rfl⟩

theorem execLcPublish_next (h : execLcPublish s = .next t) :
    s.agent = .lifecycle ∧
      (t = hold s
        ∨ (∃ r d, t = raiseFault .lcPublish r d s)
        ∨ (s.lc.aborting = none ∧ s.lc.L = .interruptArmed ∧ checkAccess s .write s.params.regMap.buf = none ∧
          ((∃ e tp fr, t = failAttach e ((csrWriteState s s.params.regMap.buf s.buf.bus).withDraws tp fr))
            ∨ (∃ tp fr, t = ((csrWriteState s s.params.regMap.buf s.buf.bus).withDraws tp fr).completeLc
                { s.lc with res := { s.lc.res with fbdev := true }, L := .published })))) := by
  obtain ⟨ha, ⟨-, hadm, rfl⟩ | ⟨-, -, rfl⟩ | ⟨-, rfl⟩⟩ := asLifecycle_next h
  · refine ⟨ha, .inr ?_⟩
    rw [lcAt_true] at hadm
    unfold mmioWrite
    split
    · rename_i r _
      exact .inl ⟨r, _, rfl⟩
    · rename_i hc
      refine .inr ⟨hadm.1, by simpa using hadm.2, hc, ?_⟩
      beta_reduce
      obtain ⟨tp, fr, hd⟩ := (csrWriteState s s.params.regMap.buf s.buf.bus).drawn_eq
      split
      · rename_i e _
        exact .inl ⟨e, tp, fr, by rw [hd]⟩
      · exact .inr ⟨tp, fr, by rw [hd]; simp⟩
  · exact ⟨ha, .inr (.inl ⟨_, _, rfl⟩)⟩
  · exact ⟨ha, .inl rfl⟩

theorem execLcEnableIrq_next (h : execLcEnableIrq s = .next t) :
    s.agent = .lifecycle ∧
      (t = hold s
        ∨ (∃ r d, t = raiseFault .lcEnableIrq r d s)
        ∨ (s.lc.aborting = none ∧ s.lc.L = .published ∧ s.lc.irqEnabled = false
          ∧ checkAccess s .write s.params.regMap.gie = none ∧ checkAccess s .write s.params.regMap.ier = none
          ∧ t = (csrWriteState (csrWriteState s s.params.regMap.gie gieOn) s.params.regMap.ier ierOn).completeLc
              { s.lc with irqEnabled := true })) := by
  obtain ⟨ha, ⟨-, hadm, rfl⟩ | ⟨-, -, rfl⟩ | ⟨-, rfl⟩⟩ := asLifecycle_next h
  · refine ⟨ha, .inr ?_⟩
    rw [lcAt_true] at hadm
    simp only [Bool.and_eq_true, beq_iff_eq, Bool.not_eq_true'] at hadm
    rcases mmioWrite2_cases .lcEnableIrq s.params.regMap.gie gieOn s.params.regMap.ier ierOn s
      (fun t => t.completeLc { t.lc with irqEnabled := true }) with ⟨r, off, e⟩ | ⟨h1, h2, e⟩
    · exact .inl ⟨r, _, e⟩
    · exact .inr ⟨hadm.1, hadm.2.1, hadm.2.2, h1, h2, by rw [e]; simp⟩
  · exact ⟨ha, .inr (.inl ⟨_, _, rfl⟩)⟩
  · exact ⟨ha, .inl rfl⟩

theorem execLcStart_next (h : execLcStart s = .next t) :
    s.agent = .lifecycle ∧
      (t = hold s
        ∨ (∃ r d, t = raiseFault .lcStart r d s)
        ∨ (s.lc.aborting = none ∧ s.lc.L = .published ∧ s.lc.irqEnabled = true
          ∧ checkAccess s .write s.params.regMap.ctrl = none
          ∧ t = (csrWriteState s s.params.regMap.ctrl ctrlStartCmd).completeLc
              { s.lc with L := .running, phase := .none })) := by
  obtain ⟨ha, ⟨-, hadm, rfl⟩ | ⟨-, -, rfl⟩ | ⟨-, rfl⟩⟩ := asLifecycle_next h
  · refine ⟨ha, .inr ?_⟩
    rw [lcAt_true] at hadm
    simp only [Bool.and_eq_true, beq_iff_eq] at hadm
    rcases mmioWrite_cases .lcStart s.params.regMap.ctrl ctrlStartCmd s
      (fun t => t.completeLc { t.lc with L := .running, phase := .none }) with ⟨r, e⟩ | ⟨h1, e⟩
    · exact .inl ⟨r, _, e⟩
    · exact .inr ⟨hadm.1, hadm.2.1, hadm.2.2, h1, by rw [e]; simp⟩
  · exact ⟨ha, .inr (.inl ⟨_, _, rfl⟩)⟩
  · exact ⟨ha, .inl rfl⟩

theorem execLcAbort_next (h : execLcAbort s = .next t) :
    s.agent = .lifecycle ∧
      (t = hold s
        ∨ t = raiseFault .lcAbort .lifecycle .opWord s
        ∨ ∃ e, s.lc.aborting = some e ∧ (s.lc.res.irq = false ∨ s.isr.pc = .iIdle)
          ∧ t = returnLifecycle e
              ((releaseAll s).setLc { s.lc with res := {}, irqEnabled := false, L := .unattached, aborting := none })) := by
  obtain ⟨ha, ⟨-, hadm, rfl⟩ | ⟨-, -, rfl⟩ | ⟨-, rfl⟩⟩ := asLifecycle_next h
  · refine ⟨ha, ?_⟩
    obtain ⟨e, he⟩ := Option.isSome_iff_exists.mp hadm
    split
    · exact .inl rfl
    · rename_i hc
      refine .inr (.inr ⟨e, he, ?_, by simp [he]⟩)
      by_cases hi : s.lc.res.irq = true
      · exact .inr (by simpa [hi] using hc)
      · exact .inl (by simpa using hi)
  · exact ⟨ha, .inr (.inl rfl)⟩
  · exact ⟨ha, .inl rfl⟩

theorem execLcDetachStop_next (h : execLcDetachStop s = .next t) :
    s.agent = .lifecycle ∧
      (t = hold s
        ∨ (∃ r d, t = raiseFault .lcDetachStop r d s)
        ∨ (s.lc.aborting = none ∧ s.lc.L = .running ∧ s.lc.phase = .none ∧ s.inUse = false
          ∧ checkAccess s .write s.params.regMap.ctrl = none
          ∧ t = (csrWriteState s s.params.regMap.ctrl ctrlStopCmd).completeLc { s.lc with phase := .stopped })) := by
  obtain ⟨ha, ⟨-, hadm, rfl⟩ | ⟨-, -, rfl⟩ | ⟨-, rfl⟩⟩ := asLifecycle_next h
  · refine ⟨ha, .inr ?_⟩
    rw [lcAt_true] at hadm
    simp only [Bool.and_eq_true, beq_iff_eq] at hadm
    split
    · exact .inl ⟨_, _, rfl⟩
    · rename_i hu
      rcases mmioWrite_cases .lcDetachStop s.params.regMap.ctrl ctrlStopCmd s
        (fun t => t.completeLc { t.lc with phase := .stopped }) with ⟨r, e⟩ | ⟨h1, e⟩
      · exact .inl ⟨r, _, e⟩
      · exact .inr ⟨hadm.1, hadm.2.1, hadm.2.2, by simpa using hu, h1, by rw [e]; simp⟩
  · exact ⟨ha, .inr (.inl ⟨_, _, rfl⟩)⟩
  · exact ⟨ha, .inl rfl⟩

theorem execLcDetachDisable_next (h : execLcDetachDisable s = .next t) :
    s.agent = .lifecycle ∧
      (t = hold s
        ∨ (∃ r d, t = raiseFault .lcDetachDisable r d s)
        ∨ (s.lc.aborting = none ∧ s.lc.L = .running ∧ s.lc.phase = .stopped
          ∧ checkAccess s .write s.params.regMap.gie = none ∧ checkAccess s .write s.params.regMap.ier = none
          ∧ t = (csrWriteState (csrWriteState s s.params.regMap.gie gieOff) s.params.regMap.ier ierOff).completeLc
              { s.lc with irqEnabled := false, phase := .disabled })) := by
  obtain ⟨ha, ⟨-, hadm, rfl⟩ | ⟨-, -, rfl⟩ | ⟨-, rfl⟩⟩ := asLifecycle_next h
  · refine ⟨ha, .inr ?_⟩
    rw [lcAt_true] at hadm
    simp only [Bool.and_eq_true, beq_iff_eq] at hadm
    rcases mmioWrite2_cases .lcDetachDisable s.params.regMap.gie gieOff s.params.regMap.ier ierOff s
      (fun t => t.completeLc { t.lc with irqEnabled := false, phase := .disabled }) with ⟨r, off, e⟩ | ⟨h1, h2, e⟩
    · exact .inl ⟨r, _, e⟩
    · exact .inr ⟨hadm.1, hadm.2.1, hadm.2.2, h1, h2, by rw [e]; simp⟩
  · exact ⟨ha, .inr (.inl ⟨_, _, rfl⟩)⟩
  · exact ⟨ha, .inl rfl⟩

theorem execLcDetachRelease_next (h : execLcDetachRelease s = .next t) :
    s.agent = .lifecycle ∧
      (t = hold s
        ∨ t = raiseFault .lcDetachRelease .lifecycle .opWord s
        ∨ (s.lc.aborting = none ∧ s.lc.L = .running ∧ s.lc.phase = .disabled ∧ s.isr.pc = .iIdle ∧ s.allDrained = true
          ∧ t = ((releaseAll s).mapCallers fun c => { c with mapped := false }).completeLc
              { s.lc with res := {}, L := .detached, phase := .none })) := by
  obtain ⟨ha, ⟨-, hadm, rfl⟩ | ⟨-, -, rfl⟩ | ⟨-, rfl⟩⟩ := asLifecycle_next h
  · refine ⟨ha, ?_⟩
    rw [lcAt_true] at hadm
    simp only [Bool.and_eq_true, beq_iff_eq] at hadm
    split
    · rename_i hc
      exact .inr (.inr ⟨hadm.1, hadm.2.1, hadm.2.2, hc.1, hc.2, by simp⟩)
    · exact .inl rfl
  · exact ⟨ha, .inr (.inl rfl)⟩
  · exact ⟨ha, .inl rfl⟩

/-! ### Scan engine -/

theorem execDevAdvance_next (h : execDevAdvance s = .next t) :
    s.agent = .device ∧
      (t = hold s
        ∨ (s.ByScanner ∧
          ((∃ d, t = raiseFault .devAdvance .dmaNotLive d s) ∨ t = advancePos s ∨ ∃ b, t = advancePos (scanoutState s b)))) := by
  obtain ⟨ha, ⟨hs, rfl⟩ | ⟨-, rfl⟩⟩ := asScanning_next h
  · refine ⟨ha, .inr ⟨hs, ?_⟩⟩
    split
    · unfold scanoutRead
      split
      · exact .inl ⟨_, rfl⟩
      · simp only
        split
        · exact .inr (.inr ⟨_, rfl⟩)
        · exact .inl ⟨_, rfl⟩
    · exact .inr (.inl rfl)
  · exact ⟨ha, .inl rfl⟩

theorem execDevLatch_next (h : execDevLatch s = .next t) :
    s.agent = .device ∧ (t = hold s ∨ ∃ w, t = s.setCsr (s.csr.latch w)) := by
  obtain ⟨ha, ⟨hs, rfl⟩ | ⟨-, rfl⟩⟩ := asScanning_next h
  · exact ⟨ha, .inr ⟨_, rfl⟩⟩
  · exact ⟨ha, .inl rfl⟩

/-! ### Consumer interface -/

theorem execFbRead_next (h : execFbRead s = .next t) :
    ∃ k c, s.ByCaller k c ∧
      (t = hold s
        ∨ (c.pc = .cIdle ∧ t = raiseFault .fbRead .uninit .opWord s)
        ∨ (c.pc = .cIdle ∧ ∃ tp fr bs, t = returnCaller k (.bytes bs) (s.withDraws tp fr))) := by
  obtain ⟨k, c, hk, ⟨hp, hf, rfl⟩ | ⟨hp, -, rfl⟩ | ⟨-, rfl⟩⟩ := asConsumer_next h
  · refine ⟨k, c, hk, .inr (.inr ⟨hp, ?_⟩)⟩
    split
    · exact ⟨s.tape, s.fresh, [], rfl⟩
    · obtain ⟨bs, tp, fr, e, -⟩ := loadBytes_eq c s.opnd.off (clip s.opnd.off s.opnd.n) s
      exact ⟨tp, fr, bs, by simp only [e]⟩
  · exact ⟨k, c, hk, .inr (.inl ⟨hp, rfl⟩)⟩
  · exact ⟨k, c, hk, .inl rfl⟩

theorem execFbWrite_next (h : execFbWrite s = .next t) :
    ∃ k c, s.ByCaller k c ∧
      (t = hold s
        ∨ (c.pc = .cIdle ∧ t = raiseFault .fbWrite .uninit .opWord s)
        ∨ (c.pc = .cIdle ∧ ∃ r, t = returnCaller k r s)
        ∨ (c.pc = .cIdle ∧ s.fullyInit = true ∧ s.opnd.off < fbSize
            ∧ t = returnCaller k (.count (clip s.opnd.off s.opnd.bytes.length))
                (s.modCaller k fun x =>
                  { x with wc := x.wc
                      ++ byteEntries s.opnd.off (s.opnd.bytes.take (clip s.opnd.off s.opnd.bytes.length)) }))) := by
  obtain ⟨k, c, hk, ⟨hp, hf, rfl⟩ | ⟨hp, -, rfl⟩ | ⟨-, rfl⟩⟩ := asConsumer_next h
  · refine ⟨k, c, hk, .inr (.inr ?_)⟩
    split
    · exact .inl ⟨hp, _, rfl⟩
    · split
      · exact .inl ⟨hp, _, rfl⟩
      · rename_i ho
        exact .inr ⟨hp, hf, by omega, rfl⟩
  · exact ⟨k, c, hk, .inr (.inl ⟨hp, rfl⟩)⟩
  · exact ⟨k, c, hk, .inl rfl⟩

theorem execFbMmap_next (h : execFbMmap s = .next t) :
    ∃ k c, s.ByCaller k c ∧
      (t = hold s
        ∨ (c.pc = .cIdle ∧ t = raiseFault .fbMmap .uninit .opWord s)
        ∨ (c.pc = .cIdle ∧ t = returnCaller k (.code .eInval) s)
        ∨ (c.pc = .cIdle ∧ s.fullyInit = true
            ∧ t = returnCaller k (.code .ok) (s.modCaller k fun x => { x with mapped := true }))) := by
  obtain ⟨k, c, hk, ⟨hp, hf, rfl⟩ | ⟨hp, -, rfl⟩ | ⟨-, rfl⟩⟩ := asConsumer_next h
  · refine ⟨k, c, hk, .inr (.inr ?_)⟩
    split
    · exact .inl ⟨hp, rfl⟩
    · exact .inr ⟨hp, hf, rfl⟩
  · exact ⟨k, c, hk, .inr (.inl ⟨hp, rfl⟩)⟩
  · exact ⟨k, c, hk, .inl rfl⟩

theorem execFbCheckVar_next (h : execFbCheckVar s = .next t) :
    ∃ k c, s.ByCaller k c ∧
      (t = hold s
        ∨ (c.pc = .cIdle ∧ t = raiseFault .fbCheckVar .uninit .opWord s)
        ∨ (c.pc = .cIdle ∧ ∃ r, t = returnCaller k r s)) := by
  obtain ⟨k, c, hk, ⟨hp, hf, rfl⟩ | ⟨hp, -, rfl⟩ | ⟨-, rfl⟩⟩ := asConsumer_next h
  · refine ⟨k, c, hk, .inr (.inr ⟨hp, ?_⟩)⟩
    split <;> exact ⟨_, rfl⟩
  · exact ⟨k, c, hk, .inr (.inl ⟨hp, rfl⟩)⟩
  · exact ⟨k, c, hk, .inl rfl⟩

theorem execFbSetcolreg_next {idx : BitVec 8} (h : execFbSetcolreg idx s = .next t) :
    ∃ k c, s.ByCaller k c ∧
      (t = hold s
        ∨ (c.pc = .cIdle ∧ t = raiseFault (.fbSetcolreg idx) .uninit .opWord s)
        ∨ (c.pc = .cIdle ∧ t = returnCaller k (.code .eInval) s)
        ∨ (c.pc = .cIdle ∧ s.fullyInit = true
            ∧ ∃ v, t = returnCaller k (.code .ok) (s.setPal (s.pal.set idx.toNat (some v))))) := by
  obtain ⟨k, c, hk, ⟨hp, hf, rfl⟩ | ⟨hp, -, rfl⟩ | ⟨-, rfl⟩⟩ := asConsumer_next h
  · refine ⟨k, c, hk, .inr (.inr ?_)⟩
    split
    · exact .inl ⟨hp, rfl⟩
    · exact .inr ⟨hp, hf, _, rfl⟩
  · exact ⟨k, c, hk, .inr (.inl ⟨hp, rfl⟩)⟩
  · exact ⟨k, c, hk, .inl rfl⟩

theorem execQFramepos_next (h : execQFramepos s = .next t) :
    ∃ k c, s.ByCaller k c ∧
      (t = hold s
        ∨ (c.pc = .cIdle ∧ t = raiseFault .qFramepos .uninit .opWord s)
        ∨ (c.pc = .cIdle ∧ s.fullyInit = true
            ∧ t = s.modCaller k fun x => { x with dstOk := s.opnd.dstOk, pc := .cPoll 0 .framePos })) := by
  obtain ⟨k, c, hk, ⟨hp, hf, rfl⟩ | ⟨hp, -, rfl⟩ | ⟨-, rfl⟩⟩ := asConsumer_next h
  · exact ⟨k, c, hk, .inr (.inr ⟨hp, hf, rfl⟩)⟩
  · exact ⟨k, c, hk, .inr (.inl ⟨hp, rfl⟩)⟩
  · exact ⟨k, c, hk, .inl rfl⟩

/-! ### A step of the machine -/

/-- A next state of a step: nothing was scheduled, or the scheduled operation was executed. -/
theorem step_next (h : step s = .next t) :
    t = s ∨ ∃ q s' i, fetch s = some (q, s') ∧ decode q.word = some i ∧ i.issuedBy q.agent = true ∧ exec i s' = .next t := by
  unfold step at h
  split at h
  · exact .inl (by simpa using h.symm)
  · rename_i q s' hf
    split at h
    · cases h
    · rename_i i hd
      split at h
      · rename_i hi
        exact .inr ⟨q, s', i, hf, hd, hi, h⟩
      · cases h

/-- What fetching the next step leaves alone. -/
theorem fetch_frame {q : Request} {s' : State} (h : fetch s = some (q, s')) :
    ∃ rest, s.sched = q :: rest ∧
      s' = { s with sched := rest, agent := q.agent, opnd := q.opnd, tape := q.draws, clock := s.clock + q.elapsed, ret := .none } := by
  unfold fetch at h
  split at h
  · cases h
  · rename_i q' rest hs
    simp only [Option.some.injEq, Prod.mk.injEq] at h
    obtain ⟨rfl, rfl⟩ := h
    exact ⟨rest, hs, rfl⟩

end Sys2Proof.Machine
end

