-- ==== Sys2Proof/Machine/Assembler.lean ====
section
/-!
DEFINITION. The assembler's text of one step (30_encoding.md R115) and the expansions of its pseudo-operations (R116). Numbers
are written in decimal.
-/

namespace Sys2Proof.Machine

/-- `<agent>` of R115. -/
def asmAgent : Agent → String
  | .device    => "dev"
  | .platform  => "plat"
  | .isr       => "isr"
  | .lifecycle => "lc"
  | .caller k  => "c" ++ toString k
  | .timer k   => "t" ++ toString k
  | .signal k  => "s" ++ toString k
  | .wcDrain k => "wc" ++ toString k

/-- `REG` of R115: a register's name, or the numeric offset. -/
def asmReg (m : RegMap) (off : Nat) : String :=
  match regAt m off with
  | .ctrl      => "CTRL"
  | .gie       => "GIE"
  | .ier       => "IER"
  | .isr       => "ISR"
  | .buf       => "BUF"
  | .coordData => "COORD_DATA"
  | .coordCtrl => "COORD_CTRL"
  | .reserved  => toString off

/-- Operands separated by commas. -/
def asmList (l : List String) : String := String.intercalate ", " l

/-- A brace-delimited field list; the braces are characters 123 and 125. -/
def asmBraces (l : List String) : String :=
  String.singleton (Char.ofNat 123) ++ asmList l ++ String.singleton (Char.ofNat 125)

/-- A byte string. -/
def asmBytes (bs : List Byte) : String := "[" ++ asmList (bs.map fun b => toString b.toNat) ++ "]"

/-- The fields of a geometry request. -/
def asmVar (v : Var) : String :=
  asmBraces ([v.xres, v.yres, v.xresVirtual, v.yresVirtual, v.xoffset, v.yoffset, v.bitsPerPixel].map toString
    ++ [if v.interlaced then "true" else "false"])

/-- `<mnemonic> <operands>` of R115. -/
def asmOp (m : RegMap) (o : Operands) : Instr → String
  | .csrRead off     => "csr.r " ++ asmReg m off.toNat
  | .csrWrite off    => "csr.w " ++ asmList [asmReg m off.toNat, toString o.v.toNat]
  | .bufLoad w       => "buf.ld." ++ toString (widthBytes w) ++ " " ++ toString o.off
  | .bufStore w      => "buf.st." ++ toString (widthBytes w) ++ " " ++ asmList [toString o.off, toString o.v.toNat]
  | .wcDrain         => "wc.drain"
  | .coordPoll       => "coord.poll"
  | .coordRead       => "coord.read"
  | .coordClassify   =>
    "coord.classify (" ++ asmList [toString o.coord.frame.toNat, toString o.coord.row.toNat, toString o.coord.col.toNat] ++ ")"
  | .irqDeliver      => "irq.deliver"
  | .isrCheck        => "isr.check"
  | .isrStatus       => "isr.status"
  | .isrWake         => "isr.wake"
  | .isrAck          => "isr.ack"
  | .waitEnter       => "wait.enter " ++ toString (o.timeout.getD 20)
  | .waitRegister    => "wait.register"
  | .waitCheck       => "wait.check"
  | .waitSleep       => "wait.sleep"
  | .timerExpire     => "timer.expire"
  | .signalDeliver   => "signal.deliver"
  | .lcMap           => "lc.map"
  | .lcAllocBuf      => "lc.alloc_buf"
  | .lcAllocPal      => "lc.alloc_pal"
  | .lcInstallIsr    => "lc.install_isr"
  | .lcPublish       => "lc.publish"
  | .lcEnableIrq     => "lc.enable_irq"
  | .lcStart         => "lc.start"
  | .lcAbort         => "lc.abort"
  | .lcDetachStop    => "lc.detach_stop"
  | .lcDetachDisable => "lc.detach_disable"
  | .lcDetachRelease => "lc.detach_release"
  | .devAdvance      => "dev.advance"
  | .devLatch        => "dev.latch"
  | .fbRead          => "fb.read " ++ asmList [toString o.off, toString o.n]
  | .fbWrite         => "fb.write " ++ asmList [toString o.off, asmBytes o.bytes]
  | .fbMmap          => "fb.mmap " ++ toString o.len
  | .fbCheckVar      => "fb.check_var " ++ asmVar o.var
  | .fbSetcolreg idx =>
    "fb.setcolreg " ++ asmList (idx.toNat :: [o.red, o.green, o.blue, o.transp].map BitVec.toNat |>.map toString)
  | .qFramepos       => "q.framepos " ++ (if o.dstOk then "ok" else "bad")

/-- A code's name (R403). -/
def asmCode : Code → String
  | .ok => "OK" | .eNomem => "E_NOMEM" | .eUnavail => "E_UNAVAIL" | .eIntr => "E_INTR" | .eTimedout => "E_TIMEDOUT"
  | .eHwpoll => "E_HWPOLL" | .eFault => "E_FAULT" | .eInval => "E_INVAL" | .eNospc => "E_NOSPC"

/-- One step's text; a failing lifecycle step is written with the error it draws (R115). -/
def asmStep (m : RegMap) (a : Agent) (i : Instr) (o : Operands) (drawn : Option Code) : String :=
  "@" ++ asmAgent a ++ ": " ++ asmOp m o i ++ (match drawn with | some e => " !" ++ asmCode e | none => "")

/-! ### Pseudo-operations (R116) -/

/-- `start`. -/
def pseudoStart : List (Instr × Operands) := [(.csrWrite 0x00, { v := ctrlStartCmd })]

/-- `stop`. -/
def pseudoStop : List (Instr × Operands) := [(.csrWrite 0x00, { v := ctrlStopCmd })]

/-- `ack v`. -/
def pseudoAck (v : Word) : List (Instr × Operands) := [(.csrWrite 0x0C, { v })]

/-- `coord.poll+`, with `n + 1` polls. -/
def polls (n : Nat) : List Instr := List.replicate (n + 1) .coordPoll

/-- `frame_pos`, with `n + 1` polls. -/
def pseudoFramePos (n : Nat) : List Instr := .qFramepos :: polls n ++ [.coordRead]

/-- The rounds of `wait_vblank` after the first: each sleeps and checks again. -/
def waitRounds : List Nat → List Instr
  | [] => []
  | n :: ns => .waitSleep :: polls n ++ [.coordRead, .waitCheck] ++ waitRounds ns

/-- `wait_vblank`: a first round, and one more round for each entry of `ns`. -/
def pseudoWaitVblank (n : Nat) (ns : List Nat) : List Instr :=
  [.waitEnter, .waitRegister] ++ polls n ++ [.coordRead, .waitCheck] ++ waitRounds ns

/-- `isr`, by whether the device's interrupt is pending. -/
def pseudoIsr (pending : Bool) : List Instr :=
  if pending then [.irqDeliver, .isrCheck, .isrStatus, .isrWake, .isrAck] else [.irqDeliver, .isrCheck]

/-- The seven steps of `attach`. -/
def attachSteps : List Instr := [.lcMap, .lcAllocBuf, .lcAllocPal, .lcInstallIsr, .lcPublish, .lcEnableIrq, .lcStart]

/-- `attach`; with `failed = some n`, step `n` draws an error and LC_ABORT follows it. -/
def pseudoAttach (failed : Option Nat) : List Instr :=
  match failed with
  | none => attachSteps
  | some n => attachSteps.take (n + 1) ++ [.lcAbort]

/-- `detach`. -/
def pseudoDetach : List Instr := [.lcDetachStop, .lcDetachDisable, .lcDetachRelease]

end Sys2Proof.Machine
end

