-- ==== Sys2Proof/Tests/Slice0.lean ====
section
/-!
SUPPORT. The model's own tests. Words are written out bit by bit from 30_encoding.md R109 to R112 (the rows of R111); expected
results of single steps are those of 95_test_vectors.md, named in each docstring; the witnesses show, for every obligation that
has hypotheses, concrete states and operands that meet them, clause by clause.
-/

namespace Sys2Proof.Tests

open Sys2Proof.Machine

/-! ## Decoding: every constructor from its word (family, op, arg) -/

/-- Families 1 and 2 of R111; the register offset and the width code are the low bits. -/
theorem test_decode_access :
    decode 0b0001000000011100 = some (.csrRead 0x1C) ∧ decode 0b0001000110000001 = some (.csrWrite 0x81)
      ∧ decode 0b0010000000000010 = some (.bufLoad 2) ∧ decode 0b0010000100000001 = some (.bufStore 1)
      ∧ decode 0b0010001000000000 = some .wcDrain := by decide

/-- Families 3 and 4 of R111. -/
theorem test_decode_coord_isr :
    decode 0b0011000000000000 = some .coordPoll ∧ decode 0b0011000100000000 = some .coordRead
      ∧ decode 0b0011001000000000 = some .coordClassify ∧ decode 0b0100000000000000 = some .irqDeliver
      ∧ decode 0b0100000100000000 = some .isrCheck ∧ decode 0b0100001000000000 = some .isrStatus
      ∧ decode 0b0100001100000000 = some .isrWake ∧ decode 0b0100010000000000 = some .isrAck := by decide

/-- Family 5 of R111. -/
theorem test_decode_wait :
    decode 0b0101000000000000 = some .waitEnter ∧ decode 0b0101000100000000 = some .waitRegister
      ∧ decode 0b0101001000000000 = some .waitCheck ∧ decode 0b0101001100000000 = some .waitSleep
      ∧ decode 0b0101010000000000 = some .timerExpire ∧ decode 0b0101010100000000 = some .signalDeliver := by decide

/-- Family 6 of R111. -/
theorem test_decode_lifecycle :
    decode 0b0110000000000000 = some .lcMap ∧ decode 0b0110000100000000 = some .lcAllocBuf
      ∧ decode 0b0110001000000000 = some .lcAllocPal ∧ decode 0b0110001100000000 = some .lcInstallIsr
      ∧ decode 0b0110010000000000 = some .lcPublish ∧ decode 0b0110010100000000 = some .lcEnableIrq
      ∧ decode 0b0110011000000000 = some .lcStart ∧ decode 0b0110011100000000 = some .lcAbort
      ∧ decode 0b0110100000000000 = some .lcDetachStop ∧ decode 0b0110100100000000 = some .lcDetachDisable
      ∧ decode 0b0110101000000000 = some .lcDetachRelease := by decide

/-- Families 7 and 8 of R111. -/
theorem test_decode_device_consumer :
    decode 0b0111000000000000 = some .devAdvance ∧ decode 0b0111000100000000 = some .devLatch
      ∧ decode 0b1000000000000000 = some .fbRead ∧ decode 0b1000000100000000 = some .fbWrite
      ∧ decode 0b1000001000000000 = some .fbMmap ∧ decode 0b1000001100000000 = some .fbCheckVar
      ∧ decode 0b1000010000001111 = some (.fbSetcolreg 15) ∧ decode 0b1000010100000000 = some .qFramepos := by decide

/-- AR-4 to AR-6 and 95_test_vectors.md section 2.2: reserved families, arguments, operations and width code 3. -/
theorem test_decode_reserved :
    decode 0x0000 = none ∧ decode 0x9000 = none ∧ decode 0xF123 = none ∧ decode 0x2003 = none ∧ decode 0x2006 = none
      ∧ decode 0x2203 = none ∧ decode 0x6B00 = none := by decide

/-! ## Well-formedness: an ill-formed term for each check -/

/-- R112, R113: width code 3. -/
theorem test_wf_width : (Instr.bufLoad 3).wf = false ∧ (Instr.bufStore 3).wf = false ∧ (Instr.bufLoad 2).wf = true := by decide

/-- R100: a repeated, an unaligned and an out-of-range offset. -/
theorem test_wf_regMap :
    RegMap.wf {} = true ∧ RegMap.wf { gie := 0 } = false ∧ RegMap.wf { ier := 0x09 } = false
      ∧ RegMap.wf { buf := 0x20 } = false := by decide

/-- R13, R310: no poll, an empty raster, and one that outgrows its 10-bit fields. -/
theorem test_wf_params :
    Params.wf {} = true ∧ Params.wf { pollMax := .bounded 0 } = false ∧ Params.wf { hTotal := 0 } = false
      ∧ Params.wf { vTotal := 0 } = false ∧ Params.wf { hTotal := 1025 } = false ∧ Params.wf { vTotal := 1025 } = false
      ∧ Params.wf { regMap := { len := 0 } } = false := by decide

/-! ## States the tests start from -/

/-- The end of program P1: attached and running, at (524, 799), frame 5, and the agent that takes the next step. -/
def live (a : Agent) : State :=
  { State.reset with
    csr := { start := true, autoRestart := true, gieEnable := true, frameEn := true, buf := some 0x1F000000 }
    dev := { run := .running, row := 524, col := 799, frame := 5 }
    buf := { st := .programmed, bus := 0x1F000000 }
    lc := { L := .running, irqEnabled := true, res := heldAt .running }
    agent := a }

/-- `live` with caller 0's record given, taking a step of that caller. -/
def liveBy (c : Caller) : State := { live (.caller 0) with callers := [c] }

/-- `live` with the ISR's record given, a pending cause, and the ISR taking a step. -/
def liveIsr (i : Isr) : State := { live .isr with isr := i, csr := { (live .isr).csr with isrFrame := true } }

/-- An attach under way: the lifecycle record at a state of R281. -/
def attachAt (l : LcState) : State := { live .lifecycle with lc := { L := l, res := heldAt l } }

/-- `live` with the engine at a position, taking a step of the device. -/
def scanAt (row col : Nat) : State :=
  { live .device with dev := { run := .running, row, col, frame := 5 }, tape := [6] }

/-- A caller with its mapping, holding the pending writes given. -/
def mappedWith (wc : List WcEntry) : Caller := { mapped := true, wc }

/-- The state an operation answers, or the start state where it answers none. -/
def after (i : Instr) (s : State) : State :=
  match exec i s with
  | .next t => t
  | _ => s

/-- Caller 0's record after an operation. -/
def callerAfter (i : Instr) (s : State) : Caller := (after i s).callers.getD 0 {}

/-! ## One step of each operation -/

/-- CSR-14: the first read of `COORD_CTRL` returns 1 and clears `VALID`. -/
theorem test_csrRead_clears_valid :
    let t := after (.csrRead 0x1C) { liveBy {} with csr := { (liveBy {}).csr with valid := true } }
    t.ret = .word 1 ∧ t.csr.valid = false := by decide

/-- P1, end: `CTRL` reads 0x81 plus draws at bits 1 and 3, here 1 and 0. -/
theorem test_csrRead_ctrl : (after (.csrRead 0) { liveBy {} with tape := [0xFFFFFF72] }).ret = .word 0x83 := by decide

/-- CSR-8: only the bits written 1 are cleared. -/
theorem test_csrWrite_isr_w1c :
    (after (.csrWrite 0x0C) { live .lifecycle with
      csr := { (live .lifecycle).csr with isrFrame := true, isrAux := true }, opnd := { v := 1 } }).csr.isrWord = 2 := by decide

/-- CSR-20 and CSR-25: `CTRL <- 0x01` ends the scan with its frame, and another address leaves the buffer unprogrammed. -/
theorem test_csrWrite_ctrl_buf :
    (after (.csrWrite 0) { live .lifecycle with opnd := { v := 1 } }).dev.run = .stopping
      ∧ (after (.csrWrite 0x10) { live .lifecycle with opnd := { v := 0x1F001000 } }).buf.st = .allocated := by decide

/-- P7 step 5: a 4-byte load after the drain. -/
theorem test_bufLoad_word :
    (after (.bufLoad 2) { liveBy (mappedWith []) with
      buf := { st := .programmed, bus := 0x1F000000, mem := [(0, 0x44), (1, 0x33), (2, 0x22), (3, 0xAA)] } }).ret
      = .word 0xAA223344 := by decide

/-- BUF-7: a byte load may return the own pending byte. -/
theorem test_bufLoad_pending :
    (after (.bufLoad 0) { liveBy (mappedWith [{ off := 0, bytes := [0x44, 0x33, 0x22, 0x11] }]) with
      opnd := { off := 1 }, tape := [1] }).ret = .word 0x33 := by decide

/-- BUF-6 and BUF-5: low bytes, least significant first. -/
theorem test_bufStore_bytes :
    (callerAfter (.bufStore 1) { liveBy (mappedWith []) with opnd := { off := 2, v := 0xABCD } }).wc
        = [{ off := 2, bytes := [0xCD, 0xAB] }]
      ∧ (callerAfter (.bufStore 0) { liveBy (mappedWith []) with opnd := { off := 0x12BFFF, v := 0x1FF } }).wc
        = [{ off := 0x12BFFF, bytes := [0xFF] }] := by decide

/-- BUF-10: the second of two disjoint entries may drain alone. -/
theorem test_wcDrain_second_alone :
    let s := { liveBy (mappedWith [{ off := 0, bytes := [1, 2, 3, 4] }, { off := 8, bytes := [5, 6, 7, 8] }]) with
      agent := .wcDrain 0, tape := [2] }
    (after .wcDrain s).buf.mem = [(8, 5), (9, 6), (10, 7), (11, 8)]
      ∧ (callerAfter .wcDrain s).wc = [{ off := 0, bytes := [1, 2, 3, 4] }] := by decide

/-- BUF-9: a later entry of the same byte takes the earlier one with it, and wins the byte. -/
theorem test_wcDrain_order :
    let s := { liveBy (mappedWith [{ off := 0, bytes := [1] }, { off := 0, bytes := [2] }]) with
      agent := .wcDrain 0, tape := [2] }
    (after .wcDrain s).buf.mem = [(0, 2)] ∧ (callerAfter .wcDrain s).wc = [] := by decide

/-- CRD-4: the bound reached by a waiter. -/
theorem test_coordPoll_bound :
    let c := callerAfter .coordPoll { liveBy { pc := .cPoll 2 .wait, queued := true, tarmed := true } with
      params := { pollMax := .bounded 3 } }
    c.queued = false ∧ c.tarmed = false ∧ c.outcome = .eHwpoll ∧ c.pc = .cIdle := by decide

/-- CRD-3: one iteration more. -/
theorem test_coordPoll_again :
    (callerAfter .coordPoll { liveBy { pc := .cPoll 0 .wait, queued := true } with
      params := { pollMax := .bounded 3 } }).pc = .cPoll 1 .wait := by decide

/-- CRD-6: a query's result. -/
theorem test_coordRead_query :
    let c := callerAfter .coordRead { liveBy { pc := .cData .framePos, dstOk := true } with
      csr := { coordData := some 0x0010B09F } }
    c.res = some ({ frame := 1, row := 44, col := 159 }, { vblank := true, hblank := true, vsync := false })
      ∧ c.outcome = .ok ∧ c.pc = .cIdle := by decide

/-- CRD-8: a wait's coordinate. -/
theorem test_coordRead_wait :
    let c := callerAfter .coordRead { liveBy { pc := .cData .wait, queued := true } with csr := { coordData := some 0x00932000 } }
    c.coord = { frame := 9, row := 200, col := 0 } ∧ c.pc = .cDecide := by decide

/-- 95_test_vectors.md section 2.3: `classify` at (2, 11, 799), (1, 45, 160) and (7, 44, 799). -/
theorem test_coordClassify :
    (after .coordClassify { liveBy {} with opnd := { coord := unpack 0x00202F1F } }).ret = .cls ⟨true, false, true⟩
      ∧ classify (unpack 0x0010B4A0) = ⟨false, false, false⟩ ∧ classify (unpack 0x0070B31F) = ⟨true, false, false⟩ := by decide

/-- P2 step 8, and ISR-2: no re-entry. -/
theorem test_irqDeliver :
    (after .irqDeliver (live .platform)).isr.pc = .iCheck
      ∧ (after .irqDeliver { live .platform with isr := { pc := .iCheck } }).ret = .held := by decide

/-- P2 step 9, and ISR-9: `IER` masks the cause. -/
theorem test_isrCheck :
    (after .isrCheck { liveIsr { pc := .iCheck } with tape := [0] }).isr.pc = .iStatus
      ∧ (after .isrCheck { liveIsr { pc := .iCheck } with
          csr := { gieEnable := true, isrFrame := true }, tape := [0] }).ret = .isr .notMine := by decide

/-- P2 step 10, and ISR-6: an unexpected word counts an anomaly and is kept. -/
theorem test_isrStatus :
    (after .isrStatus (liveIsr { pc := .iStatus })).isr = { pc := .iWake, s := 1, anomaly := 0 }
      ∧ (after .isrStatus { liveIsr { pc := .iStatus } with params := { hwFaithful := false }, tape := [3] }).isr
        = { pc := .iWake, s := 3, anomaly := 1 } := by decide

/-- ISR-5: a status word of 0 is a fatal inconsistency. -/
theorem test_isrStatus_zero :
    let t := after .isrStatus { liveIsr { pc := .iStatus } with params := { hwFaithful := false }, tape := [0] }
    t.isr.pc = .iStuck ∧ t.faultSet = [.hwInconsistent] := by decide

/-- ISR-3: both queued callers are woken, and a caller outside `Q` is not. -/
theorem test_isrWake :
    let t := after .isrWake { liveIsr { pc := .iWake, s := 1 } with
      callers := [{ pc := .cSleep, queued := true }, {}, { pc := .cSleep, queued := true }] }
    t.callers.map Caller.woken = [true, false, true] ∧ t.isr.pc = .iAck := by decide

/-- P2 step 12. -/
theorem test_isrAck :
    let t := after .isrAck (liveIsr { pc := .iAck, s := 1 })
    t.csr.isrWord = 0 ∧ t.csr.irqLine = false ∧ t.ret = .isr .handled ∧ t.isr.pc = .iIdle := by decide

/-- P2 step 1, and WT-6: not fully initialized. -/
theorem test_waitEnter :
    (callerAfter .waitEnter (liveBy {})).pc = .cWreg ∧ (callerAfter .waitEnter (liveBy {})).tarmed = true
      ∧ (after .waitEnter { liveBy {} with lc := { (liveBy {}).lc with phase := .stopped } }).faultSet = [.uninit] := by decide

/-- P2 step 2. -/
theorem test_waitRegister :
    (after .waitRegister (liveBy { pc := .cWreg, tarmed := true })).queue = [0]
      ∧ (callerAfter .waitRegister (liveBy { pc := .cWreg, tarmed := true })).pc = .cPoll 0 .wait := by decide

/-- WT-2 and WT-3: row 44 is vertical blank, row 45 is not and the signal is taken. -/
theorem test_waitCheck_decides :
    let c := callerAfter .waitCheck (liveBy { pc := .cDecide, coord := { row := 44 }, sig := true, texp := true, queued := true })
    let d := callerAfter .waitCheck (liveBy { pc := .cDecide, coord := { row := 45 }, sig := true, texp := true, queued := true })
    c.outcome = .ok ∧ c.sig = true ∧ d.outcome = .eIntr ∧ d.sig = false ∧ d.queued = false := by decide

/-- WT-4 and WT-5. -/
theorem test_waitCheck_timeout_sleep :
    (callerAfter .waitCheck (liveBy { pc := .cDecide, coord := { row := 45 }, texp := true, queued := true })).outcome = .eTimedout
      ∧ (callerAfter .waitCheck (liveBy { pc := .cDecide, coord := { row := 524 }, queued := true })).pc = .cSleep := by decide

/-- WT-8 and WT-7. -/
theorem test_waitSleep :
    (callerAfter .waitSleep (liveBy { pc := .cSleep, queued := true, woken := true })).pc = .cPoll 0 .wait
      ∧ (callerAfter .waitSleep (liveBy { pc := .cSleep, queued := true, woken := true })).woken = false
      ∧ (after .waitSleep (liveBy { pc := .cSleep, queued := true })).ret = .held := by decide

/-- WT-9 and WT-10. -/
theorem test_timerExpire :
    (callerAfter .timerExpire { liveBy { pc := .cSleep, tarmed := true } with agent := .timer 0 }).texp = true
      ∧ (after .timerExpire { liveBy {} with agent := .timer 0 }).ret = .held := by decide

/-- WT-12 and WT-11. -/
theorem test_signalDeliver :
    (callerAfter .signalDeliver { liveBy {} with agent := .signal 0 }).sig = true
      ∧ (after .signalDeliver { liveBy { sig := true } with agent := .signal 0 }).ret = .held := by decide

/-- P1 step 1, and S10: a failed mapping. -/
theorem test_lcMap :
    (after .lcMap { State.reset with tape := [0, 7] }).lc
        = { L := .registersMapped, res := { handle := true, regs := true }, regBase := 7 }
      ∧ (after .lcMap { State.reset with tape := [2] }).lc = { aborting := some .eUnavail } := by decide

/-- LC-2 and LC-10: out of state, and a new handle after a detach. -/
theorem test_lcMap_state :
    (after .lcMap (live .lifecycle)).faultSet = [.lifecycle]
      ∧ (after .lcMap { attachAt .detached with buf := { st := .retired }, tape := [0, 7] }).oldBufs = [{ st := .retired }] := by
  decide

/-- P1 step 2 with `bus = 0x1F000000`; LC-7. -/
theorem test_lcAllocBuf :
    (after .lcAllocBuf { attachAt .registersMapped with buf := {}, tape := [0, 5, 0x7C00000] }).buf
        = { st := .allocated, cpu := 20, bus := 0x1F000000 }
      ∧ (after .lcAllocBuf { attachAt .registersMapped with
          lc := { L := .registersMapped, aborting := some .eNomem } }).faultSet = [.lifecycle] := by decide

/-- P1 step 3, and P5 step 3. -/
theorem test_lcAllocPal :
    (after .lcAllocPal { attachAt .bufferAllocated with tape := [0] }).lc.L = .paletteAllocated
      ∧ (after .lcAllocPal { attachAt .bufferAllocated with tape := [1] }).lc
        = { L := .bufferAllocated, res := { handle := true, regs := true, buf := true }, aborting := some .eNomem } := by decide

/-- P1 step 4, and S10. -/
theorem test_lcInstallIsr :
    (after .lcInstallIsr { attachAt .paletteAllocated with tape := [0] }).lc.res.irq = true
      ∧ (after .lcInstallIsr { attachAt .paletteAllocated with tape := [1] }).lc.aborting = some .eUnavail := by decide

/-- P1 step 5, and S10: the write of `BUF` stays where the registration fails. -/
theorem test_lcPublish :
    let s := { attachAt .interruptArmed with csr := {}, buf := { st := .allocated, bus := 0x1F000000 } }
    (after .lcPublish { s with tape := [0] }).buf.st = .programmed
      ∧ (after .lcPublish { s with tape := [0] }).lc.L = .published
      ∧ (after .lcPublish { s with tape := [1] }).csr.buf = some 0x1F000000
      ∧ (after .lcPublish { s with tape := [1] }).lc.aborting = some .eNomem := by decide

/-- P1 step 6. -/
theorem test_lcEnableIrq :
    let t := after .lcEnableIrq { attachAt .published with csr := {} }
    t.history = [.csr .lifecycle 4 .write 1, .csr .lifecycle 8 .write 1, .ret .lifecycle (.code .ok)] ∧ t.csr.gieEnable = true ∧ t.csr.frameEn = true := by
  decide

/-- P1 step 7, and LC-1. -/
theorem test_lcStart :
    let t := after .lcStart { attachAt .published with
      lc := { (attachAt .published).lc with irqEnabled := true }, dev := {}, tape := [524, 799, 5] }
    t.dev = { run := .running, row := 524, col := 799, frame := 5 } ∧ t.fullyInit = true
      ∧ (after .lcStart (attachAt .published)).faultSet = [.lifecycle] := by decide

/-- P5 step 4, and LC-6. -/
theorem test_lcAbort :
    let s := { attachAt .bufferAllocated with lc := { (attachAt .bufferAllocated).lc with aborting := some .eNomem } }
    (after .lcAbort s).lc = {} ∧ (after .lcAbort s).buf.st = .retired ∧ (after .lcAbort s).ret = .result (.code .eNomem)
      ∧ (after .lcAbort { attachAt .interruptArmed with
          lc := { (attachAt .interruptArmed).lc with aborting := some .eNomem }, isr := { pc := .iStatus } }).ret = .held := by decide

/-- P4 step 1, and LC-4. -/
theorem test_lcDetachStop :
    let t := after .lcDetachStop (live .lifecycle)
    t.dev.run = .stopping ∧ t.lc.phase = .stopped ∧ t.history = [.csr .lifecycle 0 .write 0, .ret .lifecycle (.code .ok)]
      ∧ (after .lcDetachStop { live .lifecycle with callers := [{ pc := .cSleep, queued := true }] }).faultSet = [.detachInUse] := by
  decide

/-- P4 step 2. -/
theorem test_lcDetachDisable :
    let t := after .lcDetachDisable { live .lifecycle with lc := { (live .lifecycle).lc with phase := .stopped } }
    t.csr.gieEnable = false ∧ t.csr.ierWord = 0 ∧ t.lc.phase = .disabled ∧ t.lc.irqEnabled = false := by decide

/-- LC-9, and LC-8. -/
theorem test_lcDetachRelease :
    let s := { live .lifecycle with lc := { (live .lifecycle).lc with phase := .disabled, irqEnabled := false } }
    (after .lcDetachRelease s).lc = { L := .detached } ∧ (after .lcDetachRelease s).buf.st = .retired
      ∧ (after .lcDetachRelease { s with callers := [mappedWith [{ off := 0, bytes := [1] }]] }).ret = .held := by decide

/-- DEV-7: the last visible word, the wrap, the cause, and the frame id drawn. -/
theorem test_devAdvance_wrap :
    let t := after .devAdvance { scanAt 524 799 with tape := [0, 0, 0, 0, 6] }
    t.history = [.scanout 0x1F12BFFC] ∧ t.dev.row = 0 ∧ t.dev.col = 0 ∧ t.dev.frame = 6 ∧ t.csr.isrFrame = true := by decide

/-- DEV-5 and DEV-2: the address of (46, 160), and no read at (45, 159); CSR-25: another address inside the live buffer, and the fault
R376 has there. -/
theorem test_devAdvance_addresses :
    (after .devAdvance { scanAt 46 160 with tape := [0, 0, 0, 0] }).history = [.scanout 0x1F000A00]
      ∧ (after .devAdvance (scanAt 45 159)).history = [] ∧ (after .devAdvance (scanAt 45 159)).dev.col = 160
      ∧ (let s := { scanAt 45 160 with csr := { buf := some 0x1F001000 }, tape := [0, 0, 0, 0] }
        (after .devAdvance s).history = [.scanout 0x1F001000]
          ∧ (after .devAdvance { s with params := { bufMustBeBus := true } }).faultSet = [.dmaNotLive]) := by decide

/-- 95_test_vectors.md section 2.7: a latch at frame 1, (44, 159); DEV-13. -/
theorem test_devLatch :
    (after .devLatch { scanAt 44 159 with dev := { run := .running, row := 44, col := 159, frame := 1 } }).csr.coordData
        = some 0x0010B09F
      ∧ (after .devLatch { live .device with dev := {} }).ret = .held := by decide

/-- FB-1 and FB-2: bytes from memory, clipped at the end of the buffer. -/
theorem test_fbRead :
    let m := { liveBy {} with buf := { st := .programmed, bus := 0x1F000000, mem := [(0, 0x44), (1, 0x33), (2, 0x22), (3, 0xAA)] } }
    (after .fbRead { m with opnd := { n := 4 } }).ret = .result (.bytes [0x44, 0x33, 0x22, 0xAA])
      ∧ (after .fbRead { m with opnd := { off := 0x12BFFE, n := 8 }, tape := [1, 2] }).ret = .result (.bytes [1, 2]) := by decide

/-- FB-5, FB-6 and FB-7. -/
theorem test_fbWrite :
    let s := { liveBy {} with opnd := { off := 0x12BFFE, bytes := [1, 2, 3] } }
    (after .fbWrite s).ret = .result (.count 2)
      ∧ (callerAfter .fbWrite s).wc = [{ off := 0x12BFFE, bytes := [1] }, { off := 0x12BFFF, bytes := [2] }]
      ∧ (after .fbWrite { liveBy {} with opnd := { off := 0x12C000, bytes := [1] } }).ret = .result (.code .eNospc)
      ∧ (after .fbWrite { liveBy {} with opnd := { off := 0x12C000 } }).ret = .result (.count 0) := by decide

/-- S2: the whole buffer, and one byte more. -/
theorem test_fbMmap :
    (callerAfter .fbMmap { liveBy {} with opnd := { len := 1228800 } }).mapped = true
      ∧ (callerAfter .fbMmap { liveBy {} with opnd := { len := 1228801 } }).outcome = .eInval := by decide

/-- FB-11 and FB-14. -/
theorem test_fbCheckVar :
    let v : Var := { xres := 640, yres := 480, bitsPerPixel := 32 }
    (after .fbCheckVar { liveBy {} with opnd := { var := v } }).ret
        = .result (.geometry { v with xresVirtual := 640, yresVirtual := 480 })
      ∧ (after .fbCheckVar { liveBy {} with opnd := { var := { v with xresVirtual := 640, yresVirtual := 960 } } }).ret
        = .result (.code .eInval) := by decide

/-- FB-17 and FB-18: the last entry is written, index 16 is refused. -/
theorem test_fbSetcolreg :
    (after (.fbSetcolreg 15) { liveBy {} with opnd := { red := 1, green := 2, blue := 3 } }).pal[15]?
        = some (some (Config.packColor 1 2 3 0))
      ∧ (after (.fbSetcolreg 16) (liveBy {})).ret = .result (.code .eInval) := ⟨rfl, by decide⟩

/-- P6 step 1. -/
theorem test_qFramepos :
    (callerAfter .qFramepos { liveBy {} with opnd := { dstOk := true } }).pc = .cPoll 0 .framePos
      ∧ (callerAfter .qFramepos { liveBy {} with opnd := { dstOk := true } }).dstOk = true := by decide

/-- AR-7, and an operation word run as the first step after reset. -/
theorem test_step_from_reset :
    (∃ t, step (State.reset.withFetchWord 16 0x3200) = .next t)
      ∧ step { State.reset with sched := [{ agent := .caller 0, word := 0x6000 }] } = .refused .wrongAgent := ⟨⟨_, rfl⟩, rfl⟩


/-! ## Witnesses: every statement's hypotheses are met -/

/-- The state of a scheduled latch. -/
def scheduled : State := { live .device with sched := [{ agent := .device, word := 0x7100 }] }

theorem witness_StepRunsTheScheduledOperation :
    scheduled.sched = { agent := .device, word := 0x7100 } :: [] ∧ decode 0x7100 = some .devLatch
      ∧ Instr.issuedBy .devLatch .device = true := by decide

/-- A reserved word, a lifecycle operation of a caller (AR-4, AR-7), and the same before a meaning. -/
theorem witness_WrongWordsAndAgentsAreRefused :
    decode 0xF123 = none ∧ (decode 0x6000 = some .lcMap ∧ Instr.issuedBy .lcMap (.caller 0) = false)
      ∧ (Instr.wf .lcMap = true ∧ Instr.issuedBy .lcMap (liveBy {}).agent = false) := by decide

/-- Hardware that is not faithful, with an interrupt pending and a coordinate published. -/
def unfaithfulLive : State :=
  { live .lifecycle with params := { hwFaithful := false }, csr := { (live .lifecycle).csr with isrFrame := true, valid := true } }

/-- The simulated register block, one word of it written. -/
def simLive : State := { live .lifecycle with params := { simRegs := true }, sim := [(0x10, 0xABCD)] }

/-- The lifecycle agent at the first offset, on faithful hardware and on hardware that is not, and a caller at the last one. -/
theorem witness_CsrReadReturnsTheRegister :
    ((live .lifecycle).CsrReady ∧ (live .lifecycle).CsrMaster ∧ (live .lifecycle).LegalOffset 0)
      ∧ (unfaithfulLive.CsrReady ∧ unfaithfulLive.CsrMaster ∧ unfaithfulLive.LegalOffset 0 ∧ unfaithfulLive.params.hwFaithful = false)
      ∧ ((liveBy {}).CsrReady ∧ (liveBy {}).CsrMaster ∧ (liveBy {}).LegalOffset 0x1C) :=
  ⟨⟨by decide, .inl (by decide), by decide⟩, ⟨by decide, .inl (by decide), by decide, rfl⟩,
    ⟨by decide, .inr ⟨0, {}, by decide, rfl⟩, by decide⟩⟩

/-- An offset just out of the block and an unaligned one; an unmapped block; a caller's write. -/
theorem witness_CsrChecksFaultInOrder :
    ((live .lifecycle).CsrMaster ∧ ¬ (live .lifecycle).LegalOffset 0x20 ∧ ¬ (live .lifecycle).LegalOffset 0x02)
      ∧ (State.reset.CsrMaster ∧ State.reset.LegalOffset 0x1C ∧ State.reset.lc.res.regs = false)
      ∧ ((liveBy {}).CsrMaster ∧ (liveBy {}).LegalOffset 0x1C ∧ (liveBy {}).lc.res.regs = true
          ∧ ∃ k, (liveBy {}).agent = .caller k) :=
  ⟨⟨.inl (by decide), by decide, by decide⟩, ⟨.inl (by decide), by decide, rfl⟩,
    ⟨.inr ⟨0, {}, by decide, rfl⟩, by decide, rfl, 0, rfl⟩⟩

/-- An idle engine that is started, and a running one. -/
theorem witness_CtrlWriteStartsAndStops :
    let s := { live .lifecycle with dev := {}, opnd := { v := 0x81 } }
    (s.CsrReady ∧ s.params.wf = true ∧ s.ByLifecycle ∧ (0 : BitVec 8).toNat = s.params.regMap.ctrl
        ∧ s.dev.run = .idle ∧ s.opnd.v.getLsbD 0 = true)
      ∧ ((live .lifecycle).CsrReady ∧ (live .lifecycle).params.wf = true ∧ (live .lifecycle).ByLifecycle
        ∧ (live .lifecycle).dev.run = .running) := by decide

/-- Every register that the statement's cases name, at its offset. -/
theorem witness_RegisterWritesStoreTheirBits :
    (live .lifecycle).CsrReady ∧ (live .lifecycle).ByLifecycle
      ∧ ∀ p ∈ [((0x04 : BitVec 8), CsrReg.gie), (0x08, .ier), (0x0C, .isr), (0x10, .buf), (0x14, .reserved), (0x18, .coordData),
          (0x1C, .coordCtrl)],
        (live .lifecycle).LegalOffset p.1 ∧ regAt (live .lifecycle).params.regMap p.1.toNat = p.2 := by decide

theorem witness_SimulatedBlockStoresWords :
    let s := { live .lifecycle with params := { simRegs := true } }
    s.params.simRegs = true ∧ s.lc.res.regs = true ∧ s.LegalOffset 0x0C ∧ s.ByLifecycle ∧ s.CsrMaster :=
  ⟨rfl, rfl, by decide, by decide, .inl (by decide)⟩

/-- A word that differs from CTRL's stored one in its drawn bits; on hardware that is not faithful, a word of ISR and one of CTRL that no
read of faithful hardware returns; in the simulated block, a word written and an offset that holds none; the last bytes of the buffer, one of an own pending write and the others
any byte, for a load of each width and a read that is clipped. -/
theorem witness_DrawsReachEveryReadValue :
    ((live .lifecycle).lc.res.regs = true ∧ (live .lifecycle).CsrMaster ∧ (live .lifecycle).LegalOffset 0
        ∧ CanReadAs (live .lifecycle) 0 0x8B)
      ∧ (unfaithfulLive.lc.res.regs = true ∧ unfaithfulLive.CsrMaster ∧ unfaithfulLive.LegalOffset 0 ∧ unfaithfulLive.LegalOffset 0x0C
        ∧ CanReadAs unfaithfulLive 0 0xFFFFFFFB ∧ CanReadAs unfaithfulLive 0x0C 0xFFFFFFFE)
      ∧ (simLive.lc.res.regs = true ∧ simLive.CsrMaster ∧ simLive.LegalOffset 0x10 ∧ simLive.LegalOffset 0x14
        ∧ CanReadAs simLive 0x10 0xABCD ∧ CanReadAs simLive 0x14 0x12345678)
      ∧ ∀ p ∈ [((0 : BitVec 2), 0x12BFFF, [(7 : Byte)]), (1, 0x12BFFE, [9, 7]), (2, 0x12BFFC, [1, 2, 9, 7])],
        let c := mappedWith [{ off := 0x12BFFF, bytes := [7] }]
        let s := { liveBy c with opnd := { off := p.2.1, n := 5 } }
        s.ByCaller 0 c ∧ c.pc = .cIdle ∧ (∀ q ∈ p.2.2.zipIdx, AllowedByte s c (s.opnd.off + q.2) q.1)
          ∧ p.1 ≠ 3 ∧ c.mapped = true ∧ s.buf.live = true ∧ s.opnd.off % widthBytes p.1 = 0
          ∧ s.opnd.off + widthBytes p.1 ≤ fbSize ∧ p.2.2.length = widthBytes p.1
          ∧ s.fullyInit = true ∧ p.2.2.length = min s.opnd.n (fbSize - s.opnd.off) :=
  ⟨⟨rfl, .inl (by decide), by decide, by decide, by decide, by decide, by decide, fun b hb =>
      if h : b < 32 then
        (by decide : ∀ b : Fin 32, b.val ∉ [0, 1, 2, 3, 7, 9] → (0x8B : Word).getLsbD b.val = false) ⟨b, h⟩ hb
      else BitVec.getLsbD_of_ge _ _ (by omega)⟩,
    ⟨rfl, .inl (by decide), by decide, by decide, ⟨by decide, by decide, by decide⟩, trivial⟩,
    ⟨rfl, .inl (by decide), by decide, by decide, fun v hv => Option.some.inj hv, fun v hv => by cases hv⟩, by decide⟩

/-- The last word of the buffer, and the word after it. -/
theorem witness_BufLoadReturnsAllowedBytes :
    let c := mappedWith []
    let s := { liveBy c with opnd := { off := 0x12BFFC } }
    let s' := { liveBy c with opnd := { off := 0x12C000 } }
    (2 : BitVec 2) ≠ 3 ∧ (s.ByCaller 0 c ∧ c.pc = .cIdle ∧ c.mapped = true ∧ s.buf.live = true
        ∧ s.opnd.off % widthBytes 2 = 0 ∧ s.opnd.off + widthBytes 2 ≤ fbSize)
      ∧ (s'.ByCaller 0 c ∧ ¬ (s'.opnd.off + widthBytes 2 ≤ fbSize)) := by decide

/-- The last byte of the buffer, and a misaligned halfword. -/
theorem witness_BufStoreAppendsToTheWritePath :
    let c := mappedWith []
    let s := { liveBy c with opnd := { off := 0x12BFFF } }
    (s.ByCaller 0 c ∧ c.pc = .cIdle ∧ c.mapped = true ∧ s.buf.live = true ∧ s.opnd.off % widthBytes 0 = 0
        ∧ s.opnd.off + widthBytes 0 ≤ fbSize)
      ∧ ¬ (s.opnd.off % widthBytes 1 = 0) := by decide

/-- Nothing pending, and two entries. -/
theorem witness_DrainWritesAnAllowedSet :
    let c := mappedWith [{ off := 0, bytes := [1] }, { off := 0, bytes := [2] }]
    ({ liveBy {} with agent := .wcDrain 0 }.agent = .wcDrain 0 ∧ { liveBy {} with agent := .wcDrain 0 }.callers[0]? = some ({} : Caller) ∧ ({} : Caller).wc = [])
      ∧ ({ liveBy c with agent := .wcDrain 0 }.agent = .wcDrain 0 ∧ { liveBy c with agent := .wcDrain 0 }.callers[0]? = some c
        ∧ c.wc ≠ []) := by decide

/-- BUF-10: the later of two disjoint entries alone. -/
theorem witness_DrainMayTakeEveryAllowedSet :
    let wc : List WcEntry := [{ off := 0, bytes := [1, 2, 3, 4] }, { off := 8, bytes := [5, 6, 7, 8] }]
    { liveBy (mappedWith wc) with agent := .wcDrain 0 }.callers[0]? = some (mappedWith wc)
      ∧ DrainSet wc [(false, { off := 0, bytes := [1, 2, 3, 4] }), (true, { off := 8, bytes := [5, 6, 7, 8] })] := by
  refine ⟨rfl, rfl, by decide, ?_⟩
  simp only [List.pairwise_cons, List.mem_singleton, List.not_mem_nil, IsEmpty.forall_iff, implies_true, List.Pairwise.nil, and_true,
    forall_eq, WcEntry.covers, Bool.and_eq_true, decide_eq_true_eq, List.length_cons, List.length_nil]
  omega

/-- P7: the word 0x11223344 in memory, at the first and the last word of the buffer, and a caller with nothing pending. -/
theorem witness_MixedWidthAccessIsLittleEndian :
    ({} : Caller).wc = []
      ∧ ∀ off ∈ [0, 0x12BFFC], let m : Memory := [(off, 0x44), (off + 1, 0x33), (off + 2, 0x22), (off + 3, 0x11)]
        (∀ j, j < 4 → m.read (off + j) = some ((0x11223344 : Word).extractLsb' (8 * j) 8))
          ∧ { State.reset with buf := { mem := drainInto m [{ off := off + 3, bytes := [0xAA] }] } }.buf.mem
            = drainInto m [{ off := off + 3, bytes := [0xAA] }]
          ∧ { State.reset with buf := { mem := drainInto m [{ off, bytes := bytesOf 4 0x11223344 }] } }.buf.mem
            = drainInto m [{ off, bytes := bytesOf 4 0x11223344 }] := by decide

theorem witness_OnlyDrainsAndNewBuffersChangeMemory :
    ∃ t, exec .devLatch (live .device) = .next t ∧ Instr.devLatch ≠ .wcDrain ∧ Instr.devLatch ≠ .lcAllocBuf ∧ Instr.devLatch ≠ .lcMap :=
  ⟨_, rfl, by decide⟩

/-- `VALID` set, a poll below the bound of 2, and the poll that reaches it. -/
theorem witness_CoordPollFollowsValid :
    let c : Caller := { pc := .cPoll 0 .framePos }
    let d : Caller := { pc := .cPoll 1 .wait, queued := true, tarmed := true }
    let s := { liveBy c with csr := { (liveBy c).csr with valid := true } }
    (s.CsrReady ∧ s.ByCaller 0 c ∧ c.pc = .cPoll 0 .framePos ∧ s.csr.valid = true)
      ∧ ((liveBy c).CsrReady ∧ (liveBy c).ByCaller 0 c ∧ (liveBy c).csr.valid = false
        ∧ pollAbove (liveBy c).params.pollMax (0 + 1) = true)
      ∧ ((liveBy d).CsrReady ∧ (liveBy d).ByCaller 0 d ∧ d.pc = .cPoll 1 .wait ∧ (liveBy d).csr.valid = false
        ∧ pollAbove (liveBy d).params.pollMax (1 + 1) = false) := by decide

/-- A wait, and a query with each destination. -/
theorem witness_CoordReadDecodesTheWord :
    ∀ c ∈ [({ pc := .cData .wait, queued := true } : Caller), { pc := .cData .framePos, dstOk := true }, { pc := .cData .framePos }],
      (liveBy c).CsrReady ∧ (liveBy c).ByCaller 0 c ∧ (c.pc = .cData .wait ∨ c.pc = .cData .framePos) := by decide

/-- An idle caller of a fully initialized handle, as the statements on classification, consumer operations and WAIT_ENTER take. -/
theorem witness_ClassifyComparesWithTheThresholds : (liveBy {}).ByCaller 0 {} ∧ ({} : Caller).pc = .cIdle := by decide

theorem witness_DeliveryEntersTheInstalledIdleIsr :
    ((live .platform).agent = .platform ∧ (live .platform).lc.res.irq = true ∧ (live .platform).isr.pc = .iIdle)
      ∧ (let s := { live .platform with isr := { pc := .iCheck } }
        s.agent = .platform ∧ ¬ (s.lc.res.irq = true ∧ s.isr.pc = .iIdle)) := by decide

/-- The line high, and the line low. -/
theorem witness_IsrCheckAnswersForThisDevice :
    let s := { liveIsr { pc := .iCheck } with csr := (live .isr).csr }
    ((liveIsr { pc := .iCheck }).CsrReady ∧ (liveIsr { pc := .iCheck }).agent = .isr ∧ (liveIsr { pc := .iCheck }).isr.pc = .iCheck
        ∧ (liveIsr { pc := .iCheck }).csr.irqLine = true)
      ∧ (s.CsrReady ∧ s.agent = .isr ∧ s.isr.pc = .iCheck ∧ s.csr.irqLine = false) := by decide

/-- A set cause on faithful hardware, and a status register that reads 0 (ISR-5). -/
theorem witness_IsrStatusClassifiesTheCause :
    let s := liveIsr { pc := .iStatus }
    let s' := { live .isr with isr := { pc := .iStatus } }
    (s.params.regMap.wf = true ∧ s.lc.res.regs = true ∧ s.params.simRegs = false ∧ s.agent = .isr ∧ s.isr.pc = .iStatus
        ∧ s.params.hwFaithful = true ∧ (after .isrStatus s).isr.s = 1)
      ∧ (s'.params.regMap.wf = true ∧ s'.lc.res.regs = true ∧ s'.params.simRegs = false ∧ s'.agent = .isr ∧ s'.isr.pc = .iStatus
        ∧ (after .isrStatus s').isr.pc = .iStuck) := by decide

theorem witness_IsrWakeWakesEveryQueuedCaller :
    (liveIsr { pc := .iWake, s := 1 }).agent = .isr ∧ (liveIsr { pc := .iWake, s := 1 }).isr.pc = .iWake := by decide

theorem witness_IsrAckClearsWhatWasRead :
    (liveIsr { pc := .iAck, s := 1 }).CsrReady ∧ (liveIsr { pc := .iAck, s := 1 }).agent = .isr
      ∧ (liveIsr { pc := .iAck, s := 1 }).isr.pc = .iAck := by decide

/-- At the status read, and at the acknowledge. -/
theorem witness_FaithfulCauseIsHeldForTheIsr :
    let s := liveIsr { pc := .iStatus }
    let s' := liveIsr { pc := .iAck, s := 1 }
    (s.params.regMap.wf = true ∧ s.Faithful ∧ s.CauseHeld ∧ ∃ t, exec .isrStatus s = .next t)
      ∧ (s'.params.regMap.wf = true ∧ s'.Faithful ∧ s'.CauseHeld ∧ ∃ t, exec .isrAck s' = .next t)
      ∧ (∀ off, Instr.isrStatus ≠ .csrWrite off) ∧ ∀ off, Instr.isrAck ≠ .csrWrite off :=
  ⟨⟨by decide, by decide, by decide, _, rfl⟩, ⟨by decide, by decide, by decide, _, rfl⟩, by simp, by simp⟩

theorem witness_WaitsAndQueriesBegin :
    (liveBy {}).ByCaller 0 {} ∧ ({} : Caller).pc = .cIdle ∧ (liveBy {}).fullyInit = true := by decide

/-- Rows 44 and 45 with a signal, an expiry, and neither. -/
theorem witness_WaitCheckDecidesInOrder :
    ∀ c ∈ [({ pc := .cDecide, coord := { row := 44 }, sig := true } : Caller), { pc := .cDecide, coord := { row := 45 }, sig := true },
        { pc := .cDecide, coord := { row := 45 }, texp := true }, { pc := .cDecide, coord := { row := 524 } }],
      (liveBy c).ByCaller 0 c ∧ c.pc = .cDecide := by decide

theorem witness_RegisterAndWakeLeadToAPoll :
    (∀ c ∈ [({ pc := .cWreg, tarmed := true } : Caller), { pc := .cSleep, queued := true, woken := true },
        { pc := .cSleep, queued := true }], (liveBy c).ByCaller 0 c)
      ∧ ({ pc := .cSleep, queued := true, woken := true } : Caller).woken = true := by decide

/-- Each enabled and each waiting case; the timed refinement exactly when its timeout has elapsed, and one millisecond before. -/
theorem witness_TimersExpireAndSignalsBecomePending :
    (∀ c ∈ [({} : Caller), { sig := true }], { liveBy c with agent := .signal 0 }.callers[0]? = some c)
      ∧ (let c : Caller := { pc := .cSleep, queued := true, tarmed := true, timeout := 20, entered := 5 }
        let s := { liveBy c with agent := .timer 0, params := { timed := true }, clock := 25 }
        let s' := { s with clock := 24 }
        (s.callers[0]? = some c ∧ s.agent = .timer 0 ∧ c.tarmed = true ∧ c.texp = false
            ∧ (s.params.timed = true → c.entered + c.timeout ≤ s.clock))
          ∧ (s'.callers[0]? = some c ∧ s'.agent = .timer 0 ∧ s'.params.timed = true ∧ ¬ c.entered + c.timeout ≤ s'.clock)) := by
  decide

theorem witness_OtherAgentsNeverLoseAWakeup :
    let c : Caller := { pc := .cDecide, queued := true }
    let s := { liveIsr { pc := .iWake, s := 1 } with callers := [c] }
    (∃ t, exec .isrWake s = .next t) ∧ s.agent ≠ .caller 0 ∧ s.callers[0]? = some c := ⟨⟨_, rfl⟩, by decide, rfl⟩

/-- A first attach, and one after a detach. -/
theorem witness_MapHoldsTheRegistersOrFails :
    (State.reset.ByLifecycle ∧ lcAdmitted State.reset .lcMap = true)
      ∧ ((attachAt .detached).ByLifecycle ∧ lcAdmitted (attachAt .detached) .lcMap = true) := by decide

theorem witness_AllocBufGivesALawfulBufferOrFails :
    (attachAt .registersMapped).ByLifecycle ∧ lcAdmitted (attachAt .registersMapped) .lcAllocBuf = true := by decide

theorem witness_AllocPalAndInstallIsrHoldOrFail :
    ((attachAt .bufferAllocated).ByLifecycle ∧ lcAdmitted (attachAt .bufferAllocated) .lcAllocPal = true)
      ∧ ((attachAt .paletteAllocated).ByLifecycle ∧ lcAdmitted (attachAt .paletteAllocated) .lcInstallIsr = true) := by decide

theorem witness_PublishWritesBufThenRegisters :
    (attachAt .interruptArmed).CsrReady ∧ (attachAt .interruptArmed).ByLifecycle
      ∧ lcAdmitted (attachAt .interruptArmed) .lcPublish = true := by decide

theorem witness_EnableAndDisableWriteBothEnables :
    let s := { live .lifecycle with lc := { (live .lifecycle).lc with phase := .stopped } }
    ((attachAt .published).CsrReady ∧ (attachAt .published).ByLifecycle ∧ lcAdmitted (attachAt .published) .lcEnableIrq = true)
      ∧ (s.CsrReady ∧ s.ByLifecycle ∧ lcAdmitted s .lcDetachDisable = true) := by decide

/-- An idle engine, and one still finishing a frame (R463). -/
theorem witness_StartRunsTheDevice :
    let s := { attachAt .published with lc := { (attachAt .published).lc with irqEnabled := true }, dev := {} }
    let s' := { s with dev := { run := .stopping } }
    (s.CsrReady ∧ s.params.wf = true ∧ s.ByLifecycle ∧ lcAdmitted s .lcStart = true ∧ s.dev.run = .idle)
      ∧ (s'.CsrReady ∧ s'.params.wf = true ∧ s'.ByLifecycle ∧ lcAdmitted s' .lcStart = true ∧ s'.dev.run ≠ .idle) := by decide

/-- An attach that failed with the ISR installed: the ISR idle, and the ISR running. -/
theorem witness_AbortReleasesEverything :
    let s := { attachAt .interruptArmed with lc := { (attachAt .interruptArmed).lc with aborting := some .eNomem } }
    let s' := { s with isr := { pc := .iStatus } }
    (s.ByLifecycle ∧ s.lc.aborting = some .eNomem ∧ (s.lc.res.irq = false ∨ s.isr.pc = .iIdle))
      ∧ (s'.ByLifecycle ∧ s'.lc.aborting = some .eNomem ∧ s'.lc.res.irq = true ∧ s'.isr.pc ≠ .iIdle) := by decide

/-- No use of the handle, and a caller in the middle of a query (LC-5). -/
theorem witness_DetachStopStopsTheDevice :
    let s := live .lifecycle
    let s' := { s with callers := [{ pc := .cPoll 0 .framePos }] }
    (s.ByLifecycle ∧ lcAdmitted s .lcDetachStop = true ∧ s.CsrReady ∧ ∀ c ∈ s.callers, c.queued = false ∧ c.pc = .cIdle)
      ∧ (s'.ByLifecycle ∧ lcAdmitted s' .lcDetachStop = true ∧ ∃ c ∈ s'.callers, c.queued = true ∨ c.pc ≠ .cIdle) := by decide

/-- Nothing pending, and a pending pixel write (LC-8). -/
theorem witness_DetachReleaseReleasesEverything :
    let s := { live .lifecycle with lc := { (live .lifecycle).lc with phase := .disabled } }
    let s' := { s with callers := [mappedWith [{ off := 0, bytes := [1] }]] }
    (s.ByLifecycle ∧ lcAdmitted s .lcDetachRelease = true ∧ s.isr.pc = .iIdle ∧ ∀ c ∈ s.callers, c.wc = [])
      ∧ (s'.ByLifecycle ∧ lcAdmitted s' .lcDetachRelease = true ∧ ¬ (s'.isr.pc = .iIdle ∧ ∀ c ∈ s'.callers, c.wc = [])) := by
  decide

theorem witness_LifecycleOutOfStateFaults :
    Instr.issuedBy .lcMap .lifecycle = true ∧ (∀ off, Instr.lcMap ≠ .csrRead off ∧ Instr.lcMap ≠ .csrWrite off)
      ∧ (live .lifecycle).ByLifecycle ∧ lcAdmitted (live .lifecycle) .lcMap = false :=
  ⟨rfl, by simp, by decide, rfl⟩

/-- Every attach step where it is admitted, with the register block held at LC_PUBLISH; a lawful address, and the last position of
the raster (every base of the register block is free). -/
theorem witness_AttachDrawsReachEveryOutcome :
    (∀ p ∈ [(LcState.unattached, Instr.lcMap), (.registersMapped, .lcAllocBuf), (.bufferAllocated, .lcAllocPal),
          (.paletteAllocated, .lcInstallIsr), (.interruptArmed, .lcPublish)],
        (attachAt p.1).ByLifecycle ∧ lcAdmitted (attachAt p.1) p.2 = true ∧ (p.2 = .lcPublish → (attachAt p.1).CsrReady))
      ∧ (20 % 4 = 0 ∧ (0xFFED4000 : Word).toNat % 4 = 0 ∧ (0xFFED4000 : Word).toNat + fbSize ≤ 2 ^ 32)
      ∧ (let s := { attachAt .published with lc := { (attachAt .published).lc with irqEnabled := true }, dev := {} }
        s.ByLifecycle ∧ s.CsrReady ∧ lcAdmitted s .lcStart = true ∧ s.dev.run = .idle ∧ 524 < s.params.vTotal
          ∧ 799 < s.params.hTotal) := by decide

/-- The last position before a line's visible part, the ends of a line and of a frame, the first and last visible positions, a
base of `BUF` that leaves the live buffer by one word, no base, another base inside the live buffer on each machine, and a frame
boundary whose id is drawn, at a visible position and at a raster that has none. -/
theorem witness_AdvanceScansOnePosition :
    (∀ p ∈ [(44, 799), (45, 159), (524, 0), (45, 160), (524, 799)], (scanAt p.1 p.2).ByScanner ∧ (scanAt p.1 p.2).ScanInRange)
      ∧ (let s := scanAt 524 799
        let b : Word := 0x1F000000 + BitVec.ofNat 32 (4 * ((s.dev.row - 45) * 640 + (s.dev.col - 160)))
        s.csr.buf = some 0x1F000000 ∧ s.buf.live = true ∧ s.buf.bus.toNat ≤ b.toNat
          ∧ b.toNat + 4 ≤ s.buf.bus.toNat + fbSize ∧ ¬ b.toNat + 4 + 4 ≤ s.buf.bus.toNat + fbSize)
      ∧ (let s := { scanAt 45 160 with csr := {} }
        s.ByScanner ∧ s.ScanInRange ∧ 45 ≤ s.dev.row ∧ 160 ≤ s.dev.col ∧ s.csr.buf = none)
      ∧ (∀ strict ∈ [false, true],
        let s := { scanAt 45 160 with csr := { buf := some 0x1F001000 }, params := { bufMustBeBus := strict } }
        s.ByScanner ∧ s.ScanInRange ∧ s.csr.buf = some 0x1F001000
          ∧ ((s.params.bufMustBeBus = true → (0x1F001000 : Word) = s.buf.bus) ↔ strict = false))
      ∧ ∀ p ∈ [(525, 800), (45, 160)],
        let s := { scanAt (p.1 - 1) (p.2 - 1) with params := { frameIdIncrements := false, vTotal := p.1, hTotal := p.2 } }
        s.ByScanner ∧ s.ScanInRange ∧ s.params.frameIdIncrements = false ∧ s.dev.col + 1 = s.params.hTotal
          ∧ s.dev.row + 1 = s.params.vTotal ∧ (45 ≤ s.dev.row ∧ 160 ≤ s.dev.col ↔ p = (525, 800)) := by decide

theorem witness_LatchPublishesThePosition :
    ((scanAt 44 159).agent = .device ∧ (scanAt 44 159).ByScanner)
      ∧ ({ live .device with dev := {} }.agent = .device ∧ ¬ { live .device with dev := {} }.ByScanner) := by decide

/-- The first and the last visible position. -/
theorem witness_ProgrammedScanoutNeverFaults :
    (∃ t, exec .devAdvance (scanAt 45 160) = .next t) ∧ (∃ t, exec .devAdvance (scanAt 524 799) = .next t)
      ∧ ∀ p ∈ [(45, 160), (524, 799)],
        (scanAt p.1 p.2).BusLawful ∧ (scanAt p.1 p.2).buf.st = .programmed ∧ (scanAt p.1 p.2).ScanInRange
          ∧ (scanAt p.1 p.2).params.vTotal = 525 ∧ (scanAt p.1 p.2).params.hTotal = 800 ∧ (scanAt p.1 p.2).ByScanner :=
  ⟨⟨_, rfl⟩, ⟨_, rfl⟩, by decide⟩

/-- A detach under way (WT-6), and a handle that is published but not started (FB-19). -/
theorem witness_ConsumersNeedFullInitialization :
    let s := { liveBy {} with lc := { (liveBy {}).lc with phase := .stopped } }
    let s' := { liveBy {} with lc := (attachAt .published).lc }
    (s.ByCaller 0 {} ∧ ({} : Caller).pc = .cIdle ∧ s.fullyInit = false) ∧ (s'.ByCaller 0 {} ∧ s'.fullyInit = false) := by decide

/-- Operands at the ends of each clause of the consumer operations, for an idle caller of a fully initialized handle. -/
theorem witness_FbReadReturnsClippedBytes :
    (liveBy {}).ByCaller 0 {} ∧ ({} : Caller).pc = .cIdle ∧ (liveBy {}).fullyInit = true := by decide

/-- No bytes, an offset at the end, and the last byte. -/
theorem witness_FbWriteAppendsClippedBytes :
    ∀ o ∈ [({ off := fbSize } : Operands), { off := fbSize, bytes := [1] }, { off := 0x12BFFF, bytes := [1, 2] }],
      { liveBy {} with opnd := o }.ByCaller 0 {} ∧ ({} : Caller).pc = .cIdle ∧ { liveBy {} with opnd := o }.fullyInit = true := by
  decide

/-- Lengths 1, 1228800, 0 and 1228801. -/
theorem witness_FbMmapGrantsTheBuffer :
    (∀ n ∈ [0, 1, 1228800, 1228801], { liveBy {} with opnd := { len := n } }.ByCaller 0 {}
        ∧ { liveBy {} with opnd := { len := n } }.fullyInit = true)
      ∧ ({} : Caller).pc = .cIdle := by decide

/-- The accepted geometry with virtual resolutions at and below the buffer's, and one above (FB-10, FB-11, FB-14). -/
theorem witness_CheckVarAcceptsOneGeometry :
    ∀ v ∈ [({ xres := 640, yres := 480, xresVirtual := 640, yresVirtual := 480, bitsPerPixel := 32 } : Var),
        { xres := 640, yres := 480, bitsPerPixel := 32 },
        { xres := 640, yres := 480, xresVirtual := 640, yresVirtual := 481, bitsPerPixel := 32 }],
      { liveBy {} with opnd := { var := v } }.ByCaller 0 {} ∧ ({} : Caller).pc = .cIdle
        ∧ { liveBy {} with opnd := { var := v } }.fullyInit = true ∧ varAccepted v = decide (v.yresVirtual ≤ 480) := by decide

/-- Indices 15 and 16. -/
theorem witness_SetcolregWritesOneEntry :
    (liveBy {}).ByCaller 0 {} ∧ ({} : Caller).pc = .cIdle ∧ (liveBy {}).fullyInit = true ∧ (15 : BitVec 8).toNat < 16
      ∧ 16 ≤ (16 : BitVec 8).toNat := by decide

theorem witness_EveryStepKeepsTheResourceInvariants : scheduled.ResourcesMatch ∧ ∃ t, step scheduled = .next t :=
  ⟨by decide, _, rfl⟩

theorem witness_EveryStepKeepsUseUnderTheHandle :
    scheduled.ResourcesMatch ∧ scheduled.UseNeedsHandle ∧ ∃ t, step scheduled = .next t := ⟨by decide, by decide, _, rfl⟩

theorem witness_EveryStepKeepsTheQueueInvariants :
    let s := { scheduled with callers := [{ pc := .cPoll 1 .wait, queued := true, tarmed := true, texp := true }] }
    s.params.pollMax.wf = true ∧ s.QueueMatches ∧ s.PollsBounded ∧ ∃ t, step s = .next t :=
  ⟨by decide, by decide, by decide, _, rfl⟩

theorem witness_EveryStepKeepsMemoryAndRasterInvariants :
    scheduled.params.wf = true ∧ scheduled.MemCanonical ∧ scheduled.MemInRange ∧ scheduled.PaletteSized ∧ scheduled.BusLawful
      ∧ scheduled.ScanInRange ∧ ∃ t, step scheduled = .next t :=
  ⟨by decide, ⟨List.Pairwise.nil, by decide, List.Pairwise.nil⟩, by decide, by decide, by decide, by decide, _, rfl⟩

theorem witness_ResetMeetsTheInvariants : Params.wf {} = true := by decide

/-- One step of an agent that each clause is about. -/
theorem witness_OnlyOwnersChangeTheRegisters :
    (∃ t, exec .signalDeliver { live (.signal 0) with callers := [{}] } = .next t) ∧ (live (.signal 0)).params.regMap.wf = true
      ∧ (live (.signal 0)).agent ≠ .lifecycle ∧ (live (.signal 0)).agent ≠ .device ∧ (live (.signal 0)).agent ≠ .isr
      ∧ (live (.signal 0)).agent ≠ .platform := ⟨⟨_, rfl⟩, by decide⟩

/-- A caller at `C_SLEEP` and an idle ISR, for the clauses of the statements on operations issued elsewhere than at their control
location (R370, R371). -/
theorem witness_OperationsElsewhereAreNotEnabled :
    let c : Caller := { pc := .cSleep, queued := true }
    ((liveBy c).ByCaller 0 c ∧ c.pc ≠ .cIdle ∧ c.pc ≠ .cDecide ∧ c.pc ≠ .cWreg ∧ (∀ i K, c.pc ≠ .cPoll i K) ∧ ∀ K, c.pc ≠ .cData K)
      ∧ ((live .isr).agent = .isr ∧ (live .isr).isr.pc ≠ .iCheck ∧ (live .isr).isr.pc ≠ .iStatus ∧ (live .isr).isr.pc ≠ .iWake
        ∧ (live .isr).isr.pc ≠ .iAck) :=
  ⟨⟨by decide, by decide, by decide, by decide, by simp, by simp⟩, by decide⟩

/-- R402: a stuck caller, ISR, lifecycle agent and device, each before an operation of its own. -/
def stuckStates : List (Instr × State) :=
  [(.csrRead 0, liveBy { pc := .cStuck }), (.isrCheck, liveIsr { pc := .iStuck }),
   (.lcDetachStop, { live .lifecycle with lc := { (live .lifecycle).lc with stuck := true } }),
   (.devAdvance, { live .device with dev := { (live .device).dev with stuck := true } })]

theorem test_stuck_agents_take_no_step :
    ∀ p ∈ stuckStates, (after p.1 p.2).ret = .held ∧ (after p.1 p.2).history = [] ∧ (after p.1 p.2).faults = [] := by decide

theorem witness_stuck_agents :
    ∀ p ∈ stuckStates, p.1.wf = true ∧ p.1.issuedBy p.2.agent = true ∧ p.2.agentStuck = true := by decide

/-- A step with every agent that can be stuck stuck. -/
theorem witness_FaultsAndStuckAgentsStay :
    let s := { scheduled with isr := { pc := .iStuck }, lc := { scheduled.lc with stuck := true },
                              dev := { scheduled.dev with stuck := true }, callers := [{ pc := .cStuck }] }
    (∃ t, step s = .next t) ∧ s.callers[0]? = some { pc := .cStuck } := ⟨⟨_, rfl⟩, rfl⟩

/-- A query's poll; the status read with a cause held, and one that reads 0. -/
theorem witness_WaitAndIsrAccessesNeverFault :
    let s := liveBy { pc := .cPoll 0 .framePos }
    let s' := liveIsr { pc := .iStatus }
    let s'' := { live .isr with isr := { pc := .iStatus } }
    (s.params.regMap.wf = true ∧ s.ResourcesMatch ∧ s.UseNeedsHandle ∧ ∃ t, exec .coordPoll s = .next t)
      ∧ (s'.params.regMap.wf = true ∧ s'.ResourcesMatch ∧ s'.UseNeedsHandle ∧ s'.Faithful ∧ s'.CauseHeld
        ∧ ∃ t, exec .isrStatus s' = .next t)
      ∧ (s''.ResourcesMatch ∧ s''.UseNeedsHandle ∧ (after .isrStatus s'').faultSet = [.hwInconsistent]) :=
  ⟨⟨by decide, by decide, by decide, _, rfl⟩, ⟨by decide, by decide, by decide, by decide, by decide, _, rfl⟩, by decide⟩

end Sys2Proof.Tests
end

/-!
PROOF. The statements of 00_scope.md: what a step runs (R15, R16), and that draws reach every value a read may return (R20). The
meanings of the three reads are given once as equations of `exec` where the step is admitted; `canReadAs_agrees` and
`loadBytes_reaches` then choose the draws.
-/

namespace Sys2Proof.Machine

/-! ### The scheduled step -/

/-- Fetching from a schedule that is not empty: its first request becomes the current one. -/
theorem fetch_cons {s : State} {q : Request} {rest : List Request} (h : s.sched = q :: rest) :
    fetch s = some (q, { s with sched := rest, agent := q.agent, opnd := q.opnd, tape := q.draws,
                                clock := s.clock + q.elapsed, ret := .none }) := by
  simp only [fetch, h]

/-- A step with a fetched request whose word decodes, to an operation its agent may issue. -/
theorem step_of_fetch {s s' : State} {q : Request} {i : Instr} (hf : fetch s = some (q, s'))
    (hd : decode q.word = some i) (hi : i.issuedBy q.agent = true) : step s = exec i s' := by
  simp only [step, hf, hd, hi, if_true]

/-- Settles O4: `fetch` hands over the head of the schedule, and `step` executes what its word decodes to. -/
theorem stepRunsTheScheduledOperation : Obligations.StepRunsTheScheduledOperation := by
  intro s q rest i hs hd hi
  exact step_of_fetch (fetch_cons hs) hd hi

/-! ### The reads where they are admitted -/

/-- CSR_READ at a legal offset of the mapped block (R130). -/
theorem exec_csrRead_admitted {s : State} {off : BitVec 8} (hr : s.lc.res.regs = true) (hm : s.CsrMaster)
    (ho : s.LegalOffset off) :
    exec (.csrRead off) s
      = .next ((csrReadState s off.toNat).setRet (.word (readValue s off.toNat))) := by
  obtain ⟨halign, hlen⟩ := ho
  have hc : checkAccess s .read off.toNat = none := checkAccess_read_none.mpr ⟨halign, hlen, hr⟩
  change execCsrRead off s = _
  rw [execCsrRead, asCsrMaster_eq hm, mmioRead_of_admitted hc]

/-- BUF_LOAD of an access the caller's mapping admits (R164). -/
theorem exec_bufLoad_admitted {s : State} {k : Nat} {c : Caller} {w : BitVec 2} (hw : w ≠ 3) (hk : s.ByCaller k c)
    (hpc : c.pc = .cIdle) (ha : mappedAccessOk s c s.opnd.off (widthBytes w) = true) :
    exec (.bufLoad w) s
      = .next ((loadBytes c s.opnd.off (widthBytes w) s).2.setRet
          (.word (ofBytes (loadBytes c s.opnd.off (widthBytes w) s).1))) := by
  change execBufLoad w s = _
  rw [execBufLoad, if_neg hw, asCallerAt_eq hk hpc, if_pos ha]

/-- FB_READ where the handle is `fullyInit` (R340, R341). An offset past the end is no case of its own: the clipped length is 0 there. -/
theorem exec_fbRead_of_fullyInit {s : State} {k : Nat} {c : Caller} (hk : s.ByCaller k c) (hpc : c.pc = .cIdle)
    (hi : s.fullyInit = true) :
    exec .fbRead s
      = .next (returnCaller k (.bytes (loadBytes c s.opnd.off (clip s.opnd.off s.opnd.n) s).1)
          (loadBytes c s.opnd.off (clip s.opnd.off s.opnd.n) s).2) := by
  change execFbRead s = _
  rw [execFbRead, asConsumer_eq _ hk hpc, if_pos hi]
  split
  next hend =>
    have hclip : clip s.opnd.off s.opnd.n = 0 := by simp [clip, Nat.sub_eq_zero_of_le hend]
    rw [hclip, loadBytes]
  next => rfl

/-! ### Draws that reach a value -/

/-- A word that agrees with the stored bits outside the drawn ones is read when it is itself the draw (R20, R133). -/
theorem readValue_of_agrees {s : State} {off : Nat} {x : Word} {tp : List Nat} (ht : s.tape = x.toNat :: tp)
    (h : x &&& ~~~ readDrawMask s off = readStored s off &&& ~~~ readDrawMask s off) : readValue s off = x := by
  have hd : BitVec.ofNat 32 s.draw = x := by
    rw [s.draw_of_tape _ _ ht, BitVec.ofNat_toNat, BitVec.setWidth_eq]
  unfold readValue
  split
  next hm =>
    have hones : ~~~ readDrawMask s off = BitVec.allOnes 32 := by rw [hm]; exact BitVec.not_zero
    rwa [hones, BitVec.and_allOnes, BitVec.and_allOnes, eq_comm] at h
  next => rw [hd, ← h, ← BitVec.and_or_distrib_left, BitVec.or_comm, BitVec.or_not_self, BitVec.and_allOnes]

/-- Some draw makes CSR_READ return any word that may be read there. -/
theorem csrRead_reaches {s : State} {off : BitVec 8} {x : Word} (hr : s.lc.res.regs = true) (hm : s.CsrMaster)
    (ho : s.LegalOffset off) (hx : CanReadAs s off.toNat x) :
    ∃ d t, exec (.csrRead off) { s with tape := [d] } = .next t ∧ t.ret = .word x := by
  have hv : readValue { s with tape := [x.toNat] } off.toNat = x := readValue_of_agrees rfl (canReadAs_agrees s _ x hx)
  refine ⟨x.toNat, _, exec_csrRead_admitted hr hm ho, ?_⟩
  rw [State.setRet_ret, hv]

/-- Some draws make BUF_LOAD return any list of allowed bytes as its little-endian word. -/
theorem bufLoad_reaches {s : State} {k : Nat} {c : Caller} {bs : List Byte} {w : BitVec 2} (hw : w ≠ 3)
    (hk : s.ByCaller k c) (hpc : c.pc = .cIdle) (ha : mappedAccessOk s c s.opnd.off (widthBytes w) = true)
    (hlen : bs.length = widthBytes w) (hbs : ∀ j b, bs[j]? = some b → AllowedByte s c (s.opnd.off + j) b) :
    ∃ ds t, exec (.bufLoad w) { s with tape := ds } = .next t ∧ t.ret = .word (ofBytes bs) := by
  obtain ⟨ds, hds⟩ := loadBytes_reaches s.opnd.off bs hbs
  have hload := hds []
  rw [List.append_nil, hlen] at hload
  refine ⟨ds, _, exec_bufLoad_admitted hw hk hpc ha, ?_⟩
  rw [State.setRet_ret, hload]

/-- Some draws make FB_READ return any list of allowed bytes of the clipped length. -/
theorem fbRead_reaches {s : State} {k : Nat} {c : Caller} {bs : List Byte} (hk : s.ByCaller k c) (hpc : c.pc = .cIdle)
    (hi : s.fullyInit = true) (hlen : bs.length = clip s.opnd.off s.opnd.n)
    (hbs : ∀ j b, bs[j]? = some b → AllowedByte s c (s.opnd.off + j) b) :
    ∃ ds t, exec .fbRead { s with tape := ds } = .next t ∧ t.ret = .result (.bytes bs) := by
  obtain ⟨ds, hds⟩ := loadBytes_reaches s.opnd.off bs hbs
  have hload := hds []
  rw [List.append_nil, hlen] at hload
  refine ⟨ds, _, exec_fbRead_of_fullyInit hk hpc hi, ?_⟩
  rw [returnCaller_ret, hload]

/-- Settles O11: each read's draws are the word itself (CSR_READ), or one choice for each byte (BUF_LOAD, FB_READ). -/
theorem drawsReachEveryReadValue : Obligations.DrawsReachEveryReadValue := by
  refine ⟨fun s off x hr hm ho hx => csrRead_reaches hr hm ho hx, fun s k c bs hk hpc hbs => ⟨?_, ?_⟩⟩
  · intro w hw hmap hlive halign hrange hlen
    exact bufLoad_reaches hw hk hpc (mappedAccessOk_iff.mpr ⟨hmap, hlive, halign, hrange⟩) hlen hbs
  · intro hi hlen
    exact fbRead_reaches hk hpc hi hlen hbs

end Sys2Proof.Machine

/-!
PROOF. The state's invariants under every step (R44, R45, R47, R162, R310): memory canonical and inside the buffer, the palette's
size, a live buffer's bus address, the scan position. One rule per update of the state says that the update keeps them
(`StoresOk.…`); an operation's case is then the chain of the updates that its inversion lemma names.
-/

namespace Sys2Proof.Machine

/-- The five invariants of the memories, the palette and the raster. -/
structure StoresOk (s : State) : Prop where
  canonical : s.MemCanonical
  inRange   : s.MemInRange
  palette   : s.PaletteSized
  bus       : s.BusLawful
  scan      : s.ScanInRange

/-- The fields that `StoresOk` reads are equal. -/
structure SameStores (s t : State) : Prop where
  params  : t.params = s.params
  buf     : t.buf = s.buf
  oldBufs : t.oldBufs = s.oldBufs
  sim     : t.sim = s.sim
  pal     : t.pal = s.pal
  csrBuf  : t.csr.buf = s.csr.buf
  row     : t.dev.row = s.dev.row
  col     : t.dev.col = s.dev.col
  wc      : t.callers.map Caller.wc = s.callers.map Caller.wc

theorem List.map_modify_of_eq {α β : Type} {f : α → α} {g : α → β} (h : ∀ a, g (f a) = g a) (l : List α) (k : Nat) :
    (l.modify k f).map g = l.map g := by
  induction l generalizing k with
  | nil => simp
  | cons a l ih => cases k <;> simp [h, ih]

theorem stick_wc (s : State) : (stick s).callers.map Caller.wc = s.callers.map Caller.wc := by
  unfold stick
  split
  · exact List.map_modify_of_eq (fun _ => by rfl) _ _
  all_goals rfl

theorem stick_row (s : State) : (stick s).dev.row = s.dev.row := by unfold stick; split <;> rfl

theorem stick_col (s : State) : (stick s).dev.col = s.dev.col := by unfold stick; split <;> rfl

/-! ### Byte strings and pending writes inside the buffer -/

/-- A byte string inside the buffer lists only bytes inside the buffer. -/
theorem Memory.inRange_writeBytes {m : Memory} {off : Nat} {bs : List Byte} (hm : ∀ p ∈ m, p.1 < fbSize)
    (hb : off + bs.length ≤ fbSize) : ∀ p ∈ Memory.writeBytes m off bs, p.1 < fbSize := by
  induction bs generalizing m off with
  | nil => exact hm
  | cons b bs ih =>
    have hlen : off + 1 + bs.length ≤ fbSize := by rw [List.length_cons] at hb; omega
    refine ih (fun p hp => ?_) hlen
    rcases Table.mem_write m off b p hp with rfl | hp
    · exact Nat.lt_of_lt_of_le (Nat.lt_succ_self off) (by omega)
    · exact hm p hp

theorem Memory.inRange_drainInto {m : Memory} {es : List WcEntry} (hm : ∀ p ∈ m, p.1 < fbSize)
    (he : ∀ e ∈ es, e.off + e.bytes.length ≤ fbSize) : ∀ p ∈ drainInto m es, p.1 < fbSize := by
  induction es generalizing m with
  | nil => exact hm
  | cons e es ih =>
    obtain ⟨hfirst, hrest⟩ := List.forall_mem_cons.mp he
    exact ih (Memory.inRange_writeBytes hm hfirst) hrest

/-- No entry of a byte string reaches past the string's end. -/
theorem byteEntries_end_le {off : Nat} {bs : List Byte} {e : WcEntry} (h : e ∈ byteEntries off bs) :
    e.off + e.bytes.length ≤ off + bs.length := by
  induction bs generalizing off with
  | nil => cases h
  | cons b bs ih =>
    rcases List.mem_cons.mp h with rfl | h
    · simp
    · have := ih h
      rw [List.length_cons]
      omega

/-- A drain set's entries, drained or not, are pending ones. -/
theorem DrainSet.mem_pending {wc : List WcEntry} {l : List (Bool × WcEntry)} (h : DrainSet wc l) {p : Bool × WcEntry → Bool}
    {e : WcEntry} (he : e ∈ (l.filter p).map fun q => q.2) : e ∈ wc := by
  obtain ⟨q, hq, rfl⟩ := List.mem_map.mp he
  obtain ⟨hsnd, -, -⟩ := h
  rw [← hsnd]
  exact List.mem_map_of_mem (List.mem_of_mem_filter hq)

namespace StoresOk

variable {s t : State}

theorem of_same (hs : StoresOk s) (h : SameStores s t) : StoresOk t := by
  obtain ⟨hparams, hbuf, hold, hsim, hpal, hcsr, hrow, hcol, hwc⟩ := h
  obtain ⟨⟨hmem, hrecs, htab⟩, ⟨hbytes, hpend⟩, hp, hb, hsc⟩ := hs
  refine ⟨⟨by rwa [hbuf], by rwa [hold], by rwa [hsim]⟩, ⟨by rwa [hbuf], fun c hc => ?_⟩, ?_, ?_, ?_⟩
  · obtain ⟨c', hc', heq⟩ := List.mem_map.mp (hwc ▸ List.mem_map_of_mem hc : c.wc ∈ s.callers.map Caller.wc)
    exact heq ▸ hpend c' hc'
  · rwa [State.PaletteSized, hpal]
  · rwa [State.BusLawful, hbuf, hcsr]
  · rwa [State.ScanInRange, hparams, hrow, hcol]

/-! ### Updates that leave the stores alone -/

theorem withDraws (hs : StoresOk s) (tp : List Nat) (fr : Nat) : StoresOk (s.withDraws tp fr) :=
  hs.of_same ⟨rfl, rfl, rfl, rfl, rfl, rfl, rfl, rfl, rfl⟩

theorem setRet (hs : StoresOk s) (r : Ret) : StoresOk (s.setRet r) :=
  hs.of_same ⟨rfl, rfl, rfl, rfl, rfl, rfl, rfl, rfl, rfl⟩

theorem hold (hs : StoresOk s) : StoresOk (hold s) := hs.setRet _

theorem setLc (hs : StoresOk s) (l : Lifecycle) : StoresOk (s.setLc l) :=
  hs.of_same ⟨rfl, rfl, rfl, rfl, rfl, rfl, rfl, rfl, rfl⟩

theorem setIsr (hs : StoresOk s) (i : Isr) : StoresOk (s.setIsr i) :=
  hs.of_same ⟨rfl, rfl, rfl, rfl, rfl, rfl, rfl, rfl, rfl⟩

theorem addEvent (hs : StoresOk s) (e : Event) : StoresOk (s.addEvent e) :=
  hs.of_same ⟨rfl, rfl, rfl, rfl, rfl, rfl, rfl, rfl, rfl⟩

/-- A new register block with the same `BUF`. -/
theorem setCsr (hs : StoresOk s) {c : Csr} (hc : c.buf = s.csr.buf) : StoresOk (s.setCsr c) :=
  hs.of_same ⟨rfl, rfl, rfl, rfl, rfl, hc, rfl, rfl, rfl⟩

theorem raiseFault (hs : StoresOk s) (i : Instr) (r : FaultReason) (d : Datum) : StoresOk (raiseFault i r d s) :=
  hs.of_same ⟨by simp, by simp, by simp, by simp, by simp, by simp, by simp [stick_row], by simp [stick_col],
    by simp [stick_wc]⟩

/-- A new caller's record with the same pending writes. -/
theorem modCaller (hs : StoresOk s) (k : Nat) (f : Caller → Caller) (hf : ∀ c, (f c).wc = c.wc := by exact fun _ => rfl) :
    StoresOk (s.modCaller k f) :=
  hs.of_same ⟨rfl, rfl, rfl, rfl, rfl, rfl, rfl, rfl, List.map_modify_of_eq hf _ _⟩

theorem mapCallers (hs : StoresOk s) (f : Caller → Caller) (hf : ∀ c, (f c).wc = c.wc := by exact fun _ => rfl) :
    StoresOk (s.mapCallers f) :=
  hs.of_same ⟨rfl, rfl, rfl, rfl, rfl, rfl, rfl, rfl, by simp [Function.comp_def, hf]⟩

theorem returnCaller (hs : StoresOk s) (k : Nat) (r : Result) : StoresOk (returnCaller k r s) :=
  ((hs.modCaller k _).addEvent _).setRet _

theorem leaveWait (hs : StoresOk s) (k : Nat) (c : Code) : StoresOk (leaveWait k c s) :=
  (hs.modCaller k _).returnCaller k _

theorem wakeAll (hs : StoresOk s) : StoresOk (wakeAll s) :=
  hs.mapCallers _ fun c => by cases c.queued <;> rfl

theorem isrReturn (hs : StoresOk s) (r : IsrRet) : StoresOk (isrReturn r s) := ((hs.setIsr _).addEvent _).setRet _

theorem returnLifecycle (hs : StoresOk s) (c : Code) : StoresOk (returnLifecycle c s) := (hs.addEvent _).setRet _

theorem completeLc (hs : StoresOk s) (l : Lifecycle) : StoresOk (s.completeLc l) := (hs.setLc l).returnLifecycle _

theorem failAttach (hs : StoresOk s) (e : Code) : StoresOk (failAttach e s) := hs.setLc _

theorem csrReadState (hs : StoresOk s) (off : Nat) : StoresOk (csrReadState s off) := by
  obtain ⟨v, hcsr, -⟩ := csrReadState_csr_frame s off
  exact hs.of_same ⟨by simp, by simp, by simp, by simp, by simp, by rw [hcsr], by simp, by simp, by simp⟩

theorem pollExhausted (hs : StoresOk s) (k : Nat) (K : Cont) : StoresOk (pollExhausted k K s) := by
  cases K with
  | framePos => exact hs.returnCaller k _
  | wait => exact (hs.modCaller k _).returnCaller k _

theorem coordDecoded (hs : StoresOk s) (k : Nat) (dstOk : Bool) (K : Cont) (w : Word) :
    StoresOk (coordDecoded k dstOk K w s) := by
  have hword : StoresOk (s.modCaller k fun x => { x with w, coord := unpack w }) := hs.modCaller k _
  cases K with
  | wait => exact hword.modCaller k _
  | framePos =>
    cases dstOk with
    | true => exact (hword.modCaller k _).returnCaller k _
    | false => exact hword.returnCaller k _

/-! ### Updates of the stores -/

theorem setPal (hs : StoresOk s) {p : List (Option Word)} (hp : p.length = paletteEntries) : StoresOk (s.setPal p) :=
  ⟨hs.canonical, hs.inRange, hp, hs.bus, hs.scan⟩

/-- New pending writes inside the buffer. -/
theorem setPending (hs : StoresOk s) {k : Nat} {f : Caller → Caller}
    (hf : ∀ c, s.callers[k]? = some c → ∀ e ∈ (f c).wc, e.off + e.bytes.length ≤ fbSize) :
    StoresOk (s.modCaller k f) := by
  refine ⟨hs.canonical, ⟨hs.inRange.1, fun c hc => ?_⟩, hs.palette, hs.bus, hs.scan⟩
  rcases List.mem_modify_cases hc with ⟨c', hc', rfl⟩ | hc
  · exact hf c' hc'
  · exact hs.inRange.2 c hc

/-- Pending writes appended inside the buffer (R165, R342). -/
theorem appendPending (hs : StoresOk s) (k : Nat) {es : List WcEntry} (he : ∀ e ∈ es, e.off + e.bytes.length ≤ fbSize) :
    StoresOk (s.modCaller k fun x => { x with wc := x.wc ++ es }) := by
  refine hs.setPending fun c hc e hmem => ?_
  rcases List.mem_append.mp hmem with hmem | hmem
  · exact hs.inRange.2 c (List.mem_of_getElem? hc) e hmem
  · exact he e hmem

/-- Other bytes in the same buffer. -/
theorem setMem (hs : StoresOk s) {m : Memory} (hwf : m.wf) (hm : ∀ p ∈ m, p.1 < fbSize) :
    StoresOk (s.setBuf { s.buf with mem := m }) := by
  obtain ⟨⟨-, hrecs, htab⟩, ⟨-, hpend⟩, hpal, hbus, hscan⟩ := hs
  exact ⟨⟨hwf, hrecs, htab⟩, ⟨hm, hpend⟩, hpal, hbus, hscan⟩

/-- A buffer record that is not live needs no lawful bus address. -/
theorem setBuf_of_not_live (hs : StoresOk s) {b : Buffer} (hb : b.live = false) (hwf : b.mem.wf)
    (hm : ∀ p ∈ b.mem, p.1 < fbSize) : StoresOk (s.setBuf b) := by
  obtain ⟨⟨-, hrecs, htab⟩, ⟨-, hpend⟩, hpal, -, hscan⟩ := hs
  have hst : b.st ≠ .programmed := fun h => by simp [Buffer.live, h] at hb
  exact ⟨⟨hwf, hrecs, htab⟩, ⟨hm, hpend⟩, hpal, ⟨fun h => absurd (hb.symm.trans h) (by decide), fun h => absurd h hst⟩, hscan⟩

/-- A drain moves pending bytes into the buffer (R166). -/
theorem drain (hs : StoresOk s) {k : Nat} {c : Caller} {l : List (Bool × WcEntry)} (hc : s.callers[k]? = some c)
    (hl : DrainSet c.wc l) :
    StoresOk ((s.modCaller k fun x => { x with wc := undrained l }).setBuf
      { s.buf with mem := if s.buf.live then drainInto s.buf.mem (drained l) else s.buf.mem }) := by
  have hpend : ∀ e ∈ c.wc, e.off + e.bytes.length ≤ fbSize := hs.inRange.2 c (List.mem_of_getElem? hc)
  refine (hs.setPending fun _ _ e he => hpend e (hl.mem_pending he)).setMem ?_ ?_
  · split
    · exact Memory.wf_drainInto _ _ hs.canonical.1
    · exact hs.canonical.1
  · split
    · exact Memory.inRange_drainInto hs.inRange.1 fun e he => hpend e (hl.mem_pending he)
    · exact hs.inRange.1

/-- An admitted register write: a start draws a position of the raster (R134), a write of `BUF` programs a live buffer exactly
with its own address (R138), and the simulated block's table stays canonical (R143). -/
theorem csrWriteState (hs : StoresOk s) (off : Nat) (v : Word) : StoresOk (csrWriteState s off v) := by
  obtain ⟨c, sm, d, b, tp, fr, heq, hsim, -, hpos, ⟨-, hbus, hmem, hlive⟩, hst, -⟩ := csrWriteState_frame s off v
  obtain ⟨⟨hwf, hrecs, htab⟩, ⟨hbytes, hpend⟩, hpal, ⟨hlaw, hprog⟩, ⟨hrow, hcol⟩⟩ := hs
  rw [heq]
  refine ⟨⟨?_, hrecs, ?_⟩, ⟨?_, hpend⟩, hpal, ⟨?_, ?_⟩, ?_⟩
  · rwa [← hmem] at hwf
  · rcases hsim with rfl | rfl
    · exact htab
    · exact Table.wf_write _ _ _ htab
  · rwa [← hmem] at hbytes
  · rwa [← hlive, ← hbus] at hlaw
  · show b.st = .programmed → c.buf = some b.bus
    intro hb
    rw [hbus]
    rcases hst with ⟨hsame, hc⟩ | ⟨hc, -, hnew⟩ | ⟨-, hnot, hsame⟩
    · exact hc.trans (hprog (hsame.symm.trans hb))
    · by_cases hv : v = s.buf.bus
      · rw [hc, hv]
      · rw [hnew, if_neg hv] at hb
        cases hb
    · rw [hsame] at hb
      simp [Buffer.live, hb] at hnot
  · rcases hpos with ⟨hr, hc⟩ | ⟨hr, hc⟩
    · exact ⟨hr.symm ▸ hrow, hc.symm ▸ hcol⟩
    · exact ⟨hr (Nat.zero_lt_of_lt hrow), hc (Nat.zero_lt_of_lt hcol)⟩

theorem scanoutState (hs : StoresOk s) (b : Word) : StoresOk (scanoutState s b) := by
  obtain ⟨w, hdev⟩ := scanoutState_dev s b
  exact hs.of_same ⟨by simp, by simp, by simp, by simp, by simp, by simp, by rw [hdev], by rw [hdev], by simp⟩

theorem frameBoundary (hs : StoresOk s) : StoresOk (frameBoundary s) := by
  obtain ⟨f, hdev⟩ := frameBoundary_dev s
  exact hs.of_same ⟨by simp, by simp, by simp, by simp, by simp, by simp [Csr.raiseFrame], by rw [hdev], by rw [hdev], by simp⟩

/-- A new position inside the raster. -/
theorem setDev (hs : StoresOk s) {d : Device} (hrow : d.row < s.params.vTotal) (hcol : d.col < s.params.hTotal) :
    StoresOk (s.setDev d) :=
  ⟨hs.canonical, hs.inRange, hs.palette, hs.bus, ⟨hrow, hcol⟩⟩

/-- The next position of the raster (R311). -/
theorem advancePos (hs : StoresOk s) : StoresOk (advancePos s) := by
  obtain ⟨hrow, hcol⟩ := hs.scan
  have hcol' : nextCol s < s.params.hTotal := by unfold nextCol; split <;> omega
  unfold Machine.advancePos
  split
  · exact (hs.setDev (Nat.zero_lt_of_lt hrow) hcol').frameBoundary
  · rename_i hlast
    have hrow' : nextRow s < s.params.vTotal := by unfold nextRow at hlast ⊢; split at hlast <;> split <;> omega
    exact hs.setDev hrow' hcol'

/-- An allocation (R162): a lawful bus address and no byte. -/
theorem allocBuffer (hs : StoresOk s) : StoresOk (allocBuffer s) := by
  obtain ⟨cpu, bus, tp, fr, heq, -, halign, hroom⟩ := allocBuffer_eq s
  have hmapped : StoresOk (s.mapCallers fun c => { c with mapped := false }) := hs.mapCallers _
  obtain ⟨⟨-, hrecs, htab⟩, ⟨-, hpend⟩, hpal, -, hscan⟩ := hmapped
  rw [heq]
  exact ⟨⟨List.Pairwise.nil, hrecs, htab⟩, ⟨fun _ hp => absurd hp List.not_mem_nil, hpend⟩, hpal, ⟨fun _ => ⟨halign, hroom⟩, fun h => by cases h⟩,
    hscan⟩

/-- A release (R277): the retired buffer keeps its bytes. -/
theorem releaseAll (hs : StoresOk s) : StoresOk (releaseAll s) := by
  have hpal : StoresOk (if s.lc.res.pal then s.setPal emptyPalette else s) := by
    split
    · exact hs.setPal rfl
    · exact hs
  unfold Machine.releaseAll
  refine setLc ?_ _
  dsimp only
  split
  · exact hpal.setBuf_of_not_live rfl hpal.canonical.1 hpal.inRange.1
  · exact hpal

/-- A new handle (R284): the old record joins the earlier ones. -/
theorem freshHandle (hs : StoresOk s) : StoresOk (freshHandle s) := by
  have harchive : StoresOk { s with oldBufs := s.oldBufs ++ [s.buf] } := by
    obtain ⟨⟨hwf, hrecs, htab⟩, hrange, hpal, hbus, hscan⟩ := hs
    refine ⟨⟨hwf, fun b hb => ?_, htab⟩, hrange, hpal, hbus, hscan⟩
    rcases List.mem_append.mp hb with hb | hb
    · exact hrecs b hb
    · exact List.mem_singleton.mp hb ▸ hwf
  unfold Machine.freshHandle
  split
  · have hempty := harchive.setBuf_of_not_live (b := {}) rfl List.Pairwise.nil fun _ hp => absurd hp List.not_mem_nil
    exact ((hempty.setPal rfl).mapCallers _).setLc _
  · exact hs

end StoresOk

/-! ### Every operation -/

/-- Every operation keeps the memories, the palette and the raster's position as they should be. -/
theorem exec_keeps_storesOk {s t : State} {i : Instr} (hs : StoresOk s) (h : exec i s = .next t) : StoresOk t := by
  cases i with
  | csrRead off =>
    obtain ⟨-, rfl | ⟨-, r, rfl⟩ | ⟨-, -, rfl⟩⟩ := execCsrRead_next h
    · exact hs.hold
    · exact hs.raiseFault _ _ _
    · exact (hs.csrReadState _).setRet _
  | csrWrite off =>
    obtain ⟨-, rfl | ⟨-, r, rfl⟩ | ⟨-, -, rfl⟩⟩ := execCsrWrite_next h
    · exact hs.hold
    · exact hs.raiseFault _ _ _
    · exact hs.csrWriteState _ _
  | bufLoad w =>
    obtain ⟨k, c, -, rfl | ⟨-, rfl⟩ | ⟨-, tp, fr, x, rfl⟩⟩ := execBufLoad_next h
    · exact hs.hold
    · exact hs.raiseFault _ _ _
    · exact (hs.withDraws _ _).setRet _
  | bufStore w =>
    obtain ⟨k, c, -, rfl | ⟨-, rfl⟩ | ⟨-, hok, rfl⟩⟩ := execBufStore_next h
    · exact hs.hold
    · exact hs.raiseFault _ _ _
    · obtain ⟨-, -, -, hend⟩ := mappedAccessOk_iff.mp hok
      refine hs.appendPending k fun e he => ?_
      rw [List.mem_singleton.mp he]
      exact (bytesOf_get (widthBytes w) s.opnd.v).1.symm ▸ hend
  | wcDrain =>
    obtain ⟨k, c, -, hc, rfl | ⟨-, l, tp, fr, hl, rfl⟩⟩ := execWcDrain_next h
    · exact hs.hold
    · exact (hs.withDraws tp fr).drain hc hl
  | coordPoll =>
    obtain ⟨k, c, -, rfl | ⟨n, K, -, ⟨r, -, rfl⟩ | rfl | ⟨-, rfl⟩ | rfl⟩⟩ := execCoordPoll_next h
    · exact hs.hold
    · exact hs.raiseFault _ _ _
    · exact (hs.csrReadState _).modCaller _ _
    · exact (hs.csrReadState _).modCaller _ _
    · exact (hs.csrReadState _).pollExhausted _ _
  | coordRead =>
    obtain ⟨k, c, -, rfl | ⟨K, -, ⟨r, -, rfl⟩ | rfl⟩⟩ := execCoordRead_next h
    · exact hs.hold
    · exact hs.raiseFault _ _ _
    · exact (hs.csrReadState _).coordDecoded _ _ _ _
  | coordClassify =>
    obtain ⟨k, c, -, rfl | rfl⟩ := execCoordClassify_next h
    · exact hs.hold
    · exact hs.setRet _
  | irqDeliver =>
    obtain ⟨-, rfl | ⟨-, -, rfl⟩⟩ := execIrqDeliver_next h
    · exact hs.hold
    · exact hs.setIsr _
  | isrCheck =>
    obtain ⟨-, rfl | ⟨-, ⟨r, -, rfl⟩ | ⟨-, rfl⟩ | ⟨-, rfl⟩⟩⟩ := execIsrCheck_next h
    · exact hs.hold
    · exact hs.raiseFault _ _ _
    · exact (hs.csrReadState _).isrReturn _
    · exact (hs.csrReadState _).setIsr _
  | isrStatus =>
    obtain ⟨-, rfl | ⟨-, ⟨r, -, rfl⟩ | ⟨-, rfl⟩ | ⟨-, n, rfl⟩⟩⟩ := execIsrStatus_next h
    · exact hs.hold
    · exact hs.raiseFault _ _ _
    · exact (hs.csrReadState _).raiseFault _ _ _
    · exact (hs.csrReadState _).setIsr _
  | isrWake =>
    obtain ⟨-, rfl | ⟨-, rfl⟩⟩ := execIsrWake_next h
    · exact hs.hold
    · exact hs.wakeAll.setIsr _
  | isrAck =>
    obtain ⟨-, rfl | ⟨-, ⟨r, -, rfl⟩ | rfl⟩⟩ := execIsrAck_next h
    · exact hs.hold
    · exact hs.raiseFault _ _ _
    · exact (hs.csrWriteState _ _).isrReturn _
  | waitEnter =>
    obtain ⟨k, c, -, rfl | ⟨-, rfl⟩ | ⟨-, -, rfl⟩⟩ := execWaitEnter_next h
    · exact hs.hold
    · exact hs.raiseFault _ _ _
    · exact hs.modCaller _ _
  | waitRegister =>
    obtain ⟨k, c, -, rfl | ⟨-, rfl⟩⟩ := execWaitRegister_next h
    · exact hs.hold
    · exact hs.modCaller _ _
  | waitCheck =>
    obtain ⟨k, c, -, rfl | ⟨-, ⟨e, rfl⟩ | rfl | rfl⟩⟩ := execWaitCheck_next h
    · exact hs.hold
    · exact hs.leaveWait _ _
    · exact (hs.modCaller _ _).leaveWait _ _
    · exact hs.modCaller _ _
  | waitSleep =>
    obtain ⟨k, c, -, rfl | ⟨-, rfl⟩⟩ := execWaitSleep_next h
    · exact hs.hold
    · exact hs.modCaller _ _
  | timerExpire =>
    obtain ⟨k, c, -, -, rfl | ⟨-, rfl⟩⟩ := execTimerExpire_next h
    · exact hs.hold
    · exact hs.modCaller _ _
  | signalDeliver =>
    obtain ⟨k, c, -, -, rfl | rfl⟩ := execSignalDeliver_next h
    · exact hs.hold
    · exact hs.modCaller _ _
  | lcMap =>
    obtain ⟨-, rfl | rfl | ⟨-, -, ⟨e, tp, fr, rfl⟩ | ⟨tp, fr, base, rfl⟩⟩⟩ := execLcMap_next h
    · exact hs.hold
    · exact hs.raiseFault _ _ _
    · exact (hs.withDraws _ _).failAttach _
    · exact (hs.freshHandle.withDraws _ _).completeLc _
  | lcAllocBuf =>
    obtain ⟨-, rfl | rfl | ⟨-, -, ⟨e, tp, fr, rfl⟩ | ⟨tp, fr, rfl⟩⟩⟩ := execLcAllocBuf_next h
    · exact hs.hold
    · exact hs.raiseFault _ _ _
    · exact (hs.withDraws _ _).failAttach _
    · exact (hs.withDraws _ _).allocBuffer.completeLc _
  | lcAllocPal =>
    obtain ⟨-, rfl | rfl | ⟨-, -, ⟨e, tp, fr, rfl⟩ | ⟨tp, fr, rfl⟩⟩⟩ := execLcAllocPal_next h
    · exact hs.hold
    · exact hs.raiseFault _ _ _
    · exact (hs.withDraws _ _).failAttach _
    · exact ((hs.withDraws _ _).setPal rfl).completeLc _
  | lcInstallIsr =>
    obtain ⟨-, rfl | rfl | ⟨-, -, ⟨e, tp, fr, rfl⟩ | ⟨tp, fr, rfl⟩⟩⟩ := execLcInstallIsr_next h
    · exact hs.hold
    · exact hs.raiseFault _ _ _
    · exact (hs.withDraws _ _).failAttach _
    · exact (hs.withDraws _ _).completeLc _
  | lcPublish =>
    obtain ⟨-, rfl | ⟨r, d, rfl⟩ | ⟨-, -, -, ⟨e, tp, fr, rfl⟩ | ⟨tp, fr, rfl⟩⟩⟩ := execLcPublish_next h
    · exact hs.hold
    · exact hs.raiseFault _ _ _
    · exact ((hs.csrWriteState _ _).withDraws _ _).failAttach _
    · exact ((hs.csrWriteState _ _).withDraws _ _).completeLc _
  | lcEnableIrq =>
    obtain ⟨-, rfl | ⟨r, d, rfl⟩ | ⟨-, -, -, -, -, rfl⟩⟩ := execLcEnableIrq_next h
    · exact hs.hold
    · exact hs.raiseFault _ _ _
    · exact ((hs.csrWriteState _ _).csrWriteState _ _).completeLc _
  | lcStart =>
    obtain ⟨-, rfl | ⟨r, d, rfl⟩ | ⟨-, -, -, -, rfl⟩⟩ := execLcStart_next h
    · exact hs.hold
    · exact hs.raiseFault _ _ _
    · exact (hs.csrWriteState _ _).completeLc _
  | lcAbort =>
    obtain ⟨-, rfl | rfl | ⟨e, -, -, rfl⟩⟩ := execLcAbort_next h
    · exact hs.hold
    · exact hs.raiseFault _ _ _
    · exact (hs.releaseAll.setLc _).returnLifecycle _
  | lcDetachStop =>
    obtain ⟨-, rfl | ⟨r, d, rfl⟩ | ⟨-, -, -, -, -, rfl⟩⟩ := execLcDetachStop_next h
    · exact hs.hold
    · exact hs.raiseFault _ _ _
    · exact (hs.csrWriteState _ _).completeLc _
  | lcDetachDisable =>
    obtain ⟨-, rfl | ⟨r, d, rfl⟩ | ⟨-, -, -, -, -, rfl⟩⟩ := execLcDetachDisable_next h
    · exact hs.hold
    · exact hs.raiseFault _ _ _
    · exact ((hs.csrWriteState _ _).csrWriteState _ _).completeLc _
  | lcDetachRelease =>
    obtain ⟨-, rfl | rfl | ⟨-, -, -, -, -, rfl⟩⟩ := execLcDetachRelease_next h
    · exact hs.hold
    · exact hs.raiseFault _ _ _
    · exact (hs.releaseAll.mapCallers _).completeLc _
  | devAdvance =>
    obtain ⟨-, rfl | ⟨-, ⟨d, rfl⟩ | rfl | ⟨b, rfl⟩⟩⟩ := execDevAdvance_next h
    · exact hs.hold
    · exact hs.raiseFault _ _ _
    · exact hs.advancePos
    · exact (hs.scanoutState _).advancePos
  | devLatch =>
    obtain ⟨-, rfl | ⟨w, rfl⟩⟩ := execDevLatch_next h
    · exact hs.hold
    · exact hs.setCsr rfl
  | fbRead =>
    obtain ⟨k, c, -, rfl | ⟨-, rfl⟩ | ⟨-, tp, fr, bs, rfl⟩⟩ := execFbRead_next h
    · exact hs.hold
    · exact hs.raiseFault _ _ _
    · exact (hs.withDraws _ _).returnCaller _ _
  | fbWrite =>
    obtain ⟨k, c, -, rfl | ⟨-, rfl⟩ | ⟨-, r, rfl⟩ | ⟨-, -, hoff, rfl⟩⟩ := execFbWrite_next h
    · exact hs.hold
    · exact hs.raiseFault _ _ _
    · exact hs.returnCaller _ _
    · refine (hs.appendPending k fun e he => (byteEntries_end_le he).trans ?_).returnCaller _ _
      rw [List.length_take, clip]
      omega
  | fbMmap =>
    obtain ⟨k, c, -, rfl | ⟨-, rfl⟩ | ⟨-, rfl⟩ | ⟨-, -, rfl⟩⟩ := execFbMmap_next h
    · exact hs.hold
    · exact hs.raiseFault _ _ _
    · exact hs.returnCaller _ _
    · exact (hs.modCaller _ _).returnCaller _ _
  | fbCheckVar =>
    obtain ⟨k, c, -, rfl | ⟨-, rfl⟩ | ⟨-, r, rfl⟩⟩ := execFbCheckVar_next h
    · exact hs.hold
    · exact hs.raiseFault _ _ _
    · exact hs.returnCaller _ _
  | fbSetcolreg idx =>
    obtain ⟨k, c, -, rfl | ⟨-, rfl⟩ | ⟨-, rfl⟩ | ⟨-, -, v, rfl⟩⟩ := execFbSetcolreg_next h
    · exact hs.hold
    · exact hs.raiseFault _ _ _
    · exact hs.returnCaller _ _
    · exact (hs.setPal (List.length_set.trans hs.palette)).returnCaller _ _
  | qFramepos =>
    obtain ⟨k, c, -, rfl | ⟨-, rfl⟩ | ⟨-, -, rfl⟩⟩ := execQFramepos_next h
    · exact hs.hold
    · exact hs.raiseFault _ _ _
    · exact hs.modCaller _ _

/-- Settles O56: fetching touches no store, and every operation keeps them (`exec_keeps_storesOk`). That the parameters are well
formed is not needed: a raster with a position inside it is not empty. -/
theorem everyStepKeepsMemoryAndRasterInvariants : Obligations.EveryStepKeepsMemoryAndRasterInvariants := by
  intro s t _ hcan hrange hpal hbus hscan h
  have hs : StoresOk s := ⟨hcan, hrange, hpal, hbus, hscan⟩
  have ht : StoresOk t := by
    rcases step_next h with rfl | ⟨q, s', i, hf, -, -, he⟩
    · exact hs
    · obtain ⟨rest, -, rfl⟩ := fetch_frame hf
      refine exec_keeps_storesOk ?_ he
      exact hs.of_same ⟨rfl, rfl, rfl, rfl, rfl, rfl, rfl, rfl, rfl⟩
  exact ⟨ht.canonical, ht.inRange, ht.palette, ht.bus, ht.scan⟩

end Sys2Proof.Machine

/-!
PROOF. What no step takes back (R61, R62, R402): fault records, history, parameters, the number of callers, and every stuck agent.
`Persists s t` says so of two states, with one rule per update of `t`; a stuck agent's own operations wait, by the guard of each
agent.
-/

namespace Sys2Proof.Machine

/-! ### What persists from one state to another -/

/-- Everything that R61, R62 and R402 let no step of `s` take back is still there in `t`. -/
structure Persists (s t : State) : Prop where
  faults  : s.faults <+: t.faults
  history : s.history <+: t.history
  params  : t.params = s.params
  callers : t.callers.length = s.callers.length
  isr     : s.isr.pc = .iStuck → t.isr.pc = .iStuck
  lc      : s.lc.stuck = true → t.lc.stuck = true
  dev     : s.dev.stuck = true → t.dev.stuck = true
  caller  : ∀ (k : Nat) (c : Caller), s.callers[k]? = some c → c.pc = .cStuck →
              ∃ c', t.callers[k]? = some c' ∧ c'.pc = .cStuck

/-- Caller `k` is not stuck. -/
def State.CallerFree (s : State) (k : Nat) : Prop := ∀ c, s.callers[k]? = some c → c.pc ≠ .cStuck

theorem State.ByCaller.callerFree {s : State} {k : Nat} {c : Caller} {pc : CallerPc} (h : s.ByCaller k c) (hp : c.pc = pc)
    (hne : pc ≠ .cStuck := by simp) : s.CallerFree k := by
  obtain ⟨-, hc⟩ := h
  intro c' hc'
  obtain rfl := Option.some.inj (hc.symm.trans hc')
  exact hp ▸ hne

namespace Persists

variable {s t : State}

theorem refl (s : State) : Persists s s :=
  ⟨List.prefix_rfl, List.prefix_rfl, rfl, rfl, id, id, id, fun _ c hc hp => ⟨c, hc, hp⟩⟩

/-- Only fields that keep what persists differ. -/
theorem of_frame {u : State} (h : Persists s t) (hfaults : u.faults = t.faults) (hhist : t.history <+: u.history)
    (hparams : u.params = t.params) (hisr : u.isr = t.isr) (hlc : u.lc.stuck = t.lc.stuck) (hdev : u.dev.stuck = t.dev.stuck)
    (hcallers : u.callers = t.callers) : Persists s u :=
  ⟨hfaults ▸ h.faults, h.history.trans hhist, hparams.trans h.params, hcallers ▸ h.callers, hisr ▸ h.isr, hlc ▸ h.lc,
    hdev ▸ h.dev, hcallers ▸ h.caller⟩

/-! ### Updates outside the log and the agents -/

theorem withDraws (h : Persists s t) (tp : List Nat) (fr : Nat) : Persists s (t.withDraws tp fr) :=
  h.of_frame rfl List.prefix_rfl rfl rfl rfl rfl rfl

theorem setRet (h : Persists s t) (r : Ret) : Persists s (t.setRet r) := h.of_frame rfl List.prefix_rfl rfl rfl rfl rfl rfl

theorem hold (h : Persists s t) : Persists s (hold t) := h.setRet _

theorem setCsr (h : Persists s t) (c : Csr) : Persists s (t.setCsr c) := h.of_frame rfl List.prefix_rfl rfl rfl rfl rfl rfl

theorem setPal (h : Persists s t) (p : List (Option Word)) : Persists s (t.setPal p) :=
  h.of_frame rfl List.prefix_rfl rfl rfl rfl rfl rfl

theorem setBuf (h : Persists s t) (b : Buffer) : Persists s (t.setBuf b) :=
  h.of_frame rfl List.prefix_rfl rfl rfl rfl rfl rfl

theorem addEvent (h : Persists s t) (e : Event) : Persists s (t.addEvent e) :=
  h.of_frame rfl (List.prefix_append _ _) rfl rfl rfl rfl rfl

theorem csrReadState (h : Persists s t) (off : Nat) : Persists s (csrReadState t off) :=
  h.of_frame (by simp) (by simp) (by simp) (by simp) (by simp) (by simp) (by simp)

theorem csrWriteState (h : Persists s t) (off : Nat) (v : Word) : Persists s (csrWriteState t off v) :=
  h.of_frame (by simp) (by simp) (by simp) (by simp) (by simp) (by simp) (by simp)

theorem scanoutState (h : Persists s t) (b : Word) : Persists s (scanoutState t b) := by
  obtain ⟨w, hdev⟩ := scanoutState_dev t b
  exact h.of_frame (by simp) (by simp) (by simp) (by simp) (by simp) (by rw [hdev]) (by simp)

theorem advancePos (h : Persists s t) : Persists s (advancePos t) :=
  h.of_frame (by simp) (by simp) (by simp) (by simp) (by simp) (by simp) (by simp)

theorem releaseAll (h : Persists s t) : Persists s (releaseAll t) :=
  h.of_frame (by simp) (by simp) (by simp) (by simp) (by simp) (by simp) (by simp)

/-! ### The lifecycle and the ISR -/

/-- A new lifecycle record, stuck if the old one was. -/
theorem setLc (h : Persists s t) (l : Lifecycle) (hl : s.lc.stuck = true → l.stuck = true := by exact id) :
    Persists s (t.setLc l) :=
  ⟨h.faults, h.history, h.params, h.callers, h.isr, hl, h.dev, h.caller⟩

theorem returnLifecycle (h : Persists s t) (c : Code) : Persists s (returnLifecycle c t) := (h.addEvent _).setRet _

theorem completeLc (h : Persists s t) (l : Lifecycle) (hl : s.lc.stuck = true → l.stuck = true := by exact id) :
    Persists s (t.completeLc l) := (h.setLc l hl).returnLifecycle _

theorem failAttach (h : Persists s t) (e : Code) : Persists s (failAttach e t) := h.setLc _ h.lc

/-- A new ISR record, while the ISR is not stuck. -/
theorem setIsr (h : Persists s t) {p : IsrPc} (hp : s.isr.pc = p) (i : Isr) (hne : p ≠ .iStuck := by decide) :
    Persists s (t.setIsr i) :=
  ⟨h.faults, h.history, h.params, h.callers, fun hstuck => absurd (hp.symm.trans hstuck) hne, h.lc, h.dev, h.caller⟩

theorem isrReturn (h : Persists s t) {p : IsrPc} (hp : s.isr.pc = p) (r : IsrRet) (hne : p ≠ .iStuck := by decide) :
    Persists s (isrReturn r t) := ((h.setIsr hp _ hne).addEvent _).setRet _

/-! ### Callers -/

/-- A caller's record may change at will where the caller is not stuck, or was stuck and stays so. -/
theorem modCaller_of (h : Persists s t) {k : Nat} {f : Caller → Caller}
    (hf : s.CallerFree k ∨ ∀ c, c.pc = .cStuck → (f c).pc = .cStuck) : Persists s (t.modCaller k f) := by
  refine ⟨h.faults, h.history, h.params, (List.length_modify ..).trans h.callers, h.isr, h.lc, h.dev, fun j c hc hp => ?_⟩
  obtain ⟨c', hc', hp'⟩ := h.caller j c hc hp
  by_cases hj : k = j
  · subst hj
    rcases hf with hfree | hf
    · exact absurd hp (hfree c hc)
    · exact ⟨f c', by simp [hc'], hf c' hp'⟩
  · exact ⟨c', by simp [hj, hc'], hp'⟩

theorem modCaller (h : Persists s t) {k : Nat} (hk : s.CallerFree k) (f : Caller → Caller) : Persists s (t.modCaller k f) :=
  h.modCaller_of (.inl hk)

/-- A caller's record changes, but not its location. -/
theorem modCaller_pc (h : Persists s t) (k : Nat) (f : Caller → Caller) (hf : ∀ c, (f c).pc = c.pc := by exact fun _ => rfl) :
    Persists s (t.modCaller k f) := h.modCaller_of (.inr fun c hp => (hf c).trans hp)

theorem returnCaller (h : Persists s t) {k : Nat} (hk : s.CallerFree k) (r : Result) : Persists s (returnCaller k r t) :=
  ((h.modCaller hk _).addEvent _).setRet _

theorem leaveWait (h : Persists s t) {k : Nat} (hk : s.CallerFree k) (c : Code) : Persists s (leaveWait k c t) :=
  (h.modCaller hk _).returnCaller hk _

theorem pollExhausted (h : Persists s t) {k : Nat} (hk : s.CallerFree k) (K : Cont) : Persists s (pollExhausted k K t) := by
  cases K with
  | framePos => exact h.returnCaller hk _
  | wait => exact (h.modCaller hk _).returnCaller hk _

theorem coordDecoded (h : Persists s t) {k : Nat} (hk : s.CallerFree k) (dstOk : Bool) (K : Cont) (w : Word) :
    Persists s (coordDecoded k dstOk K w t) := by
  have hword : Persists s (t.modCaller k fun x => { x with w, coord := unpack w }) := h.modCaller hk _
  cases K with
  | wait => exact hword.modCaller hk _
  | framePos =>
    cases dstOk with
    | true => exact (hword.modCaller hk _).returnCaller hk _
    | false => exact hword.returnCaller hk _

/-- Every caller's record changes, but no location. -/
theorem mapCallers (h : Persists s t) {f : Caller → Caller} (hf : ∀ c, (f c).pc = c.pc := by exact fun _ => rfl) :
    Persists s (t.mapCallers f) := by
  refine ⟨h.faults, h.history, h.params, List.length_map _ |>.trans h.callers, h.isr, h.lc, h.dev, fun k c hc hp => ?_⟩
  obtain ⟨c', hc', hp'⟩ := h.caller k c hc hp
  exact ⟨f c', by simp [hc'], (hf c').trans hp'⟩

theorem wakeAll (h : Persists s t) : Persists s (wakeAll t) := h.mapCallers fun c => by cases c.queued <;> rfl

theorem allocBuffer (h : Persists s t) : Persists s (allocBuffer t) :=
  (h.mapCallers (f := fun c => { c with mapped := false })).of_frame (by simp) (by simp) (by simp) (by simp) (by simp) (by simp)
    (by simp)

theorem freshHandle (h : Persists s t) : Persists s (freshHandle t) := by
  unfold Machine.freshHandle
  split
  · have hrecords : Persists s { t with oldBufs := t.oldBufs ++ [t.buf] } := h.of_frame rfl List.prefix_rfl rfl rfl rfl rfl rfl
    exact (((hrecords.setBuf {}).setPal emptyPalette).mapCallers).setLc _ h.lc
  · exact h

/-! ### Faults -/

theorem stick (h : Persists s t) : Persists s (stick t) := by
  unfold Machine.stick
  split
  · exact h.modCaller_of (.inr fun _ _ => rfl)
  · exact ⟨h.faults, h.history, h.params, h.callers, fun _ => rfl, h.lc, h.dev, h.caller⟩
  · exact h.setLc _ fun _ => rfl
  · exact ⟨h.faults, h.history, h.params, h.callers, h.isr, h.lc, fun _ => rfl, h.caller⟩
  · exact h

theorem raiseFault (h : Persists s t) (i : Instr) (r : FaultReason) (d : Datum) : Persists s (raiseFault i r d t) := by
  have hstick := h.stick
  exact ⟨by simpa using h.faults.trans (List.prefix_append _ _), by simpa using h.history, by simpa using h.params,
    by simpa using hstick.callers, by simpa using hstick.isr, by simpa using hstick.lc, by simpa using hstick.dev,
    by simpa using hstick.caller⟩

end Persists

/-! ### Every operation -/

/-- No operation takes back a record, an event, a parameter or a caller, or frees a stuck agent. -/
theorem exec_persists {s t : State} {i : Instr} (h : exec i s = .next t) : Persists s t := by
  have hs : Persists s s := .refl s
  cases i with
  | csrRead off =>
    obtain ⟨-, rfl | ⟨-, r, rfl⟩ | ⟨-, -, rfl⟩⟩ := execCsrRead_next h
    · exact hs.hold
    · exact hs.raiseFault _ _ _
    · exact (hs.csrReadState _).setRet _
  | csrWrite off =>
    obtain ⟨-, rfl | ⟨-, r, rfl⟩ | ⟨-, -, rfl⟩⟩ := execCsrWrite_next h
    · exact hs.hold
    · exact hs.raiseFault _ _ _
    · exact hs.csrWriteState _ _
  | bufLoad w =>
    obtain ⟨k, c, -, rfl | ⟨-, rfl⟩ | ⟨-, tp, fr, x, rfl⟩⟩ := execBufLoad_next h
    · exact hs.hold
    · exact hs.raiseFault _ _ _
    · exact (hs.withDraws _ _).setRet _
  | bufStore w =>
    obtain ⟨k, c, hk, rfl | ⟨-, rfl⟩ | ⟨hp, -, rfl⟩⟩ := execBufStore_next h
    · exact hs.hold
    · exact hs.raiseFault _ _ _
    · exact hs.modCaller (hk.callerFree hp) _
  | wcDrain =>
    obtain ⟨k, c, -, -, rfl | ⟨-, l, tp, fr, -, rfl⟩⟩ := execWcDrain_next h
    · exact hs.hold
    · exact ((hs.withDraws _ _).modCaller_pc _ _).setBuf _
  | coordPoll =>
    obtain ⟨k, c, hk, rfl | ⟨n, K, hp, ⟨r, -, rfl⟩ | rfl | ⟨-, rfl⟩ | rfl⟩⟩ := execCoordPoll_next h
    · exact hs.hold
    · exact hs.raiseFault _ _ _
    · exact (hs.csrReadState _).modCaller (hk.callerFree hp) _
    · exact (hs.csrReadState _).modCaller (hk.callerFree hp) _
    · exact (hs.csrReadState _).pollExhausted (hk.callerFree hp) _
  | coordRead =>
    obtain ⟨k, c, hk, rfl | ⟨K, hp, ⟨r, -, rfl⟩ | rfl⟩⟩ := execCoordRead_next h
    · exact hs.hold
    · exact hs.raiseFault _ _ _
    · exact (hs.csrReadState _).coordDecoded (hk.callerFree hp) _ _ _
  | coordClassify =>
    obtain ⟨k, c, -, rfl | rfl⟩ := execCoordClassify_next h
    · exact hs.hold
    · exact hs.setRet _
  | irqDeliver =>
    obtain ⟨-, rfl | ⟨-, hp, rfl⟩⟩ := execIrqDeliver_next h
    · exact hs.hold
    · exact hs.setIsr hp _
  | isrCheck =>
    obtain ⟨-, rfl | ⟨hp, ⟨r, -, rfl⟩ | ⟨-, rfl⟩ | ⟨-, rfl⟩⟩⟩ := execIsrCheck_next h
    · exact hs.hold
    · exact hs.raiseFault _ _ _
    · exact (hs.csrReadState _).isrReturn hp _
    · exact (hs.csrReadState _).setIsr hp _
  | isrStatus =>
    obtain ⟨-, rfl | ⟨hp, ⟨r, -, rfl⟩ | ⟨-, rfl⟩ | ⟨-, n, rfl⟩⟩⟩ := execIsrStatus_next h
    · exact hs.hold
    · exact hs.raiseFault _ _ _
    · exact (hs.csrReadState _).raiseFault _ _ _
    · exact (hs.csrReadState _).setIsr hp _
  | isrWake =>
    obtain ⟨-, rfl | ⟨hp, rfl⟩⟩ := execIsrWake_next h
    · exact hs.hold
    · exact hs.wakeAll.setIsr hp _
  | isrAck =>
    obtain ⟨-, rfl | ⟨hp, ⟨r, -, rfl⟩ | rfl⟩⟩ := execIsrAck_next h
    · exact hs.hold
    · exact hs.raiseFault _ _ _
    · exact (hs.csrWriteState _ _).isrReturn hp _
  | waitEnter =>
    obtain ⟨k, c, hk, rfl | ⟨-, rfl⟩ | ⟨hp, -, rfl⟩⟩ := execWaitEnter_next h
    · exact hs.hold
    · exact hs.raiseFault _ _ _
    · exact hs.modCaller (hk.callerFree hp) _
  | waitRegister =>
    obtain ⟨k, c, hk, rfl | ⟨hp, rfl⟩⟩ := execWaitRegister_next h
    · exact hs.hold
    · exact hs.modCaller (hk.callerFree hp) _
  | waitCheck =>
    obtain ⟨k, c, hk, rfl | ⟨hp, ⟨e, rfl⟩ | rfl | rfl⟩⟩ := execWaitCheck_next h
    · exact hs.hold
    · exact hs.leaveWait (hk.callerFree hp) _
    · exact (hs.modCaller (hk.callerFree hp) _).leaveWait (hk.callerFree hp) _
    · exact hs.modCaller (hk.callerFree hp) _
  | waitSleep =>
    obtain ⟨k, c, hk, rfl | ⟨hp, rfl⟩⟩ := execWaitSleep_next h
    · exact hs.hold
    · exact hs.modCaller (hk.callerFree hp) _
  | timerExpire =>
    obtain ⟨k, c, -, -, rfl | ⟨-, rfl⟩⟩ := execTimerExpire_next h
    · exact hs.hold
    · exact hs.modCaller_pc _ _
  | signalDeliver =>
    obtain ⟨k, c, -, -, rfl | rfl⟩ := execSignalDeliver_next h
    · exact hs.hold
    · exact hs.modCaller_pc _ _
  | lcMap =>
    obtain ⟨-, rfl | rfl | ⟨-, -, ⟨e, tp, fr, rfl⟩ | ⟨tp, fr, base, rfl⟩⟩⟩ := execLcMap_next h
    · exact hs.hold
    · exact hs.raiseFault _ _ _
    · exact (hs.withDraws _ _).failAttach _
    · exact (hs.freshHandle.withDraws _ _).completeLc _ hs.freshHandle.lc
  | lcAllocBuf =>
    obtain ⟨-, rfl | rfl | ⟨-, -, ⟨e, tp, fr, rfl⟩ | ⟨tp, fr, rfl⟩⟩⟩ := execLcAllocBuf_next h
    · exact hs.hold
    · exact hs.raiseFault _ _ _
    · exact (hs.withDraws _ _).failAttach _
    · exact (hs.withDraws _ _).allocBuffer.completeLc _
  | lcAllocPal =>
    obtain ⟨-, rfl | rfl | ⟨-, -, ⟨e, tp, fr, rfl⟩ | ⟨tp, fr, rfl⟩⟩⟩ := execLcAllocPal_next h
    · exact hs.hold
    · exact hs.raiseFault _ _ _
    · exact (hs.withDraws _ _).failAttach _
    · exact ((hs.withDraws _ _).setPal _).completeLc _
  | lcInstallIsr =>
    obtain ⟨-, rfl | rfl | ⟨-, -, ⟨e, tp, fr, rfl⟩ | ⟨tp, fr, rfl⟩⟩⟩ := execLcInstallIsr_next h
    · exact hs.hold
    · exact hs.raiseFault _ _ _
    · exact (hs.withDraws _ _).failAttach _
    · exact (hs.withDraws _ _).completeLc _
  | lcPublish =>
    obtain ⟨-, rfl | ⟨r, d, rfl⟩ | ⟨-, -, -, ⟨e, tp, fr, rfl⟩ | ⟨tp, fr, rfl⟩⟩⟩ := execLcPublish_next h
    · exact hs.hold
    · exact hs.raiseFault _ _ _
    · exact ((hs.csrWriteState _ _).withDraws _ _).failAttach _
    · exact ((hs.csrWriteState _ _).withDraws _ _).completeLc _
  | lcEnableIrq =>
    obtain ⟨-, rfl | ⟨r, d, rfl⟩ | ⟨-, -, -, -, -, rfl⟩⟩ := execLcEnableIrq_next h
    · exact hs.hold
    · exact hs.raiseFault _ _ _
    · exact ((hs.csrWriteState _ _).csrWriteState _ _).completeLc _
  | lcStart =>
    obtain ⟨-, rfl | ⟨r, d, rfl⟩ | ⟨-, -, -, -, rfl⟩⟩ := execLcStart_next h
    · exact hs.hold
    · exact hs.raiseFault _ _ _
    · exact (hs.csrWriteState _ _).completeLc _
  | lcAbort =>
    obtain ⟨-, rfl | rfl | ⟨e, -, -, rfl⟩⟩ := execLcAbort_next h
    · exact hs.hold
    · exact hs.raiseFault _ _ _
    · exact (hs.releaseAll.setLc _).returnLifecycle _
  | lcDetachStop =>
    obtain ⟨-, rfl | ⟨r, d, rfl⟩ | ⟨-, -, -, -, -, rfl⟩⟩ := execLcDetachStop_next h
    · exact hs.hold
    · exact hs.raiseFault _ _ _
    · exact (hs.csrWriteState _ _).completeLc _
  | lcDetachDisable =>
    obtain ⟨-, rfl | ⟨r, d, rfl⟩ | ⟨-, -, -, -, -, rfl⟩⟩ := execLcDetachDisable_next h
    · exact hs.hold
    · exact hs.raiseFault _ _ _
    · exact ((hs.csrWriteState _ _).csrWriteState _ _).completeLc _
  | lcDetachRelease =>
    obtain ⟨-, rfl | rfl | ⟨-, -, -, -, -, rfl⟩⟩ := execLcDetachRelease_next h
    · exact hs.hold
    · exact hs.raiseFault _ _ _
    · exact hs.releaseAll.mapCallers.completeLc _
  | devAdvance =>
    obtain ⟨-, rfl | ⟨-, ⟨d, rfl⟩ | rfl | ⟨b, rfl⟩⟩⟩ := execDevAdvance_next h
    · exact hs.hold
    · exact hs.raiseFault _ _ _
    · exact hs.advancePos
    · exact (hs.scanoutState _).advancePos
  | devLatch =>
    obtain ⟨-, rfl | ⟨w, rfl⟩⟩ := execDevLatch_next h
    · exact hs.hold
    · exact hs.setCsr _
  | fbRead =>
    obtain ⟨k, c, hk, rfl | ⟨-, rfl⟩ | ⟨hp, tp, fr, bs, rfl⟩⟩ := execFbRead_next h
    · exact hs.hold
    · exact hs.raiseFault _ _ _
    · exact (hs.withDraws _ _).returnCaller (hk.callerFree hp) _
  | fbWrite =>
    obtain ⟨k, c, hk, rfl | ⟨-, rfl⟩ | ⟨hp, r, rfl⟩ | ⟨hp, -, -, rfl⟩⟩ := execFbWrite_next h
    · exact hs.hold
    · exact hs.raiseFault _ _ _
    · exact hs.returnCaller (hk.callerFree hp) _
    · exact (hs.modCaller (hk.callerFree hp) _).returnCaller (hk.callerFree hp) _
  | fbMmap =>
    obtain ⟨k, c, hk, rfl | ⟨-, rfl⟩ | ⟨hp, rfl⟩ | ⟨hp, -, rfl⟩⟩ := execFbMmap_next h
    · exact hs.hold
    · exact hs.raiseFault _ _ _
    · exact hs.returnCaller (hk.callerFree hp) _
    · exact (hs.modCaller (hk.callerFree hp) _).returnCaller (hk.callerFree hp) _
  | fbCheckVar =>
    obtain ⟨k, c, hk, rfl | ⟨-, rfl⟩ | ⟨hp, r, rfl⟩⟩ := execFbCheckVar_next h
    · exact hs.hold
    · exact hs.raiseFault _ _ _
    · exact hs.returnCaller (hk.callerFree hp) _
  | fbSetcolreg idx =>
    obtain ⟨k, c, hk, rfl | ⟨-, rfl⟩ | ⟨hp, rfl⟩ | ⟨hp, -, v, rfl⟩⟩ := execFbSetcolreg_next h
    · exact hs.hold
    · exact hs.raiseFault _ _ _
    · exact hs.returnCaller (hk.callerFree hp) _
    · exact (hs.setPal _).returnCaller (hk.callerFree hp) _
  | qFramepos =>
    obtain ⟨k, c, hk, rfl | ⟨-, rfl⟩ | ⟨hp, -, rfl⟩⟩ := execQFramepos_next h
    · exact hs.hold
    · exact hs.raiseFault _ _ _
    · exact hs.modCaller (hk.callerFree hp) _

/-- No step takes back a record, an event, a parameter or a caller, or frees a stuck agent. -/
theorem step_persists {s t : State} (h : step s = .next t) : Persists s t := by
  rcases step_next h with rfl | ⟨q, s', i, hf, -, -, he⟩
  · exact .refl _
  · obtain ⟨rest, -, rfl⟩ := fetch_frame hf
    have hp := exec_persists he
    exact ⟨hp.faults, hp.history, hp.params, hp.callers, hp.isr, hp.lc, hp.dev, hp.caller⟩

/-! ### A stuck agent's own operations (R402) -/

/-- Which agents a fault leaves stuck. -/
theorem agentStuck_cases {s : State} (h : s.agentStuck = true) :
    (∃ k c, s.ByCaller k c ∧ c.pc = .cStuck) ∨ (s.agent = .isr ∧ s.isr.pc = .iStuck)
      ∨ (s.agent = .lifecycle ∧ s.lc.stuck = true) ∨ (s.agent = .device ∧ s.dev.stuck = true) := by
  unfold State.agentStuck at h
  split at h
  · rename_i k hk
    obtain ⟨c, hc, hp⟩ := (Option.any_eq_true _ _).mp h
    exact .inl ⟨k, c, ⟨hk, hc⟩, by simpa using hp⟩
  · rename_i hk
    exact .inr (.inl ⟨hk, by simpa using h⟩)
  · rename_i hk
    exact .inr (.inr (.inl ⟨hk, h⟩))
  · rename_i hk
    exact .inr (.inr (.inr ⟨hk, h⟩))
  · cases h

/-- A caller's step that finds nothing to do at its location waits. -/
theorem asCaller_waits {s : State} {k : Nat} {c : Caller} {f : Nat → Caller → State → State} (h : s.ByCaller k c)
    (hf : f k c s = hold s) : Waits s (asCaller s f) := by
  rw [Waits, asCaller_eq h, hf]
  rfl

theorem exec_waits_of_stuck_caller {i : Instr} {s : State} {k : Nat} {c : Caller} (hw : i.wf = true)
    (hi : i.issuedBy (.caller k) = true) (hk : s.ByCaller k c) (hp : c.pc = .cStuck) : Waits s (exec i s) := by
  have hidle : c.pc ≠ .cIdle := by simp [hp]
  cases i with
  | csrRead off => apply asCsrMaster_elsewhere hk hidle
  | csrWrite off => apply asCsrMaster_elsewhere hk hidle
  | bufLoad w =>
    have hne : w ≠ 3 := by simpa [Instr.wf] using hw
    change Waits s (execBufLoad w s)
    rw [execBufLoad, if_neg hne]
    exact asCallerAt_elsewhere hk hidle _
  | bufStore w =>
    have hne : w ≠ 3 := by simpa [Instr.wf] using hw
    change Waits s (execBufStore w s)
    rw [execBufStore, if_neg hne]
    exact asCallerAt_elsewhere hk hidle _
  | coordPoll => apply asCaller_waits hk; simp [hp]
  | coordRead => apply asCaller_waits hk; simp [hp]
  | coordClassify => apply asCallerAt_elsewhere hk hidle
  | waitEnter => apply asConsumer_elsewhere _ hk hidle
  | waitRegister => apply asCallerAt_elsewhere hk; simp [hp]
  | waitCheck => apply asCallerAt_elsewhere hk; simp [hp]
  | waitSleep => apply asCallerAt_elsewhere hk; simp [hp]
  | fbRead => apply asConsumer_elsewhere _ hk hidle
  | fbWrite => apply asConsumer_elsewhere _ hk hidle
  | fbMmap => apply asConsumer_elsewhere _ hk hidle
  | fbCheckVar => apply asConsumer_elsewhere _ hk hidle
  | fbSetcolreg idx => apply asConsumer_elsewhere _ hk hidle
  | qFramepos => apply asConsumer_elsewhere _ hk hidle
  | _ => cases hi

theorem exec_waits_of_stuck_isr {i : Instr} {s : State} (hi : i.issuedBy .isr = true) (ha : s.agent = .isr)
    (hp : s.isr.pc = .iStuck) : Waits s (exec i s) := by
  cases i with
  | isrCheck => apply asIsrAt_elsewhere ha; simp [hp]
  | isrStatus => apply asIsrAt_elsewhere ha; simp [hp]
  | isrWake => apply asIsrAt_elsewhere ha; simp [hp]
  | isrAck => apply asIsrAt_elsewhere ha; simp [hp]
  | _ => cases hi

theorem exec_waits_of_stuck_lifecycle {i : Instr} {s : State} (hi : i.issuedBy .lifecycle = true) (ha : s.agent = .lifecycle)
    (hp : s.lc.stuck = true) : Waits s (exec i s) := by
  cases i with
  | csrRead off => apply asCsrMaster_stuck ha hp
  | csrWrite off => apply asCsrMaster_stuck ha hp
  | lcMap => apply asLifecycle_stuck _ ha hp
  | lcAllocBuf => apply asLifecycle_stuck _ ha hp
  | lcAllocPal => apply asLifecycle_stuck _ ha hp
  | lcInstallIsr => apply asLifecycle_stuck _ ha hp
  | lcPublish => apply asLifecycle_stuck _ ha hp
  | lcEnableIrq => apply asLifecycle_stuck _ ha hp
  | lcStart => apply asLifecycle_stuck _ ha hp
  | lcAbort => apply asLifecycle_stuck _ ha hp
  | lcDetachStop => apply asLifecycle_stuck _ ha hp
  | lcDetachDisable => apply asLifecycle_stuck _ ha hp
  | lcDetachRelease => apply asLifecycle_stuck _ ha hp
  | _ => cases hi

theorem exec_waits_of_stuck_device {i : Instr} {s : State} (hi : i.issuedBy .device = true) (ha : s.agent = .device)
    (hp : s.dev.stuck = true) : Waits s (exec i s) := by
  cases i with
  | devAdvance => apply asScanning_stuck ha hp
  | devLatch => apply asScanning_stuck ha hp
  | _ => cases hi

/-- Settles O59: `step_persists` for what stays, and for each agent that can be stuck the guard of its operations. -/
theorem faultsAndStuckAgentsStay : Obligations.FaultsAndStuckAgentsStay := by
  refine ⟨fun s t h => ?_, fun i s hw hi hstuck => ?_⟩
  · have hp := step_persists h
    exact ⟨hp.faults, hp.history, hp.params, hp.callers, hp.isr, hp.lc, hp.dev, hp.caller⟩
  · rcases agentStuck_cases hstuck with ⟨k, c, hk, hp⟩ | ⟨ha, hp⟩ | ⟨ha, hp⟩ | ⟨ha, hp⟩
    · exact exec_waits_of_stuck_caller hw (hk.1 ▸ hi) hk hp
    · exact exec_waits_of_stuck_isr (ha ▸ hi) ha hp
    · exact exec_waits_of_stuck_lifecycle (ha ▸ hi) ha hp
    · exact exec_waits_of_stuck_device (ha ▸ hi) ha hp

end Sys2Proof.Machine

/-!
PROOF. Reset (R60, R450): the reset table's values are the fields' defaults, and each invariant holds of them. What the invariants
say of callers is about the one default record, since every caller starts with it.
-/

namespace Sys2Proof.Machine

section Reset

variable (p : Params) (n : Nat)

theorem eq_default_of_mem_reset_callers {c : Caller} (h : c ∈ (State.resetWith p n).callers) : c = {} :=
  List.eq_of_mem_replicate h

theorem resetWith_callers_length : (State.resetWith p n).callers.length = n := List.length_replicate

/-- Nothing is listed, nothing is live, and the position is the raster's first one. -/
theorem resetWith_storesOk (hv : 0 < p.vTotal) (hh : 0 < p.hTotal) : StoresOk (State.resetWith p n) where
  canonical := ⟨List.Pairwise.nil, fun _ hb => absurd hb List.not_mem_nil, List.Pairwise.nil⟩
  inRange   := by
    refine ⟨fun _ hb => absurd hb List.not_mem_nil, fun c hc e he => ?_⟩
    rw [eq_default_of_mem_reset_callers p n hc] at he
    cases he
  palette   := rfl
  bus       := ⟨by simp [State.resetWith, Buffer.live], by simp [State.resetWith]⟩
  scan      := ⟨hv, hh⟩

theorem resetWith_resourcesMatch : (State.resetWith p n).ResourcesMatch := by
  refine ⟨rfl, rfl, ?_, ?_, ?_, ?_⟩
  all_goals simp [State.resetWith]

theorem resetWith_useNeedsHandle : (State.resetWith p n).UseNeedsHandle := by
  refine ⟨fun c hc => ?_, by simp [State.resetWith, IsrPc.serving]⟩
  rw [eq_default_of_mem_reset_callers p n hc]
  simp [CallerPc.midOperation]

theorem resetWith_queueMatches : (State.resetWith p n).QueueMatches := by
  intro c hc
  rw [eq_default_of_mem_reset_callers p n hc]
  simp [CallerPc.waiting]

theorem resetWith_pollsBounded : (State.resetWith p n).PollsBounded := by
  intro c hc i hi
  rw [eq_default_of_mem_reset_callers p n hc] at hi
  cases hi

theorem resetWith_causeHeld : (State.resetWith p n).CauseHeld :=
  ⟨by simp [State.resetWith], by simp [State.resetWith]⟩

end Reset

/-- A well-formed raster has a position (R8, R310). -/
theorem Params.raster_pos_of_wf {p : Params} (h : p.wf = true) : 0 < p.vTotal ∧ 0 < p.hTotal := by
  simp only [Params.wf, Bool.and_eq_true, decide_eq_true_eq] at h
  obtain ⟨⟨⟨⟨-, hh⟩, -⟩, hv⟩, -⟩ := h
  exact ⟨hv, hh⟩

/-- Settles O57: the table's values by evaluation, the invariants one by one. -/
theorem resetMeetsTheInvariants : Obligations.ResetMeetsTheInvariants := by
  intro p n hp s
  obtain ⟨hv, hh⟩ := Params.raster_pos_of_wf hp
  obtain ⟨hcan, hrange, hpal, hbus, hscan⟩ := resetWith_storesOk p n hv hh
  refine ⟨rfl, rfl, rfl, rfl, rfl, rfl, rfl, rfl, rfl, rfl, rfl, rfl, resetWith_callers_length p n, fun c hc => ?_,
    hcan, hrange, hpal, hbus, hscan, resetWith_resourcesMatch p n, resetWith_useNeedsHandle p n, resetWith_queueMatches p n,
    resetWith_pollsBounded p n, resetWith_causeHeld p n⟩
  obtain rfl := eq_default_of_mem_reset_callers p n hc
  exact ⟨rfl, rfl, rfl, rfl, rfl, rfl, rfl, rfl⟩

end Sys2Proof.Machine

/-!
PROOF. The buffer's bytes under every operation (20_memory.md section 5, R82, R84, R314). The field is `s.buf.mem`: a step that
keeps it keeps every byte, whatever becomes of the rest of the record (its state at a write of `BUF` and at a release).
-/

namespace Sys2Proof.Machine

@[simp] theorem pollExhausted_buf (k : Nat) (K : Cont) (s : State) : (pollExhausted k K s).buf = s.buf := by
  obtain ⟨-, -, -, -, hbuf, -⟩ := pollExhausted_frame k K s
  exact hbuf

@[simp] theorem coordDecoded_buf (k : Nat) (dstOk : Bool) (K : Cont) (w : Word) (s : State) :
    (coordDecoded k dstOk K w s).buf = s.buf := by
  obtain ⟨-, -, -, -, hbuf, -⟩ := coordDecoded_frame k dstOk K w s
  exact hbuf

/-- Every operation but a drain, an allocation and a mapping keeps the buffer's memory: each of its outcomes is a chain of updates
that leave it alone. -/
theorem exec_keeps_mem {i : Instr} {s t : State} (h : exec i s = .next t) (hdrain : i ≠ .wcDrain) (halloc : i ≠ .lcAllocBuf)
    (hmap : i ≠ .lcMap) : t.buf.mem = s.buf.mem := by
  cases i with
  | wcDrain => exact absurd rfl hdrain
  | lcAllocBuf => exact absurd rfl halloc
  | lcMap => exact absurd rfl hmap
  | csrRead off => obtain ⟨-, rfl | ⟨-, r, rfl⟩ | ⟨-, -, rfl⟩⟩ := execCsrRead_next h <;> simp
  | csrWrite off => obtain ⟨-, rfl | ⟨-, r, rfl⟩ | ⟨-, -, rfl⟩⟩ := execCsrWrite_next h <;> simp
  | bufLoad w => obtain ⟨k, c, -, rfl | ⟨-, rfl⟩ | ⟨-, tp, fr, x, rfl⟩⟩ := execBufLoad_next h <;> simp
  | bufStore w => obtain ⟨k, c, -, rfl | ⟨-, rfl⟩ | ⟨-, -, rfl⟩⟩ := execBufStore_next h <;> simp
  | coordPoll =>
    obtain ⟨k, c, -, rfl | ⟨n, K, -, ⟨r, -, rfl⟩ | rfl | ⟨-, rfl⟩ | rfl⟩⟩ := execCoordPoll_next h <;> simp
  | coordRead => obtain ⟨k, c, -, rfl | ⟨K, -, ⟨r, -, rfl⟩ | rfl⟩⟩ := execCoordRead_next h <;> simp
  | coordClassify => obtain ⟨k, c, -, rfl | rfl⟩ := execCoordClassify_next h <;> simp
  | irqDeliver => obtain ⟨-, rfl | ⟨-, -, rfl⟩⟩ := execIrqDeliver_next h <;> simp
  | isrCheck => obtain ⟨-, rfl | ⟨-, ⟨r, -, rfl⟩ | ⟨-, rfl⟩ | ⟨-, rfl⟩⟩⟩ := execIsrCheck_next h <;> simp
  | isrStatus => obtain ⟨-, rfl | ⟨-, ⟨r, -, rfl⟩ | ⟨-, rfl⟩ | ⟨-, n, rfl⟩⟩⟩ := execIsrStatus_next h <;> simp
  | isrWake => obtain ⟨-, rfl | ⟨-, rfl⟩⟩ := execIsrWake_next h <;> simp
  | isrAck => obtain ⟨-, rfl | ⟨-, ⟨r, -, rfl⟩ | rfl⟩⟩ := execIsrAck_next h <;> simp
  | waitEnter => obtain ⟨k, c, -, rfl | ⟨-, rfl⟩ | ⟨-, -, rfl⟩⟩ := execWaitEnter_next h <;> simp
  | waitRegister => obtain ⟨k, c, -, rfl | ⟨-, rfl⟩⟩ := execWaitRegister_next h <;> simp
  | waitCheck => obtain ⟨k, c, -, rfl | ⟨-, ⟨e, rfl⟩ | rfl | rfl⟩⟩ := execWaitCheck_next h <;> simp
  | waitSleep => obtain ⟨k, c, -, rfl | ⟨-, rfl⟩⟩ := execWaitSleep_next h <;> simp
  | timerExpire => obtain ⟨k, c, -, -, rfl | ⟨-, rfl⟩⟩ := execTimerExpire_next h <;> simp
  | signalDeliver => obtain ⟨k, c, -, -, rfl | rfl⟩ := execSignalDeliver_next h <;> simp
  | lcAllocPal =>
    obtain ⟨-, rfl | rfl | ⟨-, -, ⟨e, tp, fr, rfl⟩ | ⟨tp, fr, rfl⟩⟩⟩ := execLcAllocPal_next h <;> simp
  | lcInstallIsr =>
    obtain ⟨-, rfl | rfl | ⟨-, -, ⟨e, tp, fr, rfl⟩ | ⟨tp, fr, rfl⟩⟩⟩ := execLcInstallIsr_next h <;> simp
  | lcPublish =>
    obtain ⟨-, rfl | ⟨r, d, rfl⟩ | ⟨-, -, -, ⟨e, tp, fr, rfl⟩ | ⟨tp, fr, rfl⟩⟩⟩ := execLcPublish_next h <;> simp
  | lcEnableIrq => obtain ⟨-, rfl | ⟨r, d, rfl⟩ | ⟨-, -, -, -, -, rfl⟩⟩ := execLcEnableIrq_next h <;> simp
  | lcStart => obtain ⟨-, rfl | ⟨r, d, rfl⟩ | ⟨-, -, -, -, rfl⟩⟩ := execLcStart_next h <;> simp
  | lcAbort => obtain ⟨-, rfl | rfl | ⟨e, -, -, rfl⟩⟩ := execLcAbort_next h <;> simp
  | lcDetachStop => obtain ⟨-, rfl | ⟨r, d, rfl⟩ | ⟨-, -, -, -, -, rfl⟩⟩ := execLcDetachStop_next h <;> simp
  | lcDetachDisable => obtain ⟨-, rfl | ⟨r, d, rfl⟩ | ⟨-, -, -, -, -, rfl⟩⟩ := execLcDetachDisable_next h <;> simp
  | lcDetachRelease => obtain ⟨-, rfl | rfl | ⟨-, -, -, -, -, rfl⟩⟩ := execLcDetachRelease_next h <;> simp
  | devAdvance => obtain ⟨-, rfl | ⟨-, ⟨d, rfl⟩ | rfl | ⟨b, rfl⟩⟩⟩ := execDevAdvance_next h <;> simp
  | devLatch => obtain ⟨-, rfl | ⟨w, rfl⟩⟩ := execDevLatch_next h <;> simp
  | fbRead => obtain ⟨k, c, -, rfl | ⟨-, rfl⟩ | ⟨-, tp, fr, bs, rfl⟩⟩ := execFbRead_next h <;> simp
  | fbWrite => obtain ⟨k, c, -, rfl | ⟨-, rfl⟩ | ⟨-, r, rfl⟩ | ⟨-, -, -, rfl⟩⟩ := execFbWrite_next h <;> simp
  | fbMmap => obtain ⟨k, c, -, rfl | ⟨-, rfl⟩ | ⟨-, rfl⟩ | ⟨-, -, rfl⟩⟩ := execFbMmap_next h <;> simp
  | fbCheckVar => obtain ⟨k, c, -, rfl | ⟨-, rfl⟩ | ⟨-, r, rfl⟩⟩ := execFbCheckVar_next h <;> simp
  | fbSetcolreg idx =>
    obtain ⟨k, c, -, rfl | ⟨-, rfl⟩ | ⟨-, rfl⟩ | ⟨-, -, v, rfl⟩⟩ := execFbSetcolreg_next h <;> simp
  | qFramepos => obtain ⟨k, c, -, rfl | ⟨-, rfl⟩ | ⟨-, -, rfl⟩⟩ := execQFramepos_next h <;> simp

/-- Settles O17: a byte of the buffer is a read of its memory, which the operation keeps (`exec_keeps_mem`). -/
theorem onlyDrainsAndNewBuffersChangeMemory : Obligations.OnlyDrainsAndNewBuffersChangeMemory := by
  intro i s t a h hdrain halloc hmap
  exact congrArg (fun m : Memory => m.read a) (exec_keeps_mem h hdrain halloc hmap)

end Sys2Proof.Machine

/-!
PROOF. Little-endian access across widths (R74). A word's bit is the bit of one of its bytes (`getLsbD_ofBytes`), memory holds a
string after it is written, and a caller with nothing pending reads exactly the bytes that memory holds.
-/

namespace Sys2Proof.Machine

/-! ### Words and their bytes -/

/-- Bit `i` of a word is bit `i % 8` of byte `i / 8` (R73). -/
theorem getLsbD_ofBytes (bs : List Byte) {i : Nat} (hi : i < 32) :
    (ofBytes bs).getLsbD i = (bs.getD (i / 8) 0).getLsbD (i % 8) := by
  induction bs generalizing i with
  | nil => simp [ofBytes]
  | cons b bs ih =>
    rw [ofBytes, BitVec.getLsbD_or, BitVec.getLsbD_setWidth, BitVec.getLsbD_shiftLeft]
    by_cases h8 : i < 8
    · rw [Nat.div_eq_of_lt h8, Nat.mod_eq_of_lt h8]
      simp [hi, h8]
    · have hdiv : i / 8 = (i - 8) / 8 + 1 := by omega
      have hmod : i % 8 = (i - 8) % 8 := by omega
      rw [ih (by omega), BitVec.getLsbD_of_ge b i (by omega), hdiv, hmod]
      simp [hi, h8]

/-- The four bytes of a word with `b` in the place of bits 31:24. -/
def bytesWithTop (v : Word) (b : Byte) : List Byte :=
  [v.extractLsb' 0 8, v.extractLsb' 8 8, v.extractLsb' 16 8, b]

theorem bytesWithTop_low (v : Word) (b : Byte) {j : Nat} (hj : j < 3) :
    (bytesWithTop v b)[j]? = some (v.extractLsb' (8 * j) 8) := by
  interval_cases j <;> rfl

/-- The mask of bits 23:0, a numeral cast to a word as in the statement. -/
theorem getLsbD_lowMask {i : Nat} (hi : i < 32) : ((0x00FFFFFF : Nat) : Word).getLsbD i = decide (i < 24) := by
  change (BitVec.ofNat 32 (2 ^ 24 - 1)).getLsbD i = decide (i < 24)
  rw [BitVec.getLsbD_ofNat, Nat.testBit_two_pow_sub_one]
  simp [hi]

/-- The word of those bytes keeps bits 23:0 and has `b` above them. -/
theorem ofBytes_bytesWithTop (v : Word) (b : Byte) :
    ofBytes (bytesWithTop v b) = (v &&& 0x00FFFFFF) ||| (zext 32 b <<< 24) := by
  apply BitVec.eq_of_getLsbD_eq
  intro i hi
  rw [getLsbD_ofBytes _ hi, BitVec.getLsbD_or, BitVec.getLsbD_and, getLsbD_lowMask hi, BitVec.getLsbD_shiftLeft,
    BitVec.getLsbD_setWidth, List.getD_eq_getElem?_getD]
  by_cases hlow : i < 24
  · have hbit : 8 * (i / 8) + i % 8 = i := Nat.div_add_mod i 8
    rw [bytesWithTop_low v b (by omega), Option.getD_some, BitVec.getLsbD_extractLsb', hbit]
    simp [hlow, Nat.mod_lt]
  · have hdiv : i / 8 = 3 := by omega
    have hmod : i % 8 = i - 24 := by omega
    have hrange : i - 24 < 32 := by omega
    rw [hdiv, hmod]
    simp [bytesWithTop, hi, hlow, hrange]

/-! ### Strings in memory -/

/-- Memory holds the string `bs` from `off` on. -/
def Memory.Holds (m : Memory) (off : Nat) (bs : List Byte) : Prop :=
  ∀ (j : Nat) b, bs[j]? = some b → m.read (off + j) = some b

/-- A string written is held. -/
theorem Memory.holds_writeBytes (m : Memory) (off : Nat) (bs : List Byte) : (Memory.writeBytes m off bs).Holds off bs := by
  intro j b hb
  have hj : j < bs.length := (List.getElem?_eq_some_iff.mp hb).1
  rw [Memory.read_writeBytes, if_pos ⟨by omega, by omega⟩, Nat.add_sub_cancel_left, hb]

/-- A word's bytes written are read back one by one (R73). -/
theorem Memory.read_writeBytes_bytesOf (m : Memory) (off : Nat) (v : Word) {n j : Nat} (hj : j < n) :
    (Memory.writeBytes m off (bytesOf n v)).read (off + j) = some (v.extractLsb' (8 * j) 8) :=
  Memory.holds_writeBytes m off (bytesOf n v) j _ ((bytesOf_get n v).2 j hj)

/-- Where a word's four bytes stand, a write of its last byte leaves the other three. -/
theorem Memory.holds_bytesWithTop {m : Memory} {off : Nat} {v : Word} (b : Byte)
    (hm : ∀ j, j < 4 → m.read (off + j) = some (v.extractLsb' (8 * j) 8)) :
    (Memory.writeBytes m (off + 3) [b]).Holds off (bytesWithTop v b) := by
  intro j x hx
  have hj : j < 4 := (List.getElem?_eq_some_iff.mp hx).1
  by_cases htop : j = 3
  · subst htop
    exact Memory.holds_writeBytes m (off + 3) [b] 0 x hx
  · rw [bytesWithTop_low v b (by omega)] at hx
    have hbelow : ¬ (off + 3 ≤ off + j ∧ off + j < off + 3 + [b].length) := by omega
    rw [Memory.read_writeBytes, if_neg hbelow, hm j hj, hx]

/-! ### A caller with nothing pending -/

/-- Such a caller's read of a byte that has a value returns it, and uses no draw (R83). -/
theorem loadByte_of_memByte {s : State} {c : Caller} {off : Nat} {b : Byte} (hc : c.wc = []) (hb : s.memByte off = some b) :
    loadByte s c off = (b, s) := by
  simp [loadByte, byteChoice, byteChosen, hc, pendingBytes, hb]

/-- Such a caller reads the string that memory holds (R164). -/
theorem loadBytes_of_holds {s : State} {c : Caller} (hc : c.wc = []) {off : Nat} {bs : List Byte} (h : s.buf.mem.Holds off bs) :
    loadBytes c off bs.length s = (bs, s) := by
  induction bs generalizing off with
  | nil => rfl
  | cons b bs ih =>
    have hfirst : s.memByte off = some b := h 0 b rfl
    have hrest : s.buf.mem.Holds (off + 1) bs := fun j x hx => by
      rw [Nat.add_assoc, Nat.add_comm 1 j]
      exact h (j + 1) x hx
    simp only [List.length_cons, loadBytes, loadByte_of_memByte hc hfirst, ih hrest]

/-- Settles O16: the bytes that the two writes leave, the word they spell, and the same bytes as a caller's read. -/
theorem mixedWidthAccessIsLittleEndian : Obligations.MixedWidthAccessIsLittleEndian := by
  intro m off v b
  have hword : ∀ j, j < 4 → (Memory.writeBytes m off (bytesOf 4 v)).read (off + j) = some (v.extractLsb' (8 * j) 8) :=
    fun _ hj => Memory.read_writeBytes_bytesOf m off v hj
  have hsecond : (Memory.writeBytes m off (bytesOf 4 v)).read (off + 1) = some (v.extractLsb' 8 8) := hword 1 (by decide)
  have htop := Memory.holds_bytesWithTop b hword
  refine ⟨hsecond, ⟨_, _, _, _, htop 0 _ rfl, htop 1 _ rfl, htop 2 _ rfl, htop 3 _ rfl, ofBytes_bytesWithTop v b⟩,
    fun s c hc => ⟨fun hs => ?_, fun hm hs => ?_⟩⟩
  · have hbyte : s.memByte (off + 1) = some (v.extractLsb' 8 8) := by
      rw [State.memByte, hs]
      exact hsecond
    simp only [loadBytes, loadByte_of_memByte hc hbyte]
  · have hheld : s.buf.mem.Holds off (bytesWithTop v b) := hs ▸ Memory.holds_bytesWithTop b hm
    have hload : loadBytes c off 4 s = (bytesWithTop v b, s) := loadBytes_of_holds hc hheld
    rw [hload, ofBytes_bytesWithTop]

end Sys2Proof.Machine

/-!
PROOF. The decoder and the encoder (30_encoding.md R109 to R113). A word splits at its argument's width into the fixed bits that
a row compares and the argument that it reads; each kind of row then spells exactly the words that `encode` gives its operations,
and no two rows match one word.
-/

namespace Sys2Proof

/-! ### A word's fixed bits and its argument -/

/-- The bits of a word above its low `n`: the masks of the rows with an argument. -/
def fixedBits (n : Nat) : OpWord := ~~~ zext 16 (BitVec.allOnes n)

theorem getElem_fixedBits (n j : Nat) (hj : j < 16) : (fixedBits n)[j] = decide (n ≤ j) := by
  rw [Bool.eq_iff_iff]
  simp [fixedBits]

theorem fixedBits_or_low (w : OpWord) (n : Nat) : w &&& fixedBits n ||| zext 16 (w.extractLsb' 0 n) = w := by
  ext j hj
  by_cases hn : n ≤ j
  · simp [getElem_fixedBits, hn]
  · simp [getElem_fixedBits, hn, hj, Nat.lt_of_not_le hn]

/-- A word whose fixed bits are `p` and whose low bits are `a` is `p` with the argument `a`, as `encode` builds it. -/
theorem fixed_and_low_iff {n : Nat} (hn : n ≤ 16) {p w : OpWord} (hp : p &&& fixedBits n = p) {a : BitVec n} :
    w &&& fixedBits n = p ∧ w.extractLsb' 0 n = a ↔ p ||| zext 16 a = w := by
  constructor
  · rintro ⟨rfl, rfl⟩
    exact fixedBits_or_low w n
  · rintro rfl
    rw [← hp]
    constructor <;> ext j hj
    · by_cases hle : n ≤ j <;> simp [getElem_fixedBits, hle]
    · have hw : j < 16 := by omega
      simp [getElem_fixedBits, hj, hw, Nat.not_le.mpr hj]

/-! ### What each kind of row spells -/

/-- A row reads a word as an operation. -/
def OpRow.Spells (r : OpRow) (w : OpWord) (i : Instr) : Prop := r.matches w = true ∧ r.read w = some i

theorem OpRow.matches_iff {r : OpRow} {w : OpWord} : r.matches w = true ↔ w &&& r.mask = r.pattern := beq_iff_eq

theorem argRow_spells {m : String} {p w : OpWord} {mk : BitVec 8 → Instr} {i : Instr} (hp : p &&& 0xFF00 = p) :
    (argRow m p mk).Spells w i ↔ ∃ a, mk a = i ∧ p ||| zext 16 a = w := by
  have hsplit (a : BitVec 8) : w &&& 0xFF00 = p ∧ opArg w = a ↔ p ||| zext 16 a = w :=
    fixed_and_low_iff (by decide : 8 ≤ 16) hp
  simp only [OpRow.Spells, OpRow.matches_iff, argRow, Option.some.injEq, ← hsplit]
  exact ⟨fun ⟨hm, hi⟩ => ⟨_, hi, hm, rfl⟩, fun ⟨_, hi, hm, ha⟩ => ⟨hm, ha ▸ hi⟩⟩

theorem widthRow_spells {m : String} {p w : OpWord} {mk : BitVec 2 → Instr} {i : Instr} (hp : p &&& 0xFFFC = p) :
    (widthRow m p mk).Spells w i ↔ ∃ a, a ≠ 3 ∧ mk a = i ∧ p ||| zext 16 a = w := by
  have hsplit (a : BitVec 2) : w &&& 0xFFFC = p ∧ opWidth w = a ↔ p ||| zext 16 a = w :=
    fixed_and_low_iff (by decide : 2 ≤ 16) hp
  simp only [OpRow.Spells, OpRow.matches_iff, widthRow, Option.ite_none_left_eq_some, Option.some.injEq, ← hsplit]
  exact ⟨fun ⟨hm, hne, hi⟩ => ⟨_, hne, hi, hm, rfl⟩, fun ⟨_, hne, hi, hm, ha⟩ => ⟨hm, ha ▸ hne, ha ▸ hi⟩⟩

theorem plainRow_spells {m : String} {p w : OpWord} {j i : Instr} : (plainRow m p j).Spells w i ↔ j = i ∧ p = w := by
  have hall : w &&& 0xFFFF = w := BitVec.and_allOnes
  simp only [OpRow.Spells, OpRow.matches_iff, plainRow, Option.some.injEq, hall, and_comm, @eq_comm _ w]

/-! ### The table -/

/-- Every operation that a row reads from a word is well formed and encodes to that word. -/
def OpRow.Sound (r : OpRow) : Prop := ∀ w i, r.Spells w i → i.wf = true ∧ encode i = w

theorem argRow_sound {m : String} {p : OpWord} {mk : BitVec 8 → Instr} (hp : p &&& 0xFF00 = p) :
    (argRow m p mk).Sound ↔ ∀ a, (mk a).wf = true ∧ encode (mk a) = p ||| zext 16 a := by
  simp only [OpRow.Sound, argRow_spells hp]
  exact ⟨fun h a => h _ _ ⟨a, rfl, rfl⟩, fun h _ _ ⟨a, hi, hw⟩ => hi ▸ hw ▸ h a⟩

theorem widthRow_sound {m : String} {p : OpWord} {mk : BitVec 2 → Instr} (hp : p &&& 0xFFFC = p) :
    (widthRow m p mk).Sound ↔ ∀ a, a ≠ 3 → (mk a).wf = true ∧ encode (mk a) = p ||| zext 16 a := by
  simp only [OpRow.Sound, widthRow_spells hp]
  exact ⟨fun h a hne => h _ _ ⟨a, hne, rfl, rfl⟩, fun h _ _ ⟨a, hne, hi, hw⟩ => hi ▸ hw ▸ h a hne⟩

theorem plainRow_sound {m : String} {p : OpWord} {i : Instr} :
    (plainRow m p i).Sound ↔ i.wf = true ∧ encode i = p := by
  simp only [OpRow.Sound, plainRow_spells]
  exact ⟨fun h => h _ _ ⟨rfl, rfl⟩, fun h _ _ ⟨hi, hw⟩ => hi ▸ hw ▸ h⟩

/-- Each row's operation is the one that `encode` gives the row's word (R111, R112). -/
theorem opRows_sound : ∀ r ∈ opRows, r.Sound := by
  simp [opRows, opRowsLow, opRowsHigh, argRow_sound, widthRow_sound, plainRow_sound, Instr.wf, encode]

theorem opRows_mask_highByte : ∀ r ∈ opRows, r.mask &&& 0xFF00 = 0xFF00 := by decide

/-- The rows' families and operation numbers differ. -/
theorem opRows_highByte_nodup : (opRows.map fun r => r.pattern &&& 0xFF00).Nodup := by decide

theorem OpRow.highByte_of_matches {r : OpRow} {w : OpWord} (hr : r ∈ opRows) (hm : r.matches w = true) :
    r.pattern &&& 0xFF00 = w &&& 0xFF00 := by
  rw [← OpRow.matches_iff.mp hm, BitVec.and_assoc, opRows_mask_highByte r hr]

/-- No word matches two rows. -/
theorem opRows_matches_unique {r r' : OpRow} {w : OpWord} (hr : r ∈ opRows) (hr' : r' ∈ opRows) (hm : r.matches w = true)
    (hm' : r'.matches w = true) : r = r' :=
  List.inj_on_of_nodup_map opRows_highByte_nodup hr hr'
    ((OpRow.highByte_of_matches hr hm).trans (OpRow.highByte_of_matches hr' hm').symm)

theorem decode_eq_some_iff {w : OpWord} {i : Instr} : decode w = some i ↔ ∃ r ∈ opRows, r.Spells w i := by
  have hfound {r : OpRow} (hf : opRows.find? (fun r : OpRow => r.matches w) = some r) : r ∈ opRows ∧ r.matches w = true :=
    ⟨List.mem_of_find?_eq_some hf, List.find?_some (p := fun r : OpRow => r.matches w) hf⟩
  simp only [decode, Option.bind_eq_some_iff]
  constructor
  · rintro ⟨r, hf, hread⟩
    exact ⟨r, (hfound hf).1, (hfound hf).2, hread⟩
  · rintro ⟨r, hr, hm, hread⟩
    have hany : ∃ r ∈ opRows, r.matches w = true := ⟨r, hr, hm⟩
    obtain ⟨r', hf⟩ := Option.isSome_iff_exists.mp (List.find?_isSome.mpr hany)
    have hsame : r = r' := opRows_matches_unique hr (hfound hf).1 hm (hfound hf).2
    exact ⟨r', hf, hsame ▸ hread⟩

theorem decode_of_spells {w : OpWord} {i : Instr} {r : OpRow} (n : Nat) (hr : opRows[n]? = some r) (hs : r.Spells w i) :
    decode w = some i := decode_eq_some_iff.mpr ⟨r, List.mem_of_getElem? hr, hs⟩

theorem decode_encode {i : Instr} (h : i.wf = true) : decode (encode i) = some i := by
  cases i with
  | csrRead off => exact decode_of_spells 0 rfl ((argRow_spells rfl).mpr ⟨off, rfl, rfl⟩)
  | csrWrite off => exact decode_of_spells 1 rfl ((argRow_spells rfl).mpr ⟨off, rfl, rfl⟩)
  | bufLoad v => exact decode_of_spells 2 rfl ((widthRow_spells rfl).mpr ⟨v, bne_iff_ne.mp h, rfl, rfl⟩)
  | bufStore v => exact decode_of_spells 3 rfl ((widthRow_spells rfl).mpr ⟨v, bne_iff_ne.mp h, rfl, rfl⟩)
  | fbSetcolreg idx => exact decode_of_spells 36 rfl ((argRow_spells rfl).mpr ⟨idx, rfl, rfl⟩)
  | _ => rfl

/-- Settles O1: a decoded word was read by a sound row, and `decode_encode` is the way back. -/
theorem decodeIffEncodes : Obligations.DecodeIffEncodes := by
  intro w i
  constructor
  · intro h
    obtain ⟨r, hr, hs⟩ := decode_eq_some_iff.mp h
    exact opRows_sound r hr w i hs
  · rintro ⟨hwf, rfl⟩
    exact decode_encode hwf

/-- Settles O3: the table's rows at twelve words, and five words that no row reads. -/
theorem tableWordsDecode : Obligations.TableWordsDecode := by
  unfold Obligations.TableWordsDecode
  decide

/-! ### The reserved words -/

/-- What R111 and R112 ask of a word's family, operation number and argument (R109). -/
abbrev FieldsSpell (fam op arg : Nat) : Prop :=
  op < opsInFamily fam ∧ (fam = 1 ∨ (fam = 8 ∧ op = 4) ∨ (fam = 2 ∧ op < 2 ∧ arg < 3) ∨ arg = 0)

/-- A word's three fields spell an operation. -/
abbrev WordSpells (w : OpWord) : Prop :=
  FieldsSpell (w.extractLsb' 12 4).toNat (w.extractLsb' 8 4).toNat (opArg w).toNat

/-- An argument leaves the fields above it alone. -/
theorem extractLsb'_or_zext {n k : Nat} (h : n ≤ k) (p : OpWord) (a : BitVec n) (len : Nat) :
    (p ||| zext 16 a).extractLsb' k len = p.extractLsb' k len := by
  have harg : (zext 16 a).extractLsb' k len = 0#len := by
    ext j hj
    simp [BitVec.getLsbD_of_ge a (k + j) (by omega)]
  rw [BitVec.extractLsb'_or, harg, BitVec.or_zero]

theorem wordSpells_or_zext {p : OpWord} (a : BitVec 8)
    (h : ∀ arg, FieldsSpell (p.extractLsb' 12 4).toNat (p.extractLsb' 8 4).toNat arg) : WordSpells (p ||| zext 16 a) := by
  rw [WordSpells, extractLsb'_or_zext (by decide), extractLsb'_or_zext (by decide)]
  exact h _

theorem wordSpells_encode {i : Instr} (h : i.wf = true) : WordSpells (encode i) := by
  cases i with
  | csrRead off => exact wordSpells_or_zext off fun _ => ⟨by decide, .inl rfl⟩
  | csrWrite off => exact wordSpells_or_zext off fun _ => ⟨by decide, .inl rfl⟩
  | fbSetcolreg idx => exact wordSpells_or_zext idx fun _ => ⟨by decide, .inr (.inl ⟨rfl, rfl⟩)⟩
  | bufLoad v => revert v; decide
  | bufStore v => revert v; decide
  | _ => decide

/-- A word is its family, its operation number and its argument. -/
theorem word_of_fields (w : OpWord) :
    ((w.extractLsb' 12 4 ++ w.extractLsb' 8 4) ++ (0 : BitVec 8) : OpWord) ||| zext 16 (opArg w) = w := by
  have hhigh : w.extractLsb' 12 4 ++ w.extractLsb' 8 4 = w.extractLsb' 8 8 :=
    BitVec.extractLsb'_append_extractLsb'_eq_extractLsb' rfl
  have hfixed : w.extractLsb' 8 8 ++ (0 : BitVec 8) = w &&& fixedBits 8 := by
    ext j hj
    rw [BitVec.getElem_append, BitVec.getElem_and, getElem_fixedBits]
    by_cases hlow : j < 8
    · simp [hlow]
    · have hle : 8 ≤ j := by omega
      simp [hlow, hle, BitVec.getLsbD_eq_getElem hj]
  rw [hhigh, hfixed]
  exact fixedBits_or_low w 8

/-- With argument 0 a word spells an operation if its family has one of that number. -/
theorem decode_isSome_of_lt_opsInFamily : ∀ fam op : BitVec 4, op.toNat < opsInFamily fam.toNat →
    (decode ((fam ++ op) ++ (0 : BitVec 8))).isSome = true := by decide

theorem decode_isSome_of_fieldsSpell {fam op : BitVec 4} {arg : BitVec 8} (h : FieldsSpell fam.toNat op.toNat arg.toNat) :
    (decode ((fam ++ op) ++ (0 : BitVec 8) ||| zext 16 arg)).isSome = true := by
  have htwo : ∀ n : BitVec 4, n.toNat < 2 → n = 0 ∨ n = 1 := by decide
  have hthree : ∀ n : BitVec 8, n.toNat < 3 → n = 0 ∨ n = 1 ∨ n = 2 := by decide
  obtain ⟨hop, hfam | ⟨hfam, hop4⟩ | ⟨hfam, hop2, harg⟩ | harg⟩ := h
  · obtain rfl : fam = 1 := BitVec.eq_of_toNat_eq hfam
    obtain rfl | rfl := htwo op hop
    · exact Option.isSome_of_eq_some (decode_encode (i := .csrRead arg) rfl)
    · exact Option.isSome_of_eq_some (decode_encode (i := .csrWrite arg) rfl)
  · obtain rfl : fam = 8 := BitVec.eq_of_toNat_eq hfam
    obtain rfl : op = 4 := BitVec.eq_of_toNat_eq hop4
    exact Option.isSome_of_eq_some (decode_encode (i := .fbSetcolreg arg) rfl)
  · obtain rfl : fam = 2 := BitVec.eq_of_toNat_eq hfam
    obtain rfl | rfl := htwo op hop2 <;> obtain rfl | rfl | rfl := hthree arg harg <;> rfl
  · obtain rfl : arg = 0 := BitVec.eq_of_toNat_eq harg
    rw [show zext 16 (0 : BitVec 8) = 0#16 from rfl, BitVec.or_zero]
    exact decode_isSome_of_lt_opsInFamily fam op hop

theorem decode_isSome_iff {w : OpWord} : (decode w).isSome = true ↔ WordSpells w := by
  constructor
  · intro h
    obtain ⟨i, hi⟩ := Option.isSome_iff_exists.mp h
    obtain ⟨hwf, rfl⟩ := (decodeIffEncodes w i).mp hi
    exact wordSpells_encode hwf
  · intro h
    rw [← word_of_fields w]
    exact decode_isSome_of_fieldsSpell h

/-- Settles O2: the words that decode are those whose fields spell an operation. -/
theorem refusedWordsAreTheReservedOnes : Obligations.RefusedWordsAreTheReservedOnes := by
  intro w
  exact Option.not_isSome_iff_eq_none.symm.trans (not_congr decode_isSome_iff)

end Sys2Proof

/-!
PROOF. Operations of the wrong agent (R113, R379): each guard refuses every agent but its own, and every meaning starts with its
guard.
-/

namespace Sys2Proof.Machine

theorem asCaller_wrongAgent {s : State} (h : s.agent.isCaller = false) (f : Nat → Caller → State → State) :
    asCaller s f = .refused .wrongAgent := by
  unfold asCaller
  split
  next k hk => simp [hk, Agent.isCaller] at h
  next => rfl

theorem asTimer_wrongAgent {s : State} (h : Instr.timerExpire.issuedBy s.agent = false) (f : Nat → Caller → State → State) :
    asTimer s f = .refused .wrongAgent := by
  unfold asTimer
  split
  next k hk => simp [hk, Instr.issuedBy] at h
  next => rfl

theorem asSignal_wrongAgent {s : State} (h : Instr.signalDeliver.issuedBy s.agent = false)
    (f : Nat → Caller → State → State) : asSignal s f = .refused .wrongAgent := by
  unfold asSignal
  split
  next k hk => simp [hk, Instr.issuedBy] at h
  next => rfl

theorem asWcDrain_wrongAgent {s : State} (h : Instr.wcDrain.issuedBy s.agent = false) (f : Nat → Caller → State → State) :
    asWcDrain s f = .refused .wrongAgent := by
  unfold asWcDrain
  split
  next k hk => simp [hk, Instr.issuedBy] at h
  next => rfl

theorem asPlatform_wrongAgent {s : State} (h : (s.agent == .platform) = false) (f : State → State) :
    asPlatform s f = .refused .wrongAgent := by
  unfold asPlatform
  split
  next hk => simp [hk] at h
  next => rfl

theorem asIsrAt_wrongAgent {s : State} (h : (s.agent == .isr) = false) (pc : IsrPc) (f : State → State) :
    asIsrAt pc s f = .refused .wrongAgent := by
  unfold asIsrAt
  split
  next hk => simp [hk] at h
  next => rfl

theorem asScanning_wrongAgent {s : State} (h : (s.agent == .device) = false) (f : State → State) :
    asScanning s f = .refused .wrongAgent := by
  unfold asScanning
  split
  next hk => simp [hk] at h
  next => rfl

theorem asLifecycle_wrongAgent {s : State} (h : (s.agent == .lifecycle) = false) (i : Instr) (adm : Bool) (f : State → State) :
    asLifecycle i s adm f = .refused .wrongAgent := by
  unfold asLifecycle
  split
  next hk => simp [hk] at h
  next => rfl

theorem asCsrMaster_wrongAgent {s : State} (h : (s.agent.isCaller || s.agent == .lifecycle) = false) (f : State → State) :
    asCsrMaster s f = .refused .wrongAgent := by
  unfold asCsrMaster
  split
  next k hk => simp [hk, Agent.isCaller] at h
  next hk => simp [hk] at h
  next => rfl

/-- Every meaning checks its agent first (R113, R379). -/
theorem exec_wrongAgent {i : Instr} {s : State} (hw : i.wf = true) (hi : i.issuedBy s.agent = false) :
    exec i s = .refused .wrongAgent := by
  cases i with
  | csrRead _ | csrWrite _ => apply asCsrMaster_wrongAgent hi
  | bufLoad v =>
    change execBufLoad v s = _
    rw [execBufLoad, if_neg (bne_iff_ne.mp hw)]
    apply asCaller_wrongAgent hi
  | bufStore v =>
    change execBufStore v s = _
    rw [execBufStore, if_neg (bne_iff_ne.mp hw)]
    apply asCaller_wrongAgent hi
  | wcDrain => apply asWcDrain_wrongAgent hi
  | irqDeliver => apply asPlatform_wrongAgent hi
  | isrCheck | isrStatus | isrWake | isrAck => apply asIsrAt_wrongAgent hi
  | timerExpire => apply asTimer_wrongAgent hi
  | signalDeliver => apply asSignal_wrongAgent hi
  | lcMap | lcAllocBuf | lcAllocPal | lcInstallIsr | lcPublish | lcEnableIrq | lcStart | lcAbort | lcDetachStop | lcDetachDisable
  | lcDetachRelease => apply asLifecycle_wrongAgent hi
  | devAdvance | devLatch => apply asScanning_wrongAgent hi
  | coordPoll | coordRead | coordClassify | waitEnter | waitRegister | waitCheck | waitSleep | fbRead | fbWrite | fbMmap
  | fbCheckVar | fbSetcolreg _ | qFramepos => apply asCaller_wrongAgent hi

/-- Settles O5: `step` looks at the fetched word and its agent before the meaning does, and every meaning looks at its agent. -/
theorem wrongWordsAndAgentsAreRefused : Obligations.WrongWordsAndAgentsAreRefused := by
  refine ⟨fun s q rest hs => ⟨fun hd => ?_, fun i hd hi => ?_⟩, fun i s hw hi => exec_wrongAgent hw hi⟩
  · simp only [step, fetch_cons hs, hd]
  · simp only [step, fetch_cons hs, hd, hi, Bool.false_eq_true, if_false]

end Sys2Proof.Machine

/-!
PROOF. The coordinate word (R104): three fields side by side.
-/

namespace Sys2Proof.Machine

theorem unpack_pack (f : BitVec 12) (r c : BitVec 10) : unpack (pack f r c) = { frame := f, row := r, col := c } := by
  have hframe : (pack f r c).extractLsb' 20 12 = f :=
    (BitVec.extractLsb'_append_eq_of_le (by decide)).trans BitVec.extractLsb'_append_eq_left
  have hrow : (pack f r c).extractLsb' 10 10 = r :=
    (BitVec.extractLsb'_append_eq_of_le (by decide)).trans BitVec.extractLsb'_append_eq_right
  have hcol : (pack f r c).extractLsb' 0 10 = c := BitVec.extractLsb'_append_eq_right
  rw [unpack, hframe, hrow, hcol]

theorem pack_unpack (w : Word) : pack (unpack w).frame (unpack w).row (unpack w).col = w :=
  calc (w.extractLsb' 20 12 ++ w.extractLsb' 10 10) ++ w.extractLsb' 0 10
    _ = w.extractLsb' 10 22 ++ w.extractLsb' 0 10 :=
        congrArg (· ++ _) (BitVec.extractLsb'_append_extractLsb'_eq_extractLsb' rfl)
    _ = w.extractLsb' 0 32 := BitVec.extractLsb'_append_extractLsb'_eq_extractLsb' rfl
    _ = w := BitVec.extractLsb'_eq_self

theorem toNat_append_eq_add {m n : Nat} (x : BitVec m) (y : BitVec n) : (x ++ y).toNat = x.toNat * 2 ^ n + y.toNat := by
  rw [BitVec.toNat_append, ← Nat.shiftLeft_add_eq_or_of_lt y.isLt, Nat.shiftLeft_eq]

theorem toNat_pack (f : BitVec 12) (r c : BitVec 10) :
    (pack f r c).toNat = f.toNat * 2 ^ 20 + r.toNat * 2 ^ 10 + c.toNat := by
  rw [pack, toNat_append_eq_add, toNat_append_eq_add]
  ring

theorem toNat_unpack (w : Word) :
    (unpack w).frame.toNat = w.toNat / 2 ^ 20 ∧ (unpack w).row.toNat = w.toNat / 2 ^ 10 % 2 ^ 10
      ∧ (unpack w).col.toNat = w.toNat % 2 ^ 10 := by
  have hw : w.toNat / 2 ^ 20 < 2 ^ 12 := Nat.div_lt_of_lt_mul w.isLt
  simpa [unpack, Nat.shiftRight_eq_div_pow] using hw

/-- Settles O21: the fields' numbers by shift and remainder; the inverse laws are those of appending and extracting. -/
theorem packAndUnpackAreInverse : Obligations.PackAndUnpackAreInverse := by
  refine ⟨fun w => ?_, fun f r c => ⟨unpack_pack f r c, toNat_pack f r c⟩⟩
  obtain ⟨hframe, hrow, hcol⟩ := toNat_unpack w
  exact ⟨hframe, hrow, hcol, pack_unpack w⟩

end Sys2Proof.Machine

/-!
PROOF. Who may change what (R132, R141, R413, R414). `OwnersOnly s t` says it of a step from `s` to `t`, and there is one rule per
kind of agent, which asks only for what that agent does not own; an operation's case is then the frame of the updates that its
inversion lemma names.
-/

namespace Sys2Proof.Machine

/-! ### What each agent leaves alone -/

/-- The fields of `CTRL`, `GIE`, `IER` and `BUF`, which only the lifecycle agent writes (R132). -/
def Csr.SameControl (c d : Csr) : Prop :=
  d.start = c.start ∧ d.autoRestart = c.autoRestart ∧ d.gieEnable = c.gieEnable ∧ d.frameEn = c.frameEn ∧ d.auxEn = c.auxEn
    ∧ d.buf = c.buf

/-- The coordinate latch but for a `VALID` that a read cleared (R141). -/
def Csr.SameLatch (c d : Csr) : Prop := d.coordData = c.coordData ∧ (d.valid = true → c.valid = true)

/-- The whole block but for a `VALID` that a read cleared: reads of registers change nothing else (R141). -/
def Csr.ReadOnly (c d : Csr) : Prop := ∃ v, d = { c with valid := v } ∧ (v = true → c.valid = true)

@[simp] theorem Csr.sameControl_refl (c : Csr) : c.SameControl c := ⟨rfl, rfl, rfl, rfl, rfl, rfl⟩

@[simp] theorem Csr.sameLatch_refl (c : Csr) : c.SameLatch c := ⟨rfl, id⟩

@[simp] theorem Csr.readOnly_refl (c : Csr) : c.ReadOnly c := ⟨c.valid, rfl, id⟩

@[simp] theorem Csr.sameControl_raiseFrame (c : Csr) : c.SameControl c.raiseFrame := ⟨rfl, rfl, rfl, rfl, rfl, rfl⟩

@[simp] theorem Csr.sameControl_latch (c : Csr) (w : Word) : c.SameControl (c.latch w) := ⟨rfl, rfl, rfl, rfl, rfl, rfl⟩

@[simp] theorem Csr.sameControl_clearIsr (c : Csr) (v : Word) : c.SameControl (c.clearIsr v) := ⟨rfl, rfl, rfl, rfl, rfl, rfl⟩

theorem Csr.ReadOnly.sameControl {c d : Csr} (h : c.ReadOnly d) : c.SameControl d := by
  obtain ⟨v, rfl, -⟩ := h
  exact ⟨rfl, rfl, rfl, rfl, rfl, rfl⟩

theorem Csr.ReadOnly.sameLatch {c d : Csr} (h : c.ReadOnly d) : c.SameLatch d := by
  obtain ⟨v, rfl, hv⟩ := h
  exact ⟨rfl, hv⟩

@[simp] theorem csrReadState_readOnly (s : State) (off : Nat) : s.csr.ReadOnly (csrReadState s off).csr :=
  csrReadState_csr_frame s off

@[simp] theorem csrReadState_sameControl (s : State) (off : Nat) : s.csr.SameControl (csrReadState s off).csr :=
  (csrReadState_readOnly s off).sameControl

@[simp] theorem csrReadState_sameLatch (s : State) (off : Nat) : s.csr.SameLatch (csrReadState s off).csr :=
  (csrReadState_readOnly s off).sameLatch

/-- No write reaches the latch (R139, R140). -/
@[simp] theorem csrWriteState_sameLatch_iff (c : Csr) (s : State) (off : Nat) (v : Word) :
    c.SameLatch (csrWriteState s off v).csr ↔ c.SameLatch s.csr := by simp [Csr.SameLatch]

@[simp] theorem advancePos_sameControl (s : State) : s.csr.SameControl (advancePos s).csr := by
  rcases advancePos_csr s with h | h <;> simp [h]

/-- The ISR's write of `ISR` (R137), or of that offset of the simulated block (R143), changes no control field and no engine. -/
theorem csrWriteState_at_isr {s : State} (hm : s.params.regMap.wf = true) (v : Word) :
    s.csr.SameControl (csrWriteState s s.params.regMap.isr v).csr ∧ (csrWriteState s s.params.regMap.isr v).dev = s.dev := by
  unfold csrWriteState writeEffect
  rw [regAt_isr hm]
  split <;> simp

/-! ### A fault sticks its own agent only -/

@[simp] theorem stick_lc_of_ne {s : State} (h : s.agent ≠ .lifecycle) : (stick s).lc = s.lc := by
  cases ha : s.agent with
  | lifecycle => exact absurd ha h
  | _ => simp [stick, ha]

@[simp] theorem stick_dev_of_ne {s : State} (h : s.agent ≠ .device) : (stick s).dev = s.dev := by
  cases ha : s.agent with
  | device => exact absurd ha h
  | _ => simp [stick, ha]

@[simp] theorem stick_isr_of_ne {s : State} (h : s.agent ≠ .isr) : (stick s).isr = s.isr := by
  cases ha : s.agent with
  | isr => exact absurd ha h
  | _ => simp [stick, ha]

/-! ### The ends of a poll and of a coordinate read -/

@[simp] theorem pollExhausted_sameOwned (k : Nat) (K : Cont) (s : State) :
    (pollExhausted k K s).csr = s.csr ∧ (pollExhausted k K s).lc = s.lc ∧ (pollExhausted k K s).dev = s.dev
      ∧ (pollExhausted k K s).isr = s.isr := by
  obtain ⟨-, hcsr, -, hdev, -, -, -, hlc, hisr, -⟩ := pollExhausted_frame k K s
  exact ⟨hcsr, hlc, hdev, hisr⟩

@[simp] theorem coordDecoded_sameOwned (k : Nat) (dstOk : Bool) (K : Cont) (w : Word) (s : State) :
    (coordDecoded k dstOk K w s).csr = s.csr ∧ (coordDecoded k dstOk K w s).lc = s.lc
      ∧ (coordDecoded k dstOk K w s).dev = s.dev ∧ (coordDecoded k dstOk K w s).isr = s.isr := by
  obtain ⟨-, hcsr, -, hdev, -, -, -, hlc, hisr, -⟩ := coordDecoded_frame k dstOk K w s
  exact ⟨hcsr, hlc, hdev, hisr⟩

/-! ### Only owners -/

/-- Only the agents that own a part of the machine change it in a step from `s` to `t`. -/
structure OwnersOnly (s t : State) : Prop where
  control : s.agent ≠ .lifecycle → s.csr.SameControl t.csr ∧ t.lc = s.lc
  engine  : s.agent ≠ .lifecycle → s.agent ≠ .device → t.dev = s.dev
  status  : s.agent ≠ .lifecycle → s.agent ≠ .isr → s.agent ≠ .device →
              t.csr.isrFrame = s.csr.isrFrame ∧ t.csr.isrAux = s.csr.isrAux
  latch   : s.agent ≠ .device → s.csr.SameLatch t.csr
  isr     : s.agent ≠ .isr → s.agent ≠ .platform → t.isr = s.isr

namespace OwnersOnly

variable {s t : State}

/-- A step that at most reads registers, by whatever agent: callers, timers, signals and drains own nothing here. -/
theorem of_reads (h : s.csr.ReadOnly t.csr ∧ t.lc = s.lc ∧ t.dev = s.dev ∧ t.isr = s.isr) : OwnersOnly s t := by
  obtain ⟨hcsr, hlc, hdev, hisr⟩ := h
  refine ⟨fun _ => ⟨hcsr.sameControl, hlc⟩, fun _ _ => hdev, fun _ _ _ => ?_, fun _ => hcsr.sameLatch, fun _ _ => hisr⟩
  obtain ⟨v, hv, -⟩ := hcsr
  rw [hv]
  exact ⟨rfl, rfl⟩

theorem of_lifecycle (ha : s.agent = .lifecycle) (h : s.csr.SameLatch t.csr ∧ t.isr = s.isr) : OwnersOnly s t :=
  ⟨fun hne => absurd ha hne, fun hne => absurd ha hne, fun hne => absurd ha hne, fun _ => h.1, fun _ _ => h.2⟩

theorem of_isr (ha : s.agent = .isr) (h : s.csr.SameControl t.csr ∧ s.csr.SameLatch t.csr ∧ t.lc = s.lc ∧ t.dev = s.dev) :
    OwnersOnly s t := by
  obtain ⟨hctl, hlatch, hlc, hdev⟩ := h
  exact ⟨fun _ => ⟨hctl, hlc⟩, fun _ _ => hdev, fun _ hne => absurd ha hne, fun _ => hlatch, fun hne => absurd ha hne⟩

theorem of_device (ha : s.agent = .device) (h : s.csr.SameControl t.csr ∧ t.lc = s.lc ∧ t.isr = s.isr) : OwnersOnly s t := by
  obtain ⟨hctl, hlc, hisr⟩ := h
  exact ⟨fun _ => ⟨hctl, hlc⟩, fun _ hne => absurd ha hne, fun _ _ hne => absurd ha hne, fun hne => absurd ha hne,
    fun _ _ => hisr⟩

theorem of_platform (ha : s.agent = .platform) (h : t.csr = s.csr ∧ t.lc = s.lc ∧ t.dev = s.dev) : OwnersOnly s t := by
  obtain ⟨hcsr, hlc, hdev⟩ := h
  exact ⟨fun _ => ⟨hcsr ▸ s.csr.sameControl_refl, hlc⟩, fun _ _ => hdev, fun _ _ _ => hcsr ▸ ⟨rfl, rfl⟩,
    fun _ => hcsr ▸ s.csr.sameLatch_refl, fun _ hne => absurd ha hne⟩

/-- A fault sticks the agent that raises it, and each agent owns its own stuck mark. -/
theorem of_fault (i : Instr) (r : FaultReason) (d : Datum) (s : State) : OwnersOnly s (raiseFault i r d s) :=
  ⟨fun ha => by simp [ha], fun _ ha => by simp [ha], fun _ _ _ => by simp, fun _ => by simp, fun ha _ => by simp [ha]⟩

end OwnersOnly

/-- Every operation is its agent's: the callers' operations and those of timers, signals and drains read at most, and each of the
others keeps what its agent does not own. -/
theorem exec_ownersOnly {i : Instr} {s t : State} (hm : s.params.regMap.wf = true) (h : exec i s = .next t) :
    OwnersOnly s t := by
  cases i with
  | csrRead off =>
    obtain ⟨-, rfl | ⟨-, r, rfl⟩ | ⟨-, -, rfl⟩⟩ := execCsrRead_next h
    · exact .of_reads (by simp)
    · exact .of_fault _ _ _ _
    · exact .of_reads (by simp)
  | csrWrite off =>
    obtain ⟨-, rfl | ⟨-, r, rfl⟩ | ⟨⟨ha, -⟩, -, rfl⟩⟩ := execCsrWrite_next h
    · exact .of_reads (by simp)
    · exact .of_fault _ _ _ _
    · exact .of_lifecycle ha (by simp)
  | bufLoad w =>
    obtain ⟨k, c, ⟨ha, -⟩, rfl | ⟨-, rfl⟩ | ⟨-, tp, fr, x, rfl⟩⟩ := execBufLoad_next h <;> exact .of_reads (by simp [ha])
  | bufStore w => obtain ⟨k, c, ⟨ha, -⟩, rfl | ⟨-, rfl⟩ | ⟨-, -, rfl⟩⟩ := execBufStore_next h <;> exact .of_reads (by simp [ha])
  | wcDrain =>
    obtain ⟨k, c, -, -, rfl | ⟨-, l, tp, fr, -, rfl⟩⟩ := execWcDrain_next h <;> exact .of_reads (by simp)
  | coordPoll =>
    obtain ⟨k, c, ⟨ha, -⟩, rfl | ⟨n, K, -, ⟨r, -, rfl⟩ | rfl | ⟨-, rfl⟩ | rfl⟩⟩ := execCoordPoll_next h <;>
      exact .of_reads (by simp [ha])
  | coordRead =>
    obtain ⟨k, c, ⟨ha, -⟩, rfl | ⟨K, -, ⟨r, -, rfl⟩ | rfl⟩⟩ := execCoordRead_next h <;> exact .of_reads (by simp [ha])
  | coordClassify => obtain ⟨k, c, -, rfl | rfl⟩ := execCoordClassify_next h <;> exact .of_reads (by simp)
  | irqDeliver => obtain ⟨ha, rfl | ⟨-, -, rfl⟩⟩ := execIrqDeliver_next h <;> exact .of_platform ha (by simp)
  | isrCheck =>
    obtain ⟨ha, rfl | ⟨-, ⟨r, -, rfl⟩ | ⟨-, rfl⟩ | ⟨-, rfl⟩⟩⟩ := execIsrCheck_next h <;> exact .of_isr ha (by simp [ha])
  | isrStatus =>
    obtain ⟨ha, rfl | ⟨-, ⟨r, -, rfl⟩ | ⟨-, rfl⟩ | ⟨-, n, rfl⟩⟩⟩ := execIsrStatus_next h <;> exact .of_isr ha (by simp [ha])
  | isrWake => obtain ⟨ha, rfl | ⟨-, rfl⟩⟩ := execIsrWake_next h <;> exact .of_isr ha (by simp)
  | isrAck =>
    obtain ⟨hctl, hdev⟩ := csrWriteState_at_isr hm s.isr.s
    obtain ⟨ha, rfl | ⟨-, ⟨r, -, rfl⟩ | rfl⟩⟩ := execIsrAck_next h
    · exact .of_isr ha (by simp)
    · exact .of_isr ha (by simp [ha])
    · exact .of_isr ha (by simp [hctl, hdev])
  | waitEnter => obtain ⟨k, c, ⟨ha, -⟩, rfl | ⟨-, rfl⟩ | ⟨-, -, rfl⟩⟩ := execWaitEnter_next h <;> exact .of_reads (by simp [ha])
  | waitRegister => obtain ⟨k, c, -, rfl | ⟨-, rfl⟩⟩ := execWaitRegister_next h <;> exact .of_reads (by simp)
  | waitCheck => obtain ⟨k, c, -, rfl | ⟨-, ⟨e, rfl⟩ | rfl | rfl⟩⟩ := execWaitCheck_next h <;> exact .of_reads (by simp)
  | waitSleep => obtain ⟨k, c, -, rfl | ⟨-, rfl⟩⟩ := execWaitSleep_next h <;> exact .of_reads (by simp)
  | timerExpire => obtain ⟨k, c, -, -, rfl | ⟨-, rfl⟩⟩ := execTimerExpire_next h <;> exact .of_reads (by simp)
  | signalDeliver => obtain ⟨k, c, -, -, rfl | rfl⟩ := execSignalDeliver_next h <;> exact .of_reads (by simp)
  | lcMap =>
    obtain ⟨ha, rfl | rfl | ⟨-, -, ⟨e, tp, fr, rfl⟩ | ⟨tp, fr, base, rfl⟩⟩⟩ := execLcMap_next h <;>
      exact .of_lifecycle ha (by simp [ha])
  | lcAllocBuf =>
    obtain ⟨ha, rfl | rfl | ⟨-, -, ⟨e, tp, fr, rfl⟩ | ⟨tp, fr, rfl⟩⟩⟩ := execLcAllocBuf_next h <;>
      exact .of_lifecycle ha (by simp [ha])
  | lcAllocPal =>
    obtain ⟨ha, rfl | rfl | ⟨-, -, ⟨e, tp, fr, rfl⟩ | ⟨tp, fr, rfl⟩⟩⟩ := execLcAllocPal_next h <;>
      exact .of_lifecycle ha (by simp [ha])
  | lcInstallIsr =>
    obtain ⟨ha, rfl | rfl | ⟨-, -, ⟨e, tp, fr, rfl⟩ | ⟨tp, fr, rfl⟩⟩⟩ := execLcInstallIsr_next h <;>
      exact .of_lifecycle ha (by simp [ha])
  | lcPublish =>
    obtain ⟨ha, rfl | ⟨r, d, rfl⟩ | ⟨-, -, -, ⟨e, tp, fr, rfl⟩ | ⟨tp, fr, rfl⟩⟩⟩ := execLcPublish_next h <;>
      exact .of_lifecycle ha (by simp [ha])
  | lcEnableIrq =>
    obtain ⟨ha, rfl | ⟨r, d, rfl⟩ | ⟨-, -, -, -, -, rfl⟩⟩ := execLcEnableIrq_next h <;> exact .of_lifecycle ha (by simp [ha])
  | lcStart =>
    obtain ⟨ha, rfl | ⟨r, d, rfl⟩ | ⟨-, -, -, -, rfl⟩⟩ := execLcStart_next h <;> exact .of_lifecycle ha (by simp [ha])
  | lcAbort =>
    obtain ⟨ha, rfl | rfl | ⟨e, -, -, rfl⟩⟩ := execLcAbort_next h <;> exact .of_lifecycle ha (by simp [ha])
  | lcDetachStop =>
    obtain ⟨ha, rfl | ⟨r, d, rfl⟩ | ⟨-, -, -, -, -, rfl⟩⟩ := execLcDetachStop_next h <;> exact .of_lifecycle ha (by simp [ha])
  | lcDetachDisable =>
    obtain ⟨ha, rfl | ⟨r, d, rfl⟩ | ⟨-, -, -, -, -, rfl⟩⟩ := execLcDetachDisable_next h <;>
      exact .of_lifecycle ha (by simp [ha])
  | lcDetachRelease =>
    obtain ⟨ha, rfl | rfl | ⟨-, -, -, -, -, rfl⟩⟩ := execLcDetachRelease_next h <;> exact .of_lifecycle ha (by simp [ha])
  | devAdvance =>
    obtain ⟨ha, rfl | ⟨-, ⟨d, rfl⟩ | rfl | ⟨b, rfl⟩⟩⟩ := execDevAdvance_next h
    · exact .of_device ha (by simp)
    · exact .of_device ha (by simp [ha])
    · exact .of_device ha (by simp)
    · have hctl : s.csr.SameControl (advancePos (scanoutState s b)).csr := by
        simpa using advancePos_sameControl (scanoutState s b)
      exact .of_device ha (by simp [hctl])
  | devLatch => obtain ⟨ha, rfl | ⟨w, rfl⟩⟩ := execDevLatch_next h <;> exact .of_device ha (by simp)
  | fbRead =>
    obtain ⟨k, c, ⟨ha, -⟩, rfl | ⟨-, rfl⟩ | ⟨-, tp, fr, bs, rfl⟩⟩ := execFbRead_next h <;> exact .of_reads (by simp [ha])
  | fbWrite =>
    obtain ⟨k, c, ⟨ha, -⟩, rfl | ⟨-, rfl⟩ | ⟨-, r, rfl⟩ | ⟨-, -, -, rfl⟩⟩ := execFbWrite_next h <;>
      exact .of_reads (by simp [ha])
  | fbMmap =>
    obtain ⟨k, c, ⟨ha, -⟩, rfl | ⟨-, rfl⟩ | ⟨-, rfl⟩ | ⟨-, -, rfl⟩⟩ := execFbMmap_next h <;> exact .of_reads (by simp [ha])
  | fbCheckVar =>
    obtain ⟨k, c, ⟨ha, -⟩, rfl | ⟨-, rfl⟩ | ⟨-, r, rfl⟩⟩ := execFbCheckVar_next h <;> exact .of_reads (by simp [ha])
  | fbSetcolreg idx =>
    obtain ⟨k, c, ⟨ha, -⟩, rfl | ⟨-, rfl⟩ | ⟨-, rfl⟩ | ⟨-, -, v, rfl⟩⟩ := execFbSetcolreg_next h <;>
      exact .of_reads (by simp [ha])
  | qFramepos => obtain ⟨k, c, ⟨ha, -⟩, rfl | ⟨-, rfl⟩ | ⟨-, -, rfl⟩⟩ := execQFramepos_next h <;> exact .of_reads (by simp [ha])

/-- Settles O58: `exec_ownersOnly`, clause by clause. -/
theorem onlyOwnersChangeTheRegisters : Obligations.OnlyOwnersChangeTheRegisters := by
  intro i s t hm h
  have ho := exec_ownersOnly hm h
  refine ⟨fun ha => ?_, ho.engine, ho.status, ho.latch, ho.isr⟩
  obtain ⟨⟨hstart, hauto, hgie, hframe, haux, hbuf⟩, hlc⟩ := ho.control ha
  exact ⟨hstart, hauto, hgie, hframe, haux, hbuf, hlc⟩

end Sys2Proof.Machine

/-!
PROOF. The register interface, operation by operation (40_register_interface.md). `exec` of a CSR operation is given once where its
checks pass and once where one raises a fault; the effect of an access is then given on the hardware's registers and in the
simulated block.
-/

namespace Sys2Proof.Machine

/-! ### CSR operations whose checks are decided -/

/-- CSR_WRITE by the lifecycle agent at a legal offset of the mapped block (R131, R132). -/
theorem exec_csrWrite_admitted {s : State} {off : BitVec 8} (hr : s.lc.res.regs = true) (hl : s.ByLifecycle)
    (ho : s.LegalOffset off) : exec (.csrWrite off) s = .next (csrWriteState s off.toNat s.opnd.v) := by
  change execCsrWrite off s = _
  rw [execCsrWrite, asCsrMaster_eq (.inl hl), mmioWrite_of_admitted (lifecycle_write_admitted hl.1 hr ho)]
  rfl

/-- An agent that issues CSR operations can be left stuck, so its fault is the one that the statements describe. -/
theorem State.CsrMaster.takesFault {s : State} (hm : s.CsrMaster) (i : Instr) (r : FaultReason) (d : Datum) :
    TakesFault i r d s (.next (raiseFault i r d s)) := by
  apply takesFault_raiseFault
  rcases hm with ⟨ha, -⟩ | ⟨k, c, ⟨ha, -⟩, -⟩
  · exact .inr (.inr (.inl ha))
  · exact .inl ⟨k, ha⟩

theorem csrRead_takesFault {s : State} {off : BitVec 8} {r : FaultReason} (hm : s.CsrMaster)
    (hc : checkAccess s .read off.toNat = some r) :
    TakesFault (.csrRead off) r (.offset off.toNat) s (exec (.csrRead off) s) := by
  change TakesFault _ _ _ s (execCsrRead off s)
  rw [execCsrRead, asCsrMaster_eq hm, mmioRead_of_fault hc]
  exact hm.takesFault _ _ _

theorem csrWrite_takesFault {s : State} {off : BitVec 8} {r : FaultReason} (hm : s.CsrMaster)
    (hc : checkAccess s .write off.toNat = some r) :
    TakesFault (.csrWrite off) r (.offset off.toNat) s (exec (.csrWrite off) s) := by
  change TakesFault _ _ _ s (execCsrWrite off s)
  rw [execCsrWrite, asCsrMaster_eq hm, mmioWrite_of_fault hc]
  exact hm.takesFault _ _ _

/-- Settles O7: the three checks in the order of R132 (`checkAccess_badOffset`, `checkAccess_unmapped`, `checkAccess_writePolicy`);
a caller may write no register. -/
theorem csrChecksFaultInOrder : Obligations.CsrChecksFaultInOrder := by
  intro s off hm
  refine ⟨fun ho => ?_, fun ho hr => ?_, fun ho hr ⟨k, ha⟩ => ?_⟩
  · exact ⟨csrRead_takesFault hm (checkAccess_badOffset _ ho), csrWrite_takesFault hm (checkAccess_badOffset _ ho)⟩
  · exact ⟨csrRead_takesFault hm (checkAccess_unmapped _ ho hr), csrWrite_takesFault hm (checkAccess_unmapped _ ho hr)⟩
  · have hpolicy : writeAllowed s.params.regMap s.agent off.toNat = false := by rw [ha]; rfl
    exact csrWrite_takesFault hm (checkAccess_writePolicy ho hr hpolicy)

/-! ### Reads -/

/-- What a read and its returned value leave alone. -/
theorem csrReadState_setRet_same (s : State) (off : Nat) (r : Ret) :
    SameBuffer s ((csrReadState s off).setRet r) ∧ SameControl s ((csrReadState s off).setRet r)
      ∧ SameRun s ((csrReadState s off).setRet r) :=
  ⟨⟨by simp, by simp, by simp, by simp [State.memByte]⟩, ⟨by simp, by simp⟩, ⟨by simp, by simp, by simp, by simp, by simp⟩⟩

/-- Settles O6: the value is `readValue_readsAs`'s or `readValue_readsAsUnfaithful`'s, and the rest is the frame of
`csrReadState`. -/
theorem csrReadReturnsTheRegister : Obligations.CsrReadReturnsTheRegister := by
  intro s off
  refine ⟨fun ⟨_, hr, hsim⟩ hm ho => ?_, fun k c hk hp => ⟨?_, ?_⟩⟩
  · refine ⟨_, _, exec_csrRead_admitted hr hm ho, rfl, fun hf => readValue_readsAs s _ ⟨hf, hsim⟩,
      fun hf => readValue_readsAsUnfaithful s _ hf hsim, ?_, by simp, by simp, by simp, by simp, by simp, ?_⟩
    · simp [csrReadState_csr, hsim, Csr.readEffect_eq]
    · exact csrReadState_setRet_same s off.toNat _
  · change Waits s (execCsrRead off s)
    exact asCsrMaster_elsewhere hk hp _
  · change Waits s (execCsrWrite off s)
    exact asCsrMaster_elsewhere hk hp _

/-! ### Writes of the hardware's registers -/

theorem Buffer.live_iff {b : Buffer} : b.live = true ↔ b.st = .allocated ∨ b.st = .programmed := by simp [Buffer.live]

/-- A write of `BUF` (R138) as one update. -/
theorem writeBuf_eq (s : State) (v : Word) :
    writeBuf s v =
      { s with
        csr := { s.csr with buf := some v }
        buf := if s.buf.st = .allocated ∨ s.buf.st = .programmed then
            { s.buf with st := if v = s.buf.bus then .programmed else .allocated } else s.buf } := by
  simp only [writeBuf, ← Buffer.live_iff]
  split <;> rfl

/-- Settles O9: each case is the arm of `writeEffect` for its register, the access noted. -/
theorem registerWritesStoreTheirBits : Obligations.RegisterWritesStoreTheirBits := by
  intro s off ⟨_, hr, hsim⟩ hl ho
  rw [exec_csrWrite_admitted hr hl ho, ← hl.1]
  simp only [csrWriteState, writeEffect, hsim, Bool.false_eq_true, if_false]
  cases regAt s.params.regMap off.toNat with
  | ctrl => trivial
  | buf =>
    dsimp only
    rw [writeBuf_eq]
    rfl
  | gie | ier | isr | coordData | coordCtrl | reserved => rfl

/-! ### Writes of `CTRL` -/

/-- A write of `CTRL` that starts an idle engine (R134). -/
theorem writeCtrl_of_start {s : State} {v : Word} (hrun : s.dev.run = .idle) (hv : v.getLsbD 0 = true) :
    writeCtrl s v = startScan (runAfterCtrl s.params.stopPolicy v s.dev.run) (s.setCsr (s.csr.storeCtrl v)) := by
  simp only [writeCtrl, hrun, hv, runAfterCtrl, if_true]

/-- Any other write of `CTRL` (R134): the run state may move, the position stays. -/
theorem writeCtrl_of_not_start {s : State} {v : Word} (h : ¬ (s.dev.run = .idle ∧ v.getLsbD 0 = true)) :
    writeCtrl s v = (s.setCsr (s.csr.storeCtrl v)).setDev
      { s.dev with run := runAfterCtrl s.params.stopPolicy v s.dev.run } := by
  have hstays : s.setCsr (s.csr.storeCtrl v) = (s.setCsr (s.csr.storeCtrl v)).setDev { s.dev with run := s.dev.run } := rfl
  unfold writeCtrl runAfterCtrl
  cases hrun : s.dev.run with
  | idle =>
    have hv : v.getLsbD 0 = false := by simpa only [hrun, true_and, Bool.not_eq_true] using h
    rw [hrun] at hstays
    simpa only [hv, Bool.false_eq_true, if_false] using hstays
  | running =>
    rw [hrun] at hstays
    cases hv : v.getLsbD 7 with
    | true => simpa only [if_true] using hstays
    | false => simp only [Bool.false_eq_true, if_false]
  | stopping =>
    rw [hrun] at hstays
    simp only [Bool.and_eq_true]
    split
    · rfl
    · exact hstays

theorem csrWriteState_ctrl {s : State} (hsim : s.params.simRegs = false) (v : Word) :
    csrWriteState s s.params.regMap.ctrl v = (writeCtrl s v).addEvent (.csr s.agent s.params.regMap.ctrl .write v) := by
  simp [csrWriteState, writeEffect, hsim]

/-- Settles O8: a start is `startScan` of the engine, and every other write moves the run state only. -/
theorem ctrlWriteStartsAndStops : Obligations.CtrlWriteStartsAndStops := by
  intro s off ⟨hwf, hr, hsim⟩ hp hl hoff
  have ho : s.LegalOffset off := by
    rw [State.LegalOffset, hoff]
    exact RegMap.legal_of_wf hwf (by simp [RegMap.offsets])
  refine ⟨_, exec_csrWrite_admitted hr hl ho, ?_⟩
  rw [hoff, csrWriteState_ctrl hsim, hl.1]
  by_cases hstart : s.dev.run = .idle ∧ s.opnd.v.getLsbD 0 = true
  · obtain ⟨hv, hh⟩ := Params.raster_pos_of_wf hp
    obtain ⟨row, col, frame, tp, fr, heq, hrow, hcol⟩ :=
      startScan_eq (runAfterCtrl s.params.stopPolicy s.opnd.v s.dev.run) (s.setCsr (s.csr.storeCtrl s.opnd.v))
    rw [writeCtrl_of_start hstart.1 hstart.2, heq, if_pos hstart]
    exact ⟨rfl, rfl, ⟨hrow hv, hcol hh⟩, rfl, rfl, rfl, rfl, rfl, ⟨rfl, rfl, rfl, fun _ => rfl⟩, ⟨rfl, rfl⟩,
      ⟨rfl, rfl, rfl, rfl, rfl⟩⟩
  · rw [writeCtrl_of_not_start hstart, if_neg hstart]
    exact ⟨rfl, rfl, rfl, rfl, rfl, rfl, rfl, rfl, ⟨rfl, rfl, rfl, fun _ => rfl⟩, ⟨rfl, rfl⟩, ⟨rfl, rfl, rfl, rfl, rfl⟩⟩

/-! ### The simulated block -/

/-- With `SIM_REGS` a write is one of storage (R143). -/
theorem csrWriteState_sim {s : State} (hsim : s.params.simRegs = true) (off : Nat) (v : Word) :
    csrWriteState s off v = (s.setSim (Table.write s.sim off v)).addEvent (.csr s.agent off .write v) := by
  simp [csrWriteState, writeEffect, hsim]

/-- With `SIM_REGS` a read returns the word last written to its offset (R143). -/
theorem readValue_sim {s : State} (hsim : s.params.simRegs = true) {off : Nat} {v : Word}
    (hv : Table.read s.sim off = some v) : readValue s off = v := by
  simp [readValue, readDrawMask, readStored, hsim, hv]

/-- Settles O10: a write is one of the table, a read one of its entry, and neither reaches the hardware's block. -/
theorem simulatedBlockStoresWords : Obligations.SimulatedBlockStoresWords := by
  intro s off hsim hr ho
  refine ⟨fun hl => ?_, fun hm => ?_⟩
  · refine ⟨_, exec_csrWrite_admitted hr hl ho, ?_⟩
    rw [csrWriteState_sim hsim, hl.1]
    exact ⟨fun a => Table.read_write _ _ _ _, rfl, rfl, rfl, rfl, rfl, ⟨rfl, rfl, rfl, fun _ => rfl⟩, ⟨rfl, rfl⟩,
      ⟨rfl, rfl, rfl, rfl, rfl⟩⟩
  · have hcsr : (csrReadState s off.toNat).csr = s.csr := by rw [csrReadState_csr, if_pos hsim]
    exact ⟨_, _, exec_csrRead_admitted hr hm ho, rfl, fun v hv => readValue_sim hsim hv, by simp, by simp, by simp,
      ⟨by simpa using hcsr, by simp, by simp⟩, csrReadState_setRet_same s off.toNat _⟩

end Sys2Proof.Machine

/-!
PROOF. Buffer access and the write-combining path (41_dma_buffer.md R164 to R166). A load and a store are given once where the
caller's mapping admits the access and once where it does not. A drain is the update `drainState` for the set its draw chooses;
`drainChoice_drawFor` says that every allowed set is the one that some draw chooses.
-/

namespace Sys2Proof.Machine

/-! ### Mapped accesses -/

/-- Where a caller's step raises a fault, it is the one that the statements describe: a caller can be left stuck. -/
theorem asCallerAt_takesFault {s : State} {k : Nat} {c : Caller} {pc : CallerPc} {f : Nat → Caller → State → State} {i : Instr}
    {r : FaultReason} {d : Datum} (hk : s.ByCaller k c) (hpc : c.pc = pc) (hf : f k c s = raiseFault i r d s) :
    TakesFault i r d s (asCallerAt pc s f) := by
  rw [asCallerAt_eq hk hpc, hf]
  exact takesFault_raiseFault (.inl ⟨k, hk.1⟩)

/-- A step that uses draws and returns a value leaves everything else alone. -/
theorem State.withDraws_setRet_same (s : State) (tp : List Nat) (fr : Nat) (r : Ret) :
    SameDevice s ((s.withDraws tp fr).setRet r) ∧ SameBuffer s ((s.withDraws tp fr).setRet r)
      ∧ SameControl s ((s.withDraws tp fr).setRet r) ∧ SameRun s ((s.withDraws tp fr).setRet r)
      ∧ SameLog s ((s.withDraws tp fr).setRet r) :=
  ⟨⟨rfl, rfl, rfl⟩, ⟨rfl, rfl, rfl, fun _ => rfl⟩, ⟨rfl, rfl⟩, ⟨rfl, rfl, rfl, rfl, rfl⟩, ⟨rfl, rfl⟩⟩

/-- Settles O12: the admitted load returns the bytes of `loadBytes_eq`; every other one at `C_IDLE` takes the fault. -/
theorem bufLoadReturnsAllowedBytes : Obligations.BufLoadReturnsAllowedBytes := by
  intro s k c w hw hk
  refine ⟨fun hpc => ?_, fun hpc => ⟨fun hok => ?_, fun hbad => ?_⟩⟩
  · change Waits s (execBufLoad w s)
    rw [execBufLoad, if_neg hw]
    exact asCallerAt_elsewhere hk hpc _
  · obtain ⟨bs, tp, fr, hload, hlen, hallowed⟩ := loadBytes_eq c s.opnd.off (widthBytes w) s
    have hexec := exec_bufLoad_admitted hw hk hpc (mappedAccessOk_iff.mpr hok)
    rw [hload] at hexec
    exact ⟨bs, _, hexec, hlen, hallowed, rfl, rfl, State.withDraws_setRet_same s tp fr _⟩
  · change TakesFault _ _ _ s (execBufLoad w s)
    rw [execBufLoad, if_neg hw]
    exact asCallerAt_takesFault hk hpc (if_neg (mt mappedAccessOk_iff.mp hbad))

/-- BUF_STORE of an access the caller's mapping admits (R165). -/
theorem exec_bufStore_admitted {s : State} {k : Nat} {c : Caller} {w : BitVec 2} (hw : w ≠ 3) (hk : s.ByCaller k c)
    (hpc : c.pc = .cIdle) (ha : mappedAccessOk s c s.opnd.off (widthBytes w) = true) :
    exec (.bufStore w) s
      = .next (s.modCaller k fun x =>
          { x with wc := x.wc ++ [{ off := s.opnd.off, bytes := bytesOf (widthBytes w) s.opnd.v }] }) := by
  change execBufStore w s = _
  rw [execBufStore, if_neg hw, asCallerAt_eq hk hpc, if_pos ha]

/-- Settles O13: the admitted store appends the bytes of `bytesOf_get`, and only its caller's record is written; every other one at
`C_IDLE` takes the fault. -/
theorem bufStoreAppendsToTheWritePath : Obligations.BufStoreAppendsToTheWritePath := by
  intro s k c w hw hk
  refine ⟨fun hpc => ?_, fun hpc => ⟨fun hok => ?_, fun hbad => ?_⟩⟩
  · change Waits s (execBufStore w s)
    rw [execBufStore, if_neg hw]
    exact asCallerAt_elsewhere hk hpc _
  · obtain ⟨hlen, hbytes⟩ := bytesOf_get (widthBytes w) s.opnd.v
    have hexec := exec_bufStore_admitted hw hk hpc (mappedAccessOk_iff.mpr hok)
    rw [State.modCaller_eq hk.2] at hexec
    exact ⟨_, _, hexec, hlen, hbytes, rfl, rfl, ⟨rfl, rfl, rfl⟩, ⟨rfl, rfl, rfl, fun _ => rfl⟩, ⟨rfl, rfl⟩,
      ⟨rfl, rfl, rfl, rfl, rfl⟩, ⟨rfl, rfl⟩⟩
  · change TakesFault _ _ _ s (execBufStore w s)
    rw [execBufStore, if_neg hw]
    exact asCallerAt_takesFault hk hpc (if_neg (mt mappedAccessOk_iff.mp hbad))

/-! ### What a drain of a set does -/

/-- Caller `k`'s pending writes drain by the choice `l`, one draw used. -/
def drainState (s : State) (k : Nat) (l : List (Bool × WcEntry)) : State :=
  (s.drawn.modCaller k fun x => { x with wc := undrained l }).setBuf
    { s.buf with mem := if s.buf.live then drainInto s.buf.mem (drained l) else s.buf.mem }

/-- WC_DRAIN with entries pending drains the set that its draw chooses (R166). -/
theorem exec_wcDrain_of_pending {s : State} {k : Nat} {c : Caller} (ha : s.agent = .wcDrain k) (hc : s.callers[k]? = some c)
    (hw : c.wc ≠ []) : exec .wcDrain s = .next (drainState s k (drainChoice s.draw c.wc)) := by
  have hne : ¬ c.wc.isEmpty = true := mt List.isEmpty_iff.mp hw
  change execWcDrain s = _
  rw [execWcDrain, asWcDrain_eq ha hc, if_neg hne]
  dsimp only
  split
  next hlive => rw [drainState, if_pos hlive]
  next hdead =>
    have hbuf (t : State) (h : t.buf = s.buf) : t.setBuf s.buf = t := h ▸ rfl
    rw [drainState, if_neg hdead, hbuf _ (by simp)]

/-- WC_DRAIN with nothing pending waits. -/
theorem exec_wcDrain_of_empty {s : State} {k : Nat} {c : Caller} (ha : s.agent = .wcDrain k) (hc : s.callers[k]? = some c)
    (hw : c.wc = []) : Waits s (exec .wcDrain s) := by
  change execWcDrain s = _
  rw [execWcDrain, asWcDrain_eq ha hc, if_pos (List.isEmpty_iff.mpr hw)]
  rfl

/-- The set leaves the list of its caller, and no other caller's record changes. -/
theorem drainState_callers {s : State} {k : Nat} {c : Caller} (hc : s.callers[k]? = some c) (l : List (Bool × WcEntry)) :
    (drainState s k l).callers = s.callers.set k { c with wc := undrained l } := by
  have hc' : s.drawn.callers[k]? = some c := by rwa [State.drawn_callers]
  rw [drainState, State.modCaller_eq hc', State.setBuf_callers, State.drawn_callers]

/-- Each byte of a live buffer is the latest drained one or the old one (R82); one of any other buffer keeps its value. -/
theorem drainState_memByte (s : State) (k : Nat) (l : List (Bool × WcEntry)) (a : Nat) :
    (drainState s k l).memByte a =
      if s.buf.live = true then ((pendingBytes (drained l) a).getLast?).or (s.memByte a) else s.memByte a := by
  simp only [State.memByte, drainState, State.setBuf_buf]
  split
  next => rw [drainInto_read]
  next => rfl

/-- A drain leaves everything outside its caller's list, the buffer's bytes and the draws alone. -/
theorem drainState_same (s : State) (k : Nat) (l : List (Bool × WcEntry)) :
    (drainState s k l).oldBufs = s.oldBufs ∧ (drainState s k l).pal = s.pal ∧ SameDevice s (drainState s k l)
      ∧ SameControl s (drainState s k l) ∧ SameRun s (drainState s k l) ∧ SameLog s (drainState s k l) := by
  obtain ⟨tp, fr, hdrawn⟩ := s.drawn_eq
  rw [drainState, hdrawn]
  exact ⟨rfl, rfl, ⟨rfl, rfl, rfl⟩, ⟨rfl, rfl⟩, ⟨rfl, rfl, rfl, rfl, rfl⟩, ⟨rfl, rfl⟩⟩

/-- Settles O14: the set is the one the draw chooses (`drainChoice_isDrainSet`), the rest is what `drainState` changes. -/
theorem drainWritesAnAllowedSet : Obligations.DrainWritesAnAllowedSet := by
  intro s k c ha hc
  refine ⟨exec_wcDrain_of_empty ha hc, fun hw => ?_⟩
  refine ⟨_, _, exec_wcDrain_of_pending ha hc hw, drainChoice_isDrainSet s.draw hw, drainState_callers hc _,
    drainState_memByte s k _, rfl, rfl, rfl, drainState_same s k _⟩

/-! ### The draw that chooses a given set -/

/-- The draw for a set: bit `j` is 1 when entry `j` is in it. -/
def drawFor : List (Bool × WcEntry) → Nat
  | [] => 0
  | p :: l => Nat.bit p.1 (drawFor l)

/-- Reading that number gives the set back. -/
theorem pickEntries_drawFor (l : List (Bool × WcEntry)) : pickEntries (drawFor l) (l.map fun p => p.2) = l := by
  induction l with
  | nil => rfl
  | cons p l ih =>
    have hbit : (Nat.bit p.1 (drawFor l) % 2 == 1) = p.1 := by rw [Nat.bit_mod_two]; cases p.1 <;> rfl
    rw [drawFor, List.map_cons, pickEntries, hbit, Nat.bit_div_two, ih]

/-- Entries that overlap cover a byte in common: the one where the later of the two begins. -/
theorem WcEntry.exists_covers_of_overlaps {e f : WcEntry} (h : e.overlaps f = true) :
    ∃ a, e.covers a = true ∧ f.covers a = true := by
  simp only [WcEntry.overlaps, Bool.and_eq_true, decide_eq_true_eq, Bool.not_eq_true', List.isEmpty_eq_false_iff,
    ← List.length_pos_iff] at h
  obtain ⟨⟨⟨hef, hfe⟩, he⟩, hf⟩ := h
  refine ⟨max e.off f.off, ?_⟩
  simp only [WcEntry.covers, Bool.and_eq_true, decide_eq_true_eq]
  omega

/-- An entry that the set's order lets stand before it stays as it is. -/
theorem closeEntry_of_order {p : Bool × WcEntry} {l : List (Bool × WcEntry)} (h : ∀ q ∈ l, DrainOrder p q) :
    closeEntry p l = p :: l := by
  have hin : (l.any fun q => q.1 && p.2.overlaps q.2) = true → p.1 = true := fun hany => by
    obtain ⟨q, hq, hover⟩ := List.any_eq_true.mp hany
    obtain ⟨hq1, hover⟩ := Bool.and_eq_true_iff.mp hover
    obtain ⟨a, hpa, hqa⟩ := WcEntry.exists_covers_of_overlaps hover
    exact h q hq a hq1 hpa hqa
  rw [closeEntry, Bool.or_eq_left_iff_imp.mpr hin]

/-- A set that is closed already is its own closure. -/
theorem closeEntries_of_order {l : List (Bool × WcEntry)} (h : l.Pairwise DrainOrder) : closeEntries l = l := by
  induction l with
  | nil => rfl
  | cons p l ih =>
    obtain ⟨hp, hl⟩ := List.pairwise_cons.mp h
    change closeEntry p (closeEntries l) = p :: l
    rw [ih hl, closeEntry_of_order hp]

/-- A set with an entry in it needs no other. -/
theorem someEntry_of_nonempty {l : List (Bool × WcEntry)} (h : ∃ p ∈ l, p.1 = true) : someEntry l = l := by
  cases l with
  | nil => rfl
  | cons p r =>
    have hin : (!(r.any fun q => q.1)) = true → p.1 = true := fun hnone => by
      obtain ⟨q, hq, hq1⟩ := h
      rcases List.mem_cons.mp hq with rfl | hq
      · exact hq1
      · rw [List.any_eq_true.mpr ⟨q, hq, hq1⟩] at hnone
        cases hnone
    change (p.1 || !(r.any fun q => q.1), p.2) :: r = p :: r
    rw [Bool.or_eq_left_iff_imp.mpr hin]

/-- Every allowed set is the one that its own draw chooses. -/
theorem drainChoice_drawFor {wc : List WcEntry} {l : List (Bool × WcEntry)} (h : DrainSet wc l) :
    drainChoice (drawFor l) wc = l := by
  obtain ⟨hsnd, hsome, horder⟩ := h
  rw [drainChoice, ← hsnd, pickEntries_drawFor, closeEntries_of_order horder, someEntry_of_nonempty hsome]

/-- An allowed set has an entry, so something is pending. -/
theorem DrainSet.pending_ne_nil {wc : List WcEntry} {l : List (Bool × WcEntry)} (h : DrainSet wc l) : wc ≠ [] := by
  obtain ⟨hsnd, ⟨p, hp, -⟩, -⟩ := h
  rw [← hsnd]
  exact List.ne_nil_of_mem (List.mem_map_of_mem hp)

/-- Settles O15: the draw is `drawFor` of the set. -/
theorem drainMayTakeEveryAllowedSet : Obligations.DrainMayTakeEveryAllowedSet := by
  intro s k c l ha hc hl
  have hexec := exec_wcDrain_of_pending (s := { s with tape := [drawFor l] }) ha hc hl.pending_ne_nil
  rw [State.draw_of_tape _ (drawFor l) [] rfl, drainChoice_drawFor hl] at hexec
  exact ⟨_, _, hexec, drainState_callers (s := { s with tape := [drawFor l] }) hc l⟩

end Sys2Proof.Machine

/-!
PROOF. The coordinate decoder (42_coordinate_decoder.md R190 to R192), and the accesses of waits, queries and the ISR, which the
invariants keep from faulting: whoever is inside an operation holds the registers. A decoder step changes only its caller's record,
the history and the returned value, so each of its outcomes is one `State.afterCaller` of the state after the read.
-/

namespace Sys2Proof.Machine

/-! ### Registers whose access is admitted -/

/-- A read of a named register passes the checks of R132 while the block is mapped. -/
theorem checkAccess_read_register {s : State} {o : Nat} (hm : s.params.regMap.wf = true) (hr : s.lc.res.regs = true)
    (ho : o ∈ s.params.regMap.offsets) : checkAccess s .read o = none := by
  obtain ⟨halign, hlen⟩ := RegMap.legal_of_wf hm ho
  exact checkAccess_read_none.mpr ⟨halign, hlen, hr⟩

/-- The write policy lets the ISR write `ISR` (R132). -/
theorem checkAccess_write_isr {s : State} (hm : s.params.regMap.wf = true) (hr : s.lc.res.regs = true) (ha : s.agent = .isr) :
    checkAccess s .write s.params.regMap.isr = none := by
  obtain ⟨halign, hlen⟩ := RegMap.legal_of_wf hm (o := s.params.regMap.isr) (by simp [RegMap.offsets])
  exact checkAccess_write_none.mpr ⟨halign, hlen, hr, by simp [ha, writeAllowed]⟩

/-- The handler is released no later than the registers that it reads (R277, R285). -/
theorem heldAt_regs_of_irq {l : LcState} (h : (heldAt l).irq = true) : (heldAt l).regs = true := by
  cases l with
  | interruptArmed | published | running => rfl
  | unattached | registersMapped | bufferAllocated | paletteAllocated | detached => cases h

/-- A caller inside an operation holds the registers: it is there only at `RUNNING` (R285, R286). -/
theorem regs_held_of_midOperation {s : State} {k : Nat} {c : Caller} (hres : s.ResourcesMatch) (huse : s.UseNeedsHandle)
    (hk : s.ByCaller k c) (hp : c.pc.midOperation = true) : s.lc.res.regs = true := by
  obtain ⟨hheld, -⟩ := hres
  obtain ⟨hcallers, -⟩ := huse
  obtain ⟨hmid, -⟩ := hcallers c (List.mem_of_getElem? hk.2)
  rw [hheld, (hmid hp).1]
  rfl

/-- The ISR inside an invocation holds the registers: it runs only while it is installed (R285). -/
theorem regs_held_of_serving {s : State} (hres : s.ResourcesMatch) (huse : s.UseNeedsHandle) (hp : s.isr.pc.serving = true) :
    s.lc.res.regs = true := by
  obtain ⟨hheld, -⟩ := hres
  obtain ⟨-, hirq⟩ := huse
  have hinstalled := hirq hp
  rw [hheld] at hinstalled ⊢
  exact heldAt_regs_of_irq hinstalled

/-! ### Words read -/

/-- Bit 0 alone decides the test of `VALID` (R103, R190). -/
theorem and_validMask_ne_zero_iff {r : Word} : r &&& validMask ≠ 0 ↔ r.getLsbD 0 = true := by
  change r &&& 1#32 ≠ 0 ↔ _
  rw [BitVec.and_one_eq_setWidth_ofBool_getLsbD]
  cases r.getLsbD 0 <;> decide

/-- On faithful hardware `COORD_CTRL` reads as `VALID` (R41). -/
theorem readValue_coordCtrl {s : State} (hm : s.params.regMap.wf = true) (h : s.Faithful) :
    readValue s s.params.regMap.coordCtrl = if s.csr.valid then 1 else 0 := by
  simp [readValue, readDrawMask, readStored, h, regAt_coordCtrl hm, Csr.regDrawMask, Csr.regWord, Csr.coordCtrlWord, bitAt]

/-- On faithful hardware `ISR` reads as the stored status (R38). -/
theorem readValue_isr {s : State} (hm : s.params.regMap.wf = true) (h : s.Faithful) :
    readValue s s.params.regMap.isr = s.csr.isrWord := by
  simp [readValue, readDrawMask, readStored, h, regAt_isr hm, Csr.regDrawMask, Csr.regWord]

/-- `COORD_DATA` reads as the latched word, on any hardware (R40). -/
theorem readValue_coordData {s : State} {v : Word} (hm : s.params.regMap.wf = true) (hsim : s.params.simRegs = false)
    (hv : s.csr.coordData = some v) : readValue s s.params.regMap.coordData = v := by
  simp [readValue, readDrawMask, readStored, hsim, regAt_coordData hm, Csr.regDrawMask, Csr.regWord, hv]

/-! ### The state after a caller's step -/

/-- Caller `k`'s record, the events noted and the value returned, all else as it was. -/
def State.afterCaller (s : State) (k : Nat) (c : Caller) (es : List Event) (r : Ret) : State :=
  { s with callers := s.callers.set k c, history := s.history ++ es, ret := r }

@[simp] theorem State.afterCaller_csr (s : State) (k : Nat) (c : Caller) (es : List Event) (r : Ret) :
    (s.afterCaller k c es r).csr = s.csr := rfl
@[simp] theorem State.afterCaller_callers (s : State) (k : Nat) (c : Caller) (es : List Event) (r : Ret) :
    (s.afterCaller k c es r).callers = s.callers.set k c := rfl
@[simp] theorem State.afterCaller_history (s : State) (k : Nat) (c : Caller) (es : List Event) (r : Ret) :
    (s.afterCaller k c es r).history = s.history ++ es := rfl
@[simp] theorem State.afterCaller_ret (s : State) (k : Nat) (c : Caller) (es : List Event) (r : Ret) :
    (s.afterCaller k c es r).ret = r := rfl

/-- What a read and its caller's step leave alone. -/
theorem csrReadState_afterCaller_same (s : State) (off k : Nat) (c : Caller) (es : List Event) (r : Ret) :
    let t := (csrReadState s off).afterCaller k c es r
    t.sim = s.sim ∧ t.dev = s.dev ∧ t.faults = s.faults ∧ SameBuffer s t ∧ SameControl s t ∧ SameRun s t := by
  obtain ⟨tp, fr, hread⟩ := csrReadState_eq s off
  rw [hread]
  exact ⟨rfl, rfl, rfl, ⟨rfl, rfl, rfl, fun _ => rfl⟩, ⟨rfl, rfl⟩, ⟨rfl, rfl, rfl, rfl, rfl⟩⟩

section

variable {s : State} {k : Nat} {c : Caller} (hc : s.callers[k]? = some c)
include hc

theorem State.modCaller_eq_afterCaller (f : Caller → Caller) : s.modCaller k f = s.afterCaller k (f c) [] s.ret := by
  rw [State.modCaller_eq hc, State.afterCaller, List.append_nil]

theorem returnCaller_eq_afterCaller (r : Result) :
    returnCaller k r s = s.afterCaller k { c with outcome := r.codeOf, pc := .cIdle } [.ret (.caller k) r] (.result r) := by
  rw [returnCaller, State.modCaller_eq hc]
  rfl

/-- A caller's step of two updates is one with the second's record. -/
theorem State.modCaller_modCaller_eq_afterCaller (f g : Caller → Caller) :
    (s.modCaller k f).modCaller k g = s.afterCaller k (g (f c)) [] s.ret := by
  have hc' : (s.modCaller k f).callers[k]? = some (f c) := by simp [hc]
  rw [State.modCaller_eq hc', State.modCaller_eq hc, List.set_set, State.afterCaller, List.append_nil]

theorem returnCaller_modCaller_eq_afterCaller (f : Caller → Caller) (r : Result) :
    returnCaller k r (s.modCaller k f) =
      s.afterCaller k { f c with outcome := r.codeOf, pc := .cIdle } [.ret (.caller k) r] (.result r) := by
  rw [returnCaller, State.modCaller_modCaller_eq_afterCaller hc, State.afterCaller, List.append_nil]
  rfl

end

/-! ### COORD_POLL -/

/-- The record of a caller whose poll reached its bound (R190): a waiter has left the queue. -/
def Caller.pollFailed (c : Caller) : Cont → Caller
  | .wait => { c with queued := false, tarmed := false, texp := false, outcome := .eHwpoll, pc := .cIdle }
  | .framePos => { c with outcome := .eHwpoll, pc := .cIdle }

theorem pollExhausted_eq_afterCaller {s : State} {k : Nat} {c : Caller} (hc : s.callers[k]? = some c) (K : Cont) :
    pollExhausted k K s =
      s.afterCaller k (c.pollFailed K) [.ret (.caller k) (.code .eHwpoll)] (.result (.code .eHwpoll)) := by
  cases K with
  | wait => exact returnCaller_modCaller_eq_afterCaller hc _ _
  | framePos => exact returnCaller_eq_afterCaller hc _

theorem pollAgain_eq_pollAbove (b : PollBound) (i : Nat) : pollAgain b i = pollAbove b (i + 1) := by cases b <;> rfl

/-- COORD_POLL with the block mapped (R190): the three continuations of the read. -/
theorem exec_coordPoll_admitted {s : State} {k : Nat} {c : Caller} {i : Nat} {K : Cont} (hk : s.ByCaller k c)
    (hready : s.CsrReady) (hp : c.pc = .cPoll i K) :
    exec .coordPoll s = .next
      (if (readValue s s.params.regMap.coordCtrl).getLsbD 0 = true then
        (csrReadState s s.params.regMap.coordCtrl).modCaller k fun x => { x with pc := .cData K }
      else if pollAbove s.params.pollMax (i + 1) = true then
        (csrReadState s s.params.regMap.coordCtrl).modCaller k fun x => { x with pc := .cPoll (i + 1) K }
      else pollExhausted k K (csrReadState s s.params.regMap.coordCtrl)) := by
  obtain ⟨hm, hr, -⟩ := hready
  have hcheck := checkAccess_read_register hm hr (o := s.params.regMap.coordCtrl) (by simp [RegMap.offsets])
  change execCoordPoll s = _
  rw [execCoordPoll, asCaller_eq hk]
  simp only [hp, mmioRead_of_admitted hcheck, and_validMask_ne_zero_iff, pollAgain_eq_pollAbove]

/-- Settles O18: each continuation of `exec_coordPoll_admitted` is a step of the caller after a read that cleared `VALID`. -/
theorem coordPollFollowsValid : Obligations.CoordPollFollowsValid := by
  intro s k c hk
  refine ⟨fun hp => ?_, fun i K hready hp => ?_⟩
  · apply asCaller_waits hk
    split
    next i K hpoll => exact absurd hpoll (hp i K)
    next => rfl
  have ⟨hm, _, hsim⟩ := hready
  have hexec := exec_coordPoll_admitted hk hready hp
  have hvalid (hf : s.params.hwFaithful = true) := readValue_coordCtrl hm ⟨hf, hsim⟩
  have hcsr : (csrReadState s s.params.regMap.coordCtrl).csr = { s.csr with valid := false } := by
    simp [csrReadState_csr, hsim, regAt_coordCtrl hm, Csr.readEffect_eq]
  have hc : (csrReadState s s.params.regMap.coordCtrl).callers[k]? = some c := by simpa using hk.2
  split at hexec
  next hset =>
    rw [State.modCaller_eq_afterCaller hc] at hexec
    refine ⟨_, _, hexec, hvalid, hcsr, ?_, csrReadState_afterCaller_same ..⟩
    rw [if_pos hset]
    simp [hk.1]
  next hclear =>
    split at hexec
    next hmore =>
      rw [State.modCaller_eq_afterCaller hc] at hexec
      refine ⟨_, _, hexec, hvalid, hcsr, ?_, csrReadState_afterCaller_same ..⟩
      rw [if_neg hclear, if_pos hmore]
      simp [hk.1]
    next hbound =>
      rw [pollExhausted_eq_afterCaller hc] at hexec
      refine ⟨_, _, hexec, hvalid, hcsr, ?_, csrReadState_afterCaller_same ..⟩
      rw [if_neg hclear, if_neg hbound]
      cases K <;> simp [hk.1, Caller.pollFailed]

/-! ### COORD_READ -/

section

variable {s : State} {k : Nat} {c : Caller} (hc : s.callers[k]? = some c)
include hc

/-- A wait goes on to its check (R191). -/
theorem coordDecoded_wait (dstOk : Bool) (w : Word) :
    coordDecoded k dstOk .wait w s = s.afterCaller k { c with w, coord := unpack w, pc := .cDecide } [] s.ret :=
  State.modCaller_modCaller_eq_afterCaller hc _ _

/-- A query with a valid destination stores and returns its result (R191). -/
theorem coordDecoded_framePos_ok (w : Word) :
    coordDecoded k true .framePos w s =
      s.afterCaller k
        { c with w, coord := unpack w, res := some (unpack w, classify (unpack w)), outcome := .ok, pc := .cIdle }
        [.ret (.caller k) (.framePos (unpack w) (classify (unpack w)))]
        (.result (.framePos (unpack w) (classify (unpack w)))) := by
  have hc' : (s.modCaller k fun x => { x with w, coord := unpack w }).callers[k]? = some { c with w, coord := unpack w } := by
    simp [hc]
  change returnCaller k _ (State.modCaller (s.modCaller k _) k _) = _
  rw [returnCaller_modCaller_eq_afterCaller hc', State.modCaller_eq hc, State.afterCaller, List.set_set]
  rfl

/-- A query with a bad destination fails, its result unchanged (R191). -/
theorem coordDecoded_framePos_fault (w : Word) :
    coordDecoded k false .framePos w s =
      s.afterCaller k { c with w, coord := unpack w, outcome := .eFault, pc := .cIdle }
        [.ret (.caller k) (.code .eFault)] (.result (.code .eFault)) :=
  returnCaller_modCaller_eq_afterCaller hc _ _

end

/-- COORD_READ with the block mapped (R191). -/
theorem exec_coordRead_admitted {s : State} {k : Nat} {c : Caller} {K : Cont} (hk : s.ByCaller k c) (hready : s.CsrReady)
    (hp : c.pc = .cData K) :
    exec .coordRead s = .next
      (coordDecoded k c.dstOk K (readValue s s.params.regMap.coordData) (csrReadState s s.params.regMap.coordData)) := by
  obtain ⟨hm, hr, -⟩ := hready
  have hcheck := checkAccess_read_register hm hr (o := s.params.regMap.coordData) (by simp [RegMap.offsets])
  change execCoordRead s = _
  rw [execCoordRead, asCaller_eq hk]
  simp only [hp, mmioRead_of_admitted hcheck]

/-- The read of `COORD_DATA` has no side effect (R141), so it and its caller's step leave the register block alone too. -/
theorem coordRead_afterCaller_same {s : State} (hready : s.CsrReady) (k : Nat) (c : Caller) (es : List Event) (r : Ret) :
    let t := (csrReadState s s.params.regMap.coordData).afterCaller k c es r
    t.faults = s.faults ∧ SameDevice s t ∧ SameBuffer s t ∧ SameControl s t ∧ SameRun s t := by
  obtain ⟨hm, -, hsim⟩ := hready
  obtain ⟨hsame, hdev, hfaults, hrest⟩ := csrReadState_afterCaller_same s s.params.regMap.coordData k c es r
  have hcsr : (csrReadState s s.params.regMap.coordData).csr = s.csr := by
    simp [csrReadState_csr, hsim, regAt_coordData hm, Csr.readEffect_eq]
  exact ⟨hfaults, ⟨hcsr, hsame, hdev⟩, hrest⟩

/-- Settles O19: a wait and a query with each destination, by the three equations of `coordDecoded`. -/
theorem coordReadDecodesTheWord : Obligations.CoordReadDecodesTheWord := by
  intro s k c hk
  refine ⟨fun hp => ?_, fun K hready hp => ?_⟩
  · apply asCaller_waits hk
    split
    next K hdata => exact absurd hdata (hp K)
    next => rfl
  have ⟨hm, _, hsim⟩ := hready
  have hexec := exec_coordRead_admitted hk hready hp
  have hword (v : Word) := readValue_coordData (v := v) hm hsim
  have hc : (csrReadState s s.params.regMap.coordData).callers[k]? = some c := by simpa using hk.2
  cases K with
  | wait =>
    rw [coordDecoded_wait hc] at hexec
    refine ⟨_, _, hexec, hword, ?_, coordRead_afterCaller_same hready ..⟩
    simp [hk.1]
  | framePos =>
    cases hdst : c.dstOk with
    | true =>
      rw [hdst, coordDecoded_framePos_ok hc] at hexec
      refine ⟨_, _, hexec, hword, ?_, coordRead_afterCaller_same hready ..⟩
      simp [hk.1, hdst]
    | false =>
      rw [hdst, coordDecoded_framePos_fault hc] at hexec
      refine ⟨_, _, hexec, hword, ?_, coordRead_afterCaller_same hready ..⟩
      simp [hk.1, hdst]

/-! ### COORD_CLASSIFY -/

/-- The classification by the thresholds of R7 (R192). -/
theorem classify_iff (c : Coord) :
    ((classify c).vblank = true ↔ c.row.toNat < 45) ∧ ((classify c).hblank = true ↔ c.col.toNat < 160)
      ∧ ((classify c).vsync = true ↔ 10 ≤ c.row.toNat ∧ c.row.toNat < 12) := by
  simp [classify, vblankRows, hblankCols, vsyncFirst, vsyncEnd]

/-- Settles O20: the value returned is `classify` of the operand. -/
theorem classifyComparesWithTheThresholds : Obligations.ClassifyComparesWithTheThresholds := by
  intro s k c hk
  refine ⟨fun hp => ⟨classify s.opnd.coord, ?_, classify_iff _⟩, fun hp => ?_⟩
  · change execCoordClassify s = _
    rw [execCoordClassify, asCallerAt_eq hk hp]
    rfl
  · change Waits s (execCoordClassify s)
    exact asCallerAt_elsewhere hk hp _

/-! ### Accesses that never fault -/

@[simp] theorem pollExhausted_faults (k : Nat) (K : Cont) (s : State) : (pollExhausted k K s).faults = s.faults := by
  obtain ⟨-, -, -, -, -, -, -, -, -, hfaults⟩ := pollExhausted_frame k K s
  exact hfaults

@[simp] theorem coordDecoded_faults (k : Nat) (dstOk : Bool) (K : Cont) (w : Word) (s : State) :
    (coordDecoded k dstOk K w s).faults = s.faults := by
  obtain ⟨-, -, -, -, -, -, -, -, -, hfaults⟩ := coordDecoded_frame k dstOk K w s
  exact hfaults

section

variable {s t : State} (hm : s.params.regMap.wf = true) (hres : s.ResourcesMatch) (huse : s.UseNeedsHandle)
include hm hres huse

theorem coordPoll_keeps_faults (h : execCoordPoll s = .next t) : t.faults = s.faults := by
  obtain ⟨k, c, hk, rfl | ⟨n, K, hp, ⟨r, hfault, rfl⟩ | rfl | ⟨-, rfl⟩ | rfl⟩⟩ := execCoordPoll_next h
  · rfl
  · have hr := regs_held_of_midOperation hres huse hk (by rw [hp]; rfl)
    rw [checkAccess_read_register hm hr (by simp [RegMap.offsets])] at hfault
    cases hfault
  · simp
  · simp
  · simp

theorem coordRead_keeps_faults (h : execCoordRead s = .next t) : t.faults = s.faults := by
  obtain ⟨k, c, hk, rfl | ⟨K, hp, ⟨r, hfault, rfl⟩ | rfl⟩⟩ := execCoordRead_next h
  · rfl
  · have hr := regs_held_of_midOperation hres huse hk (by rw [hp]; rfl)
    rw [checkAccess_read_register hm hr (by simp [RegMap.offsets])] at hfault
    cases hfault
  · simp

theorem isrCheck_keeps_faults (h : execIsrCheck s = .next t) : t.faults = s.faults := by
  obtain ⟨-, rfl | ⟨hp, ⟨r, hfault, rfl⟩ | ⟨-, rfl⟩ | ⟨-, rfl⟩⟩⟩ := execIsrCheck_next h
  · rfl
  · have hr := regs_held_of_serving hres huse (by rw [hp]; rfl)
    rw [checkAccess_read_register hm hr (by simp [RegMap.offsets])] at hfault
    cases hfault
  · simp
  · simp

theorem isrAck_keeps_faults (h : execIsrAck s = .next t) : t.faults = s.faults := by
  obtain ⟨ha, rfl | ⟨hp, ⟨r, hfault, rfl⟩ | rfl⟩⟩ := execIsrAck_next h
  · rfl
  · have hr := regs_held_of_serving hres huse (by rw [hp]; rfl)
    rw [checkAccess_write_isr hm hr ha] at hfault
    cases hfault
  · simp

/-- A fault of ISR_STATUS is the one for a status of 0, read at `I_STATUS` (R213). -/
theorem isrStatus_faults_cases (h : execIsrStatus s = .next t) :
    t.faults = s.faults
      ∨ (s.isr.pc = .iStatus ∧ readValue s s.params.regMap.isr = 0
        ∧ t.faults = s.faults ++ [{ reason := .hwInconsistent, agent := .isr, word := 0x4200, datum := .status 0 }]) := by
  obtain ⟨ha, rfl | ⟨hp, ⟨r, hfault, rfl⟩ | ⟨hzero, rfl⟩ | ⟨-, n, rfl⟩⟩⟩ := execIsrStatus_next h
  · exact .inl rfl
  · have hr := regs_held_of_serving hres huse (by rw [hp]; rfl)
    rw [checkAccess_read_register hm hr (by simp [RegMap.offsets])] at hfault
    cases hfault
  · exact .inr ⟨hp, hzero, by simp [ha, hzero, encode]⟩
  · exact .inl (by simp)

/-- A cause that is held is no status of 0 (R213, R215). -/
theorem isrStatus_keeps_faults (hf : s.Faithful) (hcause : s.CauseHeld) (h : execIsrStatus s = .next t) :
    t.faults = s.faults := by
  rcases isrStatus_faults_cases hm hres huse h with hkeeps | ⟨hp, hzero, -⟩
  · exact hkeeps
  · obtain ⟨hset, -⟩ := hcause
    rw [readValue_isr hm hf] at hzero
    exact absurd hzero (hset hp)

end

theorem isrWake_keeps_faults {s t : State} (h : execIsrWake s = .next t) : t.faults = s.faults := by
  obtain ⟨-, rfl | ⟨-, rfl⟩⟩ := execIsrWake_next h
  · rfl
  · simp

/-- Settles O60: the invariants give every agent inside an operation its registers, so only a status of 0 is left to fault. -/
theorem waitAndIsrAccessesNeverFault : Obligations.WaitAndIsrAccessesNeverFault := by
  intro i s t hm hres huse h
  refine ⟨?_, ?_⟩
  · rintro (rfl | rfl | rfl | rfl | rfl)
    · exact coordPoll_keeps_faults hm hres huse h
    · exact coordRead_keeps_faults hm hres huse h
    · exact isrCheck_keeps_faults hm hres huse h
    · exact isrWake_keeps_faults h
    · exact isrAck_keeps_faults hm hres huse h
  · rintro rfl
    refine ⟨?_, fun hf hcause => isrStatus_keeps_faults hm hres huse hf hcause h⟩
    exact (isrStatus_faults_cases hm hres huse h).imp_right fun ⟨_, _, hfault⟩ => hfault

end Sys2Proof.Machine

/-!
PROOF. The interrupt service (43_isr.md R210 to R215). Each operation of the ISR is given once as an equation of `exec` where it is
enabled and the block is mapped. The cause that the ISR services stays set on faithful hardware: other agents leave the ISR's record
alone (`exec_ownersOnly`) and clear no bit of `ISR`, and the ISR's own steps lead along the locations of `CauseHeld`.
-/

namespace Sys2Proof.Machine

/-! ### Reads of registers other than `COORD_CTRL` -/

/-- The one read with a side effect is that of `COORD_CTRL` (R141). -/
theorem csrReadState_csr_of_ne {s : State} {off : Nat} (h : regAt s.params.regMap off ≠ .coordCtrl) :
    (csrReadState s off).csr = s.csr := by
  simp [csrReadState_csr, Csr.readEffect_eq, h]

/-- Any other read leaves the block, the engine, the buffer and the run alone. -/
theorem csrReadState_same_of_ne {s : State} {off : Nat} (h : regAt s.params.regMap off ≠ .coordCtrl) :
    SameDevice s (csrReadState s off) ∧ SameBuffer s (csrReadState s off) ∧ SameRun s (csrReadState s off) :=
  ⟨⟨csrReadState_csr_of_ne h, by simp, by simp⟩, ⟨by simp, by simp, by simp, by simp [State.memByte]⟩,
    ⟨by simp, by simp, by simp, by simp, by simp⟩⟩

/-! ### IRQ_DELIVER -/

/-- Settles O22: `isrEnter` moves the control location only. -/
theorem deliveryEntersTheInstalledIdleIsr : Obligations.DeliveryEntersTheInstalledIdleIsr := by
  intro s ha
  have hexec : exec .irqDeliver s = .next (if s.lc.res.irq = true ∧ s.isr.pc = .iIdle then isrEnter s else hold s) := by
    apply asPlatform_eq ha
  refine ⟨fun henabled => ?_, fun hdisabled => ?_⟩
  · rw [hexec, if_pos henabled]
    rfl
  · rw [hexec, if_neg hdisabled]
    rfl

/-! ### ISR_CHECK -/

/-- Bit 9 alone decides the test of INT_PENDING (R103, R212). -/
theorem and_intPendingMask_eq_zero_iff {x : Word} : x &&& intPendingMask = 0 ↔ x.getLsbD 9 = false := by
  change x &&& BitVec.twoPow 32 9 = 0 ↔ _
  rw [BitVec.and_twoPow]
  cases x.getLsbD 9 <;> decide

/-- On faithful hardware INT_PENDING reads as the interrupt line (R35). -/
theorem readValue_ctrl_intPending {s : State} (h : s.Faithful) :
    (readValue s s.params.regMap.ctrl).getLsbD 9 = s.csr.irqLine := by
  have hreads := readValue_readsAs s s.params.regMap.ctrl h
  rw [regAt_ctrl] at hreads
  obtain ⟨-, -, -, hline, -⟩ := hreads
  exact hline

/-- ISR_CHECK with the block mapped (R212): the two outcomes of the read. -/
theorem exec_isrCheck_admitted {s : State} (ha : s.agent = .isr) (hready : s.CsrReady) (hp : s.isr.pc = .iCheck) :
    exec .isrCheck s = .next
      (if (readValue s s.params.regMap.ctrl).getLsbD 9 = false then isrReturn .notMine (csrReadState s s.params.regMap.ctrl)
      else (csrReadState s s.params.regMap.ctrl).setIsr { s.isr with pc := .iStatus }) := by
  obtain ⟨hm, hr, -⟩ := hready
  have hcheck := checkAccess_read_register hm hr (o := s.params.regMap.ctrl) (by simp [RegMap.offsets])
  change execIsrCheck s = _
  rw [execIsrCheck, asIsrAt_eq ha hp, mmioRead_of_admitted hcheck]
  simp only [and_intPendingMask_eq_zero_iff, csrReadState_isr]

/-- Settles O23: the two outcomes of `exec_isrCheck_admitted`, by the bit read. -/
theorem isrCheckAnswersForThisDevice : Obligations.IsrCheckAnswersForThisDevice := by
  intro s ha
  refine ⟨fun hp => by apply asIsrAt_elsewhere ha hp, fun hready hp => ?_⟩
  have ⟨_, _, hsim⟩ := hready
  have hexec := exec_isrCheck_admitted ha hready hp
  have hline (hf : s.params.hwFaithful = true) := readValue_ctrl_intPending ⟨hf, hsim⟩
  have hsame := csrReadState_same_of_ne (s := s) (off := s.params.regMap.ctrl) (by simp)
  split at hexec
  next hclear =>
    refine ⟨_, _, hexec, hline, fun _ => ?_, fun hset => ?_, by simp, by simp, by simp,
      by simpa [SameDevice, SameBuffer, SameRun, State.memByte] using hsame⟩
    · simp [ha]
    · exact nomatch hclear.symm.trans hset
  next hset =>
    refine ⟨_, _, hexec, hline, fun hclear => absurd hclear hset, fun _ => ?_, by simp, by simp, by simp,
      by simpa [SameDevice, SameBuffer, SameRun, State.memByte] using hsame⟩
    simp [ha]

/-! ### ISR_STATUS -/

/-- ISR_STATUS with the block mapped (R213): a fault on 0, and any other word kept. -/
theorem exec_isrStatus_admitted {s : State} (ha : s.agent = .isr) (hready : s.CsrReady) (hp : s.isr.pc = .iStatus) :
    exec .isrStatus s = .next
      (if readValue s s.params.regMap.isr = 0 then
        raiseFault .isrStatus .hwInconsistent (.status (readValue s s.params.regMap.isr)) (csrReadState s s.params.regMap.isr)
      else (csrReadState s s.params.regMap.isr).setIsr
        { pc := .iWake, s := readValue s s.params.regMap.isr
          anomaly := if readValue s s.params.regMap.isr = frameMask then s.isr.anomaly else s.isr.anomaly + 1 }) := by
  obtain ⟨hm, hr, -⟩ := hready
  have hcheck := checkAccess_read_register hm hr (o := s.params.regMap.isr) (by simp [RegMap.offsets])
  change execIsrStatus s = _
  rw [execIsrStatus, asIsrAt_eq ha hp, mmioRead_of_admitted hcheck]
  simp only [csrReadState_isr]

/-- A fault of the ISR leaves its location stuck and every other agent as it was (R402). -/
theorem stick_of_isr {s : State} (ha : s.agent = .isr) : stick s = s.setIsr { s.isr with pc := .iStuck } := by
  simp only [stick, ha]

/-- Settles O24: the two outcomes of `exec_isrStatus_admitted`, by the word read. -/
theorem isrStatusClassifiesTheCause : Obligations.IsrStatusClassifiesTheCause := by
  intro s ha
  refine ⟨fun hp => by apply asIsrAt_elsewhere ha hp, fun hready hp => ?_⟩
  have ⟨hm, _, hsim⟩ := hready
  have hexec := exec_isrStatus_admitted ha hready hp
  have hreads (hf : s.params.hwFaithful = true) : ReadsAs s .isr (readValue s s.params.regMap.isr) := by
    have := readValue_readsAs s s.params.regMap.isr ⟨hf, hsim⟩
    rwa [regAt_isr hm] at this
  have hsame := csrReadState_same_of_ne (s := s) (off := s.params.regMap.isr) (by simp [regAt_isr hm])
  split at hexec
  next hzero =>
    have hstick : stick (csrReadState s s.params.regMap.isr) = _ := stick_of_isr (by simp [ha])
    refine ⟨_, _, hexec, hreads, by simp [ha], fun _ => ?_, fun hne => absurd hzero hne, ?_⟩
    · simp [hstick, hzero, ha, encode]
    · simpa [hstick, SameDevice, SameBuffer, SameRun, State.memByte] using hsame
  next hne =>
    refine ⟨_, _, hexec, hreads, by simp [ha], fun hzero => absurd hzero hne, fun _ => ⟨by simp, ?_⟩, by simp, by simp,
      hsame⟩
    split <;> simp_all

/-! ### ISR_WAKE -/

/-- The wake-all as one map of the records: `woken` is set where the caller is queued. -/
theorem wakeAll_callers (s : State) :
    (wakeAll s).callers = s.callers.map fun c => { c with woken := c.woken || c.queued } := by
  refine List.map_congr_left fun c _ => ?_
  by_cases hq : c.queued = true
  · simp [hq]
  · have hwoken : (c.woken || c.queued) = c.woken := by simp [hq]
    rw [if_neg hq, hwoken]

/-- Settles O25: `wakeAll_callers`, and the location moves on. -/
theorem isrWakeWakesEveryQueuedCaller : Obligations.IsrWakeWakesEveryQueuedCaller := by
  intro s ha
  refine ⟨fun hp => ?_, fun hp => by apply asIsrAt_elsewhere ha hp⟩
  have hexec : exec .isrWake s = .next ((wakeAll s).setIsr { s.isr with pc := .iAck }) := by
    apply asIsrAt_eq ha hp
  refine ⟨_, hexec, fun k => ?_, rfl, rfl, rfl, ⟨rfl, rfl, rfl⟩, ⟨rfl, rfl, rfl, fun _ => rfl⟩, ⟨rfl, rfl, rfl, rfl, rfl⟩,
    rfl, rfl⟩
  rw [State.setIsr_callers, wakeAll_callers, List.getElem?_map]

/-! ### ISR_ACK -/

/-- A write of `ISR` on the hardware (R137). -/
theorem csrWriteState_isr_register {s : State} (hm : s.params.regMap.wf = true) (hsim : s.params.simRegs = false) (v : Word) :
    csrWriteState s s.params.regMap.isr v =
      (s.setCsr (s.csr.clearIsr v)).addEvent (.csr s.agent s.params.regMap.isr .write v) := by
  simp [csrWriteState, writeEffect, hsim, regAt_isr hm]

/-- ISR_ACK with the block mapped (R215). -/
theorem exec_isrAck_admitted {s : State} (ha : s.agent = .isr) (hready : s.CsrReady) (hp : s.isr.pc = .iAck) :
    exec .isrAck s = .next (isrReturn .handled (csrWriteState s s.params.regMap.isr s.isr.s)) := by
  obtain ⟨hm, hr, -⟩ := hready
  change execIsrAck s = _
  rw [execIsrAck, asIsrAt_eq ha hp, mmioWrite_of_admitted (checkAccess_write_isr hm hr ha)]

/-- Settles O26: the write is `clearIsr` of the word kept, and `isrReturn` notes the return. -/
theorem isrAckClearsWhatWasRead : Obligations.IsrAckClearsWhatWasRead := by
  intro s ha
  refine ⟨fun hready hp => ?_, fun hp => by apply asIsrAt_elsewhere ha hp⟩
  have ⟨hm, _, hsim⟩ := hready
  rw [exec_isrAck_admitted ha hready hp, csrWriteState_isr_register hm hsim]
  simp [ha, isrReturn, State.setCsr, State.addEvent, State.setIsr, State.setRet, Csr.clearIsr]

/-! ### Causes that stay set -/

/-- Every cause that is set in `ISR` stays set. -/
def Csr.KeepsCauses (c d : Csr) : Prop :=
  (c.isrFrame = true → d.isrFrame = true) ∧ (c.isrAux = true → d.isrAux = true)

@[simp] theorem Csr.keepsCauses_refl (c : Csr) : c.KeepsCauses c := ⟨id, id⟩

/-- A frame boundary only adds the per-frame cause (R312). -/
@[simp] theorem Csr.keepsCauses_raiseFrame (c : Csr) : c.KeepsCauses c.raiseFrame :=
  ⟨fun hframe => by simp [Csr.raiseFrame, hframe], id⟩

@[simp] theorem Csr.keepsCauses_latch (c : Csr) (w : Word) : c.KeepsCauses (c.latch w) := ⟨id, id⟩

theorem Csr.ReadOnly.keepsCauses {c d : Csr} (h : c.ReadOnly d) : c.KeepsCauses d := by
  obtain ⟨v, rfl, -⟩ := h
  exact ⟨id, id⟩

@[simp] theorem csrReadState_keepsCauses (s : State) (off : Nat) : s.csr.KeepsCauses (csrReadState s off).csr :=
  (csrReadState_readOnly s off).keepsCauses

@[simp] theorem advancePos_keepsCauses (s : State) : s.csr.KeepsCauses (advancePos s).csr := by
  rcases advancePos_csr s with h | h <;> simp [h]

/-- A write of any register but `ISR` reaches no cause (R134 to R140). -/
theorem csrWriteState_causes_of_ne {s : State} {off : Nat} (h : regAt s.params.regMap off ≠ .isr) (v : Word) :
    (csrWriteState s off v).csr.isrFrame = s.csr.isrFrame ∧ (csrWriteState s off v).csr.isrAux = s.csr.isrAux := by
  unfold csrWriteState writeEffect
  split
  · exact ⟨rfl, rfl⟩
  · cases hreg : regAt s.params.regMap off with
    | isr => exact absurd hreg h
    | ctrl =>
      obtain ⟨d, tp, fr, hwrite, -⟩ := writeCtrl_eq s v
      simp [hwrite, Csr.storeCtrl]
    | buf => simp [writeBuf_eq]
    | gie | ier | coordData | coordCtrl | reserved => exact ⟨rfl, rfl⟩

theorem csrWriteState_keepsCauses_iff {c : Csr} {s : State} {off : Nat} (h : regAt s.params.regMap off ≠ .isr) (v : Word) :
    c.KeepsCauses (csrWriteState s off v).csr ↔ c.KeepsCauses s.csr := by
  obtain ⟨hframe, haux⟩ := csrWriteState_causes_of_ne h v
  rw [Csr.KeepsCauses, hframe, haux, Csr.KeepsCauses]

/-! ### The status word -/

theorem Csr.getLsbD_isrWord (c : Csr) (b : Nat) :
    c.isrWord.getLsbD b = (c.isrFrame && decide (b = 0) || c.isrAux && decide (b = 1)) := by
  rw [Csr.isrWord, BitVec.getLsbD_or, getLsbD_bitAt (by decide), getLsbD_bitAt (by decide)]

theorem Csr.isrWord_ne_zero_iff {c : Csr} : c.isrWord ≠ 0 ↔ c.isrFrame = true ∨ c.isrAux = true := by
  unfold Csr.isrWord
  cases c.isrFrame <;> cases c.isrAux <;> decide

/-- The interrupt line is high only while some cause is set (R43). -/
theorem Csr.isrWord_ne_zero_of_irqLine {c : Csr} (h : c.irqLine = true) : c.isrWord ≠ 0 := by
  rw [Csr.isrWord_ne_zero_iff]
  simp only [Csr.irqLine, Bool.and_eq_true, Bool.or_eq_true] at h
  exact h.2.imp And.right And.right

/-- A bit that is clear in `ISR` was clear before, when causes are kept. -/
theorem Csr.KeepsCauses.getLsbD_isrWord_of_clear {c d : Csr} (h : c.KeepsCauses d) {b : Nat}
    (hclear : d.isrWord.getLsbD b = false) : c.isrWord.getLsbD b = false := by
  obtain ⟨hframe, haux⟩ := h
  rw [← Bool.not_eq_true] at hclear ⊢
  simp only [Csr.getLsbD_isrWord, Bool.or_eq_true, Bool.and_eq_true] at hclear ⊢
  exact mt (Or.imp (And.imp_left hframe) (And.imp_left haux)) hclear

theorem Csr.KeepsCauses.isrWord_ne_zero {c d : Csr} (h : c.KeepsCauses d) (hc : c.isrWord ≠ 0) : d.isrWord ≠ 0 := by
  obtain ⟨hframe, haux⟩ := h
  exact isrWord_ne_zero_iff.mpr ((isrWord_ne_zero_iff.mp hc).imp hframe haux)

/-- A word whose bits are all causes that are set is one still when causes are kept. -/
theorem Csr.KeepsCauses.and_not_isrWord {c d : Csr} (h : c.KeepsCauses d) {w : Word} (hw : w &&& ~~~ c.isrWord = 0) :
    w &&& ~~~ d.isrWord = 0 := by
  have hc := (agree_outside_iff w 0 c.isrWord).mp (by simp [hw])
  have hd : w &&& ~~~ d.isrWord = 0 &&& ~~~ d.isrWord :=
    (agree_outside_iff w 0 d.isrWord).mpr fun b hb hclear => hc b hb (h.getLsbD_isrWord_of_clear hclear)
  simpa using hd

/-! ### The cause that is serviced -/

/-- While causes and the ISR's record are kept, so is the serviced cause. -/
theorem State.CauseHeld.of_keepsCauses {s t : State} (h : s.CauseHeld) (hisr : t.isr = s.isr) (hcsr : s.csr.KeepsCauses t.csr) :
    t.CauseHeld := by
  obtain ⟨hstatus, hserved⟩ := h
  rw [← hisr] at hstatus hserved
  refine ⟨fun hp => hcsr.isrWord_ne_zero (hstatus hp), fun hp => ?_⟩
  obtain ⟨hne, hbits⟩ := hserved hp
  exact ⟨hne, hcsr.and_not_isrWord hbits⟩

/-- Outside I_STATUS, I_WAKE and I_ACK no cause is being serviced. -/
theorem State.causeHeld_of_pc {t : State} {p : IsrPc} (hp : t.isr.pc = p)
    (hout : p ∉ [.iStatus, .iWake, .iAck] := by decide) : t.CauseHeld := by
  subst hp
  simp only [List.mem_cons, List.not_mem_nil, or_false, not_or] at hout
  obtain ⟨hstatus, hwake, hack⟩ := hout
  exact ⟨fun hp => absurd hp hstatus, fun hp => absurd hp (not_or.mpr ⟨hwake, hack⟩)⟩

/-- A fault of the ISR ends its service (R402). -/
theorem raiseFault_causeHeld {s : State} (ha : s.agent = .isr) (i : Instr) (r : FaultReason) (d : Datum) :
    (raiseFault i r d s).CauseHeld :=
  State.causeHeld_of_pc (p := .iStuck) (by simp [stick_of_isr ha])

section

variable {s t : State}

/-- INT_PENDING is the line, and the line has a cause (R35, R43). -/
theorem isrCheck_keeps_causeHeld (hf : s.Faithful) (hcause : s.CauseHeld) (h : execIsrCheck s = .next t) : t.CauseHeld := by
  obtain ⟨ha, rfl | ⟨-, ⟨r, -, rfl⟩ | ⟨-, rfl⟩ | ⟨hset, rfl⟩⟩⟩ := execIsrCheck_next h
  · exact hcause
  · exact raiseFault_causeHeld ha _ _ _
  · exact State.causeHeld_of_pc (p := .iIdle) rfl
  · have hline : s.csr.irqLine = true := by
      rw [← readValue_ctrl_intPending hf]
      simpa only [ne_eq, and_intPendingMask_eq_zero_iff, Bool.not_eq_false] using hset
    exact ⟨fun _ => (csrReadState_keepsCauses s _).isrWord_ne_zero (Csr.isrWord_ne_zero_of_irqLine hline), by simp⟩

/-- The word kept is the stored status (R38). -/
theorem isrStatus_keeps_causeHeld (hm : s.params.regMap.wf = true) (hf : s.Faithful) (hcause : s.CauseHeld)
    (h : execIsrStatus s = .next t) : t.CauseHeld := by
  obtain ⟨ha, rfl | ⟨-, ⟨r, -, rfl⟩ | ⟨-, rfl⟩ | ⟨hne, n, rfl⟩⟩⟩ := execIsrStatus_next h
  · exact hcause
  · exact raiseFault_causeHeld ha _ _ _
  · exact raiseFault_causeHeld (by simpa using ha) _ _ _
  · refine ⟨by simp, fun _ => ⟨hne, ?_⟩⟩
    have hcsr : (csrReadState s s.params.regMap.isr).csr = s.csr := csrReadState_csr_of_ne (by simp [regAt_isr hm])
    simp [readValue_isr hm hf, hcsr]

/-- The wake-all leaves the block and the word kept alone (R214). -/
theorem isrWake_keeps_causeHeld (hcause : s.CauseHeld) (h : execIsrWake s = .next t) : t.CauseHeld := by
  obtain ⟨-, rfl | ⟨hp, rfl⟩⟩ := execIsrWake_next h
  · exact hcause
  · obtain ⟨-, hserved⟩ := hcause
    exact ⟨by simp, fun _ => hserved (.inl hp)⟩

/-- The acknowledge ends the service (R215). -/
theorem isrAck_keeps_causeHeld (hcause : s.CauseHeld) (h : execIsrAck s = .next t) : t.CauseHeld := by
  obtain ⟨ha, rfl | ⟨-, ⟨r, -, rfl⟩ | rfl⟩⟩ := execIsrAck_next h
  · exact hcause
  · exact raiseFault_causeHeld ha _ _ _
  · exact State.causeHeld_of_pc (p := .iIdle) rfl

/-- Delivery finds the ISR idle and brings it to its check (R210). -/
theorem irqDeliver_keeps_causeHeld (hcause : s.CauseHeld) (h : execIrqDeliver s = .next t) : t.CauseHeld := by
  obtain ⟨-, rfl | ⟨-, -, rfl⟩⟩ := execIrqDeliver_next h
  · exact hcause
  · exact State.causeHeld_of_pc (p := .iCheck) rfl

end

/-! ### Every agent keeps the cause -/

section

variable {i : Instr} {s t : State}

/-- The width code 3 has no next state (R113). -/
theorem Instr.wf_of_exec_next (h : exec i s = .next t) : i.wf = true := by
  cases i with
  | bufLoad w | bufStore w =>
    by_contra hw
    have hthree : w = 3 := by simpa [Instr.wf] using hw
    subst hthree
    cases h
  | _ => rfl

/-- An operation with a next state was issued by an agent that owns it (R113). -/
theorem Instr.issuedBy_of_exec_next (h : exec i s = .next t) : i.issuedBy s.agent = true := by
  by_contra hi
  rw [exec_wrongAgent (wf_of_exec_next h) (by simpa using hi)] at h
  cases h

theorem isr_keeps_causeHeld (hm : s.params.regMap.wf = true) (hf : s.Faithful) (hi : i.issuedBy .isr = true)
    (hcause : s.CauseHeld) (h : exec i s = .next t) : t.CauseHeld := by
  cases i with
  | isrCheck => exact isrCheck_keeps_causeHeld hf hcause h
  | isrStatus => exact isrStatus_keeps_causeHeld hm hf hcause h
  | isrWake => exact isrWake_keeps_causeHeld hcause h
  | isrAck => exact isrAck_keeps_causeHeld hcause h
  | _ => cases hi

theorem platform_keeps_causeHeld (hi : i.issuedBy .platform = true) (hcause : s.CauseHeld) (h : exec i s = .next t) :
    t.CauseHeld := by
  cases i with
  | irqDeliver => exact irqDeliver_keeps_causeHeld hcause h
  | _ => cases hi

/-- The engine adds causes only (R312). -/
theorem device_keepsCauses (hi : i.issuedBy .device = true) (h : exec i s = .next t) : s.csr.KeepsCauses t.csr := by
  cases i with
  | devAdvance =>
    obtain ⟨-, rfl | ⟨-, ⟨d, rfl⟩ | rfl | ⟨b, rfl⟩⟩⟩ := execDevAdvance_next h
    · simp
    · simp
    · exact advancePos_keepsCauses s
    · simpa using advancePos_keepsCauses (scanoutState s b)
  | devLatch => obtain ⟨-, rfl | ⟨w, rfl⟩⟩ := execDevLatch_next h <;> simp
  | _ => cases hi

/-- The lifecycle agent's own operations write `CTRL`, `GIE`, `IER` and `BUF`, and not `ISR`. -/
theorem lifecycle_keepsCauses (hm : s.params.regMap.wf = true) (hi : i.issuedBy .lifecycle = true)
    (hw : ∀ off, i ≠ .csrWrite off) (h : exec i s = .next t) : s.csr.KeepsCauses t.csr := by
  cases i with
  | csrRead off => obtain ⟨-, rfl | ⟨-, r, rfl⟩ | ⟨-, -, rfl⟩⟩ := execCsrRead_next h <;> simp
  | csrWrite off => exact absurd rfl (hw off)
  | lcMap => obtain ⟨-, rfl | rfl | ⟨-, -, ⟨e, tp, fr, rfl⟩ | ⟨tp, fr, base, rfl⟩⟩⟩ := execLcMap_next h <;> simp
  | lcAllocBuf => obtain ⟨-, rfl | rfl | ⟨-, -, ⟨e, tp, fr, rfl⟩ | ⟨tp, fr, rfl⟩⟩⟩ := execLcAllocBuf_next h <;> simp
  | lcAllocPal => obtain ⟨-, rfl | rfl | ⟨-, -, ⟨e, tp, fr, rfl⟩ | ⟨tp, fr, rfl⟩⟩⟩ := execLcAllocPal_next h <;> simp
  | lcInstallIsr => obtain ⟨-, rfl | rfl | ⟨-, -, ⟨e, tp, fr, rfl⟩ | ⟨tp, fr, rfl⟩⟩⟩ := execLcInstallIsr_next h <;> simp
  | lcPublish =>
    obtain ⟨-, rfl | ⟨r, d, rfl⟩ | ⟨-, -, -, ⟨e, tp, fr, rfl⟩ | ⟨tp, fr, rfl⟩⟩⟩ := execLcPublish_next h <;>
      simp [csrWriteState_keepsCauses_iff, regAt_buf hm]
  | lcEnableIrq =>
    obtain ⟨-, rfl | ⟨r, d, rfl⟩ | ⟨-, -, -, -, -, rfl⟩⟩ := execLcEnableIrq_next h <;>
      simp [csrWriteState_keepsCauses_iff, regAt_gie hm, regAt_ier hm]
  | lcStart =>
    obtain ⟨-, rfl | ⟨r, d, rfl⟩ | ⟨-, -, -, -, rfl⟩⟩ := execLcStart_next h <;> simp [csrWriteState_keepsCauses_iff]
  | lcAbort => obtain ⟨-, rfl | rfl | ⟨e, -, -, rfl⟩⟩ := execLcAbort_next h <;> simp
  | lcDetachStop =>
    obtain ⟨-, rfl | ⟨r, d, rfl⟩ | ⟨-, -, -, -, -, rfl⟩⟩ := execLcDetachStop_next h <;> simp [csrWriteState_keepsCauses_iff]
  | lcDetachDisable =>
    obtain ⟨-, rfl | ⟨r, d, rfl⟩ | ⟨-, -, -, -, -, rfl⟩⟩ := execLcDetachDisable_next h <;>
      simp [csrWriteState_keepsCauses_iff, regAt_gie hm, regAt_ier hm]
  | lcDetachRelease => obtain ⟨-, rfl | rfl | ⟨-, -, -, -, -, rfl⟩⟩ := execLcDetachRelease_next h <;> simp
  | _ => cases hi

end

/-- Settles O27: by the agent of the step. The ISR and the platform move along its locations; every other agent keeps the ISR's
record and every cause. -/
theorem faithfulCauseIsHeldForTheIsr : Obligations.FaithfulCauseIsHeldForTheIsr := by
  intro i s t hm hf hw hcause h
  have howns := exec_ownersOnly hm h
  have hi := Instr.issuedBy_of_exec_next h
  cases ha : s.agent with
  | isr => exact isr_keeps_causeHeld hm hf (ha ▸ hi) hcause h
  | platform => exact platform_keeps_causeHeld (ha ▸ hi) hcause h
  | lifecycle =>
    exact hcause.of_keepsCauses (howns.isr (by simp [ha]) (by simp [ha])) (lifecycle_keepsCauses hm (ha ▸ hi) hw h)
  | device => exact hcause.of_keepsCauses (howns.isr (by simp [ha]) (by simp [ha])) (device_keepsCauses (ha ▸ hi) h)
  | caller k | timer k | signal k | wcDrain k =>
    obtain ⟨hframe, haux⟩ := howns.status (by simp [ha]) (by simp [ha]) (by simp [ha])
    exact hcause.of_keepsCauses (howns.isr (by simp [ha]) (by simp [ha])) ⟨hframe.trans, haux.trans⟩

end Sys2Proof.Machine

/-!
PROOF. What a step does to a caller's record (44_wait_vblank.md). A step of another agent (R249, R30) keeps it but for the wake-all,
the timer's expiry and the signal: `Caller.KeptBy`. The caller's own step replaces its one record, along the locations of R31:
`UpdatesCaller`. Both keep the queue's membership, the timer and the poll index consistent: `Caller.WaitOk` (R375).
-/

namespace Sys2Proof.Machine

/-! ### What a step of another agent keeps -/

/-- What operation `i`, taken in `s` by another agent, keeps of caller `k`'s record, and what each flag it sets says of the step. -/
structure Caller.KeptBy (i : Instr) (s : State) (k : Nat) (c d : Caller) : Prop where
  pc         : d.pc = c.pc
  w          : d.w = c.w
  coord      : d.coord = c.coord
  dstOk      : d.dstOk = c.dstOk
  outcome    : d.outcome = c.outcome
  res        : d.res = c.res
  queued     : d.queued = c.queued
  tarmed     : d.tarmed = c.tarmed
  woken_kept : c.woken = true → d.woken = true
  sig_kept   : c.sig = true → d.sig = true
  texp_kept  : c.texp = true → d.texp = true
  woken_set  : d.woken = true → c.woken = true ∨ (i = .isrWake ∧ c.queued = true)
  sig_set    : d.sig = true → c.sig = true ∨ (i = .signalDeliver ∧ s.agent = .signal k)
  texp_set   : d.texp = true → c.texp = true ∨ (i = .timerExpire ∧ s.agent = .timer k ∧ c.tarmed = true)

/-- Every caller's record in `t` is its record in `s`, kept as a step of another agent keeps it. -/
def KeepsCallers (i : Instr) (s t : State) : Prop :=
  ∀ (k : Nat) (c : Caller), s.callers[k]? = some c → ∃ d, t.callers[k]? = some d ∧ c.KeptBy i s k d

section

variable {i : Instr} {s t : State} {k : Nat} {c : Caller}

/-- Pending writes and the mapping are no part of what is kept. -/
theorem Caller.keptBy_wc_mapped (wc : List WcEntry) (mapped : Bool) : c.KeptBy i s k { c with wc, mapped } :=
  ⟨rfl, rfl, rfl, rfl, rfl, rfl, rfl, rfl, id, id, id, .inl, .inl, .inl⟩

theorem Caller.keptBy_refl : c.KeptBy i s k c := keptBy_wc_mapped c.wc c.mapped

theorem Caller.keptBy_wake : c.KeptBy .isrWake s k { c with woken := c.woken || c.queued } :=
  ⟨rfl, rfl, rfl, rfl, rfl, rfl, rfl, rfl, fun h => by simp [h], id, id, fun h => by simpa using h, .inl, .inl⟩

theorem Caller.keptBy_signal (ha : s.agent = .signal k) : c.KeptBy .signalDeliver s k { c with sig := true } :=
  ⟨rfl, rfl, rfl, rfl, rfl, rfl, rfl, rfl, id, fun _ => rfl, id, .inl, fun _ => .inr ⟨rfl, ha⟩, .inl⟩

theorem Caller.keptBy_expiry (ha : s.agent = .timer k) (harmed : c.tarmed = true) :
    c.KeptBy .timerExpire s k { c with texp := true } :=
  ⟨rfl, rfl, rfl, rfl, rfl, rfl, rfl, rfl, id, id, fun _ => rfl, .inl, .inl, fun _ => .inr ⟨rfl, ha, harmed⟩⟩

theorem KeepsCallers.of_same (h : t.callers = s.callers) : KeepsCallers i s t :=
  fun _ c hc => ⟨c, h ▸ hc, Caller.keptBy_refl⟩

theorem KeepsCallers.of_map {f : Caller → Caller} (h : t.callers = s.callers.map f) (hf : ∀ k c, Caller.KeptBy i s k c (f c)) :
    KeepsCallers i s t :=
  fun k c hc => ⟨f c, by simp [h, hc], hf k c⟩

theorem KeepsCallers.of_modify {f : Caller → Caller} (h : t.callers = s.callers.modify k f) (hc : s.callers[k]? = some c)
    (hf : c.KeptBy i s k (f c)) : KeepsCallers i s t := by
  intro j d hd
  by_cases hj : k = j
  · subst hj
    obtain rfl := Option.some.inj (hc.symm.trans hd)
    exact ⟨f c, by simp [h, hc], hf⟩
  · exact ⟨d, by simp [h, hj, hd], Caller.keptBy_refl⟩

/-! ### The agents other than callers -/

theorem wcDrain_keepsCallers (h : execWcDrain s = .next t) : KeepsCallers .wcDrain s t := by
  obtain ⟨k, c, -, hc, rfl | ⟨-, l, tp, fr, -, rfl⟩⟩ := execWcDrain_next h
  · exact .of_same rfl
  · exact .of_modify rfl hc (Caller.keptBy_wc_mapped _ _)

theorem timerExpire_keepsCallers (h : execTimerExpire s = .next t) : KeepsCallers .timerExpire s t := by
  obtain ⟨k, c, ha, hc, rfl | ⟨harmed, rfl⟩⟩ := execTimerExpire_next h
  · exact .of_same rfl
  · exact .of_modify rfl hc (Caller.keptBy_expiry ha harmed)

theorem signalDeliver_keepsCallers (h : execSignalDeliver s = .next t) : KeepsCallers .signalDeliver s t := by
  obtain ⟨k, c, ha, hc, rfl | rfl⟩ := execSignalDeliver_next h
  · exact .of_same rfl
  · exact .of_modify rfl hc (Caller.keptBy_signal ha)

theorem isrWake_keepsCallers (h : execIsrWake s = .next t) : KeepsCallers .isrWake s t := by
  obtain ⟨-, rfl | ⟨-, rfl⟩⟩ := execIsrWake_next h
  · exact .of_same rfl
  · exact .of_map (wakeAll_callers s) fun _ _ => Caller.keptBy_wake

/-- The ISR's other operations leave the callers alone. -/
theorem isr_callers (ha : s.agent = .isr) (hi : i.issuedBy .isr = true) (hwake : i ≠ .isrWake) (h : exec i s = .next t) :
    t.callers = s.callers := by
  cases i with
  | isrCheck => obtain ⟨-, rfl | ⟨-, ⟨r, -, rfl⟩ | ⟨-, rfl⟩ | ⟨-, rfl⟩⟩⟩ := execIsrCheck_next h <;> simp [stick, ha]
  | isrStatus => obtain ⟨-, rfl | ⟨-, ⟨r, -, rfl⟩ | ⟨-, rfl⟩ | ⟨-, n, rfl⟩⟩⟩ := execIsrStatus_next h <;> simp [stick, ha]
  | isrWake => exact absurd rfl hwake
  | isrAck => obtain ⟨-, rfl | ⟨-, ⟨r, -, rfl⟩ | rfl⟩⟩ := execIsrAck_next h <;> simp [stick, ha]
  | _ => cases hi

theorem platform_callers (hi : i.issuedBy .platform = true) (h : exec i s = .next t) : t.callers = s.callers := by
  cases i with
  | irqDeliver => obtain ⟨-, rfl | ⟨-, -, rfl⟩⟩ := execIrqDeliver_next h <;> rfl
  | _ => cases hi

theorem device_callers (ha : s.agent = .device) (hi : i.issuedBy .device = true) (h : exec i s = .next t) :
    t.callers = s.callers := by
  cases i with
  | devAdvance => obtain ⟨-, rfl | ⟨-, ⟨d, rfl⟩ | rfl | ⟨b, rfl⟩⟩⟩ := execDevAdvance_next h <;> simp [stick, ha]
  | devLatch => obtain ⟨-, rfl | ⟨w, rfl⟩⟩ := execDevLatch_next h <;> rfl
  | _ => cases hi

/-- A new handle begins with every mapping gone (R284). -/
theorem freshHandle_keepsCallers (s : State) : KeepsCallers i s (freshHandle s) := by
  rw [freshHandle_eq]
  split
  · exact .of_map rfl fun _ _ => Caller.keptBy_wc_mapped _ _
  · exact .of_same rfl

/-- The lifecycle agent's operations touch the callers' mappings only (R162, R280, R284). -/
theorem lifecycle_keepsCallers (ha : s.agent = .lifecycle) (hi : i.issuedBy .lifecycle = true) (h : exec i s = .next t) :
    KeepsCallers i s t := by
  cases i with
  | lcMap =>
    obtain ⟨-, rfl | rfl | ⟨-, -, ⟨e, tp, fr, rfl⟩ | ⟨tp, fr, base, rfl⟩⟩⟩ := execLcMap_next h
    · exact .of_same rfl
    · exact .of_same (by simp [stick, ha])
    · exact .of_same rfl
    · exact freshHandle_keepsCallers s
  | lcAllocBuf =>
    obtain ⟨-, rfl | rfl | ⟨-, -, ⟨e, tp, fr, rfl⟩ | ⟨tp, fr, rfl⟩⟩⟩ := execLcAllocBuf_next h
    · exact .of_same rfl
    · exact .of_same (by simp [stick, ha])
    · exact .of_same rfl
    · exact .of_map (allocBuffer_callers _) fun _ _ => Caller.keptBy_wc_mapped _ _
  | lcDetachRelease =>
    obtain ⟨-, rfl | rfl | ⟨-, -, -, -, -, rfl⟩⟩ := execLcDetachRelease_next h
    · exact .of_same rfl
    · exact .of_same (by simp [stick, ha])
    · exact .of_map (congrArg (List.map _) (releaseAll_callers s)) fun _ _ => Caller.keptBy_wc_mapped _ _
  | csrRead off =>
    refine .of_same ?_
    obtain ⟨-, rfl | ⟨-, r, rfl⟩ | ⟨-, -, rfl⟩⟩ := execCsrRead_next h <;> simp [stick, ha]
  | csrWrite off =>
    refine .of_same ?_
    obtain ⟨-, rfl | ⟨-, r, rfl⟩ | ⟨-, -, rfl⟩⟩ := execCsrWrite_next h <;> simp [stick, ha]
  | lcAllocPal =>
    refine .of_same ?_
    obtain ⟨-, rfl | rfl | ⟨-, -, ⟨e, tp, fr, rfl⟩ | ⟨tp, fr, rfl⟩⟩⟩ := execLcAllocPal_next h <;> simp [stick, ha]
  | lcInstallIsr =>
    refine .of_same ?_
    obtain ⟨-, rfl | rfl | ⟨-, -, ⟨e, tp, fr, rfl⟩ | ⟨tp, fr, rfl⟩⟩⟩ := execLcInstallIsr_next h <;> simp [stick, ha]
  | lcPublish =>
    refine .of_same ?_
    obtain ⟨-, rfl | ⟨r, d, rfl⟩ | ⟨-, -, -, ⟨e, tp, fr, rfl⟩ | ⟨tp, fr, rfl⟩⟩⟩ := execLcPublish_next h <;> simp [stick, ha]
  | lcEnableIrq =>
    refine .of_same ?_
    obtain ⟨-, rfl | ⟨r, d, rfl⟩ | ⟨-, -, -, -, -, rfl⟩⟩ := execLcEnableIrq_next h <;> simp [stick, ha]
  | lcStart =>
    refine .of_same ?_
    obtain ⟨-, rfl | ⟨r, d, rfl⟩ | ⟨-, -, -, -, rfl⟩⟩ := execLcStart_next h <;> simp [stick, ha]
  | lcAbort =>
    refine .of_same ?_
    obtain ⟨-, rfl | rfl | ⟨e, -, -, rfl⟩⟩ := execLcAbort_next h <;> simp [stick, ha]
  | lcDetachStop =>
    refine .of_same ?_
    obtain ⟨-, rfl | ⟨r, d, rfl⟩ | ⟨-, -, -, -, -, rfl⟩⟩ := execLcDetachStop_next h <;> simp [stick, ha]
  | lcDetachDisable =>
    refine .of_same ?_
    obtain ⟨-, rfl | ⟨r, d, rfl⟩ | ⟨-, -, -, -, -, rfl⟩⟩ := execLcDetachDisable_next h <;> simp [stick, ha]
  | _ => cases hi

/-- No step of an agent that is no caller does more to a caller's record. -/
theorem exec_keepsCallers (ha : s.agent.isCaller = false) (h : exec i s = .next t) : KeepsCallers i s t := by
  have hi := Instr.issuedBy_of_exec_next h
  cases hagent : s.agent with
  | caller j => simp [hagent, Agent.isCaller] at ha
  | lifecycle => exact lifecycle_keepsCallers hagent (hagent ▸ hi) h
  | platform => exact .of_same (platform_callers (hagent ▸ hi) h)
  | device => exact .of_same (device_callers hagent (hagent ▸ hi) h)
  | isr =>
    by_cases hwake : i = .isrWake
    · subst hwake
      exact isrWake_keepsCallers h
    · exact .of_same (isr_callers hagent (hagent ▸ hi) hwake h)
  | timer j =>
    rw [hagent] at hi
    cases i with
    | timerExpire => exact timerExpire_keepsCallers h
    | _ => cases hi
  | signal j =>
    rw [hagent] at hi
    cases i with
    | signalDeliver => exact signalDeliver_keepsCallers h
    | _ => cases hi
  | wcDrain j =>
    rw [hagent] at hi
    cases i with
    | wcDrain => exact wcDrain_keepsCallers h
    | _ => cases hi

end

/-! ### A caller between waits, in a wait, and stuck -/

/-- `State.QueueMatches` and `State.PollsBounded` of one record. -/
structure Caller.WaitOk (b : PollBound) (c : Caller) : Prop where
  queued  : c.pc.waiting = true → c.queued = true
  waiting : c.queued = true → c.pc.waiting = true ∨ c.pc = .cStuck
  armed   : c.tarmed = true → c.pc.waiting = true ∨ c.pc = .cWreg ∨ c.pc = .cStuck
  expired : c.texp = true → c.tarmed = true
  poll    : ∀ i ∈ c.pc.pollIndex, pollAbove b i = true

theorem queueMatches_and_pollsBounded_iff {s : State} :
    s.QueueMatches ∧ s.PollsBounded ↔ ∀ c ∈ s.callers, c.WaitOk s.params.pollMax := by
  constructor
  · rintro ⟨hq, hp⟩ c hc
    obtain ⟨hqueued, hwaiting, harmed, hexpired⟩ := hq c hc
    exact ⟨hqueued, hwaiting, harmed, hexpired, hp c hc⟩
  · exact fun h => ⟨fun c hc => ⟨(h c hc).queued, (h c hc).waiting, (h c hc).armed, (h c hc).expired⟩, fun c hc => (h c hc).poll⟩

theorem pollAbove_zero {b : PollBound} (h : b.wf = true) : pollAbove b 0 = true := by
  cases b with
  | bounded n => exact h
  | unbounded => rfl

/-- The queue's and the timer's part of a record is unchanged. -/
abbrev Caller.SameWait (c d : Caller) : Prop := d.queued = c.queued ∧ d.tarmed = c.tarmed ∧ d.texp = c.texp

namespace Caller.WaitOk

variable {b : PollBound} {c d : Caller}

theorem of_keptBy {i : Instr} {s : State} {k : Nat} (h : c.WaitOk b) (hk : c.KeptBy i s k d) : d.WaitOk b where
  queued hw := hk.queued.trans (h.queued (hk.pc ▸ hw))
  waiting hq := hk.pc ▸ h.waiting (hk.queued ▸ hq)
  armed ha := hk.pc ▸ h.armed (hk.tarmed ▸ ha)
  expired hx := by
    rcases hk.texp_set hx with hold | ⟨-, -, harmed⟩
    · exact hk.tarmed.trans (h.expired hold)
    · exact hk.tarmed.trans harmed
  poll := hk.pc ▸ h.poll

/-- A fault leaves its caller stuck, queued and with its timer as it was (R402). -/
theorem stuck (h : c.WaitOk b) : Caller.WaitOk b { c with pc := .cStuck } where
  queued hw := by cases hw
  waiting _ := .inr rfl
  armed _ := .inr (.inr rfl)
  expired := h.expired
  poll _ hi := by cases hi

/-- A record that has left the queue, with its timer off (R242, R190). -/
theorem left (hp : d.pc = .cIdle) (hq : d.queued = false) (ha : d.tarmed = false) (hx : d.texp = false) : d.WaitOk b :=
  ⟨by simp [hp, CallerPc.waiting], by simp [hq], by simp [ha], by simp [hx], by simp [hp, CallerPc.pollIndex]⟩

/-- A caller moves between two locations inside a wait, or between two outside it (R190, R191, R242, R243, R346). -/
theorem moves {p q : CallerPc} (h : c.WaitOk b) (hsame : c.SameWait d) (hp : c.pc = p) (hq : d.pc = q)
    (hwait : q.waiting = p.waiting) (hpoll : ∀ i ∈ q.pollIndex, pollAbove b i = true := by simp [CallerPc.pollIndex])
    (hreg : p ≠ .cWreg := by simp) (hstuck : p ≠ .cStuck := by simp) : d.WaitOk b := by
  subst hp hq
  obtain ⟨hqueued, harmed, hexpired⟩ := hsame
  refine ⟨fun hw => ?_, fun hdq => .inl ?_, fun hda => .inl ?_, fun hdx => ?_, hpoll⟩
  · rw [hqueued]
    exact h.queued (hwait ▸ hw)
  · rw [hwait]
    exact (h.waiting (hqueued ▸ hdq)).resolve_right hstuck
  · rw [hwait]
    exact (h.armed (harmed ▸ hda)).resolve_right (by simp [hreg, hstuck])
  · rw [harmed]
    exact h.expired (hexpired ▸ hdx)

/-- An operation outside a wait returns to, or stays at, `C_IDLE` (R370). -/
theorem idle (h : c.WaitOk b) (hp : c.pc = .cIdle) (hq : d.pc = .cIdle) (hsame : c.SameWait d := by exact ⟨rfl, rfl, rfl⟩) :
    d.WaitOk b :=
  h.moves hsame hp hq rfl

/-- WAIT_ENTER arms the timer before the caller is in the queue (R240). -/
theorem enter (h : c.WaitOk b) (hp : c.pc = .cIdle) (timeout entered : Nat) :
    Caller.WaitOk b { c with tarmed := true, texp := false, pc := .cWreg, timeout, entered } where
  queued hw := by cases hw
  waiting hq := by
    have hwaiting := h.waiting hq
    simp [hp, CallerPc.waiting] at hwaiting
  armed _ := .inr (.inl rfl)
  expired hx := by cases hx
  poll _ hi := by cases hi

/-- WAIT_REGISTER joins the queue and begins the poll (R241). -/
theorem register (h : c.WaitOk b) (hb : b.wf = true) :
    Caller.WaitOk b { c with queued := true, woken := false, pc := .cPoll 0 .wait } where
  queued _ := rfl
  waiting _ := .inl rfl
  armed _ := .inl rfl
  expired := h.expired
  poll i hi := by
    obtain rfl : 0 = i := by simpa [CallerPc.pollIndex] using hi
    exact pollAbove_zero hb

end Caller.WaitOk

/-! ### The caller's own step -/

/-- The callers of `t` are those of `s`, but caller `k`'s record is `d`. -/
def UpdatesCaller (s : State) (k : Nat) (d : Caller) (t : State) : Prop := t.callers = s.callers.set k d

/-- Where COORD_READ leaves its caller (R191). -/
def Cont.decoded : Cont → CallerPc
  | .wait => .cDecide
  | .framePos => .cIdle

namespace UpdatesCaller

variable {s t : State} {k : Nat} {c d : Caller}

theorem refl (hc : s.callers[k]? = some c) : UpdatesCaller s k c s := by
  obtain ⟨_, rfl⟩ := List.getElem?_eq_some_iff.mp hc
  exact (List.set_getElem_self _).symm

theorem of_same {u : State} (h : UpdatesCaller s k d t) (hu : u.callers = t.callers) : UpdatesCaller s k d u := hu.trans h

theorem csrReadState (h : UpdatesCaller s k d t) (off : Nat) : UpdatesCaller s k d (csrReadState t off) :=
  h.of_same (csrReadState_callers t off)

theorem modCaller (h : UpdatesCaller s k d t) (f : Caller → Caller) : UpdatesCaller s k (f d) (t.modCaller k f) := by
  have hset : (s.callers.set k d).modify k f = s.callers.set k (f d) := by
    refine List.ext_getElem? fun j => ?_
    by_cases hj : k = j
    · simp [hj, List.getElem?_set, apply_ite]
    · simp [hj]
  rw [UpdatesCaller, State.modCaller_callers, h, hset]

theorem returnCaller (h : UpdatesCaller s k d t) (r : Result) :
    UpdatesCaller s k { d with outcome := r.codeOf, pc := .cIdle } (returnCaller k r t) := h.modCaller _

theorem leaveWait (h : UpdatesCaller s k d t) (e : Code) :
    UpdatesCaller s k { d with queued := false, tarmed := false, texp := false, woken := false, outcome := e, pc := .cIdle }
      (leaveWait k e t) := (h.modCaller _).returnCaller _

/-- A decoded coordinate touches the queue and the timer no more than a read does, and goes on as its continuation says (R191). -/
theorem coordDecoded (h : UpdatesCaller s k d t) (dstOk : Bool) (K : Cont) (w : Word) :
    ∃ e, UpdatesCaller s k e (coordDecoded k dstOk K w t) ∧ d.SameWait e ∧ e.pc = K.decoded := by
  have hword := h.modCaller fun x => { x with w, coord := unpack w }
  cases K with
  | wait => exact ⟨_, hword.modCaller _, ⟨rfl, rfl, rfl⟩, rfl⟩
  | framePos =>
    cases dstOk with
    | true => exact ⟨_, (hword.modCaller _).returnCaller _, ⟨rfl, rfl, rfl⟩, rfl⟩
    | false => exact ⟨_, hword.returnCaller _, ⟨rfl, rfl, rfl⟩, rfl⟩

theorem raiseFault (h : UpdatesCaller s k d t) (ha : t.agent = .caller k) (i : Instr) (r : FaultReason) (f : Datum) :
    UpdatesCaller s k { d with pc := .cStuck } (raiseFault i r f t) :=
  (h.modCaller fun x => { x with pc := .cStuck }).of_same (by simp [stick, ha])

theorem getElem? (h : UpdatesCaller s k d t) (hc : s.callers[k]? = some c) : t.callers[k]? = some d :=
  h ▸ List.getElem?_set_self_of_some d hc

theorem getElem?_of_ne (h : UpdatesCaller s k d t) {j : Nat} (hj : k ≠ j) : t.callers[j]? = s.callers[j]? :=
  h ▸ List.getElem?_set_ne hj

end UpdatesCaller

/-- Caller `k`'s own step leads from `s` to `t`: it replaces its record by one that is as consistent. -/
def OwnStep (s : State) (k : Nat) (c : Caller) (t : State) : Prop :=
  ∃ d, UpdatesCaller s k d t ∧ (s.params.pollMax.wf = true → c.WaitOk s.params.pollMax → d.WaitOk s.params.pollMax)

section

variable {s t : State} {k : Nat} {c : Caller}

theorem OwnStep.of_same (hk : s.ByCaller k c) (h : t.callers = s.callers) : OwnStep s k c t :=
  ⟨c, (UpdatesCaller.refl hk.2).of_same h, fun _ hc => hc⟩

theorem OwnStep.of_raiseFault (hk : s.ByCaller k c) (i : Instr) (r : FaultReason) (f : Datum) :
    OwnStep s k c (raiseFault i r f s) :=
  ⟨_, (UpdatesCaller.refl hk.2).raiseFault hk.1 i r f, fun _ hc => hc.stuck⟩

/-- A consumer operation that returns at once (R340, R370), after a change `f` of its record outside the wait's part. -/
theorem OwnStep.of_return (hp : c.pc = .cIdle) {u : State} {f : Caller → Caller}
    (hu : UpdatesCaller s k (f c) u) (r : Result) (hf : c.SameWait (f c) := by exact ⟨rfl, rfl, rfl⟩) :
    OwnStep s k c (returnCaller k r u) :=
  ⟨_, hu.returnCaller r, fun _ hc => hc.idle hp rfl hf⟩

end

section

variable {s t : State}

/-- COORD_POLL goes on to the data, polls again below the bound, or returns with the wait left (R190). -/
theorem coordPoll_ownStep (h : execCoordPoll s = .next t) : ∃ k c, s.ByCaller k c ∧ OwnStep s k c t := by
  obtain ⟨k, c, hk, hcases⟩ := execCoordPoll_next h
  have hread := (UpdatesCaller.refl hk.2).csrReadState s.params.regMap.coordCtrl
  refine ⟨k, c, hk, ?_⟩
  obtain rfl | ⟨n, K, hp, ⟨r, -, rfl⟩ | rfl | ⟨hagain, rfl⟩ | rfl⟩ := hcases
  · exact .of_same hk rfl
  · exact .of_raiseFault hk _ _ _
  · refine ⟨_, hread.modCaller _, fun _ hc => hc.moves ⟨rfl, rfl, rfl⟩ hp rfl ?_⟩
    cases K <;> rfl
  · have hbound : ∀ i ∈ CallerPc.pollIndex (.cPoll (n + 1) K), pollAbove s.params.pollMax i = true := by
      simpa [CallerPc.pollIndex, pollAgain_eq_pollAbove] using hagain
    refine ⟨_, hread.modCaller _, fun _ hc => hc.moves ⟨rfl, rfl, rfl⟩ hp rfl ?_ hbound⟩
    cases K <;> rfl
  · cases K with
    | wait => exact ⟨_, (hread.modCaller _).returnCaller _, fun _ _ => .left rfl rfl rfl rfl⟩
    | framePos => exact ⟨_, hread.returnCaller _, fun _ hc => hc.moves ⟨rfl, rfl, rfl⟩ hp rfl rfl⟩

/-- COORD_READ goes on to the check of a wait, or returns from a query (R191). -/
theorem coordRead_ownStep (h : execCoordRead s = .next t) : ∃ k c, s.ByCaller k c ∧ OwnStep s k c t := by
  obtain ⟨k, c, hk, hcases⟩ := execCoordRead_next h
  refine ⟨k, c, hk, ?_⟩
  obtain rfl | ⟨K, hp, ⟨r, -, rfl⟩ | rfl⟩ := hcases
  · exact .of_same hk rfl
  · exact .of_raiseFault hk _ _ _
  · obtain ⟨d, hd, hsame, hq⟩ := ((UpdatesCaller.refl hk.2).csrReadState s.params.regMap.coordData).coordDecoded c.dstOk K
      (readValue s s.params.regMap.coordData)
    refine ⟨d, hd, fun _ hc => hc.moves hsame hp hq ?_ ?_⟩
    · cases K <;> rfl
    · cases K <;> simp [Cont.decoded, CallerPc.pollIndex]

theorem waitEnter_ownStep (h : execWaitEnter s = .next t) : ∃ k c, s.ByCaller k c ∧ OwnStep s k c t := by
  obtain ⟨k, c, hk, hcases⟩ := execWaitEnter_next h
  refine ⟨k, c, hk, ?_⟩
  obtain rfl | ⟨-, rfl⟩ | ⟨hp, -, rfl⟩ := hcases
  · exact .of_same hk rfl
  · exact .of_raiseFault hk _ _ _
  · exact ⟨_, (UpdatesCaller.refl hk.2).modCaller _, fun _ hc => hc.enter hp _ _⟩

theorem waitRegister_ownStep (h : execWaitRegister s = .next t) : ∃ k c, s.ByCaller k c ∧ OwnStep s k c t := by
  obtain ⟨k, c, hk, hcases⟩ := execWaitRegister_next h
  refine ⟨k, c, hk, ?_⟩
  obtain rfl | ⟨-, rfl⟩ := hcases
  · exact .of_same hk rfl
  · exact ⟨_, (UpdatesCaller.refl hk.2).modCaller _, fun hb hc => hc.register hb⟩

theorem waitCheck_ownStep (h : execWaitCheck s = .next t) : ∃ k c, s.ByCaller k c ∧ OwnStep s k c t := by
  obtain ⟨k, c, hk, hcases⟩ := execWaitCheck_next h
  have hself := UpdatesCaller.refl hk.2
  refine ⟨k, c, hk, ?_⟩
  obtain rfl | ⟨hp, ⟨e, rfl⟩ | rfl | rfl⟩ := hcases
  · exact .of_same hk rfl
  · exact ⟨_, hself.leaveWait _, fun _ _ => .left rfl rfl rfl rfl⟩
  · exact ⟨_, (hself.modCaller _).leaveWait _, fun _ _ => .left rfl rfl rfl rfl⟩
  · exact ⟨_, hself.modCaller _, fun _ hc => hc.moves ⟨rfl, rfl, rfl⟩ hp rfl rfl⟩

theorem waitSleep_ownStep (h : execWaitSleep s = .next t) : ∃ k c, s.ByCaller k c ∧ OwnStep s k c t := by
  obtain ⟨k, c, hk, hcases⟩ := execWaitSleep_next h
  refine ⟨k, c, hk, ?_⟩
  obtain rfl | ⟨hp, rfl⟩ := hcases
  · exact .of_same hk rfl
  · exact ⟨_, (UpdatesCaller.refl hk.2).modCaller _, fun hb hc =>
      hc.moves ⟨rfl, rfl, rfl⟩ hp rfl rfl (by simp [CallerPc.pollIndex, pollAbove_zero hb])⟩

theorem qFramepos_ownStep (h : execQFramepos s = .next t) : ∃ k c, s.ByCaller k c ∧ OwnStep s k c t := by
  obtain ⟨k, c, hk, hcases⟩ := execQFramepos_next h
  refine ⟨k, c, hk, ?_⟩
  obtain rfl | ⟨-, rfl⟩ | ⟨hp, -, rfl⟩ := hcases
  · exact .of_same hk rfl
  · exact .of_raiseFault hk _ _ _
  · exact ⟨_, (UpdatesCaller.refl hk.2).modCaller _, fun hb hc =>
      hc.moves ⟨rfl, rfl, rfl⟩ hp rfl rfl (by simp [CallerPc.pollIndex, pollAbove_zero hb])⟩

/-- Every operation that a caller issues is a step of that caller's own record. -/
theorem exec_ownStep {i : Instr} (ha : s.agent.isCaller = true) (h : exec i s = .next t) :
    ∃ k c, s.ByCaller k c ∧ OwnStep s k c t := by
  cases i with
  | coordPoll => exact coordPoll_ownStep h
  | coordRead => exact coordRead_ownStep h
  | waitEnter => exact waitEnter_ownStep h
  | waitRegister => exact waitRegister_ownStep h
  | waitCheck => exact waitCheck_ownStep h
  | waitSleep => exact waitSleep_ownStep h
  | qFramepos => exact qFramepos_ownStep h
  | csrRead off =>
    obtain ⟨⟨k, c, hk⟩ | hl, hcases⟩ := execCsrRead_next h
    · refine ⟨k, c, hk, ?_⟩
      obtain rfl | ⟨-, r, rfl⟩ | ⟨-, -, rfl⟩ := hcases
      · exact .of_same hk rfl
      · exact .of_raiseFault hk _ _ _
      · exact .of_same hk (csrReadState_callers s _)
    · simp [hl, Agent.isCaller] at ha
  | csrWrite off =>
    obtain ⟨⟨k, c, hk⟩ | hl, hcases⟩ := execCsrWrite_next h
    · refine ⟨k, c, hk, ?_⟩
      obtain rfl | ⟨-, r, rfl⟩ | ⟨-, -, rfl⟩ := hcases
      · exact .of_same hk rfl
      · exact .of_raiseFault hk _ _ _
      · exact .of_same hk (csrWriteState_callers s _ _)
    · simp [hl, Agent.isCaller] at ha
  | bufLoad w =>
    obtain ⟨k, c, hk, hcases⟩ := execBufLoad_next h
    refine ⟨k, c, hk, ?_⟩
    obtain rfl | ⟨-, rfl⟩ | ⟨-, tp, fr, x, rfl⟩ := hcases
    · exact .of_same hk rfl
    · exact .of_raiseFault hk _ _ _
    · exact .of_same hk rfl
  | bufStore w =>
    obtain ⟨k, c, hk, hcases⟩ := execBufStore_next h
    refine ⟨k, c, hk, ?_⟩
    obtain rfl | ⟨-, rfl⟩ | ⟨hp, -, rfl⟩ := hcases
    · exact .of_same hk rfl
    · exact .of_raiseFault hk _ _ _
    · exact ⟨_, (UpdatesCaller.refl hk.2).modCaller _, fun _ hc => hc.idle hp hp⟩
  | coordClassify =>
    obtain ⟨k, c, hk, hcases⟩ := execCoordClassify_next h
    refine ⟨k, c, hk, ?_⟩
    obtain rfl | rfl := hcases
    · exact .of_same hk rfl
    · exact .of_same hk rfl
  | fbRead =>
    obtain ⟨k, c, hk, hcases⟩ := execFbRead_next h
    refine ⟨k, c, hk, ?_⟩
    obtain rfl | ⟨-, rfl⟩ | ⟨hp, tp, fr, bs, rfl⟩ := hcases
    · exact .of_same hk rfl
    · exact .of_raiseFault hk _ _ _
    · exact .of_return hp (f := id) ((UpdatesCaller.refl hk.2).of_same rfl) _
  | fbWrite =>
    obtain ⟨k, c, hk, hcases⟩ := execFbWrite_next h
    refine ⟨k, c, hk, ?_⟩
    obtain rfl | ⟨-, rfl⟩ | ⟨hp, r, rfl⟩ | ⟨hp, -, -, rfl⟩ := hcases
    · exact .of_same hk rfl
    · exact .of_raiseFault hk _ _ _
    · exact .of_return hp (f := id) (.refl hk.2) _
    · exact .of_return hp ((UpdatesCaller.refl hk.2).modCaller _) _
  | fbMmap =>
    obtain ⟨k, c, hk, hcases⟩ := execFbMmap_next h
    refine ⟨k, c, hk, ?_⟩
    obtain rfl | ⟨-, rfl⟩ | ⟨hp, rfl⟩ | ⟨hp, -, rfl⟩ := hcases
    · exact .of_same hk rfl
    · exact .of_raiseFault hk _ _ _
    · exact .of_return hp (f := id) (.refl hk.2) _
    · exact .of_return hp ((UpdatesCaller.refl hk.2).modCaller _) _
  | fbCheckVar =>
    obtain ⟨k, c, hk, hcases⟩ := execFbCheckVar_next h
    refine ⟨k, c, hk, ?_⟩
    obtain rfl | ⟨-, rfl⟩ | ⟨hp, r, rfl⟩ := hcases
    · exact .of_same hk rfl
    · exact .of_raiseFault hk _ _ _
    · exact .of_return hp (f := id) (.refl hk.2) _
  | fbSetcolreg idx =>
    obtain ⟨k, c, hk, hcases⟩ := execFbSetcolreg_next h
    refine ⟨k, c, hk, ?_⟩
    obtain rfl | ⟨-, rfl⟩ | ⟨hp, rfl⟩ | ⟨hp, -, v, rfl⟩ := hcases
    · exact .of_same hk rfl
    · exact .of_raiseFault hk _ _ _
    · exact .of_return hp (f := id) (.refl hk.2) _
    · exact .of_return hp (f := id) ((UpdatesCaller.refl hk.2).of_same rfl) _
  | _ =>
    have hi := Instr.issuedBy_of_exec_next h
    cases hagent : s.agent with
    | caller k => simp [hagent, Instr.issuedBy] at hi
    | _ => simp [hagent, Agent.isCaller] at ha

/-! ### Every step -/

/-- No step of another agent takes a wake-up from caller `k` or moves it (R249, R30). -/
theorem exec_keeps_other_caller {i : Instr} {k : Nat} {c : Caller} (h : exec i s = .next t) (hne : s.agent ≠ .caller k)
    (hc : s.callers[k]? = some c) : ∃ d, t.callers[k]? = some d ∧ c.KeptBy i s k d := by
  cases ha : s.agent.isCaller with
  | false => exact exec_keepsCallers ha h k c hc
  | true =>
    obtain ⟨j, _, ⟨hj, -⟩, d, hd, -⟩ := exec_ownStep ha h
    have hjk : j ≠ k := fun hjk => hne (hjk ▸ hj)
    exact ⟨c, (hd.getElem?_of_ne hjk).trans hc, Caller.keptBy_refl⟩

theorem exec_keeps_waitOk {i : Instr} (hb : s.params.pollMax.wf = true) (hs : ∀ c ∈ s.callers, c.WaitOk s.params.pollMax)
    (h : exec i s = .next t) : ∀ c ∈ t.callers, c.WaitOk s.params.pollMax := by
  intro d hd
  cases ha : s.agent.isCaller with
  | true =>
    obtain ⟨k, c, hk, d', hupd, hok⟩ := exec_ownStep ha h
    rcases List.mem_set_cases (hupd ▸ hd) with rfl | hmem
    · exact hok hb (hs c (List.mem_of_getElem? hk.2))
    · exact hs d hmem
  | false =>
    obtain ⟨k, hdk⟩ := List.mem_iff_getElem?.mp hd
    have hlt : k < s.callers.length := (exec_persists h).callers ▸ (List.getElem?_eq_some_iff.mp hdk).1
    obtain ⟨d', hdk', hkept⟩ := exec_keepsCallers ha h k _ (List.getElem?_eq_getElem hlt)
    obtain rfl := Option.some.inj (hdk'.symm.trans hdk)
    exact (hs _ (List.getElem_mem hlt)).of_keptBy hkept

end

/-- Settles O32: `exec_keeps_other_caller`. -/
theorem otherAgentsNeverLoseAWakeup : Obligations.OtherAgentsNeverLoseAWakeup := by
  intro i s t k c h hne hc
  obtain ⟨d, hd, hkept⟩ := exec_keeps_other_caller h hne hc
  refine ⟨d, hd, hkept.pc, hkept.w, hkept.coord, hkept.dstOk, hkept.outcome, hkept.res, hkept.queued, hkept.tarmed,
    hkept.woken_kept, hkept.sig_kept, hkept.texp_kept, hkept.woken_set, hkept.sig_set, fun hx => ?_⟩
  exact (hkept.texp_set hx).imp_right fun ⟨hi, ha, _⟩ => ⟨hi, ha⟩

/-- Settles O55: the two invariants speak of one record at a time (`Caller.WaitOk`), which every operation keeps. -/
theorem everyStepKeepsTheQueueInvariants : Obligations.EveryStepKeepsTheQueueInvariants := by
  intro s t hb hq hp h
  rcases step_next h with rfl | ⟨q, s', i, hf, -, -, he⟩
  · exact ⟨hq, hp⟩
  · obtain ⟨rest, -, rfl⟩ := fetch_frame hf
    have hs := queueMatches_and_pollsBounded_iff.mp ⟨hq, hp⟩
    rw [queueMatches_and_pollsBounded_iff, (exec_persists he).params]
    exact exec_keeps_waitOk hb hs he

/-! ### WAIT_ENTER and Q_FRAMEPOS -/

/-- Settles O28: both are consumer operations (`asConsumer`) of one update of the caller's record. -/
theorem waitsAndQueriesBegin : Obligations.WaitsAndQueriesBegin := by
  intro s k c hk
  refine ⟨fun hp => ⟨?_, ?_⟩, fun hp hinit => ⟨?_, ?_⟩⟩
  · apply asConsumer_elsewhere _ hk hp
  · apply asConsumer_elsewhere _ hk hp
  · change execWaitEnter s = _
    rw [execWaitEnter, asConsumer_eq _ hk hp, if_pos hinit, State.modCaller_eq hk.2]
  · change execQFramepos s = _
    rw [execQFramepos, asConsumer_eq _ hk hp, if_pos hinit, State.modCaller_eq hk.2]

/-! ### WAIT_CHECK -/

/-- The record of a caller that has left its wait with an outcome (R242). -/
def Caller.leftWait (c : Caller) (e : Code) : Caller :=
  { c with queued := false, tarmed := false, texp := false, woken := false, outcome := e, pc := .cIdle }

theorem leaveWait_eq_afterCaller {s : State} {k : Nat} {c : Caller} (hc : s.callers[k]? = some c) (e : Code) :
    leaveWait k e s = s.afterCaller k (c.leftWait e) [.ret (.caller k) (.code e)] (.result (.code e)) :=
  returnCaller_modCaller_eq_afterCaller hc _ _

/-- A signal is taken and the wait left in one step. -/
theorem leaveWait_modCaller_eq_afterCaller {s : State} {k : Nat} {c : Caller} (hc : s.callers[k]? = some c)
    (f : Caller → Caller) (e : Code) :
    leaveWait k e (s.modCaller k f)
      = s.afterCaller k ((f c).leftWait e) [.ret (.caller k) (.code e)] (.result (.code e)) := by
  have hc' : (s.modCaller k f).callers[k]? = some (f c) := by simp [hc]
  rw [leaveWait_eq_afterCaller hc', State.modCaller_eq hc, State.afterCaller, List.set_set]
  rfl

/-- WAIT_CHECK at `C_DECIDE` (R242): the order of the four decisions. -/
theorem exec_waitCheck_at_decide {s : State} {k : Nat} {c : Caller} (hk : s.ByCaller k c) (hp : c.pc = .cDecide) :
    exec .waitCheck s = .next
      (if c.coord.row.toNat < 45 then leaveWait k .ok s
      else if c.sig = true then leaveWait k .eIntr (s.modCaller k fun x => { x with sig := false })
      else if c.texp = true then leaveWait k .eTimedout s
      else s.modCaller k fun x => { x with pc := .cSleep }) := by
  change execWaitCheck s = _
  rw [execWaitCheck, asCallerAt_eq hk hp]
  simp only [(classify_iff c.coord).1]

/-- Settles O29: each decision of `exec_waitCheck_at_decide` as one change of the caller's record. -/
theorem waitCheckDecidesInOrder : Obligations.WaitCheckDecidesInOrder := by
  intro s k c hk
  refine ⟨fun hp => by apply asCallerAt_elsewhere hk hp, fun hp => ?_⟩
  have hexec := exec_waitCheck_at_decide hk hp
  obtain ⟨-, hc⟩ := hk
  intro left
  split
  next hblank => rw [hexec, if_pos hblank, leaveWait_eq_afterCaller hc]; rfl
  next hblank =>
    rw [if_neg hblank] at hexec
    split
    next hsig => rw [hexec, if_pos hsig, leaveWait_modCaller_eq_afterCaller hc]; rfl
    next hsig =>
      rw [if_neg hsig] at hexec
      split
      next hexpired => rw [hexec, if_pos hexpired, leaveWait_eq_afterCaller hc]; rfl
      next hexpired => rw [hexec, if_neg hexpired, State.modCaller_eq hc]

/-! ### WAIT_REGISTER and WAIT_SLEEP -/

/-- WAIT_SLEEP at `C_SLEEP` (R243): on to the poll with a wake-up, a hold without. -/
theorem exec_waitSleep_at_sleep {s : State} {k : Nat} {c : Caller} (hk : s.ByCaller k c) (hp : c.pc = .cSleep) :
    exec .waitSleep s = .next
      (if c.woken = true ∨ c.sig = true ∨ c.texp = true then
        s.modCaller k fun x => { x with woken := false, pc := .cPoll 0 .wait }
      else hold s) := by
  change execWaitSleep s = _
  rw [execWaitSleep, asCallerAt_eq hk hp]
  simp only [Bool.or_eq_true, or_assoc]

/-- Settles O30: one update of the record at each operation's location, a hold elsewhere and for a sleeper nothing woke. -/
theorem registerAndWakeLeadToAPoll : Obligations.RegisterAndWakeLeadToAPoll := by
  intro s k c hk
  refine ⟨fun hp => ?_, fun hp => ⟨fun hwake => ?_, fun hwake => ?_⟩, fun hp => by apply asCallerAt_elsewhere hk hp,
    fun hp => by apply asCallerAt_elsewhere hk hp⟩
  · change execWaitRegister s = _
    rw [execWaitRegister, asCallerAt_eq hk hp, State.modCaller_eq hk.2]
  · rw [exec_waitSleep_at_sleep hk hp, if_pos hwake, State.modCaller_eq hk.2]
  · rw [Waits, exec_waitSleep_at_sleep hk hp, if_neg hwake]
    rfl

/-! ### TIMER_EXPIRE and SIGNAL_DELIVER -/

theorem timerMayExpire_iff {s : State} {c : Caller} :
    timerMayExpire s c = true
      ↔ c.tarmed = true ∧ c.texp = false ∧ (s.params.timed = true → c.entered + c.timeout ≤ s.clock) := by
  cases htimed : s.params.timed <;> simp [timerMayExpire, htimed, and_assoc]

theorem exec_timerExpire_of_timer {s : State} {k : Nat} {c : Caller} (ha : s.agent = .timer k) (hc : s.callers[k]? = some c) :
    exec .timerExpire s
      = .next (if timerMayExpire s c then s.modCaller k fun x => { x with texp := true } else hold s) := by
  apply asTimer_eq ha hc

theorem exec_signalDeliver_of_signal {s : State} {k : Nat} {c : Caller} (ha : s.agent = .signal k)
    (hc : s.callers[k]? = some c) :
    exec .signalDeliver s = .next (if c.sig then hold s else s.modCaller k fun x => { x with sig := true }) := by
  apply asSignal_eq ha hc

/-- Settles O31: each flag is set exactly where its agent's step is enabled (`timerMayExpire_iff`; a signal that is not pending). -/
theorem timersExpireAndSignalsBecomePending : Obligations.TimersExpireAndSignalsBecomePending := by
  intro s k c hc
  refine ⟨fun ha => ⟨fun hsig => ?_, fun hsig => ?_⟩, fun ha => ⟨fun hmay => ?_, fun hmay => ?_⟩⟩
  · rw [exec_signalDeliver_of_signal ha hc, hsig, State.modCaller_eq hc]
    rfl
  · rw [Waits, exec_signalDeliver_of_signal ha hc, hsig]
    rfl
  · rw [exec_timerExpire_of_timer ha hc, if_pos (timerMayExpire_iff.mpr hmay), State.modCaller_eq hc]
  · rw [Waits, exec_timerExpire_of_timer ha hc, if_neg fun h => hmay (timerMayExpire_iff.mp h)]
    rfl

end Sys2Proof.Machine

/-!
PROOF. The resource invariants (R285) and the use of the handle (R278, R280, R286) under every step. Both speak of the lifecycle
record: `Lifecycle.Matches` says the first of a record and the liveness of the buffer, `Caller.UseOk` the second of a record and one
caller. Agents other than the lifecycle agent keep the record and the liveness (`exec_keepsHandle`), so they can only break the use,
which a caller begins where the handle is usable; the lifecycle agent's own operations move the record along R281.
-/

namespace Sys2Proof.Machine

/-! ### The lifecycle record and what it holds -/

/-- `State.ResourcesMatch` of one lifecycle record and the liveness of the buffer. -/
structure Lifecycle.Matches (l : Lifecycle) (live : Bool) : Prop where
  held     : l.res = heldAt l.L
  buf      : l.res.buf = live
  irq      : l.irqEnabled = true → l.res.fbdev = true
  disabled : l.phase = .disabled → l.irqEnabled = false
  abort    : l.aborting.isSome = true → l.L.mayAbort = true
  detach   : l.phase ≠ .none → l.L = .running

theorem resourcesMatch_iff {s : State} : s.ResourcesMatch ↔ s.lc.Matches s.buf.live :=
  ⟨fun ⟨hheld, hbuf, hirq, hdis, habort, hdet⟩ => ⟨hheld, hbuf, hirq, hdis, habort, hdet⟩,
    fun ⟨hheld, hbuf, hirq, hdis, habort, hdet⟩ => ⟨hheld, hbuf, hirq, hdis, habort, hdet⟩⟩

namespace Lifecycle.Matches

variable {l : Lifecycle} {live : Bool}

/-- A detach is under way only at `RUNNING` (R281). -/
theorem phase_none (h : l.Matches live) (hL : l.L ≠ .running) : l.phase = .none := by
  by_contra hphase
  exact hL (h.detach hphase)

/-- Interrupts are off while FBDEV is not held (R285). -/
theorem irqEnabled_false (h : l.Matches live) (hfb : (heldAt l.L).fbdev = false) : l.irqEnabled = false := by
  by_contra hirq
  have hheld := h.irq (by simpa using hirq)
  rw [h.held, hfb] at hheld
  cases hheld

/-- A record outside a detach, with no error pending and interrupts off, needs only its resources right. -/
theorem of_quiet (hheld : l.res = heldAt l.L) (hbuf : l.res.buf = live) (hphase : l.phase = .none) (habort : l.aborting = none)
    (hirq : l.irqEnabled = false) : l.Matches live :=
  ⟨hheld, hbuf, by simp [hirq], fun _ => hirq, by simp [habort], fun hne => absurd hphase hne⟩

/-- A failed attach step notes its error where a step can fail (R281). -/
theorem fail (h : l.Matches live) (hL : l.L.mayAbort = true) (e : Code) :
    Lifecycle.Matches { l with aborting := some e } live :=
  ⟨h.held, h.buf, h.irq, h.disabled, fun _ => hL, h.detach⟩

/-- An attach step that succeeds before the interrupts are enabled holds one resource more (R271 to R274). -/
theorem attach (h : l.Matches live) {L' : LcState} {r : Resources} {live' : Bool} (hfb : (heldAt l.L).fbdev = false)
    (habort : l.aborting = none) (hr : r = heldAt L') (hlive : r.buf = live') :
    Lifecycle.Matches { l with res := r, L := L' } live' :=
  have hrun : l.L ≠ .running := fun hL => by simp [hL, heldAt] at hfb
  of_quiet hr hlive (h.phase_none hrun) habort (h.irqEnabled_false hfb)

/-- LC_ENABLE_IRQ (R275): FBDEV is held and no detach is under way. -/
theorem enable (h : l.Matches live) (hL : l.L = .published) : Lifecycle.Matches { l with irqEnabled := true } live where
  held := h.held
  buf := h.buf
  irq _ := by rw [h.held, hL]; rfl
  disabled hphase := by rw [h.phase_none (by simp [hL])] at hphase; cases hphase
  abort := h.abort
  detach := h.detach

/-- LC_START (R276): `RUNNING` holds what `PUBLISHED` holds. -/
theorem start (h : l.Matches live) (hL : l.L = .published) (habort : l.aborting = none) :
    Lifecycle.Matches { l with L := .running, phase := .none } live where
  held := by rw [h.held, hL]; rfl
  buf := h.buf
  irq := h.irq
  disabled hphase := by cases hphase
  abort he := by rw [habort] at he; cases he
  detach hne := absurd rfl hne

/-- A detach goes on at `RUNNING` (R278, R279), with the interrupts off from `Disabled` on. -/
theorem detaching (h : l.Matches live) (hL : l.L = .running) {p : Phase} {b : Bool} (hirq : b = true → l.irqEnabled = true)
    (hoff : p = .disabled → b = false) : Lifecycle.Matches { l with irqEnabled := b, phase := p } live :=
  ⟨h.held, h.buf, fun hb => h.irq (hirq hb), hoff, h.abort, fun _ => hL⟩

end Lifecycle.Matches

/-- A fault keeps what the lifecycle record holds: it sets at most the stuck mark. -/
theorem Lifecycle.Matches.raiseFault {s : State} (h : s.lc.Matches s.buf.live) (i : Instr) (r : FaultReason) (d : Datum) :
    (raiseFault i r d s).lc.Matches (raiseFault i r d s).buf.live := by
  obtain ⟨b, hlc⟩ := raiseFault_lc_frame i r d s
  rw [hlc, raiseFault_buf]
  exact ⟨h.held, h.buf, h.irq, h.disabled, h.abort, h.detach⟩

/-! ### Agents other than the lifecycle agent -/

/-- The lifecycle record and the buffer's liveness are kept, and the ISR is inside an invocation only if it was before or is
installed. -/
structure KeepsHandle (s t : State) : Prop where
  lc   : t.lc = s.lc
  live : t.buf.live = s.buf.live
  isr  : t.isr.pc.serving = true → s.isr.pc.serving = true ∨ s.lc.res.irq = true

/-- Everything that `KeepsHandle` reads is equal. -/
theorem KeepsHandle.of_same {s t : State} (h : t.lc = s.lc ∧ t.buf.live = s.buf.live ∧ t.isr = s.isr) : KeepsHandle s t := by
  obtain ⟨hlc, hlive, hisr⟩ := h
  exact ⟨hlc, hlive, fun hs => .inl (hisr ▸ hs)⟩

section

variable {i : Instr} {s t : State}

/-- A step of the ISR from a location inside an invocation. -/
theorem KeepsHandle.of_isr {p : IsrPc} (hp : s.isr.pc = p) (h : t.lc = s.lc ∧ t.buf.live = s.buf.live)
    (hserv : p.serving = true := by rfl) : KeepsHandle s t :=
  ⟨h.1, h.2, fun _ => .inl (hp ▸ hserv)⟩

/-- No operation of another agent changes the lifecycle record or ends the buffer's life, and the ISR is entered where it is
installed (R210). -/
theorem exec_keepsHandle (ha : s.agent ≠ .lifecycle) (h : exec i s = .next t) : KeepsHandle s t := by
  cases i with
  | csrRead off =>
    obtain ⟨⟨k, c, hk, -⟩ | hl, hcases⟩ := execCsrRead_next h
    · obtain rfl | ⟨-, r, rfl⟩ | ⟨-, -, rfl⟩ := hcases <;> exact .of_same (by simp [hk])
    · exact absurd hl ha
  | csrWrite off =>
    obtain ⟨-, rfl | ⟨⟨hl, -⟩ | ⟨k, c, ⟨hk, -⟩, -⟩, r, rfl⟩ | ⟨⟨hl, -⟩, -, rfl⟩⟩ := execCsrWrite_next h
    · exact .of_same (by simp)
    · exact absurd hl ha
    · exact .of_same (by simp [hk])
    · exact absurd hl ha
  | bufLoad w =>
    obtain ⟨k, c, ⟨hk, -⟩, rfl | ⟨-, rfl⟩ | ⟨-, tp, fr, x, rfl⟩⟩ := execBufLoad_next h <;> exact .of_same (by simp [hk])
  | bufStore w =>
    obtain ⟨k, c, ⟨hk, -⟩, rfl | ⟨-, rfl⟩ | ⟨-, -, rfl⟩⟩ := execBufStore_next h <;> exact .of_same (by simp [hk])
  | wcDrain =>
    obtain ⟨k, c, -, -, rfl | ⟨-, l, tp, fr, -, rfl⟩⟩ := execWcDrain_next h <;> exact .of_same (by simp [Buffer.live])
  | coordPoll =>
    obtain ⟨k, c, ⟨hk, -⟩, rfl | ⟨n, K, -, ⟨r, -, rfl⟩ | rfl | ⟨-, rfl⟩ | rfl⟩⟩ := execCoordPoll_next h <;>
      exact .of_same (by simp [hk])
  | coordRead =>
    obtain ⟨k, c, ⟨hk, -⟩, rfl | ⟨K, -, ⟨r, -, rfl⟩ | rfl⟩⟩ := execCoordRead_next h <;> exact .of_same (by simp [hk])
  | coordClassify => obtain ⟨k, c, -, rfl | rfl⟩ := execCoordClassify_next h <;> exact .of_same (by simp)
  | irqDeliver =>
    obtain ⟨-, rfl | ⟨hirq, -, rfl⟩⟩ := execIrqDeliver_next h
    · exact .of_same (by simp)
    · exact ⟨rfl, rfl, fun _ => .inr hirq⟩
  | isrCheck =>
    obtain ⟨hk, rfl | ⟨hp, ⟨r, -, rfl⟩ | ⟨-, rfl⟩ | ⟨-, rfl⟩⟩⟩ := execIsrCheck_next h
    · exact .of_same (by simp)
    all_goals exact .of_isr hp (by simp [hk])
  | isrStatus =>
    obtain ⟨hk, rfl | ⟨hp, ⟨r, -, rfl⟩ | ⟨-, rfl⟩ | ⟨-, n, rfl⟩⟩⟩ := execIsrStatus_next h
    · exact .of_same (by simp)
    all_goals exact .of_isr hp (by simp [hk])
  | isrWake =>
    obtain ⟨-, rfl | ⟨hp, rfl⟩⟩ := execIsrWake_next h
    · exact .of_same (by simp)
    · exact .of_isr hp (by simp)
  | isrAck =>
    obtain ⟨hk, rfl | ⟨hp, ⟨r, -, rfl⟩ | rfl⟩⟩ := execIsrAck_next h
    · exact .of_same (by simp)
    all_goals exact .of_isr hp (by simp [hk])
  | waitEnter =>
    obtain ⟨k, c, ⟨hk, -⟩, rfl | ⟨-, rfl⟩ | ⟨-, -, rfl⟩⟩ := execWaitEnter_next h <;> exact .of_same (by simp [hk])
  | waitRegister => obtain ⟨k, c, -, rfl | ⟨-, rfl⟩⟩ := execWaitRegister_next h <;> exact .of_same (by simp)
  | waitCheck => obtain ⟨k, c, -, rfl | ⟨-, ⟨e, rfl⟩ | rfl | rfl⟩⟩ := execWaitCheck_next h <;> exact .of_same (by simp)
  | waitSleep => obtain ⟨k, c, -, rfl | ⟨-, rfl⟩⟩ := execWaitSleep_next h <;> exact .of_same (by simp)
  | timerExpire => obtain ⟨k, c, -, -, rfl | ⟨-, rfl⟩⟩ := execTimerExpire_next h <;> exact .of_same (by simp)
  | signalDeliver => obtain ⟨k, c, -, -, rfl | rfl⟩ := execSignalDeliver_next h <;> exact .of_same (by simp)
  | devAdvance =>
    obtain ⟨hk, rfl | ⟨-, ⟨d, rfl⟩ | rfl | ⟨b, rfl⟩⟩⟩ := execDevAdvance_next h <;> exact .of_same (by simp [hk])
  | devLatch => obtain ⟨-, rfl | ⟨w, rfl⟩⟩ := execDevLatch_next h <;> exact .of_same (by simp)
  | fbRead =>
    obtain ⟨k, c, ⟨hk, -⟩, rfl | ⟨-, rfl⟩ | ⟨-, tp, fr, bs, rfl⟩⟩ := execFbRead_next h <;> exact .of_same (by simp [hk])
  | fbWrite =>
    obtain ⟨k, c, ⟨hk, -⟩, rfl | ⟨-, rfl⟩ | ⟨-, r, rfl⟩ | ⟨-, -, -, rfl⟩⟩ := execFbWrite_next h <;>
      exact .of_same (by simp [hk])
  | fbMmap =>
    obtain ⟨k, c, ⟨hk, -⟩, rfl | ⟨-, rfl⟩ | ⟨-, rfl⟩ | ⟨-, -, rfl⟩⟩ := execFbMmap_next h <;> exact .of_same (by simp [hk])
  | fbCheckVar =>
    obtain ⟨k, c, ⟨hk, -⟩, rfl | ⟨-, rfl⟩ | ⟨-, r, rfl⟩⟩ := execFbCheckVar_next h <;> exact .of_same (by simp [hk])
  | fbSetcolreg idx =>
    obtain ⟨k, c, ⟨hk, -⟩, rfl | ⟨-, rfl⟩ | ⟨-, rfl⟩ | ⟨-, -, v, rfl⟩⟩ := execFbSetcolreg_next h <;>
      exact .of_same (by simp [hk])
  | qFramepos =>
    obtain ⟨k, c, ⟨hk, -⟩, rfl | ⟨-, rfl⟩ | ⟨-, -, rfl⟩⟩ := execQFramepos_next h <;> exact .of_same (by simp [hk])
  | lcMap | lcAllocBuf | lcAllocPal | lcInstallIsr | lcPublish | lcEnableIrq | lcStart | lcAbort | lcDetachStop
  | lcDetachDisable | lcDetachRelease =>
    have hi := Instr.issuedBy_of_exec_next h
    exact absurd (beq_iff_eq.mp hi) ha

/-! ### The lifecycle agent's own operations -/

/-- A new handle has no live buffer (R160, R284). -/
theorem freshHandle_not_live (hlive : s.buf.live = false) : (freshHandle s).buf.live = false := by
  rw [freshHandle_eq]
  split
  · rfl
  · exact hlive

/-- A new handle differs from the old one in the interrupts, which are off (R284). -/
theorem freshHandle_lc (s : State) :
    (freshHandle s).lc
      = { s.lc with irqEnabled := if s.lc.L = .detached ∨ s.buf.st = .retired then false else s.lc.irqEnabled } := by
  rw [freshHandle_eq]
  split <;> rfl

/-- A release ends the buffer's life, where it is held (R277). -/
theorem releaseAll_not_live (h : s.lc.res.buf = s.buf.live) : (releaseAll s).buf.live = false := by
  rw [releaseAll_eq]
  cases hbuf : s.lc.res.buf with
  | true => rfl
  | false => exact h.symm.trans hbuf

/-- The lifecycle agent's operations move the record along R281, with the resources of each state. -/
theorem lifecycle_keeps_matches (hi : i.issuedBy .lifecycle = true) (hs : s.lc.Matches s.buf.live) (h : exec i s = .next t) :
    t.lc.Matches t.buf.live := by
  cases i with
  | csrRead off =>
    obtain ⟨-, rfl | ⟨-, r, rfl⟩ | ⟨-, -, rfl⟩⟩ := execCsrRead_next h
    · exact hs
    · exact hs.raiseFault _ _ _
    · simpa using hs
  | csrWrite off =>
    obtain ⟨-, rfl | ⟨-, r, rfl⟩ | ⟨-, -, rfl⟩⟩ := execCsrWrite_next h
    · exact hs
    · exact hs.raiseFault _ _ _
    · simpa using hs
  | lcMap =>
    obtain ⟨-, rfl | rfl | ⟨habort, hL, ⟨e, tp, fr, rfl⟩ | ⟨tp, fr, base, rfl⟩⟩⟩ := execLcMap_next h
    · exact hs
    · exact hs.raiseFault _ _ _
    · exact hs.fail (by rcases hL with hL | hL <;> rw [hL] <;> rfl) e
    · have hheld : heldAt s.lc.L = {} := by rcases hL with hL | hL <;> rw [hL] <;> rfl
      have hlive : s.buf.live = false := by rw [← hs.buf, hs.held, hheld]
      have hirq : s.lc.irqEnabled = false := hs.irqEnabled_false (by rw [hheld])
      have hrun : s.lc.L ≠ .running := by rcases hL with hL | hL <;> simp [hL]
      simp only [State.completeLc_lc, State.completeLc_buf, freshHandle_lc, hirq, ite_self, freshHandle_not_live hlive]
      exact .of_quiet rfl rfl (hs.phase_none hrun) habort rfl
  | lcAllocBuf =>
    obtain ⟨-, rfl | rfl | ⟨habort, hL, ⟨e, tp, fr, rfl⟩ | ⟨tp, fr, rfl⟩⟩⟩ := execLcAllocBuf_next h
    · exact hs
    · exact hs.raiseFault _ _ _
    · exact hs.fail (by rw [hL]; rfl) e
    · refine hs.attach (by rw [hL]; rfl) habort (by rw [hs.held, hL]; rfl) ?_
      simp [Buffer.live]
  | lcAllocPal =>
    obtain ⟨-, rfl | rfl | ⟨habort, hL, ⟨e, tp, fr, rfl⟩ | ⟨tp, fr, rfl⟩⟩⟩ := execLcAllocPal_next h
    · exact hs
    · exact hs.raiseFault _ _ _
    · exact hs.fail (by rw [hL]; rfl) e
    · exact hs.attach (by rw [hL]; rfl) habort (by rw [hs.held, hL]; rfl) hs.buf
  | lcInstallIsr =>
    obtain ⟨-, rfl | rfl | ⟨habort, hL, ⟨e, tp, fr, rfl⟩ | ⟨tp, fr, rfl⟩⟩⟩ := execLcInstallIsr_next h
    · exact hs
    · exact hs.raiseFault _ _ _
    · exact hs.fail (by rw [hL]; rfl) e
    · exact hs.attach (by rw [hL]; rfl) habort (by rw [hs.held, hL]; rfl) hs.buf
  | lcPublish =>
    obtain ⟨-, rfl | ⟨r, d, rfl⟩ | ⟨habort, hL, -, ⟨e, tp, fr, rfl⟩ | ⟨tp, fr, rfl⟩⟩⟩ := execLcPublish_next h
    · exact hs
    · exact hs.raiseFault _ _ _
    · simpa using hs.fail (by rw [hL]; rfl) e
    · refine hs.attach (by rw [hL]; rfl) habort (by rw [hs.held, hL]; rfl) ?_
      simpa using hs.buf
  | lcEnableIrq =>
    obtain ⟨-, rfl | ⟨r, d, rfl⟩ | ⟨habort, hL, -, -, -, rfl⟩⟩ := execLcEnableIrq_next h
    · exact hs
    · exact hs.raiseFault _ _ _
    · simpa using hs.enable hL
  | lcStart =>
    obtain ⟨-, rfl | ⟨r, d, rfl⟩ | ⟨habort, hL, hirq, -, rfl⟩⟩ := execLcStart_next h
    · exact hs
    · exact hs.raiseFault _ _ _
    · simpa using hs.start hL habort
  | lcAbort =>
    obtain ⟨-, rfl | rfl | ⟨e, habort, -, rfl⟩⟩ := execLcAbort_next h
    · exact hs
    · exact hs.raiseFault _ _ _
    · have hrun : s.lc.L ≠ .running := fun hL => by simpa [hL, LcState.mayAbort] using hs.abort (by rw [habort]; rfl)
      rw [returnLifecycle_lc, returnLifecycle_buf, State.setLc_lc, State.setLc_buf, releaseAll_not_live hs.buf]
      exact .of_quiet rfl rfl (hs.phase_none hrun) rfl rfl
  | lcDetachStop =>
    obtain ⟨-, rfl | ⟨r, d, rfl⟩ | ⟨habort, hL, -, -, -, rfl⟩⟩ := execLcDetachStop_next h
    · exact hs
    · exact hs.raiseFault _ _ _
    · simpa using hs.detaching hL id (p := .stopped) (by simp)
  | lcDetachDisable =>
    obtain ⟨-, rfl | ⟨r, d, rfl⟩ | ⟨habort, hL, -, -, -, rfl⟩⟩ := execLcDetachDisable_next h
    · exact hs
    · exact hs.raiseFault _ _ _
    · simpa using hs.detaching hL (p := .disabled) (b := false) (by simp) fun _ => rfl
  | lcDetachRelease =>
    obtain ⟨-, rfl | rfl | ⟨habort, -, hphase, -, -, rfl⟩⟩ := execLcDetachRelease_next h
    · exact hs
    · exact hs.raiseFault _ _ _
    · rw [State.completeLc_lc, State.completeLc_buf, State.mapCallers_buf, releaseAll_not_live hs.buf]
      exact .of_quiet rfl rfl rfl habort (hs.disabled hphase)
  | _ => cases hi

/-- Every operation keeps the resource invariants. -/
theorem exec_keeps_matches (hs : s.lc.Matches s.buf.live) (h : exec i s = .next t) : t.lc.Matches t.buf.live := by
  by_cases ha : s.agent = .lifecycle
  · exact lifecycle_keeps_matches (ha ▸ Instr.issuedBy_of_exec_next h) hs h
  · have hkeeps := exec_keepsHandle ha h
    rwa [hkeeps.lc, hkeeps.live]

end

/-- Settles O53: the lifecycle agent's operations move the record along R281 (`lifecycle_keeps_matches`), and every other agent
leaves it alone (`exec_keepsHandle`). -/
theorem everyStepKeepsTheResourceInvariants : Obligations.EveryStepKeepsTheResourceInvariants := by
  intro s t hs h
  rw [resourcesMatch_iff] at hs ⊢
  rcases step_next h with rfl | ⟨q, s', i, hf, -, -, he⟩
  · exact hs
  · obtain ⟨rest, -, rfl⟩ := fetch_frame hf
    refine exec_keeps_matches ?_ he
    exact hs

/-! ### The use of the handle -/

/-- Operations of several steps run only here: fully initialized in `L` and `phase` (R50, R278). -/
def Lifecycle.Usable (l : Lifecycle) : Prop := l.L = .running ∧ l.phase = .none

theorem usable_of_fullyInit {s : State} (h : s.fullyInit = true) : s.lc.Usable := by
  simp only [State.fullyInit, Bool.and_eq_true, beq_iff_eq] at h
  obtain ⟨⟨hL, hphase⟩, -⟩ := h
  exact ⟨hL, hphase⟩

/-- `State.UseNeedsHandle` of one lifecycle record and one caller. -/
structure Caller.UseOk (l : Lifecycle) (c : Caller) : Prop where
  mid     : c.pc.midOperation = true → l.Usable
  mapped  : c.mapped = true → l.L = .running
  pending : c.wc ≠ [] → l.L = .running

/-- Every caller of `t` uses a handle whose record is `l` as it may. -/
def State.CallersUse (l : Lifecycle) (t : State) : Prop := ∀ c ∈ t.callers, c.UseOk l

theorem useNeedsHandle_iff {s : State} :
    s.UseNeedsHandle ↔ s.CallersUse s.lc ∧ (s.isr.pc.serving = true → s.lc.res.irq = true) := by
  refine and_congr_left fun _ => ⟨fun h c hc => ?_, fun h c hc => ?_⟩
  · obtain ⟨hmid, hmapped, hpending⟩ := h c hc
    exact ⟨hmid, hmapped, hpending⟩
  · exact ⟨(h c hc).mid, (h c hc).mapped, (h c hc).pending⟩

namespace State.CallersUse

variable {l : Lifecycle} {s t : State}

/-- A usable handle may be used in every way. -/
theorem of_usable (hl : l.Usable) (t : State) : t.CallersUse l := fun _ _ => ⟨fun _ => hl, fun _ => hl.1, fun _ => hl.1⟩

theorem of_same (hs : s.CallersUse l) (h : t.callers = s.callers) : t.CallersUse l := by
  rwa [State.CallersUse, h]

/-- One caller's record changes, and its use stays as it may be. -/
theorem of_modify (hs : s.CallersUse l) {k : Nat} {f : Caller → Caller} (h : t.callers = s.callers.modify k f)
    (hf : ∀ c, s.callers[k]? = some c → c.UseOk l → (f c).UseOk l) : t.CallersUse l := by
  intro d hd
  rcases List.mem_modify_cases (h ▸ hd) with ⟨c, hc, rfl⟩ | hmem
  · exact hf c hc (hs c (List.mem_of_getElem? hc))
  · exact hs d hmem

theorem of_map (hs : s.CallersUse l) {f : Caller → Caller} (h : t.callers = s.callers.map f)
    (hf : ∀ c, c.UseOk l → (f c).UseOk l) : t.CallersUse l := by
  intro d hd
  obtain ⟨c, hc, rfl⟩ := List.mem_map.mp (h ▸ hd)
  exact hf c (hs c hc)

/-- A fault takes its caller out of its operation (R402). -/
theorem raiseFault (hs : s.CallersUse l) (i : Instr) (r : FaultReason) (d : Datum) : (raiseFault i r d s).CallersUse l := by
  cases ha : s.agent with
  | caller k =>
    exact hs.of_modify (k := k) (f := fun c => { c with pc := .cStuck }) (by simp [stick, ha]) fun c _ hc =>
      ⟨fun hp => absurd hp Bool.false_ne_true, hc.mapped, hc.pending⟩
  | _ => exact hs.of_same (by simp [stick, ha])

end State.CallersUse

/-! ### Callers -/

section

variable {i : Instr} {s t : State}

/-- A caller inside an operation finds the handle usable. -/
theorem State.CallersUse.usable_of_mid {l : Lifecycle} {k : Nat} {c : Caller} {p : CallerPc} (hs : s.CallersUse l)
    (hk : s.ByCaller k c) (hp : c.pc = p) (hmid : p.midOperation = true := by rfl) : l.Usable :=
  (hs c (List.mem_of_getElem? hk.2)).mid (hp ▸ hmid)

/-- A consumer operation does its work only on a usable handle (R340). -/
theorem asConsumer_callersUse {f : Nat → Caller → State → State} (hs : s.CallersUse s.lc) (h : asConsumer i s f = .next t) :
    t.CallersUse s.lc := by
  obtain ⟨k, c, -, ⟨-, hinit, -⟩ | ⟨-, -, rfl⟩ | ⟨-, rfl⟩⟩ := asConsumer_next h
  · exact .of_usable (usable_of_fullyInit hinit) t
  · exact hs.raiseFault _ _ _
  · exact hs

theorem caller_keeps_use (ha : s.agent.isCaller = true) (hs : s.CallersUse s.lc) (h : exec i s = .next t) :
    t.CallersUse s.lc := by
  cases i with
  | waitEnter => exact asConsumer_callersUse hs (show execWaitEnter s = .next t from h)
  | fbRead => exact asConsumer_callersUse hs (show execFbRead s = .next t from h)
  | fbWrite => exact asConsumer_callersUse hs (show execFbWrite s = .next t from h)
  | fbMmap => exact asConsumer_callersUse hs (show execFbMmap s = .next t from h)
  | fbCheckVar => exact asConsumer_callersUse hs (show execFbCheckVar s = .next t from h)
  | fbSetcolreg idx => exact asConsumer_callersUse hs (show execFbSetcolreg idx s = .next t from h)
  | qFramepos => exact asConsumer_callersUse hs (show execQFramepos s = .next t from h)
  | coordPoll =>
    obtain ⟨k, c, hk, rfl | ⟨n, K, hp, -⟩⟩ := execCoordPoll_next h
    · exact hs
    · exact .of_usable (hs.usable_of_mid hk hp) t
  | coordRead =>
    obtain ⟨k, c, hk, rfl | ⟨K, hp, -⟩⟩ := execCoordRead_next h
    · exact hs
    · exact .of_usable (hs.usable_of_mid hk hp) t
  | waitRegister =>
    obtain ⟨k, c, hk, rfl | ⟨hp, -⟩⟩ := execWaitRegister_next h
    · exact hs
    · exact .of_usable (hs.usable_of_mid hk hp) t
  | waitCheck =>
    obtain ⟨k, c, hk, rfl | ⟨hp, -⟩⟩ := execWaitCheck_next h
    · exact hs
    · exact .of_usable (hs.usable_of_mid hk hp) t
  | waitSleep =>
    obtain ⟨k, c, hk, rfl | ⟨hp, -⟩⟩ := execWaitSleep_next h
    · exact hs
    · exact .of_usable (hs.usable_of_mid hk hp) t
  | csrRead off =>
    obtain ⟨-, rfl | ⟨-, r, rfl⟩ | ⟨-, -, rfl⟩⟩ := execCsrRead_next h
    · exact hs
    · exact hs.raiseFault _ _ _
    · exact hs.of_same (csrReadState_callers s _)
  | csrWrite off =>
    obtain ⟨-, rfl | ⟨-, r, rfl⟩ | ⟨-, -, rfl⟩⟩ := execCsrWrite_next h
    · exact hs
    · exact hs.raiseFault _ _ _
    · exact hs.of_same (csrWriteState_callers s _ _)
  | bufLoad w =>
    obtain ⟨k, c, -, rfl | ⟨-, rfl⟩ | ⟨-, tp, fr, x, rfl⟩⟩ := execBufLoad_next h
    · exact hs
    · exact hs.raiseFault _ _ _
    · exact hs
  | bufStore w =>
    obtain ⟨k, c, hk, rfl | ⟨-, rfl⟩ | ⟨-, hok, rfl⟩⟩ := execBufStore_next h
    · exact hs
    · exact hs.raiseFault _ _ _
    · obtain ⟨hmapped, -⟩ := mappedAccessOk_iff.mp hok
      have hL := (hs c (List.mem_of_getElem? hk.2)).mapped hmapped
      exact hs.of_modify rfl fun x _ hx => ⟨hx.mid, hx.mapped, fun _ => hL⟩
  | coordClassify =>
    obtain ⟨k, c, -, rfl | rfl⟩ := execCoordClassify_next h
    · exact hs
    · exact hs
  | _ =>
    have hi := Instr.issuedBy_of_exec_next h
    cases hagent : s.agent with
    | caller k => simp [hagent, Instr.issuedBy] at hi
    | _ => simp [hagent, Agent.isCaller] at ha

/-! ### Timers, signals, drains, the platform, the device and the ISR -/

theorem wcDrain_keeps_use (hs : s.CallersUse s.lc) (h : execWcDrain s = .next t) : t.CallersUse s.lc := by
  obtain ⟨k, c, -, hc, rfl | ⟨hpend, l, tp, fr, -, rfl⟩⟩ := execWcDrain_next h
  · exact hs
  · have hL := (hs c (List.mem_of_getElem? hc)).pending hpend
    exact hs.of_modify rfl fun x _ hx => ⟨hx.mid, hx.mapped, fun _ => hL⟩

theorem timerExpire_keeps_use (hs : s.CallersUse s.lc) (h : execTimerExpire s = .next t) : t.CallersUse s.lc := by
  obtain ⟨k, c, -, -, rfl | ⟨-, rfl⟩⟩ := execTimerExpire_next h
  · exact hs
  · exact hs.of_modify rfl fun x _ hx => ⟨hx.mid, hx.mapped, hx.pending⟩

theorem signalDeliver_keeps_use (hs : s.CallersUse s.lc) (h : execSignalDeliver s = .next t) : t.CallersUse s.lc := by
  obtain ⟨k, c, -, -, rfl | rfl⟩ := execSignalDeliver_next h
  · exact hs
  · exact hs.of_modify rfl fun x _ hx => ⟨hx.mid, hx.mapped, hx.pending⟩

theorem isrWake_keeps_use (hs : s.CallersUse s.lc) (h : execIsrWake s = .next t) : t.CallersUse s.lc := by
  obtain ⟨-, rfl | ⟨-, rfl⟩⟩ := execIsrWake_next h
  · exact hs
  · exact hs.of_map (wakeAll_callers s) fun c hc => ⟨hc.mid, hc.mapped, hc.pending⟩

/-- No agent but the lifecycle agent takes the handle away from a caller that uses it. -/
theorem exec_keeps_use (ha : s.agent ≠ .lifecycle) (hs : s.CallersUse s.lc) (h : exec i s = .next t) : t.CallersUse s.lc := by
  have hi := Instr.issuedBy_of_exec_next h
  cases hagent : s.agent with
  | lifecycle => exact absurd hagent ha
  | caller k => exact caller_keeps_use (by rw [hagent]; rfl) hs h
  | platform => exact hs.of_same (platform_callers (hagent ▸ hi) h)
  | device => exact hs.of_same (device_callers hagent (hagent ▸ hi) h)
  | isr =>
    by_cases hwake : i = .isrWake
    · subst hwake
      exact isrWake_keeps_use hs h
    · exact hs.of_same (isr_callers hagent (hagent ▸ hi) hwake h)
  | timer j =>
    rw [hagent] at hi
    cases i with
    | timerExpire => exact timerExpire_keeps_use hs h
    | _ => cases hi
  | signal j =>
    rw [hagent] at hi
    cases i with
    | signalDeliver => exact signalDeliver_keeps_use hs h
    | _ => cases hi
  | wcDrain j =>
    rw [hagent] at hi
    cases i with
    | wcDrain => exact wcDrain_keeps_use hs h
    | _ => cases hi

/-! ### The lifecycle agent -/

/-- `State.UseNeedsHandle`, its callers' part and its ISR's part. -/
structure State.UseOk (s : State) : Prop where
  callers : s.CallersUse s.lc
  isr     : s.isr.pc.serving = true → s.lc.res.irq = true

namespace State.UseOk

/-- The callers, the ISR, and what the use reads of the lifecycle record are equal. -/
theorem of_frame (hs : s.UseOk) (hcallers : t.callers = s.callers) (hisr : t.isr = s.isr)
    (hlc : t.lc.L = s.lc.L ∧ t.lc.phase = s.lc.phase ∧ t.lc.res.irq = s.lc.res.irq) : t.UseOk := by
  obtain ⟨hL, hphase, hirq⟩ := hlc
  refine ⟨fun c hc => ?_, by rw [hisr, hirq]; exact hs.isr⟩
  obtain ⟨hmid, hmapped, hpending⟩ := hs.callers c (hcallers ▸ hc)
  exact ⟨by rwa [Lifecycle.Usable, hL, hphase], by rwa [hL], by rwa [hL]⟩

theorem raiseFault (hs : s.UseOk) (ha : s.agent = .lifecycle) (i : Instr) (r : FaultReason) (d : Datum) :
    (raiseFault i r d s).UseOk :=
  hs.of_frame (by simp [stick, ha]) (by simp [ha]) (by simp [stick, ha])

/-- Elsewhere than at `RUNNING` no caller uses the handle, wherever the lifecycle goes from there. -/
theorem callersUse_of_not_running (hs : s.UseOk) (hL : s.lc.L ≠ .running) (l : Lifecycle) : s.CallersUse l := fun c hc =>
  have hok := hs.callers c hc
  ⟨fun h => absurd (hok.mid h).1 hL, fun h => absurd (hok.mapped h) hL, fun h => absurd (hok.pending h) hL⟩

/-- A step of an attach or an abort: the mappings may go, and a handler inside an invocation stays installed. -/
theorem of_not_running (hs : s.UseOk) (hL : s.lc.L ≠ .running)
    (hcallers : t.callers = s.callers ∨ t.callers = s.callers.map fun c => { c with mapped := false }) (hisr : t.isr = s.isr)
    (hirq : s.isr.pc.serving = true → s.lc.res.irq = true → t.lc.res.irq = true) : t.UseOk := by
  refine ⟨?_, fun hserv => ?_⟩
  · have huse := hs.callersUse_of_not_running hL t.lc
    rcases hcallers with hsame | hmap
    · exact huse.of_same hsame
    · exact huse.of_map hmap fun c hc => ⟨hc.mid, fun h => absurd h Bool.false_ne_true, hc.pending⟩
  · rw [hisr] at hserv
    exact hirq hserv (hs.isr hserv)

/-- A step of a detach that goes on at `RUNNING`, with no caller inside an operation. -/
theorem of_detach (hs : s.UseOk) (hmid : ∀ c ∈ s.callers, c.pc.midOperation = false) (hcallers : t.callers = s.callers)
    (hisr : t.isr = s.isr) (hL : t.lc.L = s.lc.L) (hirq : t.lc.res.irq = s.lc.res.irq) : t.UseOk := by
  refine ⟨fun c hc => ?_, by rw [hisr, hirq]; exact hs.isr⟩
  rw [hcallers] at hc
  obtain ⟨-, hmapped, hpending⟩ := hs.callers c hc
  exact ⟨fun h => absurd ((hmid c hc).symm.trans h) Bool.false_ne_true, by rwa [hL], by rwa [hL]⟩

/-- Once a detach is under way no caller is inside an operation (R278). -/
theorem no_midOperation (hs : s.UseOk) (hphase : s.lc.phase ≠ .none) : ∀ c ∈ s.callers, c.pc.midOperation = false := by
  intro c hc
  by_contra hmid
  exact hphase ((hs.callers c hc).mid (by simpa using hmid)).2

end State.UseOk

/-- With the device not in use every caller is idle (R278). -/
theorem inUse_eq_false_iff {s : State} : s.inUse = false ↔ ∀ c ∈ s.callers, c.queued = false ∧ c.pc = .cIdle := by
  simp [State.inUse]

theorem allDrained_iff {s : State} : s.allDrained = true ↔ ∀ c ∈ s.callers, c.wc = [] := by simp [State.allDrained]

/-- At a new handle the last one's mappings are gone already, or go now (R284). -/
theorem freshHandle_callers_cases (s : State) :
    (freshHandle s).callers = s.callers ∨ (freshHandle s).callers = s.callers.map fun c => { c with mapped := false } := by
  rw [freshHandle_eq]
  split
  · exact .inr rfl
  · exact .inl rfl

theorem lifecycle_keeps_use (ha : s.agent = .lifecycle) (hi : i.issuedBy .lifecycle = true) (hm : s.lc.Matches s.buf.live)
    (hs : s.UseOk) (h : exec i s = .next t) : t.UseOk := by
  cases i with
  | csrRead off =>
    obtain ⟨-, rfl | ⟨-, r, rfl⟩ | ⟨-, -, rfl⟩⟩ := execCsrRead_next h
    · exact hs.of_frame rfl rfl ⟨rfl, rfl, rfl⟩
    · exact hs.raiseFault ha _ _ _
    · exact hs.of_frame (by simp) (by simp) (by simp)
  | csrWrite off =>
    obtain ⟨-, rfl | ⟨-, r, rfl⟩ | ⟨-, -, rfl⟩⟩ := execCsrWrite_next h
    · exact hs.of_frame rfl rfl ⟨rfl, rfl, rfl⟩
    · exact hs.raiseFault ha _ _ _
    · exact hs.of_frame (by simp) (by simp) (by simp)
  | lcMap =>
    obtain ⟨-, rfl | rfl | ⟨-, hL, ⟨e, tp, fr, rfl⟩ | ⟨tp, fr, base, rfl⟩⟩⟩ := execLcMap_next h
    · exact hs.of_frame rfl rfl ⟨rfl, rfl, rfl⟩
    · exact hs.raiseFault ha _ _ _
    · exact hs.of_frame rfl rfl ⟨rfl, rfl, rfl⟩
    · have hheld : heldAt s.lc.L = {} := by rcases hL with hL | hL <;> rw [hL] <;> rfl
      have hrun : s.lc.L ≠ .running := by rcases hL with hL | hL <;> simp [hL]
      refine hs.of_not_running hrun (by simpa using freshHandle_callers_cases s) (by simp) fun _ hirq => ?_
      rw [hm.held, hheld] at hirq
      cases hirq
  | lcAllocBuf =>
    obtain ⟨-, rfl | rfl | ⟨-, hL, ⟨e, tp, fr, rfl⟩ | ⟨tp, fr, rfl⟩⟩⟩ := execLcAllocBuf_next h
    · exact hs.of_frame rfl rfl ⟨rfl, rfl, rfl⟩
    · exact hs.raiseFault ha _ _ _
    · exact hs.of_frame rfl rfl ⟨rfl, rfl, rfl⟩
    · exact hs.of_not_running (by simp [hL]) (.inr (by simp)) (by simp) fun _ => id
  | lcAllocPal =>
    obtain ⟨-, rfl | rfl | ⟨-, hL, ⟨e, tp, fr, rfl⟩ | ⟨tp, fr, rfl⟩⟩⟩ := execLcAllocPal_next h
    · exact hs.of_frame rfl rfl ⟨rfl, rfl, rfl⟩
    · exact hs.raiseFault ha _ _ _
    · exact hs.of_frame rfl rfl ⟨rfl, rfl, rfl⟩
    · exact hs.of_not_running (by simp [hL]) (.inl (by simp)) (by simp) fun _ => id
  | lcInstallIsr =>
    obtain ⟨-, rfl | rfl | ⟨-, hL, ⟨e, tp, fr, rfl⟩ | ⟨tp, fr, rfl⟩⟩⟩ := execLcInstallIsr_next h
    · exact hs.of_frame rfl rfl ⟨rfl, rfl, rfl⟩
    · exact hs.raiseFault ha _ _ _
    · exact hs.of_frame rfl rfl ⟨rfl, rfl, rfl⟩
    · exact hs.of_not_running (by simp [hL]) (.inl rfl) rfl fun _ _ => rfl
  | lcPublish =>
    obtain ⟨-, rfl | ⟨r, d, rfl⟩ | ⟨-, hL, -, ⟨e, tp, fr, rfl⟩ | ⟨tp, fr, rfl⟩⟩⟩ := execLcPublish_next h
    · exact hs.of_frame rfl rfl ⟨rfl, rfl, rfl⟩
    · exact hs.raiseFault ha _ _ _
    · exact hs.of_frame (by simp) (by simp) (by simp)
    · exact hs.of_not_running (by simp [hL]) (.inl (by simp)) (by simp) fun _ => id
  | lcEnableIrq =>
    obtain ⟨-, rfl | ⟨r, d, rfl⟩ | ⟨-, -, -, -, -, rfl⟩⟩ := execLcEnableIrq_next h
    · exact hs.of_frame rfl rfl ⟨rfl, rfl, rfl⟩
    · exact hs.raiseFault ha _ _ _
    · exact hs.of_frame (by simp) (by simp) (by simp)
  | lcStart =>
    obtain ⟨-, rfl | ⟨r, d, rfl⟩ | ⟨-, hL, -, -, rfl⟩⟩ := execLcStart_next h
    · exact hs.of_frame rfl rfl ⟨rfl, rfl, rfl⟩
    · exact hs.raiseFault ha _ _ _
    · exact hs.of_not_running (by simp [hL]) (.inl (by simp)) (by simp) fun _ => id
  | lcAbort =>
    obtain ⟨-, rfl | rfl | ⟨e, habort, hidle, rfl⟩⟩ := execLcAbort_next h
    · exact hs.of_frame rfl rfl ⟨rfl, rfl, rfl⟩
    · exact hs.raiseFault ha _ _ _
    · have hrun : s.lc.L ≠ .running := fun hL => by simpa [hL, LcState.mayAbort] using hm.abort (by rw [habort]; rfl)
      refine hs.of_not_running hrun (.inl (by simp)) (by simp) fun hserv hirq => ?_
      rcases hidle with hnone | hidle
      · exact absurd (hnone.symm.trans hirq) Bool.false_ne_true
      · simp [hidle, IsrPc.serving] at hserv
  | lcDetachStop =>
    obtain ⟨-, rfl | ⟨r, d, rfl⟩ | ⟨-, -, -, hfree, -, rfl⟩⟩ := execLcDetachStop_next h
    · exact hs.of_frame rfl rfl ⟨rfl, rfl, rfl⟩
    · exact hs.raiseFault ha _ _ _
    · refine hs.of_detach (fun c hc => ?_) (by simp) (by simp) rfl rfl
      rw [(inUse_eq_false_iff.mp hfree c hc).2]
      rfl
  | lcDetachDisable =>
    obtain ⟨-, rfl | ⟨r, d, rfl⟩ | ⟨-, -, hphase, -, -, rfl⟩⟩ := execLcDetachDisable_next h
    · exact hs.of_frame rfl rfl ⟨rfl, rfl, rfl⟩
    · exact hs.raiseFault ha _ _ _
    · exact hs.of_detach (hs.no_midOperation (by simp [hphase])) (by simp) (by simp) rfl rfl
  | lcDetachRelease =>
    obtain ⟨-, rfl | rfl | ⟨-, -, hphase, hidle, hdrained, rfl⟩⟩ := execLcDetachRelease_next h
    · exact hs.of_frame rfl rfl ⟨rfl, rfl, rfl⟩
    · exact hs.raiseFault ha _ _ _
    · refine ⟨fun d hd => ?_, fun hserv => ?_⟩
      · rw [State.completeLc_callers, State.mapCallers_callers, releaseAll_callers] at hd
        obtain ⟨c, hc, rfl⟩ := List.mem_map.mp hd
        have hmid := hs.no_midOperation (by simp [hphase]) c hc
        exact ⟨fun h => absurd (hmid.symm.trans h) Bool.false_ne_true, fun h => absurd h Bool.false_ne_true,
          fun h => absurd (allDrained_iff.mp hdrained c hc) h⟩
      · simp [hidle, IsrPc.serving] at hserv
  | _ => cases hi

/-- Every operation keeps that the handle is used only while it may be. -/
theorem exec_keeps_useOk (hm : s.lc.Matches s.buf.live) (hs : s.UseOk) (h : exec i s = .next t) : t.UseOk := by
  by_cases ha : s.agent = .lifecycle
  · exact lifecycle_keeps_use ha (ha ▸ Instr.issuedBy_of_exec_next h) hm hs h
  · have hkeeps := exec_keepsHandle ha h
    refine ⟨?_, fun hserv => ?_⟩
    · rw [hkeeps.lc]
      exact exec_keeps_use ha hs.callers h
    · rw [hkeeps.lc]
      exact (hkeeps.isr hserv).elim hs.isr id

end

/-- Settles O54: by the agent of the step. The lifecycle agent moves only where what it takes away is not used
(`lifecycle_keeps_use`); the others begin a use only on a usable handle (`exec_keeps_use`, `exec_keepsHandle`). -/
theorem everyStepKeepsUseUnderTheHandle : Obligations.EveryStepKeepsUseUnderTheHandle := by
  intro s t hres huse h
  rw [resourcesMatch_iff] at hres
  rw [useNeedsHandle_iff] at huse ⊢
  obtain ⟨hcallers, hisr⟩ := huse
  rcases step_next h with rfl | ⟨q, s', i, hf, -, -, he⟩
  · exact ⟨hcallers, hisr⟩
  · obtain ⟨rest, -, rfl⟩ := fetch_frame hf
    obtain ⟨hcallers', hisr'⟩ := exec_keeps_useOk (by exact hres) (by exact ⟨hcallers, hisr⟩) he
    exact ⟨hcallers', hisr'⟩

end Sys2Proof.Machine

/-!
PROOF. The lifecycle's operations (45_lifecycle.md R270 to R284). Each is given as equations of `exec` where it is admitted: an attach
step once for a draw that succeeds and once for one that fails, the steps that write registers as the state after those writes. The
statements then read the fields off; the draws that reach every outcome are chosen at the end.
-/

namespace Sys2Proof.Machine

/-! ### Admission (R283) -/

theorem lcAdmitted_lcMap (s : State) :
    lcAdmitted s .lcMap = lcAt s (s.lc.L == .unattached || s.lc.L == .detached) := rfl

theorem lcAdmitted_lcAllocBuf (s : State) : lcAdmitted s .lcAllocBuf = lcAt s (s.lc.L == .registersMapped) := rfl

theorem lcAdmitted_lcAllocPal (s : State) : lcAdmitted s .lcAllocPal = lcAt s (s.lc.L == .bufferAllocated) := rfl

theorem lcAdmitted_lcInstallIsr (s : State) : lcAdmitted s .lcInstallIsr = lcAt s (s.lc.L == .paletteAllocated) := rfl

theorem lcAdmitted_lcPublish (s : State) : lcAdmitted s .lcPublish = lcAt s (s.lc.L == .interruptArmed) := rfl

theorem lcAdmitted_lcEnableIrq (s : State) :
    lcAdmitted s .lcEnableIrq = lcAt s (s.lc.L == .published && !s.lc.irqEnabled) := Bool.and_assoc ..

theorem lcAdmitted_lcStart (s : State) : lcAdmitted s .lcStart = lcAt s (s.lc.L == .published && s.lc.irqEnabled) :=
  Bool.and_assoc ..

theorem lcAdmitted_lcDetachStop (s : State) :
    lcAdmitted s .lcDetachStop = lcAt s (s.lc.L == .running && s.lc.phase == .none) := Bool.and_assoc ..

theorem lcAdmitted_lcDetachDisable (s : State) :
    lcAdmitted s .lcDetachDisable = lcAt s (s.lc.L == .running && s.lc.phase == .stopped) := Bool.and_assoc ..

theorem lcAdmitted_lcDetachRelease (s : State) :
    lcAdmitted s .lcDetachRelease = lcAt s (s.lc.L == .running && s.lc.phase == .disabled) := Bool.and_assoc ..

/-- The lifecycle agent can be left stuck, so its fault is the one that the statements describe. -/
theorem State.ByLifecycle.takesFault {s : State} (hl : s.ByLifecycle) (i : Instr) (r : FaultReason) (d : Datum) :
    TakesFault i r d s (.next (raiseFault i r d s)) := State.CsrMaster.takesFault (.inl hl) i r d

theorem asLifecycle_takesFault {s : State} {adm : Bool} (i : Instr) (hl : s.ByLifecycle) (ha : adm = false)
    (f : State → State) : TakesFault i .lifecycle .opWord s (asLifecycle i s adm f) := by
  rw [asLifecycle_out i hl ha]
  exact hl.takesFault _ _ _

/-- Settles O42: each operation's guard is its admission condition. -/
theorem lifecycleOutOfStateFaults : Obligations.LifecycleOutOfStateFaults := by
  intro i s hi hne hl ha
  cases i with
  | csrRead off => exact absurd rfl (hne off).1
  | csrWrite off => exact absurd rfl (hne off).2
  | lcMap | lcAllocBuf | lcAllocPal | lcInstallIsr | lcPublish | lcAbort => apply asLifecycle_takesFault _ hl ha
  | lcEnableIrq => apply asLifecycle_takesFault _ hl (lcAdmitted_lcEnableIrq s ▸ ha)
  | lcStart => apply asLifecycle_takesFault _ hl (lcAdmitted_lcStart s ▸ ha)
  | lcDetachStop => apply asLifecycle_takesFault _ hl (lcAdmitted_lcDetachStop s ▸ ha)
  | lcDetachDisable => apply asLifecycle_takesFault _ hl (lcAdmitted_lcDetachDisable s ▸ ha)
  | lcDetachRelease => apply asLifecycle_takesFault _ hl (lcAdmitted_lcDetachRelease s ▸ ha)
  | _ => cases hi

/-! ### Attach steps: the meaning where admitted -/

theorem State.drawResult_cases (s : State) (errs : List Code) :
    s.drawResult errs = none ∨ ∃ e ∈ errs, s.drawResult errs = some e := by
  cases hd : s.drawResult errs with
  | none => exact .inl rfl
  | some e => exact .inr ⟨e, s.drawResult_mem errs e hd, rfl⟩

section

variable {s : State} {e : Code} (hl : s.ByLifecycle)
include hl

theorem exec_lcMap_of_error (ha : lcAdmitted s .lcMap = true) (hd : s.drawResult [.eNomem, .eUnavail] = some e) :
    exec .lcMap s = .next (failAttach e s.drawn) := by
  change execLcMap s = _
  rw [execLcMap, ← lcAdmitted_lcMap, asLifecycle_eq _ hl ha, hd]

theorem exec_lcMap_of_ok (ha : lcAdmitted s .lcMap = true) (hd : s.drawResult [.eNomem, .eUnavail] = none) :
    exec .lcMap s = .next ((freshHandle s.drawn).drawn.completeLc
      { (freshHandle s.drawn).lc with
        regBase := (freshHandle s.drawn).draw, res := { handle := true, regs := true }, L := .registersMapped }) := by
  change execLcMap s = _
  rw [execLcMap, ← lcAdmitted_lcMap, asLifecycle_eq _ hl ha, hd]

theorem exec_lcAllocBuf_of_error (ha : lcAdmitted s .lcAllocBuf = true) (hd : s.drawResult [.eNomem] = some e) :
    exec .lcAllocBuf s = .next (failAttach e s.drawn) := by
  change execLcAllocBuf s = _
  rw [execLcAllocBuf, ← lcAdmitted_lcAllocBuf, asLifecycle_eq _ hl ha, hd]

theorem exec_lcAllocBuf_of_ok (ha : lcAdmitted s .lcAllocBuf = true) (hd : s.drawResult [.eNomem] = none) :
    exec .lcAllocBuf s = .next ((allocBuffer s.drawn).completeLc
      { s.lc with res := { s.lc.res with buf := true }, L := .bufferAllocated }) := by
  change execLcAllocBuf s = _
  rw [execLcAllocBuf, ← lcAdmitted_lcAllocBuf, asLifecycle_eq _ hl ha, hd]

theorem exec_lcAllocPal_of_error (ha : lcAdmitted s .lcAllocPal = true) (hd : s.drawResult [.eNomem] = some e) :
    exec .lcAllocPal s = .next (failAttach e s.drawn) := by
  change execLcAllocPal s = _
  rw [execLcAllocPal, ← lcAdmitted_lcAllocPal, asLifecycle_eq _ hl ha, hd]

theorem exec_lcAllocPal_of_ok (ha : lcAdmitted s .lcAllocPal = true) (hd : s.drawResult [.eNomem] = none) :
    exec .lcAllocPal s = .next ((s.drawn.setPal emptyPalette).completeLc
      { s.lc with res := { s.lc.res with pal := true }, L := .paletteAllocated }) := by
  change execLcAllocPal s = _
  rw [execLcAllocPal, ← lcAdmitted_lcAllocPal, asLifecycle_eq _ hl ha, hd]

theorem exec_lcInstallIsr_of_error (ha : lcAdmitted s .lcInstallIsr = true) (hd : s.drawResult [.eUnavail] = some e) :
    exec .lcInstallIsr s = .next (failAttach e s.drawn) := by
  change execLcInstallIsr s = _
  rw [execLcInstallIsr, ← lcAdmitted_lcInstallIsr, asLifecycle_eq _ hl ha, hd]

theorem exec_lcInstallIsr_of_ok (ha : lcAdmitted s .lcInstallIsr = true) (hd : s.drawResult [.eUnavail] = none) :
    exec .lcInstallIsr s = .next (s.drawn.completeLc
      { s.lc with res := { s.lc.res with irq := true }, L := .interruptArmed }) := by
  change execLcInstallIsr s = _
  rw [execLcInstallIsr, ← lcAdmitted_lcInstallIsr, asLifecycle_eq _ hl ha, hd]

end

/-- A failed attach step that wrote no register leaves everything but the error and the draws. -/
theorem failAttach_drawn_frame (e : Code) (s : State) :
    let t := failAttach e s.drawn
    t.lc = { s.lc with aborting := some e } ∧ SameBuffer s t ∧ t.callers = s.callers ∧ t.history = s.history ∧ t.isr = s.isr
      ∧ t.faults = s.faults ∧ SameDevice s t ∧ SameRun s t := by
  obtain ⟨tp, fr, hd⟩ := s.drawn_eq
  rw [hd]
  exact ⟨rfl, ⟨rfl, rfl, rfl, fun _ => rfl⟩, rfl, rfl, rfl, rfl, ⟨rfl, rfl, rfl⟩, ⟨rfl, rfl, rfl, rfl, rfl⟩⟩

/-- A new handle's record has no byte with a value, no mapping and an empty palette (R284, log entry 35). -/
theorem freshHandle_of_new {s : State} (h : s.lc.L = .detached ∨ s.buf.st = .retired) :
    freshHandle s =
      { s with oldBufs := s.oldBufs ++ [s.buf], buf := {}, pal := emptyPalette,
               callers := s.callers.map (fun c => { c with mapped := false }), lc := { s.lc with irqEnabled := false } } := by
  rw [freshHandle_eq, if_pos h]

theorem freshHandle_of_kept {s : State} (h : ¬ (s.lc.L = .detached ∨ s.buf.st = .retired)) : freshHandle s = s := by
  rw [freshHandle_eq, if_neg h]

/-- Settles O33: the drawn result decides, and a success begins with the handle of `freshHandle`. -/
theorem mapHoldsTheRegistersOrFails : Obligations.MapHoldsTheRegistersOrFails := by
  intro s hl ha
  rcases s.drawResult_cases [.eNomem, .eUnavail] with hd | ⟨e, he, hd⟩
  · refine ⟨_, exec_lcMap_of_ok hl ha hd, .inl ⟨?_, ?_, rfl, ?_⟩, ?_⟩
    · simp [freshHandle_lc]
    · simp
    · split
      next hnew =>
        have hnew' : s.drawn.lc.L = .detached ∨ s.drawn.buf.st = .retired := by simpa using hnew
        rw [freshHandle_of_new hnew']
        simp [State.memByte, Table.read, emptyPalette, paletteEntries]
      next hkept =>
        have hkept' : ¬ (s.drawn.lc.L = .detached ∨ s.drawn.buf.st = .retired) := by simpa using hkept
        rw [freshHandle_of_kept hkept']
        simp [SameBuffer, State.memByte]
    · simp [SameDevice, SameRun]
  · obtain ⟨hlc, hbuf, hcallers, hhist, hisr, hfaults, hdev, hrun⟩ := failAttach_drawn_frame e s
    refine ⟨_, exec_lcMap_of_error hl ha hd, .inr ⟨?_, hbuf, hcallers, hhist⟩, hisr, hfaults, hdev, hrun⟩
    simpa [hlc] using he

/-- Settles O34: a success is `allocBuffer`, whose addresses are lawful (`allocBuffer_eq`). -/
theorem allocBufGivesALawfulBufferOrFails : Obligations.AllocBufGivesALawfulBufferOrFails := by
  intro s hl ha
  rcases s.drawResult_cases [.eNomem] with hd | ⟨e, he, hd⟩
  · obtain ⟨cpu, bus, tp, fr, heq, hcpu, halign, hroom⟩ := allocBuffer_eq s.drawn
    refine ⟨_, exec_lcAllocBuf_of_ok hl ha hd, ?_⟩
    rw [heq]
    exact ⟨.inl ⟨rfl, rfl, halign, hroom, hcpu, fun _ => rfl, by simp, by simp, by simp, by simp, rfl⟩,
      by simp [SameDevice, SameRun]⟩
  · obtain rfl := List.mem_singleton.mp he
    obtain ⟨hlc, hbuf, hcallers, hhist, hrest⟩ := failAttach_drawn_frame .eNomem s
    exact ⟨_, exec_lcAllocBuf_of_error hl ha hd, .inr ⟨hlc, hbuf, hcallers, hhist⟩, hrest⟩

/-- Settles O35: each step's one draw decides between its resource and its error. -/
theorem allocPalAndInstallIsrHoldOrFail : Obligations.AllocPalAndInstallIsrHoldOrFail := by
  intro s hl
  refine ⟨fun ha => ?_, fun ha => ?_⟩
  · rcases s.drawResult_cases [.eNomem] with hd | ⟨e, he, hd⟩
    · exact ⟨_, exec_lcAllocPal_of_ok hl ha hd, .inl ⟨rfl, rfl, by simp, rfl⟩,
        by simp [State.memByte, SameDevice, SameRun]⟩
    · obtain rfl := List.mem_singleton.mp he
      obtain ⟨hlc, ⟨hbuf, hold, hpal, hmem⟩, hcallers, hhist, hrest⟩ := failAttach_drawn_frame .eNomem s
      obtain ⟨hisr, hfaults, hdev, hrun⟩ := hrest
      exact ⟨_, exec_lcAllocPal_of_error hl ha hd, .inr ⟨hlc, hpal, hhist⟩, hbuf, hmem, hold, hcallers, hisr, hfaults, hdev,
        hrun⟩
  · rcases s.drawResult_cases [.eUnavail] with hd | ⟨e, he, hd⟩
    · exact ⟨_, exec_lcInstallIsr_of_ok hl ha hd, .inl ⟨rfl, by simp, rfl⟩,
        by simp [State.memByte, SameBuffer, SameDevice, SameRun]⟩
    · obtain rfl := List.mem_singleton.mp he
      obtain ⟨hlc, hbuf, hcallers, hhist, hisr, hfaults, hdev, hrun⟩ := failAttach_drawn_frame .eUnavail s
      exact ⟨_, exec_lcInstallIsr_of_error hl ha hd, .inr ⟨hlc, hhist⟩, hcallers, hisr, hfaults, hbuf, hdev, hrun⟩

/-! ### Steps that write registers: the writes -/

/-- The lifecycle agent may write every named register of a mapped block (R132). -/
theorem checkAccess_write_register {s : State} {o : Nat} (hm : s.params.regMap.wf = true) (hr : s.lc.res.regs = true)
    (ha : s.agent = .lifecycle) (ho : o ∈ s.params.regMap.offsets) : checkAccess s .write o = none :=
  lifecycle_write_admitted ha hr (RegMap.legal_of_wf hm ho)

theorem csrWriteState_of_lifecycle {s : State} (ha : s.agent = .lifecycle) (off : Nat) (v : Word) :
    csrWriteState s off v = (writeEffect s off v).addEvent (.csr .lifecycle off .write v) := by
  rw [csrWriteState, ha]

section

variable {s : State} {off : Nat} (hsim : s.params.simRegs = false) (ha : s.agent = .lifecycle)
include hsim ha

theorem csrWriteState_at_gie (hreg : regAt s.params.regMap off = .gie) (v : Word) :
    csrWriteState s off v
      = { s with csr := s.csr.storeGie v, history := s.history ++ [.csr .lifecycle off .write v] } := by
  simp only [csrWriteState_of_lifecycle ha, writeEffect, hsim, hreg, Bool.false_eq_true, if_false]
  rfl

theorem csrWriteState_at_ier (hreg : regAt s.params.regMap off = .ier) (v : Word) :
    csrWriteState s off v
      = { s with csr := s.csr.storeIer v, history := s.history ++ [.csr .lifecycle off .write v] } := by
  simp only [csrWriteState_of_lifecycle ha, writeEffect, hsim, hreg, Bool.false_eq_true, if_false]
  rfl

/-- The buffer's own bus address written to `BUF` programs a live buffer (R138). -/
theorem csrWriteState_ownBus (hreg : regAt s.params.regMap off = .buf) :
    csrWriteState s off s.buf.bus =
      { s with
        csr := { s.csr with buf := some s.buf.bus }
        buf := if s.buf.live = true then { s.buf with st := .programmed } else s.buf
        history := s.history ++ [.csr .lifecycle off .write s.buf.bus] } := by
  simp only [csrWriteState_of_lifecycle ha, writeEffect, hsim, hreg, Bool.false_eq_true, if_false, writeBuf_eq,
    ← Buffer.live_iff, if_true]
  rfl

end

/-! ### LC_PUBLISH -/

section

variable {s : State} {e : Code} (hready : s.CsrReady) (hl : s.ByLifecycle) (ha : lcAdmitted s .lcPublish = true)
include hready hl ha

theorem exec_lcPublish_of_error
    (hd : (csrWriteState s s.params.regMap.buf s.buf.bus).drawResult [.eNomem, .eUnavail] = some e) :
    exec .lcPublish s = .next (failAttach e (csrWriteState s s.params.regMap.buf s.buf.bus).drawn) := by
  obtain ⟨hm, hr, -⟩ := hready
  have hc := checkAccess_write_register hm hr hl.1 (o := s.params.regMap.buf) (by simp [RegMap.offsets])
  change execLcPublish s = _
  rw [execLcPublish, ← lcAdmitted_lcPublish, asLifecycle_eq _ hl ha, mmioWrite_of_admitted hc, hd]

theorem exec_lcPublish_of_ok
    (hd : (csrWriteState s s.params.regMap.buf s.buf.bus).drawResult [.eNomem, .eUnavail] = none) :
    exec .lcPublish s = .next ((csrWriteState s s.params.regMap.buf s.buf.bus).drawn.completeLc
      { s.lc with res := { s.lc.res with fbdev := true }, L := .published }) := by
  obtain ⟨hm, hr, -⟩ := hready
  have hc := checkAccess_write_register hm hr hl.1 (o := s.params.regMap.buf) (by simp [RegMap.offsets])
  change execLcPublish s = _
  rw [execLcPublish, ← lcAdmitted_lcPublish, asLifecycle_eq _ hl ha, mmioWrite_of_admitted hc, hd, csrWriteState_lc]

end

/-- Settles O36: the write comes first (`csrWriteState_ownBus`), and then the drawn result decides. -/
theorem publishWritesBufThenRegisters : Obligations.PublishWritesBufThenRegisters := by
  intro s hready hl ha
  have ⟨hm, _, hsim⟩ := hready
  have hwrite := csrWriteState_ownBus hsim hl.1 (regAt_buf hm)
  have hbytes : ∀ a, Memory.read (if s.buf.live = true then { s.buf with st := .programmed } else s.buf).mem a = s.memByte a :=
    fun a => by split <;> rfl
  obtain ⟨tp, fr, hdrawn⟩ := (csrWriteState s s.params.regMap.buf s.buf.bus).drawn_eq
  rcases State.drawResult_cases (csrWriteState s s.params.regMap.buf s.buf.bus) [.eNomem, .eUnavail] with hd | ⟨e, he, hd⟩
  · refine ⟨_, exec_lcPublish_of_ok hready hl ha hd, ?_⟩
    rw [hdrawn, hwrite]
    exact ⟨rfl, rfl, hbytes, .inl ⟨rfl, rfl, List.append_assoc ..⟩, rfl, rfl, rfl, rfl, rfl, rfl, rfl, rfl, rfl, rfl, rfl,
      rfl⟩
  · refine ⟨_, exec_lcPublish_of_error hready hl ha hd, ?_⟩
    rw [hdrawn, hwrite]
    refine ⟨rfl, rfl, hbytes, .inr ⟨?_, rfl⟩, rfl, rfl, rfl, rfl, rfl, rfl, rfl, rfl, rfl, rfl, rfl, rfl⟩
    simp only [List.mem_cons, List.not_mem_nil, or_false] at he
    rcases he with rfl | rfl
    · exact .inl rfl
    · exact .inr rfl

/-! ### LC_ENABLE_IRQ and LC_DETACH_DISABLE -/

/-- `GIE` and then `IER` written in one step (R275, R279). -/
theorem csrWriteState_gie_ier {s : State} (hm : s.params.regMap.wf = true) (hsim : s.params.simRegs = false)
    (ha : s.agent = .lifecycle) (v w : Word) :
    csrWriteState (csrWriteState s s.params.regMap.gie v) s.params.regMap.ier w =
      { s with
        csr := (s.csr.storeGie v).storeIer w
        history := s.history ++ [.csr .lifecycle s.params.regMap.gie .write v, .csr .lifecycle s.params.regMap.ier .write w] } := by
  rw [csrWriteState_at_gie hsim ha (regAt_gie hm)]
  rw [csrWriteState_at_ier (by exact hsim) (by exact ha) (by exact regAt_ier hm), List.append_assoc]
  rfl

/-- Settles O37: both writes are admitted before either is made. -/
theorem enableAndDisableWriteBothEnables : Obligations.EnableAndDisableWriteBothEnables := by
  intro s ⟨hm, hr, hsim⟩ hl
  have hgie := checkAccess_write_register hm hr hl.1 (o := s.params.regMap.gie) (by simp [RegMap.offsets])
  have hier := checkAccess_write_register hm hr hl.1 (o := s.params.regMap.ier) (by simp [RegMap.offsets])
  refine ⟨fun ha => ?_, fun ha => ?_⟩
  · change execLcEnableIrq s = _
    rw [execLcEnableIrq, ← lcAdmitted_lcEnableIrq, asLifecycle_eq _ hl ha, mmioWrite2_of_admitted hgie hier,
      csrWriteState_gie_ier hm hsim hl.1]
    simp only [State.completeLc, returnLifecycle, State.addEvent, State.setLc, State.setRet, List.append_assoc]
    rfl
  · change execLcDetachDisable s = _
    rw [execLcDetachDisable, ← lcAdmitted_lcDetachDisable, asLifecycle_eq _ hl ha, mmioWrite2_of_admitted hgie hier,
      csrWriteState_gie_ier hm hsim hl.1]
    simp only [State.completeLc, returnLifecycle, State.addEvent, State.setLc, State.setRet, List.append_assoc]
    rfl

/-! ### LC_START and LC_DETACH_STOP -/

theorem exec_lcStart_admitted {s : State} (hready : s.CsrReady) (hl : s.ByLifecycle) (ha : lcAdmitted s .lcStart = true) :
    exec .lcStart s = .next ((csrWriteState s s.params.regMap.ctrl ctrlStartCmd).completeLc
      { s.lc with L := .running, phase := .none }) := by
  obtain ⟨hm, hr, -⟩ := hready
  have hc := checkAccess_write_register hm hr hl.1 (o := s.params.regMap.ctrl) (by simp [RegMap.offsets])
  change execLcStart s = _
  rw [execLcStart, ← lcAdmitted_lcStart, asLifecycle_eq _ hl ha, mmioWrite_of_admitted hc, csrWriteState_lc]

theorem storeCtrl_startCmd (c : Csr) : c.storeCtrl ctrlStartCmd = { c with start := true, autoRestart := true } := rfl

/-- The start command leaves every engine running (R134). -/
theorem runAfterCtrl_startCmd (p : StopPolicy) (r : RunState) : runAfterCtrl p ctrlStartCmd r = .running := by
  cases r <;> rfl

/-- The stop command ends a running scan by the policy, and leaves any other engine alone (R134). -/
theorem writeCtrl_stopCmd (s : State) :
    writeCtrl s ctrlStopCmd =
      { s with
        csr := { s.csr with start := false, autoRestart := false }
        dev := if s.dev.run = .running then
            { s.dev with run := if s.params.stopPolicy = .immediate then .idle else .stopping } else s.dev } := by
  rw [writeCtrl_of_not_start fun h => absurd h.2 (by decide)]
  split
  next hrun => rw [hrun]; rfl
  next hrun =>
    have hstays : runAfterCtrl s.params.stopPolicy ctrlStopCmd s.dev.run = s.dev.run := by
      cases h : s.dev.run with
      | running => exact absurd h hrun
      | idle | stopping => rfl
    rw [hstays]
    rfl

/-- Settles O38: the start command is a start of an idle engine (`startScan_eq`), and moves the run state of any other. -/
theorem startRunsTheDevice : Obligations.StartRunsTheDevice := by
  intro s hready hp hl ha
  have ⟨_, _, hsim⟩ := hready
  refine ⟨_, exec_lcStart_admitted hready hl ha, ?_⟩
  rw [csrWriteState_ctrl hsim, hl.1]
  have habort : s.lc.aborting = none := (lcAt_true.mp (lcAdmitted_lcStart s ▸ ha)).1
  by_cases hidle : s.dev.run = .idle
  · obtain ⟨hv, hh⟩ := Params.raster_pos_of_wf hp
    obtain ⟨row, col, frame, tp, fr, heq, hrow, hcol⟩ :=
      startScan_eq (runAfterCtrl s.params.stopPolicy ctrlStartCmd s.dev.run) (s.setCsr (s.csr.storeCtrl ctrlStartCmd))
    rw [writeCtrl_of_start hidle rfl, heq, runAfterCtrl_startCmd, storeCtrl_startCmd]
    exact ⟨rfl, rfl, rfl, fun _ => ⟨hrow hv, hcol hh⟩, fun hne => absurd hidle hne, rfl, by simp [State.fullyInit, habort],
      List.append_assoc .., rfl, rfl, rfl, rfl, rfl, ⟨rfl, rfl, rfl, fun _ => rfl⟩, ⟨rfl, rfl, rfl, rfl, rfl⟩⟩
  · rw [writeCtrl_of_not_start fun h => hidle h.1, runAfterCtrl_startCmd, storeCtrl_startCmd]
    exact ⟨rfl, rfl, rfl, fun h => absurd h hidle, fun _ => rfl, rfl, by simp [State.fullyInit, habort],
      List.append_assoc .., rfl, rfl, rfl, rfl, rfl, ⟨rfl, rfl, rfl, fun _ => rfl⟩, ⟨rfl, rfl, rfl, rfl, rfl⟩⟩

/-- Settles O40: a free device takes the stop command (`writeCtrl_stopCmd`), and one in use the fault. -/
theorem detachStopStopsTheDevice : Obligations.DetachStopStopsTheDevice := by
  intro s hl ha
  refine ⟨fun ⟨hm, hr, hsim⟩ hfree => ?_, fun ⟨c, hc, huse⟩ => ?_⟩
  · have hcheck := checkAccess_write_register hm hr hl.1 (o := s.params.regMap.ctrl) (by simp [RegMap.offsets])
    have hinUse := inUse_eq_false_iff.mpr hfree
    have hwrite := csrWriteState_ctrl hsim ctrlStopCmd
    rw [hl.1, writeCtrl_stopCmd] at hwrite
    change execLcDetachStop s = _
    rw [execLcDetachStop, ← lcAdmitted_lcDetachStop, asLifecycle_eq _ hl ha, hinUse, mmioWrite_of_admitted hcheck, hwrite]
    simp only [State.completeLc, returnLifecycle, State.addEvent, State.setLc, State.setRet, List.append_assoc]
    rfl
  · have hinUse : s.inUse = true := by
      by_contra hfree
      obtain ⟨hq, hp⟩ := inUse_eq_false_iff.mp (by simpa using hfree) c hc
      simp [hq, hp] at huse
    change TakesFault _ _ _ s (execLcDetachStop s)
    rw [execLcDetachStop, ← lcAdmitted_lcDetachStop, asLifecycle_eq _ hl ha, if_pos hinUse]
    exact hl.takesFault _ _ _

/-! ### LC_ABORT and LC_DETACH_RELEASE -/

/-- Settles O39: a hold while an installed ISR runs, and otherwise the release of `releaseAll_eq`. -/
theorem abortReleasesEverything : Obligations.AbortReleasesEverything := by
  intro s e hl he
  have ha : s.lc.aborting.isSome = true := by rw [he]; rfl
  refine ⟨fun hfree => ?_, fun hbusy => ?_⟩
  · have hfree' : ¬ (s.lc.res.irq = true ∧ s.isr.pc ≠ .iIdle) := by
      rcases hfree with h | h <;> simp [h]
    change execLcAbort s = _
    rw [execLcAbort, asLifecycle_eq _ hl ha, if_neg hfree', releaseAll_eq, he]
    rfl
  · change Waits s (execLcAbort s)
    rw [execLcAbort, asLifecycle_eq _ hl ha, if_pos hbusy]
    rfl

/-- Settles O41: a hold until the ISR is idle and every write has drained, and then the release of `releaseAll_eq`. -/
theorem detachReleaseReleasesEverything : Obligations.DetachReleaseReleasesEverything := by
  intro s hl ha
  rw [← allDrained_iff]
  refine ⟨fun hdone => ?_, fun hwait => ?_⟩
  · change execLcDetachRelease s = _
    rw [execLcDetachRelease, ← lcAdmitted_lcDetachRelease, asLifecycle_eq _ hl ha, if_pos hdone, releaseAll_eq]
    rfl
  · change Waits s (execLcDetachRelease s)
    rw [execLcDetachRelease, ← lcAdmitted_lcDetachRelease, asLifecycle_eq _ hl ha, if_neg hwait]
    rfl

/-! ### The draws that reach every outcome (R20, log entry 4) -/

theorem State.drawResult_of_zero {s : State} {tp : List Nat} (h : s.tape = 0 :: tp) (errs : List Code) :
    s.drawResult errs = none := s.drawResult_of_tape errs 0 tp h (Nat.zero_le _)

/-- An error's place in the list, counted from 1, is the draw that gives it. -/
theorem State.exists_draw_of_mem {errs : List Code} {e : Code} (he : e ∈ errs) :
    ∃ n, ∀ s : State, s.tape = [n] → s.drawResult errs = some e := by
  obtain ⟨j, hj, rfl⟩ := List.getElem_of_mem he
  refine ⟨j + 1, fun s h => ?_⟩
  rw [s.drawResult_of_tape errs (j + 1) [] h hj]
  simp [hj]

/-- An allocation with its two draws supplied takes the addresses they give (R162). -/
theorem allocBuffer_buf_of_tape {s : State} {cpu bus : Nat} (h : s.tape = [cpu, bus])
    (hbus : bus < (2 ^ 32 - fbSize) / bytesPerPixel + 1) :
    (allocBuffer s).buf
      = { st := .allocated, cpu := bytesPerPixel * cpu, bus := BitVec.ofNat 32 (bytesPerPixel * bus), mem := [] } := by
  have hfirst : s.draw = cpu := s.draw_of_tape _ _ h
  have hsecond : s.drawn.draw = bus := by rw [s.drawn_of_tape _ _ h]; rfl
  simp only [allocBuffer, State.mapCallers_buf, State.setBuf_buf, hfirst, hsecond, Nat.mod_eq_of_lt hbus]

/-- Some draws make operation `i` succeed, to `l`, and some make it fail with each of its errors. -/
def ReachesOutcomes (s : State) (i : Instr) (l : LcState) (errs : List Code) : Prop :=
  (∃ ds t, exec i { s with tape := ds } = .next t ∧ t.lc.L = l ∧ t.lc.aborting = none)
    ∧ ∀ e ∈ errs, ∃ ds t, exec i { s with tape := ds } = .next t ∧ t.lc = { s.lc with aborting := some e }

/-- An operation whose outcome is the result drawn at the state `u ds`, with all of the draws `ds` left there, reaches each one. -/
theorem ReachesOutcomes.of_drawResult {s : State} {i : Instr} {l : LcState} {errs : List Code} (u : List Nat → State)
    (htape : ∀ ds, (u ds).tape = ds)
    (hok : ∀ ds, (u ds).drawResult errs = none →
      ∃ t, exec i { s with tape := ds } = .next t ∧ t.lc.L = l ∧ t.lc.aborting = none)
    (herr : ∀ ds e, (u ds).drawResult errs = some e →
      ∃ t, exec i { s with tape := ds } = .next t ∧ t.lc = { s.lc with aborting := some e }) :
    ReachesOutcomes s i l errs := by
  refine ⟨⟨[0], hok [0] (State.drawResult_of_zero (htape [0]) errs)⟩, fun e he => ?_⟩
  obtain ⟨n, hn⟩ := State.exists_draw_of_mem he
  exact ⟨[n], herr [n] e (hn (u [n]) (htape [n]))⟩

section

variable {s : State} (hl : s.ByLifecycle)
include hl

theorem lcMap_reaches (ha : lcAdmitted s .lcMap = true) :
    ReachesOutcomes s .lcMap .registersMapped [.eNomem, .eUnavail] := by
  have habort : s.lc.aborting = none := (lcAt_true.mp ha).1
  refine .of_drawResult (fun ds => { s with tape := ds }) (fun _ => rfl) (fun ds hd => ?_) fun ds e hd => ?_
  · exact ⟨_, exec_lcMap_of_ok (by exact hl) (by exact ha) hd, rfl, by simp [freshHandle_lc, habort]⟩
  · exact ⟨_, exec_lcMap_of_error (by exact hl) (by exact ha) hd, by simp⟩

theorem lcAllocBuf_reaches (ha : lcAdmitted s .lcAllocBuf = true) :
    ReachesOutcomes s .lcAllocBuf .bufferAllocated [.eNomem] := by
  have habort : s.lc.aborting = none := (lcAt_true.mp ha).1
  refine .of_drawResult (fun ds => { s with tape := ds }) (fun _ => rfl) (fun ds hd => ?_) fun ds e hd => ?_
  · exact ⟨_, exec_lcAllocBuf_of_ok (by exact hl) (by exact ha) hd, rfl, habort⟩
  · exact ⟨_, exec_lcAllocBuf_of_error (by exact hl) (by exact ha) hd, by simp⟩

theorem lcAllocPal_reaches (ha : lcAdmitted s .lcAllocPal = true) :
    ReachesOutcomes s .lcAllocPal .paletteAllocated [.eNomem] := by
  have habort : s.lc.aborting = none := (lcAt_true.mp ha).1
  refine .of_drawResult (fun ds => { s with tape := ds }) (fun _ => rfl) (fun ds hd => ?_) fun ds e hd => ?_
  · exact ⟨_, exec_lcAllocPal_of_ok (by exact hl) (by exact ha) hd, rfl, habort⟩
  · exact ⟨_, exec_lcAllocPal_of_error (by exact hl) (by exact ha) hd, by simp⟩

theorem lcInstallIsr_reaches (ha : lcAdmitted s .lcInstallIsr = true) :
    ReachesOutcomes s .lcInstallIsr .interruptArmed [.eUnavail] := by
  have habort : s.lc.aborting = none := (lcAt_true.mp ha).1
  refine .of_drawResult (fun ds => { s with tape := ds }) (fun _ => rfl) (fun ds hd => ?_) fun ds e hd => ?_
  · exact ⟨_, exec_lcInstallIsr_of_ok (by exact hl) (by exact ha) hd, rfl, habort⟩
  · exact ⟨_, exec_lcInstallIsr_of_error (by exact hl) (by exact ha) hd, by simp⟩

/-- The write of `BUF` uses no draw (R138), so LC_PUBLISH draws its result after it from all of them. -/
theorem lcPublish_reaches (hready : s.CsrReady) (ha : lcAdmitted s .lcPublish = true) :
    ReachesOutcomes s .lcPublish .published [.eNomem, .eUnavail] := by
  have habort : s.lc.aborting = none := (lcAt_true.mp ha).1
  have ⟨hm, _, hsim⟩ := hready
  refine .of_drawResult (fun ds => csrWriteState { s with tape := ds } s.params.regMap.buf s.buf.bus) (fun ds => ?_)
    (fun ds hd => ?_) fun ds e hd => ?_
  · exact congrArg State.tape (csrWriteState_ownBus (s := { s with tape := ds }) hsim hl.1 (regAt_buf hm))
  · exact ⟨_, exec_lcPublish_of_ok (by exact hready) (by exact hl) (by exact ha) hd, rfl, habort⟩
  · exact ⟨_, exec_lcPublish_of_error (by exact hready) (by exact hl) (by exact ha) hd, by simp⟩

/-- The quarters of two lawful addresses are the draws that allocate them (R162). -/
theorem lcAllocBuf_reaches_addresses (ha : lcAdmitted s .lcAllocBuf = true) {cpu : Nat} {bus : Word} (hcpu : cpu % 4 = 0)
    (hbus : bus.toNat % 4 = 0) (hroom : bus.toNat + fbSize ≤ 2 ^ 32) :
    ∃ ds t, exec .lcAllocBuf { s with tape := ds } = .next t ∧ t.lc.L = .bufferAllocated ∧ t.buf.cpu = cpu
      ∧ t.buf.bus = bus := by
  have hquarter : bus.toNat / 4 < (2 ^ 32 - fbSize) / 4 + 1 := by
    have hsize : fbSize = 1228800 := rfl
    omega
  have hword : BitVec.ofNat 32 (4 * (bus.toNat / 4)) = bus := by
    rw [Nat.mul_div_cancel' (Nat.dvd_of_mod_eq_zero hbus), BitVec.ofNat_toNat, BitVec.setWidth_eq]
  refine ⟨[0, cpu / 4, bus.toNat / 4], _,
    exec_lcAllocBuf_of_ok (by exact hl) (by exact ha) (State.drawResult_of_zero rfl _), rfl, ?_⟩
  rw [State.completeLc_buf, allocBuffer_buf_of_tape rfl hquarter]
  exact ⟨Nat.mul_div_cancel' (Nat.dvd_of_mod_eq_zero hcpu), hword⟩

/-- A base is itself the draw that maps the registers there (R270). -/
theorem lcMap_reaches_base (ha : lcAdmitted s .lcMap = true) (base : Nat) :
    ∃ ds t, exec .lcMap { s with tape := ds } = .next t ∧ t.lc.L = .registersMapped ∧ t.lc.regBase = base := by
  refine ⟨[0, base], _, exec_lcMap_of_ok (by exact hl) (by exact ha) (State.drawResult_of_zero rfl _), rfl, ?_⟩
  exact State.draw_of_tape _ base [] (by simp [State.drawn])

/-- A position and a frame id are the three draws of a start there (R134). -/
theorem lcStart_reaches_position (hready : s.CsrReady) (ha : lcAdmitted s .lcStart = true) (hidle : s.dev.run = .idle)
    {row col : Nat} (frame : BitVec 12) (hrow : row < s.params.vTotal) (hcol : col < s.params.hTotal) :
    ∃ ds t, exec .lcStart { s with tape := ds } = .next t ∧ t.dev.row = row ∧ t.dev.col = col ∧ t.dev.frame = frame := by
  have ⟨_, _, hsim⟩ := hready
  refine ⟨[row, col, frame.toNat], _, exec_lcStart_admitted (by exact hready) (by exact hl) (by exact ha), ?_⟩
  rw [csrWriteState_ctrl (by exact hsim), writeCtrl_of_start (by exact hidle) rfl,
    startScan_of_tape _ _ row col frame.toNat rfl (by exact hrow) (by exact hcol)]
  exact ⟨rfl, rfl, (BitVec.ofNat_toNat 12 frame).trans (BitVec.setWidth_eq frame)⟩

end

/-- Settles O43: an attach step's result is its first draw (`ReachesOutcomes.of_drawResult`), and each value drawn besides has a
draw of its own. -/
theorem attachDrawsReachEveryOutcome : Obligations.AttachDrawsReachEveryOutcome := by
  intro s hl
  refine ⟨fun r hr hready ha => ?_, fun cpu bus ha hcpu hbus hroom => lcAllocBuf_reaches_addresses hl ha hcpu hbus hroom,
    fun base ha => lcMap_reaches_base hl ha base,
    fun row col frame hready ha hidle hrow hcol => lcStart_reaches_position hl hready ha hidle frame hrow hcol⟩
  simp only [List.mem_cons, List.not_mem_nil, or_false] at hr
  rcases hr with rfl | rfl | rfl | rfl | rfl
  · exact lcMap_reaches hl ha
  · exact lcAllocBuf_reaches hl ha
  · exact lcAllocPal_reaches hl ha
  · exact lcInstallIsr_reaches hl ha
  · exact lcPublish_reaches hl (hready rfl) ha

end Sys2Proof.Machine

/-!
PROOF. The scan engine (46_scan_engine.md R311 to R315). DEV_ADVANCE is given once as an equation of `exec` for each of its cases: a
blanked position, an admitted scanout read, a refused one. Both of the cases that go on end in `advancePos`, so what the position
step does and keeps is stated about any state that differs from the first in `scanWord`, the history and the draws; the draws that
reach a scanned word and a frame id are chosen at the end.
-/

namespace Sys2Proof.Machine

/-! ### DEV_LATCH, and an engine that takes no step -/

/-- An idle or stuck engine takes no step (R311, R315). -/
theorem asScanning_waits {s : State} (ha : s.agent = .device) (hs : ¬ s.ByScanner) (f : State → State) :
    Waits s (asScanning s f) := by
  have hoff : ¬ (s.dev.run ≠ .idle ∧ s.dev.stuck = false) := fun h => hs ⟨ha, h⟩
  simp only [Waits, asScanning, ha, if_neg hoff, hold, State.setRet]

/-- Settles O45: the guard of both operations is `ByScanner`, and a latch is `Csr.latch` of the packed position. -/
theorem latchPublishesThePosition : Obligations.LatchPublishesThePosition := by
  intro s ha
  refine ⟨fun hs => ?_, fun hs => ⟨?_, ?_⟩⟩
  · change execDevLatch s = _
    rw [execDevLatch, asScanning_eq hs]
    rfl
  · change Waits s (execDevAdvance s)
    exact asScanning_waits ha hs _
  · change Waits s (execDevLatch s)
    exact asScanning_waits ha hs _

/-! ### The cases of DEV_ADVANCE -/

theorem visible_iff {row col : Nat} : visible row col = true ↔ 45 ≤ row ∧ 160 ≤ col := by simp [visible]

/-- The scanout offset in the order of the statements. -/
theorem scanOffset_eq (row col : Nat) : scanOffset row col = 4 * ((row - 45) * 640 + (col - 160)) := by
  rw [scanOffset, pixelOffset, Nat.mul_comm hActive]

section

variable {s : State} (hs : s.ByScanner)
include hs

/-- Outside the visible region nothing is read (R311). -/
theorem exec_devAdvance_blanked (hv : s.dev.row < 45 ∨ s.dev.col < 160) : exec .devAdvance s = .next (advancePos s) := by
  have hblank : ¬ visible s.dev.row s.dev.col = true := by rw [visible_iff]; omega
  change execDevAdvance s = _
  rw [execDevAdvance, asScanning_eq hs, if_neg hblank]

/-- Inside, the position's word is read through `BUF` (R311, R313). -/
theorem exec_devAdvance_visible (hv : 45 ≤ s.dev.row ∧ 160 ≤ s.dev.col) :
    exec .devAdvance s
      = .next (scanoutRead .devAdvance (4 * ((s.dev.row - 45) * 640 + (s.dev.col - 160))) s advancePos) := by
  change execDevAdvance s = _
  rw [execDevAdvance, asScanning_eq hs, if_pos (visible_iff.mpr hv), scanOffset_eq]

variable (hv : 45 ≤ s.dev.row ∧ 160 ≤ s.dev.col)
include hv

theorem exec_devAdvance_of_live {base b : Word} (hb : s.csr.buf = some base)
    (hsum : b = base + BitVec.ofNat 32 (4 * ((s.dev.row - 45) * 640 + (s.dev.col - 160))))
    (hl : scanoutLive s base b = true) : exec .devAdvance s = .next (advancePos (scanoutState s b)) := by
  rw [exec_devAdvance_visible hs hv]
  simp only [scanoutRead, hb, ← hsum, if_pos hl]

theorem exec_devAdvance_takesFault_of_not_live {base b : Word} (hb : s.csr.buf = some base)
    (hsum : b = base + BitVec.ofNat 32 (4 * ((s.dev.row - 45) * 640 + (s.dev.col - 160))))
    (hl : ¬ scanoutLive s base b = true) :
    TakesFault .devAdvance .dmaNotLive (.bus (some b)) s (exec .devAdvance s) := by
  rw [exec_devAdvance_visible hs hv]
  simp only [scanoutRead, hb, ← hsum, if_neg hl]
  exact takesFault_raiseFault (.inr (.inr (.inr hs.1)))

theorem exec_devAdvance_takesFault_of_no_base (hb : s.csr.buf = none) :
    TakesFault .devAdvance .dmaNotLive (.bus none) s (exec .devAdvance s) := by
  rw [exec_devAdvance_visible hs hv]
  simp only [scanoutRead, hb]
  exact takesFault_raiseFault (.inr (.inr (.inr hs.1)))

end

/-! ### The position step (R311, R312) -/

section

variable {s : State}

theorem advancePos_within_line (hr : s.ScanInRange) (hc : s.dev.col + 1 < s.params.hTotal) :
    advancePos s = s.setDev { s.dev with col := s.dev.col + 1 } := by
  have hcol : s.dev.col + 1 ≠ s.params.hTotal := hc.ne
  have hrow : s.dev.row ≠ s.params.vTotal := hr.1.ne
  simp [advancePos, nextRow, nextCol, hcol, hrow]

theorem advancePos_end_of_line (hc : s.dev.col + 1 = s.params.hTotal) (hr : s.dev.row + 1 < s.params.vTotal) :
    advancePos s = s.setDev { s.dev with col := 0, row := s.dev.row + 1 } := by
  have hrow : s.dev.row + 1 ≠ s.params.vTotal := hr.ne
  simp [advancePos, nextRow, nextCol, hc, hrow]

theorem advancePos_end_of_frame (hc : s.dev.col + 1 = s.params.hTotal) (hr : s.dev.row + 1 = s.params.vTotal) :
    advancePos s = frameBoundary (s.setDev { s.dev with col := 0, row := 0 }) := by
  simp [advancePos, nextRow, nextCol, hc, hr]

end

/-- The position step after a scan of the word `w`. -/
theorem advancePos_advanced {s u : State} {w : Word} (hr : s.ScanInRange) (hdev : u.dev = { s.dev with scanWord := w })
    (hcsr : u.csr = s.csr) (hparams : u.params = s.params) : Advanced s (advancePos u) w := by
  have hu : u.ScanInRange := by rw [State.ScanInRange, hdev, hparams]; exact hr
  unfold Advanced
  split
  next hc =>
    rw [advancePos_within_line hu (by rwa [hdev, hparams]), State.setDev_dev, State.setDev_csr, hdev, hcsr]
    exact ⟨rfl, rfl⟩
  next hc =>
    have hcol : s.dev.col + 1 = s.params.hTotal := by obtain ⟨-, hlt⟩ := hr; omega
    split
    next hrow =>
      rw [advancePos_end_of_line (by rwa [hdev, hparams]) (by rwa [hdev, hparams]), State.setDev_dev, State.setDev_csr, hdev,
        hcsr]
      exact ⟨rfl, rfl⟩
    next hrow =>
      have hlast : s.dev.row + 1 = s.params.vTotal := by obtain ⟨hlt, -⟩ := hr; omega
      rw [advancePos_end_of_frame (by rwa [hdev, hparams]) (by rwa [hdev, hparams])]
      obtain ⟨f, tp, fr, hstep, hf⟩ := frameBoundary_eq (u.setDev { u.dev with col := 0, row := 0 })
      rw [hstep]
      refine ⟨?_, fun hinc => ?_, ?_⟩
      · simp [hdev]
      · have hnext := hf (by rwa [State.setDev_params, hparams])
        simpa [hdev] using hnext
      · simp [hcsr, Csr.raiseFrame]

/-- The position step keeps the word last scanned. -/
@[simp] theorem advancePos_scanWord (s : State) : (advancePos s).dev.scanWord = s.dev.scanWord := by
  unfold advancePos
  split
  · obtain ⟨f, hf⟩ := frameBoundary_dev (s.setDev { s.dev with col := nextCol s, row := 0 })
    rw [hf]
    rfl
  · rfl

/-- Where the frame id does not increment, the next draw is the one after the frame boundary (R312, D14). -/
theorem advancePos_frame_of_tape {s : State} (hinc : s.params.frameIdIncrements = false)
    (hc : s.dev.col + 1 = s.params.hTotal) (hr : s.dev.row + 1 = s.params.vTotal) {n : Nat} {tp : List Nat}
    (ht : s.tape = n :: tp) : (advancePos s).dev.frame = BitVec.ofNat 12 n := by
  rw [advancePos_end_of_frame hc hr]
  simp [frameBoundary, nextFrame, hinc, State.draw, ht]

/-! ### What a scan leaves unchanged -/

/-- What no scan changes, whether it reads or not. -/
def ScanKeeps (s t : State) : Prop :=
  t.callers = s.callers ∧ t.sim = s.sim ∧ t.faults = s.faults ∧ SameBuffer s t ∧ SameControl s t ∧ SameRun s t

theorem advancePos_scanKeeps (s : State) : ScanKeeps s (advancePos s) := by
  simp [ScanKeeps, SameBuffer, SameControl, SameRun, State.memByte]

theorem advancePos_scanoutState_scanKeeps (s : State) (b : Word) : ScanKeeps s (advancePos (scanoutState s b)) := by
  simp [ScanKeeps, SameBuffer, SameControl, SameRun, State.memByte]

/-! ### The word scanned -/

/-- Byte `j` of the word that a list of bytes spells (R73). -/
theorem extractLsb'_ofBytes {bs : List Byte} {j : Nat} {v : Byte} (hj : j < 4) (hb : bs[j]? = some v) :
    (ofBytes bs).extractLsb' (8 * j) 8 = v := by
  apply BitVec.eq_of_getLsbD_eq
  intro i hi
  have hdiv : (8 * j + i) / 8 = j := by omega
  have hmod : (8 * j + i) % 8 = i := by omega
  rw [BitVec.getLsbD_extractLsb', getLsbD_ofBytes bs (by omega), hdiv, hmod, List.getD_eq_getElem?_getD, hb]
  simp [hi]

/-- The four bytes of a word spell it. -/
theorem ofBytes_bytesOf (w : Word) : ofBytes (bytesOf 4 w) = w := by
  apply BitVec.eq_of_getLsbD_eq
  intro i hi
  have hbit : 8 * (i / 8) + i % 8 = i := Nat.div_add_mod i 8
  rw [getLsbD_ofBytes _ hi, List.getD_eq_getElem?_getD, (bytesOf_get 4 w).2 (i / 8) (by omega), Option.getD_some,
    BitVec.getLsbD_extractLsb', hbit]
  simp [Nat.mod_lt]

/-- The word `w` has every byte that the buffer has a value for at the bus address `b` (R84, R313). -/
def ScanAgrees (s : State) (b w : Word) : Prop :=
  ∀ j v, j < 4 → s.memByte (b.toNat - s.buf.bus.toNat + j) = some v → w.extractLsb' (8 * j) 8 = v

/-- A scanout read leaves in `scanWord` a word that agrees with the buffer. -/
theorem scanoutState_agrees (s : State) (b : Word) :
    ∃ w, (scanoutState s b).dev = { s.dev with scanWord := w } ∧ ScanAgrees s b w := by
  obtain ⟨w, tp, fr, hstep, bs, rfl, -, hbytes⟩ := scanoutState_eq s b
  exact ⟨_, by rw [hstep], fun j v hj hm => extractLsb'_ofBytes hj (hbytes j v hj hm)⟩

/-! ### The draws that reach every scanned word and frame id (R20, log entry 4) -/

/-- Some draws make a scanout read return any bytes that agree with the buffer's. -/
theorem scanBytes_reaches {s : State} (off : Nat) (bs : List Byte)
    (h : ∀ (j : Nat) b v, bs[j]? = some b → s.memByte (off + j) = some v → b = v) :
    ∃ ds, ∀ tp, scanBytes off bs.length { s with tape := ds ++ tp } = (bs, { s with tape := tp }) := by
  induction bs generalizing off with
  | nil => exact ⟨[], fun tp => rfl⟩
  | cons b bs ih =>
    have hfirst : ∃ ds, ∀ tp, scanByte { s with tape := ds ++ tp } off = (b, { s with tape := tp }) := by
      have hmem : ∀ tp, State.memByte { s with tape := tp } off = s.memByte off := fun _ => rfl
      cases hm : s.memByte off with
      | some v => exact ⟨[], fun tp => by simp [scanByte, hmem, hm, h 0 b v rfl hm]⟩
      | none => exact ⟨[b.toNat], fun tp => by simp [scanByte, hmem, hm, State.draw, State.drawn]⟩
    obtain ⟨ds, hd⟩ := hfirst
    obtain ⟨es, he⟩ := ih (off + 1) fun j x v hj hm =>
      h (j + 1) x v (by simpa using hj) (by rwa [show off + (j + 1) = off + 1 + j by omega])
    exact ⟨ds ++ es, fun tp => by simp only [List.length_cons, scanBytes, List.append_assoc, hd, he]⟩

/-- Some draws make a scanout read leave any word that agrees with the buffer in `scanWord`, and no other draw is used. -/
theorem scanoutState_reaches {s : State} {b w : Word} (h : ScanAgrees s b w) :
    ∃ ds, ∀ tp, scanoutState { s with tape := ds ++ tp } b
      = { s with tape := tp, dev := { s.dev with scanWord := w }, history := s.history ++ [.scanout b] } := by
  obtain ⟨hlen, hget⟩ := bytesOf_get 4 w
  obtain ⟨ds, hds⟩ := scanBytes_reaches (b.toNat - s.buf.bus.toNat) (bytesOf 4 w) fun j x v hx hm => by
    have hj : j < 4 := hlen ▸ (List.getElem?_eq_some_iff.mp hx).1
    rw [hget j hj] at hx
    exact (Option.some.inj hx).symm.trans (h j v hj hm)
  rw [hlen] at hds
  exact ⟨ds, fun tp => by simp only [scanoutState, hds, ofBytes_bytesOf]; rfl⟩

/-- Where some draws scan the word `w` and leave the rest to the position step, one more draw is the frame id. -/
theorem scanDrawn_of_advancePos {s u : State} {w : Word} {ds : List Nat} (hdev : u.dev = { s.dev with scanWord := w })
    (hparams : u.params = s.params)
    (hexec : ∀ tp, exec .devAdvance { s with tape := ds ++ tp } = .next (advancePos { u with tape := tp })) :
    ScanDrawn s w := by
  intro frame
  refine ⟨ds ++ [frame.toNat], _, hexec [frame.toNat], ?_, fun hinc hc hr => ?_⟩
  · rw [advancePos_scanWord]
    exact congrArg Device.scanWord hdev
  · rw [advancePos_frame_of_tape (by rwa [hparams]) (by rwa [hdev, hparams]) (by rwa [hdev, hparams]) rfl,
      BitVec.ofNat_toNat, BitVec.setWidth_eq]

section

variable {s : State} (hs : s.ByScanner)
include hs

theorem scanDrawn_of_blanked (hv : s.dev.row < 45 ∨ s.dev.col < 160) : ScanDrawn s s.dev.scanWord :=
  scanDrawn_of_advancePos (u := s) (ds := []) rfl rfl fun tp => exec_devAdvance_blanked (s := { s with tape := tp }) hs hv

theorem scanDrawn_of_live (hv : 45 ≤ s.dev.row ∧ 160 ≤ s.dev.col) {base b w : Word} (hb : s.csr.buf = some base)
    (hsum : b = base + BitVec.ofNat 32 (4 * ((s.dev.row - 45) * 640 + (s.dev.col - 160))))
    (hl : scanoutLive s base b = true) (hw : ScanAgrees s b w) : ScanDrawn s w := by
  obtain ⟨ds, hds⟩ := scanoutState_reaches hw
  refine scanDrawn_of_advancePos (ds := ds)
    (u := { s with dev := { s.dev with scanWord := w }, history := s.history ++ [.scanout b] }) rfl rfl fun tp => ?_
  rw [exec_devAdvance_of_live (s := { s with tape := ds ++ tp }) hs hv hb hsum hl, hds tp]

end

/-- Settles O44: one equation of `exec` for each case, the position step of `advancePos_advanced`, and the draws of
`scanDrawn_of_blanked` and `scanDrawn_of_live`. -/
theorem advanceScansOnePosition : Obligations.AdvanceScansOnePosition := by
  intro s hs hr
  refine ⟨fun hv => ⟨⟨_, exec_devAdvance_blanked hs hv, ?_, ?_, advancePos_scanKeeps s⟩, scanDrawn_of_blanked hs hv⟩,
    fun hv => ⟨fun base hb => ⟨fun hok => ?_, fun hok => ?_⟩, exec_devAdvance_takesFault_of_no_base hs hv⟩⟩
  · exact advancePos_advanced hr rfl rfl rfl
  · exact advancePos_history s
  · have hlive := (scanoutLive_iff s base _).mpr hok
    obtain ⟨w, hdev, hagrees⟩ := scanoutState_agrees s
      (base + BitVec.ofNat 32 (4 * ((s.dev.row - 45) * 640 + (s.dev.col - 160))))
    refine ⟨⟨w, _, exec_devAdvance_of_live hs hv hb rfl hlive, ?_, by simp, hagrees, advancePos_scanoutState_scanKeeps s _⟩,
      fun w hw => scanDrawn_of_live hs hv hb rfl hlive hw⟩
    exact advancePos_advanced hr hdev (scanoutState_csr s _) (scanoutState_params s _)
  · exact exec_devAdvance_takesFault_of_not_live hs hv hb rfl (mt (scanoutLive_iff s base _).mp hok)

/-! ### A programmed buffer (R313, R376) -/

/-- A visible position's word lies inside the buffer, so its address is a sum without wrap and the read is admitted. -/
theorem scanoutLive_of_programmed {s : State} (hlaw : s.BusLawful) (hst : s.buf.st = .programmed) {off : Nat}
    (hoff : off + 4 ≤ fbSize) :
    (s.buf.bus + BitVec.ofNat 32 off).toNat = s.buf.bus.toNat + off
      ∧ scanoutLive s s.buf.bus (s.buf.bus + BitVec.ofNat 32 off) = true := by
  have hlive : s.buf.live = true := Buffer.live_iff.mpr (.inr hst)
  have hroom := (hlaw.1 hlive).2
  have hsum : (s.buf.bus + BitVec.ofNat 32 off).toNat = s.buf.bus.toNat + off := by
    rw [BitVec.toNat_add, BitVec.toNat_ofNat, Nat.mod_eq_of_lt (a := off) (by omega), Nat.mod_eq_of_lt (by omega)]
  exact ⟨hsum, (scanoutLive_iff _ _ _).mpr ⟨hlive, by omega, by omega, fun _ => rfl⟩⟩

/-- Settles O46: the last visible position's word is the buffer's last, so `scanoutLive_of_programmed` admits every read. -/
theorem programmedScanoutNeverFaults : Obligations.ProgrammedScanoutNeverFaults := by
  intro s t hlaw hst hr hrows hcols hs ht
  by_cases hv : 45 ≤ s.dev.row ∧ 160 ≤ s.dev.col
  · have hoff : 4 * ((s.dev.row - 45) * 640 + (s.dev.col - 160)) + 4 ≤ fbSize := by
      have hsize : fbSize = 1228800 := rfl
      obtain ⟨hrow, hcol⟩ := hr
      omega
    obtain ⟨hsum, hlive⟩ := scanoutLive_of_programmed hlaw hst hoff
    rw [exec_devAdvance_of_live hs hv (hlaw.2 hst) rfl hlive] at ht
    cases ht
    exact ⟨by simp, fun _ => ⟨_, hsum, by simp⟩⟩
  · rw [exec_devAdvance_blanked hs (by omega)] at ht
    cases ht
    exact ⟨advancePos_faults s, fun h => absurd h hv⟩

end Sys2Proof.Machine

/-!
PROOF. The consumer interface (47_consumer_interface.md R340 to R345). Every operation is `asConsumer` of its work: elsewhere
than at `C_IDLE` it waits, and on a handle that is not fully initialized it takes `UNINIT`. Otherwise it ends in `returnCaller`,
which for an idle caller writes the caller's record, the history and the returned value (`State.afterCaller`).
-/

namespace Sys2Proof.Machine

/-! ### The guard (R340) -/

theorem asConsumer_takesFault {s : State} {k : Nat} {c : Caller} (i : Instr) (hk : s.ByCaller k c) (hpc : c.pc = .cIdle)
    (hinit : s.fullyInit = false) (f : Nat → Caller → State → State) : TakesFault i .uninit .opWord s (asConsumer i s f) :=
  asCallerAt_takesFault hk hpc (if_neg (by rw [hinit]; exact Bool.false_ne_true))

/-- Settles O47: the guard of all seven operations is `asConsumer`. -/
theorem consumersNeedFullInitialization : Obligations.ConsumersNeedFullInitialization := by
  intro i s k c hi hk hpc hinit
  rcases hi with rfl | rfl | rfl | rfl | ⟨idx, rfl⟩ | rfl | rfl
  all_goals apply asConsumer_takesFault _ hk hpc hinit

/-! ### Returning to an idle caller (R370) -/

/-- Draws and a caller's step of its own record leave everything else alone. -/
theorem State.withDraws_afterCaller_same (s : State) (tp : List Nat) (fr k : Nat) (c : Caller) (es : List Event) (r : Ret) :
    let t := (s.withDraws tp fr).afterCaller k c es r
    t.faults = s.faults ∧ SameDevice s t ∧ SameBuffer s t ∧ SameControl s t ∧ SameRun s t :=
  ⟨rfl, ⟨rfl, rfl, rfl⟩, ⟨rfl, rfl, rfl, fun _ => rfl⟩, ⟨rfl, rfl⟩, ⟨rfl, rfl, rfl, rfl, rfl⟩⟩

section

variable {s : State} {k : Nat} {c : Caller} (hc : s.callers[k]? = some c)
include hc

/-- A return leaves a caller that is at `C_IDLE` there. -/
theorem returnCaller_modCaller_of_idle {f : Caller → Caller} (hpc : (f c).pc = .cIdle) (r : Result) :
    returnCaller k r (s.modCaller k f)
      = s.afterCaller k { f c with outcome := r.codeOf } [.ret (.caller k) r] (.result r) := by
  rw [returnCaller_modCaller_eq_afterCaller hc, ← hpc]

theorem returnCaller_of_idle (hpc : c.pc = .cIdle) (r : Result) :
    returnCaller k r s = s.afterCaller k { c with outcome := r.codeOf } [.ret (.caller k) r] (.result r) := by
  rw [returnCaller_eq_afterCaller hc, ← hpc]

end

/-! ### FB_READ (R341) -/

/-- Settles O48: the bytes are those of `loadBytes_eq`, of the clipped length. -/
theorem fbReadReturnsClippedBytes : Obligations.FbReadReturnsClippedBytes := by
  intro s k c hk
  refine ⟨fun hpc => by apply asConsumer_elsewhere _ hk hpc, fun hpc hinit => ?_⟩
  obtain ⟨bs, tp, fr, hload, hlen, hallowed⟩ := loadBytes_eq c s.opnd.off (clip s.opnd.off s.opnd.n) s
  have hexec := exec_fbRead_of_fullyInit hk hpc hinit
  rw [hload, returnCaller_of_idle (by exact hk.2) hpc] at hexec
  exact ⟨bs, _, hexec, hlen, hallowed, rfl, rfl, rfl, s.withDraws_afterCaller_same tp fr k _ _ _⟩

/-! ### FB_WRITE (R342) -/

@[simp] theorem byteEntries_length (off : Nat) (bs : List Byte) : (byteEntries off bs).length = bs.length := by
  induction bs generalizing off with
  | nil => rfl
  | cons b bs ih => rw [byteEntries, List.length_cons, ih, List.length_cons]

/-- Each byte is an entry of its own, at the next offset. -/
theorem byteEntries_getElem? (off : Nat) (bs : List Byte) (j : Nat) :
    (byteEntries off bs)[j]? = bs[j]?.map fun b => { off := off + j, bytes := [b] } := by
  induction bs generalizing off j with
  | nil => rfl
  | cons b bs ih =>
    cases j with
    | zero => rfl
    | succ j => rw [byteEntries, List.getElem?_cons_succ, List.getElem?_cons_succ, ih, Nat.add_right_comm, Nat.add_assoc]

/-- The entries that FB_WRITE appends and the result that it returns. -/
def fbWritten (o : Operands) : List WcEntry × Result :=
  if o.bytes = [] then ([], .count 0)
  else if fbSize ≤ o.off then ([], .code .eNospc)
  else (byteEntries o.off (o.bytes.take (clip o.off o.bytes.length)), .count (clip o.off o.bytes.length))

theorem exec_fbWrite_of_fullyInit {s : State} {k : Nat} {c : Caller} (hk : s.ByCaller k c) (hpc : c.pc = .cIdle)
    (hinit : s.fullyInit = true) :
    exec .fbWrite s
      = .next (s.afterCaller k { c with wc := c.wc ++ (fbWritten s.opnd).1, outcome := (fbWritten s.opnd).2.codeOf }
          [.ret (.caller k) (fbWritten s.opnd).2] (.result (fbWritten s.opnd).2)) := by
  change execFbWrite s = _
  rw [execFbWrite, asConsumer_eq _ hk hpc, if_pos hinit, fbWritten]
  simp only [List.isEmpty_iff]
  split
  next => rw [returnCaller_of_idle hk.2 hpc, List.append_nil]
  next =>
    split
    next => rw [returnCaller_of_idle hk.2 hpc, List.append_nil]
    next => rw [returnCaller_modCaller_of_idle hk.2 (by exact hpc)]

/-- Settles O49: the three cases of `fbWritten`, of which only the last has entries (`byteEntries_getElem?`). -/
theorem fbWriteAppendsClippedBytes : Obligations.FbWriteAppendsClippedBytes := by
  intro s k c hk
  refine ⟨fun hpc => by apply asConsumer_elsewhere _ hk hpc, fun hpc hinit => ?_⟩
  refine ⟨_, _, _, exec_fbWrite_of_fullyInit hk hpc hinit, ?_, rfl, rfl, rfl,
    s.withDraws_afterCaller_same s.tape s.fresh k _ _ _⟩
  rw [fbWritten]
  split
  next => exact ⟨rfl, rfl⟩
  next =>
    split
    next => exact ⟨rfl, rfl⟩
    next =>
      have hlen : (s.opnd.bytes.take (clip s.opnd.off s.opnd.bytes.length)).length
          = clip s.opnd.off s.opnd.bytes.length :=
        List.length_take_of_le (min_le_left _ _)
      refine ⟨rfl, (byteEntries_length _ _).trans hlen, fun j b hj hb => ?_⟩
      rw [byteEntries_length, hlen] at hj
      rw [byteEntries_getElem?, List.getElem?_take_of_lt hj, hb, Option.map_some]

/-! ### FB_MMAP (R343) -/

theorem exec_fbMmap_of_fullyInit {s : State} {k : Nat} {c : Caller} (hk : s.ByCaller k c) (hpc : c.pc = .cIdle)
    (hinit : s.fullyInit = true) :
    exec .fbMmap s
      = .next (if s.opnd.len = 0 ∨ fbSize < s.opnd.len then returnCaller k (.code .eInval) s
          else returnCaller k (.code .ok) (s.modCaller k fun x => { x with mapped := true })) := by
  change execFbMmap s = _
  rw [execFbMmap, asConsumer_eq _ hk hpc, if_pos hinit]

/-- Settles O50: the two cases of `exec_fbMmap_of_fullyInit`, each one change of the caller's record. -/
theorem fbMmapGrantsTheBuffer : Obligations.FbMmapGrantsTheBuffer := by
  intro s k c hk
  refine ⟨fun hpc => by apply asConsumer_elsewhere _ hk hpc, fun hpc hinit => ?_⟩
  have hsize : fbSize = 1228800 := rfl
  rw [exec_fbMmap_of_fullyInit hk hpc hinit]
  refine ⟨fun hin => ?_, fun hout => ?_⟩
  · rw [if_neg (by omega), returnCaller_modCaller_of_idle hk.2 (by exact hpc)]
    rfl
  · rw [if_pos (by omega), returnCaller_of_idle hk.2 hpc]
    rfl

/-! ### FB_CHECK_VAR (R344) -/

theorem varAccepted_iff (v : Var) :
    varAccepted v = true ↔ v.xres = 640 ∧ v.yres = 480 ∧ v.bitsPerPixel = 32 ∧ v.xoffset = 0 ∧ v.yoffset = 0
      ∧ v.interlaced = false ∧ v.xresVirtual ≤ 640 ∧ v.yresVirtual ≤ 480 := by
  simp [varAccepted, and_assoc]

theorem exec_fbCheckVar_of_fullyInit {s : State} {k : Nat} {c : Caller} (hk : s.ByCaller k c) (hpc : c.pc = .cIdle)
    (hinit : s.fullyInit = true) :
    exec .fbCheckVar s
      = .next (if varAccepted s.opnd.var then returnCaller k (.geometry (varGranted s.opnd.var)) s
          else returnCaller k (.code .eInval) s) := by
  change execFbCheckVar s = _
  rw [execFbCheckVar, asConsumer_eq _ hk hpc, if_pos hinit]

/-- Settles O51: the geometry accepted is the one of `varAccepted_iff`. -/
theorem checkVarAcceptsOneGeometry : Obligations.CheckVarAcceptsOneGeometry := by
  intro s k c hk
  refine ⟨fun hpc => by apply asConsumer_elsewhere _ hk hpc, fun hpc hinit => ?_⟩
  rw [exec_fbCheckVar_of_fullyInit hk hpc hinit]
  refine ⟨fun hok => ?_, fun hbad => ?_⟩
  · rw [if_pos ((varAccepted_iff _).mpr hok), returnCaller_of_idle hk.2 hpc]
    rfl
  · rw [if_neg (mt (varAccepted_iff _).mp hbad), returnCaller_of_idle hk.2 hpc]
    rfl

/-! ### FB_SETCOLREG (R345) -/

theorem exec_fbSetcolreg_of_fullyInit {s : State} {k : Nat} {c : Caller} (idx : BitVec 8) (hk : s.ByCaller k c)
    (hpc : c.pc = .cIdle) (hinit : s.fullyInit = true) :
    exec (.fbSetcolreg idx) s
      = .next (if paletteEntries ≤ idx.toNat then returnCaller k (.code .eInval) s
          else returnCaller k (.code .ok) (s.setPal (s.pal.set idx.toNat
            (some (Config.packColor s.opnd.red s.opnd.green s.opnd.blue s.opnd.transp))))) := by
  change execFbSetcolreg idx s = _
  rw [execFbSetcolreg, asConsumer_eq _ hk hpc, if_pos hinit]

/-- Settles O52: the palette has 16 entries, and the write of one leaves every caller's record to the return. -/
theorem setcolregWritesOneEntry : Obligations.SetcolregWritesOneEntry := by
  intro s k c idx hk
  refine ⟨fun hpc => by apply asConsumer_elsewhere _ hk hpc, fun hpc hinit => ?_⟩
  have hentries : paletteEntries = 16 := rfl
  rw [exec_fbSetcolreg_of_fullyInit idx hk hpc hinit]
  refine ⟨fun hin => ?_, fun hout => ?_⟩
  · rw [if_neg (by omega), returnCaller_of_idle (by exact hk.2) hpc]
    rfl
  · rw [if_pos (by omega), returnCaller_of_idle hk.2 hpc]
    rfl

end Sys2Proof.Machine
